-- ==== Sys2Proof/Word.lean ====
section
/-! DEFINITION. The word types of the block: bytes, 32-bit registers, 16-bit device addresses. -/

namespace Sys2Proof

/-- One byte of the Buffer Memory, of a mailbox or of a packed buffer. -/
abbrev Byte := BitVec 8

/-- A 32-bit register of a port: `CMD`, `OP[i]`, `RS[i]` (10_state.md R21, R22, R24). -/
abbrev Word := BitVec 32

/-- A 16-bit device address or station address (20_memory.md R72, 10_state.md R29). -/
abbrev DevAddr := BitVec 16

end Sys2Proof
end

