-- ==== Sys2Proof/Machine/Bytes.lean ====
section
/-! DEFINITION. Bits and bytes: little-endian numbers (20_memory.md R60, 00_scope.md R14), slices of byte
sequences, and the narrow field mask, merge and extract (40_codec.md R144, R145, R146). -/

namespace Sys2Proof.Machine

/-- `LE_n(v)`: the `n` bytes of `v mod 2^(8n)`, least significant first (00_scope.md R14). -/
def leBytes : Nat → Nat → List Byte
  | 0, _ => []
  | n + 1, v => BitVec.ofNat 8 v :: leBytes n (v / 256)

/-- `fromLE(bytes)`: the natural number whose little-endian bytes they are (00_scope.md R14). -/
def fromLE : List Byte → Nat
  | [] => 0
  | b :: bs => b.toNat + 256 * fromLE bs

/-- The bytes `bs[off .. off+n-1]`. -/
def slice (bs : List Byte) (off n : Nat) : List Byte := (bs.drop off).take n

/-- Byte `i` of a sequence. -/
def byteAt (bs : List Byte) (i : Nat) : Byte := bs.getD i 0

/-- `buf[off ..] <- bs`: the sequence `buf` with `bs` written over it from `off` on; the length of `buf`
does not change. -/
def splice : List Byte → Nat → List Byte → List Byte
  | [], _, _ => []
  | b :: buf, 0, [] => b :: buf
  | _ :: buf, 0, x :: xs => x :: splice buf 0 xs
  | b :: buf, n + 1, xs => b :: splice buf n xs

/-- `n` zero bytes. -/
def zeros (n : Nat) : List Byte := List.replicate n 0

/-- The sequence cut or padded with zeros to exactly `n` bytes. -/
def fitBytes (n : Nat) (bs : List Byte) : List Byte := (bs ++ zeros (n - bs.length)).take n

/-- The mask of a field, `((1 << bit_width) - 1) << bit_offset` (40_codec.md R144). -/
def fieldMask (off wid : Nat) : Nat := ((1 <<< wid) - 1) <<< off

/-- The narrow merge `byte |= (value << bit_offset) & mask` (40_codec.md R145, R163). -/
def mergeByte (old : Byte) (off wid v : Nat) : Byte :=
  BitVec.ofNat 8 (old.toNat ||| ((v <<< off) &&& fieldMask off wid))

/-- The narrow extract `(byte & mask) >> bit_offset` (40_codec.md R146, R168). -/
def extractByte (b : Byte) (off wid : Nat) : Nat := (b.toNat &&& fieldMask off wid) >>> off

end Sys2Proof.Machine
end

