-- ==== Sys2Proof/Config.lean ====
section
/-! DEFINITION. What is fixed for one block and what the spec leaves free: the types of the two ROMs
(10_state.md R32 to R34), the parameters 00_scope.md R10 leaves open, and the free values of the
registers the spec calls unspecified. -/

namespace Sys2Proof

/-- The field kinds of 30_encoding.md R99; codes 7..15 are reserved and never in a valid layout. -/
inductive Kind where
  | uint
  | bool
  | enum
  | struct
  | bytes
  | skip
  | zst
  | reserved (code : Nat)
deriving DecidableEq, Repr, Inhabited

/-- A field descriptor of the Layout ROM (10_state.md R33). The widths of its ROM fields (16, 3, 16,
4, 4, 8 bits) are the bounds of `fieldFits` in `Machine/Layout.lean`. -/
structure FieldDesc where
  /-- `B`: byte index of the field's first byte. -/
  b : Nat
  /-- `OFF`: bit offset of the field in byte `B`. -/
  off : Nat
  /-- `W`: width on the wire, in bits. -/
  w : Nat
  kind : Kind
  /-- `TS`: for UINT the value type's size in bytes. -/
  ts : Nat
  /-- `REF`: for ENUM the Enum ROM id, for STRUCT the nested Layout ROM id. -/
  ref : Nat
deriving DecidableEq, Repr, Inhabited

/-- A Layout ROM entry (10_state.md R32); `K` is the length of `fields`. -/
structure LayoutEntry where
  valid : Bool
  /-- `N`: the struct's byte size. -/
  n : Nat
  fields : List FieldDesc
deriving DecidableEq, Repr, Inhabited

/-- One variant of an enum: its primary discriminant and its alternates (10_state.md R34). -/
structure Variant where
  prim : Nat
  alts : List Nat
deriving DecidableEq, Repr, Inhabited

/-- An Enum ROM entry (10_state.md R34); `V` is the length of `variants`. -/
structure EnumEntry where
  valid : Bool
  /-- `U`: the underlying width in bytes. -/
  u : Nat
  variants : List Variant
deriving DecidableEq, Repr, Inhabited

/-- The two ROMs (10_state.md R32, R34). No command writes them (20_memory.md R80). -/
structure Roms where
  layouts : List LayoutEntry
  enums : List EnumEntry
deriving DecidableEq, Repr, Inhabited

/-- The parameters of 00_scope.md R10 that are not the length of a list of State. They are carried in
State, which no step changes them in, so that a statement about every state is a statement about
every value of them. DESIGN CHOICE, log 2; the values at reset are unsafe. -/
structure Params where
  /-- `BM_SIZE`: OPEN, at least 64, at most 2^32. -/
  bmSize : Nat
  /-- `MAX_MBX_LEN`: OPEN, at least 16, at most 65535. -/
  maxMbxLen : Nat
  /-- `CHECK_RESPONSE_TOGGLE`: OPEN. -/
  checkToggle : Bool
  /-- `ABORT_BEFORE_VALIDATE`: a parameter with the default false. -/
  abortFirst : Bool
deriving DecidableEq, Repr, Inhabited

/-- The SDO transfer states of 10_state.md R28. -/
inductive XState where
  | idle
  | requestSent
  | responseReceived
  | segmentedContinue
  | complete
  | aborted
  | failed
deriving DecidableEq, Repr, Inhabited

namespace Config

/-- Which unspecified register a free value stands for. -/
inductive FreeName where
  | curCnt | toggle | offset | segCnt | txBuf | rxBuf
  | station | wAddr | wLen | wSm | rAddr | rLen | rSm
deriving DecidableEq, Repr

/-- FREE VALUE: what an unspecified register of `w` bits holds, drawn with a counter (log 5, log 6).
It has no body, so no proof can lean on its value. -/
opaque freeBits : FreeName → (w : Nat) → Nat → BitVec w

/-- FREE VALUE: byte `i` of an unspecified byte buffer, drawn with a counter (log 6). -/
opaque freeByte : FreeName → Nat → Nat → Byte

/-- FREE VALUE: the transfer state register `XS` when it is unspecified (log 6). -/
opaque freeXs : Nat → XState

/-- The enum `E_STATE` of 30_encoding.md R121: Init, PreOp, Bootstrap, SafeOp, Op. -/
def eState : EnumEntry :=
  { valid := true, u := 1, variants := [⟨1, []⟩, ⟨2, []⟩, ⟨3, []⟩, ⟨4, []⟩, ⟨8, []⟩] }

/-- The layout `L_AL` of 30_encoding.md R121, the AL control/status word. -/
def lAl : LayoutEntry :=
  { valid := true, n := 2, fields :=
    [ { b := 0, off := 0, w := 4, kind := .enum, ts := 0, ref := 0 },
      { b := 0, off := 4, w := 1, kind := .bool, ts := 0, ref := 0 },
      { b := 0, off := 6, w := 1, kind := .bool, ts := 0, ref := 0 } ] }

/-- The enum `E_X` of 95_test_vectors.md: variant 0 has an alternate. -/
def eX : EnumEntry :=
  { valid := true, u := 1, variants := [⟨0x00, [0xFF]⟩, ⟨0x01, []⟩] }

/-- The layout `L_W` of 95_test_vectors.md. -/
def lW : LayoutEntry :=
  { valid := true, n := 4, fields :=
    [ { b := 0, off := 0, w := 16, kind := .uint, ts := 2, ref := 0 },
      { b := 2, off := 0, w := 4, kind := .uint, ts := 1, ref := 0 },
      { b := 2, off := 4, w := 1, kind := .bool, ts := 0, ref := 0 },
      { b := 0, off := 0, w := 0, kind := .skip, ts := 0, ref := 0 },
      { b := 3, off := 0, w := 8, kind := .bytes, ts := 0, ref := 0 } ] }

/-- The ROM contents at reset: the common configuration of 95_test_vectors.md. DESIGN CHOICE, log 3. -/
def commonRoms : Roms := { layouts := [lAl, lW], enums := [eState, eX] }

/-- The parameter values at reset. DESIGN CHOICE, log 2. -/
def resetParams : Params :=
  { bmSize := 0x1000, maxMbxLen := 128, checkToggle := false, abortFirst := false }

/-- `NPORTS` at reset. DESIGN CHOICE, log 2. -/
def resetPorts : Nat := 2

/-- `NSLAVES` at reset. DESIGN CHOICE, log 2. -/
def resetSlaves : Nat := 8

end Config

end Sys2Proof
end

