-- ==== Sys2Proof/Machine/State.lean ====
section
/-! DEFINITION. The state of the block as plain data (spec/10_state.md), the events the environment can
hand it, the errors a command can complete with, and the state right after reset. -/

namespace Sys2Proof.Machine

/-- The Buffer Memory as (address, byte) pairs in canonical form: addresses strictly rising, no entry
equal to what an unlisted address reads as (`Memory.wf` in `Machine/Ops.lean`). -/
abbrev Memory := List Host.Cell

/-- The errors a command can complete with, each with the information R313 shows (60_exceptions.md R311,
R313). -/
inductive Err where
  | bufferTooShort
  | readBufferTooShort
  | invalidValue
  /-- `MailboxTimeout`, with the station address. -/
  | mailboxTimeout (st : DevAddr)
  /-- `SdoAborted`, with the raw abort code and the command's index and sub-index. -/
  | sdoAborted (code : BitVec 32) (idx : BitVec 16) (sub : BitVec 8)
  /-- `SdoResponseInvalid`, with the command's index and sub-index. -/
  | sdoResponseInvalid (idx : BitVec 16) (sub : BitVec 8)
  /-- `StateTransitionError`, with the raw AL status code. -/
  | stateTransition (code : BitVec 16)
  | notSupported
  | timeout
  /-- `TransportError`, with the Transport's error code. -/
  | transport (t : BitVec 32)
  | illegalAddress
  | illegalCommand
  /-- `Unspecified`, with the reason id of R318. -/
  | unspecified (reason : BitVec 32)
deriving DecidableEq, Repr, Inhabited

/-- A port's `STAT` register (10_state.md R25); bits 7:3 and 31:20 are reserved and read as 0, so they
have no storage (`Stat.word` in `Machine/Flags.lean` is the 32-bit view). -/
structure Stat where
  busy : Bool
  done : Bool
  err : Bool
  ecode : BitVec 8
  xstate : BitVec 4
deriving DecidableEq, Repr, Inhabited

/-- What a command writes when it completes: `RS`, `STAT.ECODE` and `STAT.XSTATE` (R24, R25, R312). -/
structure Completion where
  rs : Vector Word 4
  ecode : BitVec 8
  xstate : BitVec 4
deriving DecidableEq, Repr, Inhabited

/-- Which request an SDO command's exchange carries: SDWR's download, SDRD's initiate upload, or a
segment of an upload whose initiate request carried the counter `first` (42_sdo.md R241, R250, R255). -/
inductive Phase where
  | download
  | initiate
  | segment (first : BitVec 3)
deriving DecidableEq, Repr, Inhabited

/-- The steps of the exchange `EXCH` (41_mailbox.md R220), one per Transport operation. -/
inductive ExchStep where
  | drainStatus
  | drainRead
  | acquire
  | send
  | await
  | receive
deriving DecidableEq, Repr, Inhabited

/-- The micro-state `m` of a BUSY port (10_state.md R23): which atomic step of its command comes next. -/
inductive Micro where
  /-- The command has started and none of its steps has run. -/
  | start
  /-- MDRN: the status read, then the read that discards the mailbox (R212). -/
  | drainStatus
  | drainRead
  /-- MACQ: the poll loop (R211). -/
  | acquire
  /-- MSND: the Transport write of the message read from `BM` (R214). -/
  | send (msg : List Byte)
  /-- MAWT: the poll loop, the mailbox read, the copy to `BM` (R213). -/
  | await
  | receive
  | store
  /-- SDWR, SDRD: the counter step before a request (R206); `val` is SDWR's value (R241). -/
  | counter (ph : Phase) (val : List Byte)
  /-- SDWR, SDRD: a step of the exchange (R220). -/
  | exch (ph : Phase) (k : ExchStep)
  /-- SDRD: the copy of `n` payload bytes from `RXBUF[src..]`, of an expedited (`kind = 0`) or normal
  (`kind = 1`) upload (R253, R254). -/
  | payload (kind : BitVec 32) (src n : Nat)
  /-- SDRD: the copy of a segment's `k` bytes (R255). -/
  | chunk (first : BitVec 3) (k : Nat)
  /-- ALRQ: the control write, then the status code read (43_al_gate.md R291). -/
  | alControl
  | alCode
  /-- ALWT: the poll loop (R292). -/
  | alPoll
  /-- Every step but the completion has run; the completion step writes these results (R312, R366). -/
  | finish (c : Completion)
deriving DecidableEq, Repr, Inhabited

/-- The FSM state `PST` of a port (10_state.md R23). The command `c` of `BUSY(c, m)` is what the port's
`CMD` decodes to: `CMD` cannot change while the port is BUSY (R370). -/
inductive Pst where
  | idle
  | busy (m : Micro)
deriving DecidableEq, Repr, Inhabited

/-- The hidden registers of a port (10_state.md R26). -/
structure Hidden where
  /-- `CUR_CNT`: the counter the current request carries. -/
  curCnt : BitVec 3
  /-- `TOGGLE`. -/
  toggle : BitVec 1
  /-- `OFFSET`: bytes accumulated into the destination. -/
  offset : BitVec 32
  /-- `SEGCNT`: segments received. -/
  segCnt : BitVec 32
  /-- `TXBUF`: the 16-byte request being sent. -/
  txBuf : List Byte
  /-- `RXBUF`: `MAX_MBX_LEN` bytes, the last mailbox content read in its first `R_LEN`. -/
  rxBuf : List Byte
  /-- `XS`: the SDO transfer state (R28). -/
  xs : XState
deriving DecidableEq, Repr, Inhabited

/-- One command port (10_state.md R21 to R26). -/
structure Port where
  cmd : Word
  op : Vector Word 8
  rs : Vector Word 4
  stat : Stat
  pst : Pst
  hid : Hidden
deriving DecidableEq, Repr, Inhabited

/-- One Slave Table entry (10_state.md R29). -/
structure Slave where
  cfg : Bool
  station : DevAddr
  wAddr : DevAddr
  wLen : BitVec 16
  wSm : BitVec 8
  rAddr : DevAddr
  rLen : BitVec 16
  rSm : BitVec 8
  cnt : BitVec 3
deriving DecidableEq, Repr, Inhabited

/-- A Transport operation (20_memory.md R66). -/
inductive TransportOp where
  /-- `TRd(st, reg, n)`. -/
  | read (st reg : DevAddr) (n : Nat)
  /-- `TWr(st, reg, bytes)`. -/
  | write (st reg : DevAddr) (bytes : List Byte)
deriving DecidableEq, Repr, Inhabited

/-- The Transport's answer to an operation (20_memory.md R66): `Ok(bytes)` or `Err(t)`. -/
inductive Answer where
  | ok (bytes : List Byte)
  | err (t : BitVec 32)
deriving DecidableEq, Repr, Inhabited

/-- What the environment draws for one step of a port (00_scope.md R14): whether a poll's timeout fires
at this iteration, and the Transport's answer if the step makes an operation. A step uses the part its
rule names (log 8). -/
structure Draw where
  timeout : Bool
  answer : Answer
deriving DecidableEq, Repr, Inhabited

/-- One thing that happens next: a host access, a reset or loader action, or an atomic step of a port
with the environment's draw for it (10_state.md R20, 20_memory.md R75; log 1). -/
inductive Event where
  /-- The host writes `OP[i]` of port `p` (10_state.md R22). -/
  | hostOp (p : Nat) (i : Fin 8) (v : Word)
  /-- The host writes `CMD` of port `p` (R21). -/
  | hostCmd (p : Nat) (w : Word)
  /-- The host writes the bytes `bs` to `BM` from address `a` on (R35). -/
  | hostBm (a : Nat) (bs : List Byte)
  /-- Block reset is asserted (70_reset_and_hazards.md R350, R351). -/
  | assertReset
  /-- Reset is released (R355 step 2). -/
  | releaseReset
  /-- The loader writes Layout ROM entry `lid` from its header and descriptor words (R355 step 1,
  30_encoding.md R98). -/
  | loadLayout (lid : Nat) (hdr : Word) (descs : List (BitVec 64))
  /-- The loader writes Enum ROM entry `eid` (R355 step 1). -/
  | loadEnum (eid : Nat) (e : EnumEntry)
  /-- Port `p` takes its next atomic step with the draw `d`. -/
  | port (p : Nat) (d : Draw)
deriving DecidableEq, Repr, Inhabited

/-- The whole state. The lengths of `ports`, `slaves`, `roms.layouts` and `roms.enums` are the parameters
`NPORTS`, `NSLAVES`, `NLAYOUTS` and `NENUMS` of 00_scope.md R10. -/
structure State where
  /-- The remaining OPEN parameters (R10); no step writes them. -/
  params : Params
  /-- The Layout ROM and Enum ROM (10_state.md R32 to R34). -/
  roms : Roms
  /-- The reset line: true while reset is asserted (log 16). -/
  inReset : Bool
  /-- The ports (10_state.md R21 to R26). -/
  ports : List Port
  /-- The Slave Table (R29). -/
  slaves : List Slave
  /-- The Buffer Memory `BM` (R35). -/
  bm : Memory
  /-- The model's own: the events still to come (log 1). -/
  agenda : List Event
  /-- The model's own: the port whose step runs (log 20). -/
  active : Nat
  /-- The model's own: the environment's draw for the running step (log 8). -/
  draw : Draw
  /-- The model's own: every Transport operation with its answer, newest first, the one total order of
  20_memory.md R76 (log 9). -/
  wire : List (TransportOp × Answer)
  /-- The model's own: the counter the free values are drawn with (log 6). -/
  freeCtr : Nat
deriving DecidableEq, Repr, Inhabited

/-- Why the machine can stop with a fault. -/
inductive Fault where
  /-- Raised by the meaning of a command that takes several steps, when the port's micro-state is none of
  that command's. No state that a run from a state meeting `State.Inv` reaches has one
  (log 12). Safe: the model stops where no rule of the spec applies. -/
  | microStateMismatch
deriving DecidableEq, Repr

/-- Why the machine can refuse a command. -/
inductive Refusal where
  /-- Raised by `exec` for a command that has no meaning in the model yet; none is left. Safe. -/
  | notModelled (mnemonic : String)
deriving DecidableEq, Repr

/-- What a step or a meaning answers. -/
abbrev Result := Host.Outcome State Fault Refusal

/-- `STAT` after reset: every field 0 (10_state.md R25, R38). -/
def Stat.reset : Stat := { busy := false, done := false, err := false, ecode := 0, xstate := 0 }

/-- The hidden registers at power-on: 0 where the spec leaves them unspecified. DESIGN CHOICE, log 6. -/
def Hidden.reset (maxMbxLen : Nat) : Hidden :=
  { curCnt := 0, toggle := 0, offset := 0, segCnt := 0, txBuf := List.replicate 16 0,
    rxBuf := List.replicate maxMbxLen 0, xs := .idle }

/-- A port after reset (10_state.md R38). -/
def Port.reset (maxMbxLen : Nat) : Port :=
  { cmd := 0, op := Vector.replicate 8 0, rs := Vector.replicate 4 0, stat := Stat.reset, pst := .idle,
    hid := Hidden.reset maxMbxLen }

/-- A Slave Table entry after reset: `CFG = 0`, `CNT = 1` (10_state.md R38); the unspecified fields are
0 at power-on. DESIGN CHOICE, log 5. -/
def Slave.reset : Slave :=
  { cfg := false, station := 0, wAddr := 0, wLen := 0, wSm := 0, rAddr := 0, rLen := 0, rSm := 0,
    cnt := 1 }

/-- The machine right after reset (10_state.md R38, 70_reset_and_hazards.md R350), with the parameter
values of log 2 and the ROM contents of log 3. -/
def State.reset : State :=
  { params := Config.resetParams
    roms := Config.commonRoms
    inReset := false
    ports := List.replicate Config.resetPorts (Port.reset Config.resetParams.maxMbxLen)
    slaves := List.replicate Config.resetSlaves Slave.reset
    bm := []
    agenda := []
    active := 0
    draw := { timeout := false, answer := .ok [] }
    wire := []
    freeCtr := 0 }

end Sys2Proof.Machine
end

