-- ==== Sys2Proof/Machine/Flags.lean ====
section
/-! DEFINITION. The `STAT` register, the error codes and the error information (10_state.md R25,
60_exceptions.md R311 to R313, 10_state.md R28). -/

namespace Sys2Proof.Machine

/-- `STAT` as the 32-bit register the host reads; the reserved bits read as 0 (10_state.md R25). -/
def Stat.word (st : Stat) : Word :=
  (0#12 ++ st.xstate ++ st.ecode ++ 0#5 ++ BitVec.ofBool st.err ++ BitVec.ofBool st.done
    ++ BitVec.ofBool st.busy : BitVec (12 + 4 + 8 + 5 + 1 + 1 + 1))

/-- `STAT` when a command starts (10_state.md R25). -/
def Stat.started : Stat := { busy := true, done := false, err := false, ecode := 0, xstate := 0 }

/-- `STAT` when a command completes: `BUSY <- 0`, `DONE <- 1`, `ERR <- (ECODE != 0)` (R25). -/
def Completion.stat (c : Completion) : Stat :=
  { busy := false, done := true, err := c.ecode != 0, ecode := c.ecode, xstate := c.xstate }

/-- The code of an SDO transfer state in `STAT.XSTATE` (10_state.md R28). -/
def xstateCode : XState → BitVec 4
  | .idle => 0
  | .requestSent => 1
  | .responseReceived => 2
  | .segmentedContinue => 3
  | .complete => 4
  | .aborted => 5
  | .failed => 6

/-- The 8-bit error code shown in `STAT.ECODE` (60_exceptions.md R311). -/
def Err.code : Err → BitVec 8
  | .bufferTooShort => 0x01
  | .readBufferTooShort => 0x02
  | .invalidValue => 0x03
  | .mailboxTimeout _ => 0x04
  | .sdoAborted _ _ _ => 0x05
  | .sdoResponseInvalid _ _ => 0x06
  | .stateTransition _ => 0x07
  | .notSupported => 0x08
  | .timeout => 0x09
  | .transport _ => 0x0A
  | .illegalAddress => 0x0D
  | .illegalCommand => 0x0E
  | .unspecified _ => 0x0F

/-- The error information in `RS[0..3]` (60_exceptions.md R313). -/
def Err.info : Err → Vector Word 4
  | .mailboxTimeout st => #v[st.setWidth 32, 0, 0, 0]
  | .sdoAborted code idx sub => #v[code, idx.setWidth 32, sub.setWidth 32, 0]
  | .sdoResponseInvalid idx sub => #v[0, idx.setWidth 32, sub.setWidth 32, 0]
  | .stateTransition code => #v[code.setWidth 32, 0, 0, 0]
  | .transport t => #v[t, 0, 0, 0]
  | .unspecified reason => #v[reason, 0, 0, 0]
  | .bufferTooShort => #v[0, 0, 0, 0]
  | .readBufferTooShort => #v[0, 0, 0, 0]
  | .invalidValue => #v[0, 0, 0, 0]
  | .notSupported => #v[0, 0, 0, 0]
  | .timeout => #v[0, 0, 0, 0]
  | .illegalAddress => #v[0, 0, 0, 0]
  | .illegalCommand => #v[0, 0, 0, 0]

/-- The terminal transfer state an error ends an SDO command in (42_sdo.md R240): `Aborted` for
`SdoAborted`, `Failed` for every other error. -/
def Err.terminal : Err → XState
  | .sdoAborted _ _ _ => .aborted
  | .bufferTooShort => .failed
  | .readBufferTooShort => .failed
  | .invalidValue => .failed
  | .mailboxTimeout _ => .failed
  | .sdoResponseInvalid _ _ => .failed
  | .stateTransition _ => .failed
  | .notSupported => .failed
  | .timeout => .failed
  | .transport _ => .failed
  | .illegalAddress => .failed
  | .illegalCommand => .failed
  | .unspecified _ => .failed

/-- What `raise E(info)` writes (60_exceptions.md R312); `sdo` says whether the command is SDWR or SDRD,
which alone set `XSTATE`. -/
def Completion.ofErr (sdo : Bool) (e : Err) : Completion :=
  { rs := e.info, ecode := e.code, xstate := if sdo then xstateCode e.terminal else 0 }

/-- What a successful command other than SDWR and SDRD writes (10_state.md R24, R25). -/
def Completion.ok (rs : Vector Word 4) : Completion := { rs := rs, ecode := 0, xstate := 0 }

/-- What a successful SDWR or SDRD writes: `XSTATE` is `Complete` (42_sdo.md R240). -/
def Completion.sdoOk (rs : Vector Word 4) : Completion :=
  { rs := rs, ecode := 0, xstate := xstateCode .complete }

end Sys2Proof.Machine
end

