-- ==== Sys2Proof/Machine/Ops.lean ====
section
/-! DEFINITION. The operations every meaning is written with: `BM`, a port's registers, completion and
`raise` (60_exceptions.md R312), the Slave Table and the counter step (41_mailbox.md R205), and the
Transport (20_memory.md R66). -/

namespace Sys2Proof.Machine

/-! ## Buffer Memory -/

/-- What a `BM` byte nothing has written reads as. The spec leaves it unspecified (10_state.md R35).
DESIGN CHOICE, log 4, unsafe. -/
def Memory.blank : Byte := 0

/-- `BM[a]` (00_scope.md R14). -/
def Memory.read : Memory → Nat → Byte
  | [], _ => Memory.blank
  | (k, v) :: rest, a => if k = a then v else Memory.read rest a

/-- A cell put in front of a memory, unless it holds what an unlisted address reads as. -/
def Memory.cons (a : Nat) (b : Byte) (m : Memory) : Memory :=
  if b = Memory.blank then m else (a, b) :: m

/-- `BM[a] <- b`, keeping the canonical form. -/
def Memory.write : Memory → Nat → Byte → Memory
  | [], a, b => Memory.cons a b []
  | (k, v) :: rest, a, b =>
    if a < k then Memory.cons a b ((k, v) :: rest)
    else if a = k then Memory.cons a b rest
    else (k, v) :: Memory.write rest a b

/-- `MemRead(a, n)` (00_scope.md R14). -/
def Memory.readRange (m : Memory) (a : Nat) : Nat → List Byte
  | 0 => []
  | n + 1 => m.read a :: Memory.readRange m (a + 1) n

/-- `MemWrite(a, n, bytes)` (00_scope.md R14), `n` the number of bytes. -/
def Memory.writeRange (m : Memory) (a : Nat) : List Byte → Memory
  | [] => m
  | b :: bs => Memory.writeRange (m.write a b) (a + 1) bs

/-- The canonical form from address `lo` on: addresses strictly rising, no cell holds the byte an
unlisted address reads as. -/
def Memory.wfFrom (lo : Nat) : Memory → Bool
  | [] => true
  | (k, v) :: rest => decide (lo ≤ k) && (v != Memory.blank) && Memory.wfFrom (k + 1) rest

/-- The canonical form of a memory. -/
def Memory.wf (m : Memory) : Bool := Memory.wfFrom 0 m

/-- Every listed address exists: it is below `BM_SIZE`. -/
def Memory.below (size : Nat) (m : Memory) : Bool := m.all fun c => decide (c.1 < size)

/-! ## The running port -/

/-- The port whose step runs. -/
def State.port (s : State) : Port := s.ports.getD s.active default

/-- The state with the running port replaced. -/
def State.setPort (s : State) (p : Port) : State := { s with ports := s.ports.set s.active p }

/-- The micro-state of the running port; a port that is not BUSY is about to start (log 11). -/
def State.micro (s : State) : Micro :=
  match s.port.pst with
  | .idle => .start
  | .busy m => m

/-- The running port goes on to micro-state `m`. -/
def State.goto (s : State) (m : Micro) : State := s.setPort { s.port with pst := .busy m }

/-- The hidden registers of the running port. -/
def State.hid (s : State) : Hidden := s.port.hid

/-- The state with the running port's hidden registers replaced. -/
def State.setHid (s : State) (h : Hidden) : State := s.setPort { s.port with hid := h }

/-- The state with the running port's `XS` set (42_sdo.md R240). -/
def State.setXs (s : State) (x : XState) : State := s.setHid { s.hid with xs := x }

/-- The hidden registers when they are unspecified: free values drawn with the number `k`
(10_state.md R26; log 6). -/
def Hidden.free (maxMbxLen k : Nat) : Hidden :=
  { curCnt := Config.freeBits .curCnt 3 k
    toggle := Config.freeBits .toggle 1 k
    offset := Config.freeBits .offset 32 k
    segCnt := Config.freeBits .segCnt 32 k
    txBuf := (List.range 16).map (Config.freeByte .txBuf k)
    rxBuf := (List.range maxMbxLen).map (Config.freeByte .rxBuf k)
    xs := Config.freeXs k }

/-! ## Completion -/

/-- The completion step (10_state.md R24, R25, R26; 60_exceptions.md R312): `RS` and `STAT` are written,
the port returns to `IDLE`, and its hidden registers become unspecified. -/
def State.complete (s : State) (c : Completion) : State :=
  { s.setPort { s.port with
      rs := c.rs
      stat := c.stat
      pst := .idle
      hid := Hidden.free s.params.maxMbxLen s.freeCtr }
    with freeCtr := s.freeCtr + 1 }

/-- `raise E(info)` (60_exceptions.md R312) in a command other than SDWR and SDRD. -/
def State.raise (s : State) (e : Err) : State := s.complete (Completion.ofErr false e)

/-- `raise E(info)` in SDWR or SDRD, which also set `XSTATE` (60_exceptions.md R312). -/
def State.raiseSdo (s : State) (e : Err) : State := s.complete (Completion.ofErr true e)

/-- The command ends successfully with these results, in this step. -/
def State.succeed (s : State) (r0 r1 r2 r3 : Word) : State :=
  s.complete (Completion.ok #v[r0, r1, r2, r3])

/-- Every step but the completion has run: `c` is what the completion step will write (log 10). -/
def State.finish (s : State) (c : Completion) : State := s.goto (.finish c)

/-- An error raised after a Transport step, in a command other than SDWR and SDRD. -/
def State.fail (s : State) (e : Err) : State := s.finish (Completion.ofErr false e)

/-- An error raised after a Transport step in SDWR or SDRD: `XS` moves to its terminal state
(42_sdo.md R240). -/
def State.failSdo (s : State) (e : Err) : State :=
  (s.setXs e.terminal).finish (Completion.ofErr true e)

/-- An SDWR or SDRD has succeeded: `XS` moves to `Complete` (42_sdo.md R240). -/
def State.finishSdo (s : State) (r0 r1 r2 r3 : Word) : State :=
  (s.setXs .complete).finish (Completion.sdoOk #v[r0, r1, r2, r3])

/-! ## The Slave Table -/

/-- The Slave Table entry of a handle. -/
def State.slave (s : State) (slv : BitVec 8) : Slave := s.slaves.getD slv.toNat default

/-- `SLV < NSLAVES` and `CFG(SLV) = 1` (41_mailbox.md, the check before every command but SCFG). -/
def State.configured (s : State) (slv : BitVec 8) : Bool :=
  decide (slv.toNat < s.slaves.length) && (s.slave slv).cfg

/-- The state with a Slave Table entry replaced. -/
def State.setSlave (s : State) (slv : BitVec 8) (e : Slave) : State :=
  { s with slaves := s.slaves.set slv.toNat e }

/-- The counter successor `next(n)` (41_mailbox.md R204). -/
def nextCount (n : BitVec 3) : BitVec 3 := if n.toNat ≥ 7 then 1 else n + 1

/-- The counter step `atomic { old <- CNT(s); CNT(s) <- next(old) }` (41_mailbox.md R205, R206): the
state after it; the value it takes is `(s.slave slv).cnt`. -/
def State.takeCounter (s : State) (slv : BitVec 8) : State :=
  s.setSlave slv { s.slave slv with cnt := nextCount (s.slave slv).cnt }

/-! ## The Transport -/

/-- The number of bytes an operation's `Ok` answer carries (20_memory.md R66). -/
def TransportOp.len : TransportOp → Nat
  | .read _ _ n => n
  | .write _ _ bytes => bytes.length

/-- An answer with exactly `n` bytes (20_memory.md R66); a draw of another length stands for the one cut
or padded with zeros (log 8). -/
def Answer.fit (n : Nat) : Answer → Answer
  | .ok bytes => .ok (fitBytes n bytes)
  | .err t => .err t

/-- The environment's answer to `op` in this step (20_memory.md R67). -/
def State.answer (s : State) (op : TransportOp) : Answer := s.draw.answer.fit op.len

/-- The state after the Transport operation `op` (20_memory.md R66, R76): it is recorded with its
answer. -/
def State.transact (s : State) (op : TransportOp) : State :=
  { s with wire := (op, s.answer op) :: s.wire }

/-- The Transport step `op`, then `onErr` on `Err(t)` and `onOk` on `Ok(bytes)`. -/
def State.transport (s : State) (op : TransportOp) (onErr : State → Err → State)
    (onOk : State → List Byte → State) : State :=
  match s.answer op with
  | .err t => onErr (s.transact op) (.transport t)
  | .ok bytes => onOk (s.transact op) bytes

end Sys2Proof.Machine
end

