-- ==== Sys2Proof/Machine/Operands.lean ====
section
/-! DEFINITION. How a command reads its operand registers (30_encoding.md R100, R101) and the range check
on `BM` (20_memory.md R65). -/

namespace Sys2Proof.Machine

/-- `OP[i]` of the running port, read as a 32-bit unsigned value (R100). -/
def State.op (s : State) (i : Fin 8) : Nat := (s.port.op[i]).toNat

/-- The 64-bit operand `OP[4] * 2^32 + OP[3]` (R100). -/
def State.op64 (s : State) : Nat := s.op 4 * 2 ^ 32 + s.op 3

/-- Bits 15:0 of `OP[i]` (R101: `W_ADDR`, `R_ADDR`, the station address). -/
def State.opLow (s : State) (i : Fin 8) : BitVec 16 := (s.port.op[i]).extractLsb' 0 16

/-- Bits 31:16 of `OP[i]` (R101: `W_LEN`, `R_LEN`). -/
def State.opHigh (s : State) (i : Fin 8) : BitVec 16 := (s.port.op[i]).extractLsb' 16 16

/-- `W_SM`, bits 7:0 of `OP[3]` (R101, SCFG). -/
def State.opWSm (s : State) : BitVec 8 := (s.port.op[3]).extractLsb' 0 8

/-- `R_SM`, bits 15:8 of `OP[3]` (R101, SCFG). -/
def State.opRSm (s : State) : BitVec 8 := (s.port.op[3]).extractLsb' 8 8

/-- The sub-index, bits 7:0 of `OP[2]` (R101, SDWR and SDRD). -/
def State.opSub (s : State) : BitVec 8 := (s.port.op[2]).extractLsb' 0 8

/-- The complete-access flag `CA`, bit 8 of `OP[2]` (R101, SDWR and SDRD). -/
def State.opCa (s : State) : BitVec 1 := (s.port.op[2]).extractLsb' 8 1

/-- The range `[base, base + len)` lies in `BM` (20_memory.md R65). -/
def State.inBm (s : State) (base len : Nat) : Bool := decide (base + len ≤ s.params.bmSize)

/-- The bytes `MemRead(a, n)` of `BM`. -/
def State.bmRead (s : State) (a n : Nat) : List Byte := s.bm.readRange a n

/-- The state after `MemWrite(a, n, bytes)`. -/
def State.bmWrite (s : State) (a : Nat) (bytes : List Byte) : State :=
  { s with bm := s.bm.writeRange a bytes }

/-- A result as a 32-bit register value: `v mod 2^32` (00_scope.md R13). -/
def word (v : Nat) : Word := BitVec.ofNat 32 v

/-- The common checks of a command on the buffer `[OP[0], OP[0]+OP[1])` with the byte index `OP[2]`
(40_codec.md, head of section 2): the command word, the ranges, then the buffer length, `need` bytes from
the index on; `body` gets the address the index names. -/
def State.onBuffer (s : State) (legal ranges : Bool) (need : Nat) (short : Err)
    (body : Nat → State) : State :=
  if !legal then s.raise .illegalCommand
  else if !(s.inBm (s.op 0) (s.op 1) && ranges) then s.raise .illegalAddress
  else if s.op 1 < s.op 2 + need then s.raise short
  else body (s.op 0 + s.op 2)

end Sys2Proof.Machine
end

