-- ==== Sys2Proof/Machine/Wire.lean ====
section
/-! DEFINITION. The wire constants (00_scope.md R10) and the wire formats: the requests the block builds
(30_encoding.md R110 to R116), the response fields it reads (R117), the segment chunk length
(42_sdo.md R256) and the AL word (R120). -/

namespace Sys2Proof.Machine

/-! ## Constants of 00_scope.md R10 -/

/-- `SM_STATUS_ADDR(sm) = 0x0805 + 8*sm`. -/
def smStatusAddr (sm : BitVec 8) : DevAddr := 0x0805#16 + 8#16 * sm.setWidth 16

/-- `MBX_FULL_BIT = 3`. -/
def mbxFullBit : Nat := 3

/-- `AL_CONTROL_ADDR = 0x0120`. -/
def alControlAddr : DevAddr := 0x0120#16

/-- `AL_STATUS_ADDR = 0x0130`. -/
def alStatusAddr : DevAddr := 0x0130#16

/-- `AL_STATUS_CODE_ADDR = 0x0134`. -/
def alStatusCodeAddr : DevAddr := 0x0134#16

/-- A value is one of `STATE_CODES`: Init=1, PreOp=2, Bootstrap=3, SafeOp=4, Op=8. -/
def isStateCode (st : BitVec 4) : Bool := st == 1#4 || st == 2#4 || st == 3#4 || st == 4#4 || st == 8#4

/-- `AL_ACK_ON_REQUEST = 1`. -/
def alAckOnRequest : BitVec 1 := 1#1

/-- `MBX_TYPE_COE = 3`. -/
def mbxTypeCoe : BitVec 4 := 3#4

/-- `COE_SVC_SDO_REQ = 2`. -/
def coeSvcSdoReq : BitVec 4 := 2#4

/-- `REQ_ADDRESS = 0`. -/
def reqAddress : BitVec 16 := 0#16

/-- `REQ_CHANNEL = 0`. -/
def reqChannel : BitVec 6 := 0#6

/-- `REQ_PRIORITY = 0`. -/
def reqPriority : BitVec 2 := 0#2

/-! ## Requests -/

/-- The mailbox header (30_encoding.md R110) of a request with `len` bytes after it and counter `c`. -/
def mailboxHeader (len : Nat) (c : BitVec 3) : List Byte :=
  leBytes 2 len ++ leBytes 2 reqAddress.toNat
    ++ [(reqPriority ++ reqChannel : BitVec (2 + 6)), (0#1 ++ c ++ mbxTypeCoe : BitVec (1 + 3 + 4))]

/-- The CoE header of a request: `NUMBER = 0`, `SERVICE = COE_SVC_SDO_REQ` (30_encoding.md R111). -/
def coeHeader : List Byte := leBytes 2 (coeSvcSdoReq ++ 0#3 ++ 0#9 : BitVec (4 + 3 + 9)).toNat

/-- An SDO initiate command byte (30_encoding.md R112). -/
def initiateByte (cs : BitVec 3) (ca : BitVec 1) (sizeCode : BitVec 2) (expedited sizeInd : BitVec 1) :
    Byte := (cs ++ ca ++ sizeCode ++ expedited ++ sizeInd : BitVec (3 + 1 + 2 + 1 + 1))

/-- An SDO segment command byte (30_encoding.md R113). -/
def segmentByte (cs : BitVec 3) (toggle : BitVec 1) (segDataSize : BitVec 3) (last : BitVec 1) : Byte :=
  (cs ++ toggle ++ segDataSize ++ last : BitVec (3 + 1 + 3 + 1))

/-- The download request (30_encoding.md R116, column "download expedited"): `CS = 1`, `EXPEDITED = 1`,
`SIZE_IND = 1`, `SIZE_CODE = 4 - n`. -/
def downloadRequest (c : BitVec 3) (ca : BitVec 1) (n : Nat) (idx : BitVec 16) (sub : BitVec 8)
    (val : List Byte) : List Byte :=
  mailboxHeader 10 c ++ coeHeader ++ [initiateByte 1#3 ca (BitVec.ofNat 2 (4 - n)) 1#1 1#1]
    ++ leBytes 2 idx.toNat ++ [sub] ++ fitBytes 4 val

/-- The upload initiate request (30_encoding.md R116): `CS = 2`. -/
def uploadRequest (c : BitVec 3) (ca : BitVec 1) (idx : BitVec 16) (sub : BitVec 8) : List Byte :=
  mailboxHeader 10 c ++ coeHeader ++ [initiateByte 2#3 ca 0#2 0#1 0#1]
    ++ leBytes 2 idx.toNat ++ [sub] ++ zeros 4

/-- The upload segment request (30_encoding.md R116): `CS = 3` and the toggle. -/
def segmentRequest (c : BitVec 3) (toggle : BitVec 1) : List Byte :=
  mailboxHeader 10 c ++ coeHeader ++ [segmentByte 3#3 toggle 0#3 0#1] ++ zeros 7

/-! ## Responses -/

/-- `LENGTH(rx)` (30_encoding.md R117). -/
def rxLength (rx : List Byte) : Nat := fromLE (slice rx 0 2)

/-- `TYPE(rx)`. -/
def rxType (rx : List Byte) : BitVec 4 := (byteAt rx 5).extractLsb' 0 4

/-- `COUNTER(rx)`. -/
def rxCounter (rx : List Byte) : BitVec 3 := (byteAt rx 5).extractLsb' 4 3

/-- `CMD8(rx)`. -/
def rxCmd (rx : List Byte) : Byte := byteAt rx 8

/-- `CS`, bits 7:5 of `CMD8`; 4 is the aborted flag (R114). -/
def rxCs (rx : List Byte) : BitVec 3 := (rxCmd rx).extractLsb' 5 3

/-- `EXPEDITED`, bit 1 of an initiate response's `CMD8` (R112). -/
def rxExpedited (rx : List Byte) : Bool := (rxCmd rx).getLsbD 1

/-- `SIZE_CODE`, bits 3:2 of an initiate response's `CMD8` (R112). -/
def rxSizeCode (rx : List Byte) : Nat := ((rxCmd rx).extractLsb' 2 2).toNat

/-- `DATA4(rx)` as a little-endian number: the complete size of a normal upload, or the abort code
(R115, R122). -/
def rxData4 (rx : List Byte) : Nat := fromLE (slice rx 12 4)

/-- `LAST`, bit 0 of a segment response's `CMD8` (R113). -/
def rxLast (rx : List Byte) : Bool := (rxCmd rx).getLsbD 0

/-- `SEG_DATA_SIZE`, bits 3:1 of a segment response's `CMD8` (R113). -/
def rxSegDataSize (rx : List Byte) : Nat := ((rxCmd rx).extractLsb' 1 3).toNat

/-- `TOGGLE`, bit 4 of a segment response's `CMD8` (R113). -/
def rxToggle (rx : List Byte) : BitVec 1 := (rxCmd rx).extractLsb' 4 1

/-- `chunkLen(rx)` (42_sdo.md R256); `none` where `LENGTH < 3`. -/
def chunkLen (rx : List Byte) : Option Nat :=
  if rxLength rx < 3 then none
  else if rxLength rx - 3 = 7 then some (7 - rxSegDataSize rx)
  else some (rxLength rx - 3)

/-- The full bit of a mailbox status byte (41_mailbox.md R210). -/
def isFull (status : List Byte) : Bool := (byteAt status 0).getLsbD mbxFullBit

/-! ## The AL word (30_encoding.md R120) -/

/-- The AL control word `ST | (AL_ACK_ON_REQUEST << 4)` ALRQ writes (43_al_gate.md R291). -/
def alControlWord (st : BitVec 4) : List Byte :=
  leBytes 2 (0#11 ++ alAckOnRequest ++ st : BitVec (11 + 1 + 4)).toNat

/-- A 16-bit little-endian AL word. -/
def alWord (bytes : List Byte) : BitVec 16 := BitVec.ofNat 16 (fromLE bytes)

/-- The `STATE` nibble of an AL word. -/
def alState (w : BitVec 16) : BitVec 4 := w.extractLsb' 0 4

/-- The `ERROR` bit of an AL word. -/
def alError (w : BitVec 16) : Bool := w.getLsbD 4

end Sys2Proof.Machine
end

