-- ==== Sys2Proof/Machine/Mailbox.lean ====
section
/-! DEFINITION. The Slave Table commands SCFG and CNXT (41_mailbox.md R200, R205), the mailbox steps
(R210 to R214) the mailbox commands MDRN, MACQ, MSND and MAWT are made of, and those commands. The SDO
commands run the same steps (R220).

A command of this file is a sequence of atomic steps (20_memory.md R70, R75): its checks with its `BM`
operand read, each Transport operation, its `BM` copy, its completion (log 10). A step that leaves the
micro-state as it is runs again: that is a poll's loop. -/

namespace Sys2Proof.Machine

/-- SCFG (41_mailbox.md R200). -/
def execScfg (slv : BitVec 8) (s : State) : Result :=
  .next <|
    let wl := s.opHigh 1
    let rl := s.opHigh 2
    if !decide (slv.toNat < s.slaves.length) || (s.slave slv).cfg then s.raise .illegalCommand
    else if wl.toNat < 16 ∨ s.params.maxMbxLen < wl.toNat ∨ rl.toNat < 16
        ∨ s.params.maxMbxLen < rl.toNat then s.raise .illegalCommand
    else
      (s.setSlave slv
        { cfg := true, station := s.opLow 0, wAddr := s.opLow 1, wLen := wl, wSm := s.opWSm,
          rAddr := s.opLow 2, rLen := rl, rSm := s.opRSm, cnt := 1 }).succeed 1 0 0 0

/-- CNXT (41_mailbox.md R205). -/
def execCnxt (slv : BitVec 8) (s : State) : Result :=
  .next <|
    if s.configured slv then (s.takeCounter slv).succeed ((s.slave slv).cnt.setWidth 32) 0 0 0
    else s.raise .illegalCommand

/-! ## Mailbox steps -/

/-- The status read of the drain (41_mailbox.md R212). -/
def State.drainStatus (s : State) (sl : Slave) (onErr : State → Err → State) (full empty : State → State) :
    State :=
  s.transport (.read sl.station (smStatusAddr sl.rSm) 1) onErr fun s b =>
    if isFull b then full s else empty s

/-- The read of the whole read mailbox (41_mailbox.md R212, R213). -/
def State.readMailbox (s : State) (sl : Slave) (onErr : State → Err → State)
    (onOk : State → List Byte → State) : State :=
  s.transport (.read sl.station sl.rAddr sl.rLen.toNat) onErr onOk

/-- `RXBUF <- rx`: the mailbox content just read, in the first bytes of the buffer (10_state.md R26;
log 23). -/
def State.keepMailbox (s : State) (rx : List Byte) : State :=
  s.setHid { s.hid with rxBuf := rx ++ s.hid.rxBuf.drop rx.length }

/-- One iteration of `pollUntil(s, sm, want)` (41_mailbox.md R210): the timeout draw, else one status
read; a status that does not show `want` leaves the micro-state for another iteration. R210's weak fairness, that
no admitted run does so forever, is `FairPolls` of `Machine/Runs.lean` (log 21). -/
def State.pollMailbox (s : State) (sl : Slave) (sm : BitVec 8) (want : Bool)
    (onTimeout onErr : State → Err → State) (done : State → State) : State :=
  if s.draw.timeout then onTimeout s (.mailboxTimeout sl.station)
  else s.transport (.read sl.station (smStatusAddr sm) 1) onErr fun s b =>
    if isFull b = want then done s else s

/-! ## Mailbox commands -/

/-- MDRN (41_mailbox.md R212). -/
def execMdrn (slv : BitVec 8) (s : State) : Result :=
  match s.micro with
  | .start => .next <| if s.configured slv then s.goto .drainStatus else s.raise .illegalCommand
  | .drainStatus => .next <| s.drainStatus (s.slave slv) State.fail (·.goto .drainRead)
      (·.finish (.ok #v[0, 0, 0, 0]))
  | .drainRead => .next <| s.readMailbox (s.slave slv) State.fail fun s _ =>
      s.finish (.ok #v[1, 0, 0, 0])
  | .finish c => .next <| s.complete c
  | _ => .fault .microStateMismatch

/-- MACQ (41_mailbox.md R211). -/
def execMacq (slv : BitVec 8) (s : State) : Result :=
  match s.micro with
  | .start => .next <| if s.configured slv then s.goto .acquire else s.raise .illegalCommand
  | .acquire => .next <| s.pollMailbox (s.slave slv) (s.slave slv).wSm false State.raise State.fail
      (·.finish (.ok #v[0, 0, 0, 0]))
  | .finish c => .next <| s.complete c
  | _ => .fault .microStateMismatch

/-- MSND (41_mailbox.md R214). -/
def execMsnd (slv : BitVec 8) (s : State) : Result :=
  match s.micro with
  | .start => .next <|
      if !s.configured slv then s.raise .illegalCommand
      else if !s.inBm (s.op 0) (s.op 1) then s.raise .illegalAddress
      else if (s.slave slv).wLen.toNat < s.op 1 then s.raise .bufferTooShort
      else s.goto (.send (s.bmRead (s.op 0) (s.op 1) ++ zeros ((s.slave slv).wLen.toNat - s.op 1)))
  | .send msg => .next <| s.transport (.write (s.slave slv).station (s.slave slv).wAddr msg) State.fail
      fun s _ => s.finish (.ok #v[word (s.op 1), 0, 0, 0])
  | .finish c => .next <| s.complete c
  | _ => .fault .microStateMismatch

/-- MAWT (41_mailbox.md R213). -/
def execMawt (slv : BitVec 8) (s : State) : Result :=
  match s.micro with
  | .start => .next <|
      if !s.configured slv then s.raise .illegalCommand
      else if !s.inBm (s.op 0) (s.op 1) then s.raise .illegalAddress
      else if s.op 1 < (s.slave slv).rLen.toNat then s.raise .bufferTooShort
      else s.goto .await
  | .await => .next <| s.pollMailbox (s.slave slv) (s.slave slv).rSm true State.raise State.fail
      (·.goto .receive)
  | .receive => .next <| s.readMailbox (s.slave slv) State.fail fun s rx =>
      (s.keepMailbox rx).goto .store
  | .store => .next <|
      (s.bmWrite (s.op 0) (s.hid.rxBuf.take (s.slave slv).rLen.toNat)).finish
        (.ok #v[word (s.slave slv).rLen.toNat, 0, 0, 0])
  | .finish c => .next <| s.complete c
  | _ => .fault .microStateMismatch

end Sys2Proof.Machine
end

