-- ==== Sys2Proof/Machine/AlGate.lean ====
section
/-! DEFINITION. The Slave State Gate: ALRQ and ALWT (43_al_gate.md R290 to R292). Each Transport operation
is an atomic step, and so is the completion (log 10). -/

namespace Sys2Proof.Machine

/-- The checks of both State Gate commands (43_al_gate.md R290). -/
def State.alLegal (s : State) (slv : BitVec 8) (st : BitVec 4) : Bool := s.configured slv && isStateCode st

/-- ALRQ (43_al_gate.md R291). -/
def execAlrq (slv : BitVec 8) (st : BitVec 4) (s : State) : Result :=
  match s.micro with
  | .start => .next <| if s.alLegal slv st then s.goto .alControl else s.raise .illegalCommand
  | .alControl => .next <|
      s.transport (.write (s.slave slv).station alControlAddr (alControlWord st)) State.fail fun s r =>
        let resp := alWord r
        if !isStateCode (alState resp) then s.fail .invalidValue
        else if alError resp then s.goto .alCode
        else s.finish (.ok #v[resp.setWidth 32, 0, 0, 0])
  | .alCode => .next <|
      s.transport (.read (s.slave slv).station alStatusCodeAddr 2) State.fail fun s q =>
        s.fail (.stateTransition (alWord q))
  | .finish c => .next <| s.complete c
  | _ => .fault .microStateMismatch

/-- ALWT (43_al_gate.md R292). -/
def execAlwt (slv : BitVec 8) (st : BitVec 4) (s : State) : Result :=
  match s.micro with
  | .start => .next <| if s.alLegal slv st then s.goto .alPoll else s.raise .illegalCommand
  | .alPoll => .next <|
      if s.draw.timeout then s.raise .timeout
      else s.transport (.read (s.slave slv).station alStatusAddr 2) State.fail fun s q =>
        let w := alWord q
        if !isStateCode (alState w) then s.fail .invalidValue
        else if alState w = st then s.finish (.ok #v[w.setWidth 32, 0, 0, 0])
        else s
  | .finish c => .next <| s.complete c
  | _ => .fault .microStateMismatch

end Sys2Proof.Machine
end

