-- ==== Sys2Proof/Machine/Codec.lean ====
section
/-! DEFINITION. The field primitives of the Codec Unit: FINS, FEXT, BINS, BEXT, LEST, LELD, BAPK, BAUP,
ENCE, ENCD (40_codec.md R145 to R154, R171). Each is one atomic step that touches no Transport and no
Slave Table. -/

namespace Sys2Proof.Machine

/-- FINS (40_codec.md R145). -/
def execFins (off : BitVec 3) (wid : BitVec 8) (s : State) : Result :=
  .next <| s.onBuffer (decide (wid.toNat ≤ 8) && decide (off.toNat + wid.toNat ≤ 8)) true 1
    .bufferTooShort fun a =>
      let b := mergeByte (s.bm.read a) off.toNat wid.toNat (s.op 3)
      (s.bmWrite a [b]).succeed (word b.toNat) 0 0 0

/-- FEXT (40_codec.md R146). -/
def execFext (off : BitVec 3) (wid : BitVec 8) (s : State) : Result :=
  .next <| s.onBuffer (decide (wid.toNat ≤ 8) && decide (off.toNat + wid.toNat ≤ 8)) true 1
    .readBufferTooShort fun a =>
      s.succeed (word (extractByte (s.bm.read a) off.toNat wid.toNat)) 0 0 0

/-- BINS (40_codec.md R147). -/
def execBins (off : BitVec 3) (wid : BitVec 8) (s : State) : Result :=
  .next <| s.onBuffer (wid == 1#8) true 1 .bufferTooShort fun a =>
    let bit := if s.op 3 ≠ 0 then 1 else 0
    let b : Byte := s.bm.read a ||| BitVec.ofNat 8 (bit <<< off.toNat)
    (s.bmWrite a [b]).succeed (word b.toNat) 0 0 0

/-- BEXT (40_codec.md R148). -/
def execBext (off : BitVec 3) (wid : BitVec 8) (s : State) : Result :=
  .next <| s.onBuffer (wid == 1#8) true 1 .readBufferTooShort fun a =>
    s.succeed (word (((s.bm.read a).toNat >>> off.toNat) &&& 1)) 0 0 0

/-- The byte counts LEST and LELD allow (40_codec.md R149, R150). -/
def countLegal (nb : BitVec 8) : Bool := nb == 1#8 || nb == 2#8 || nb == 4#8 || nb == 8#8

/-- LEST (40_codec.md R149). -/
def execLest (nb : BitVec 8) (s : State) : Result :=
  .next <| s.onBuffer (countLegal nb) true nb.toNat .bufferTooShort fun a =>
    (s.bmWrite a (leBytes nb.toNat s.op64)).succeed (word nb.toNat) 0 0 0

/-- LELD (40_codec.md R150). -/
def execLeld (nb : BitVec 8) (s : State) : Result :=
  .next <| s.onBuffer (countLegal nb) true nb.toNat .readBufferTooShort fun a =>
    let v := fromLE (s.bmRead a nb.toNat)
    s.succeed (word v) (word (v / 2 ^ 32)) 0 0

/-- BAPK (40_codec.md R151). -/
def execBapk (s : State) : Result :=
  .next <| s.onBuffer true (s.inBm (s.op 3) (s.op 4)) (s.op 4) .bufferTooShort fun a =>
    (s.bmWrite a (s.bmRead (s.op 3) (s.op 4))).succeed (word (s.op 4)) 0 0 0

/-- BAUP (40_codec.md R152). -/
def execBaup (s : State) : Result :=
  .next <| s.onBuffer true (s.inBm (s.op 3) (s.op 4)) (s.op 4) .readBufferTooShort fun a =>
    (s.bmWrite (s.op 3) (s.bmRead a (s.op 4))).succeed (word (s.op 4)) 0 0 0

/-- `VALID(EID)`: the Enum ROM entry of an id, if there is a valid one (10_state.md R34). -/
def enumEntry (r : Roms) (eid : Nat) : Option EnumEntry :=
  match r.enums[eid]? with
  | some e => if e.valid then some e else none
  | none => none

/-- `r` is the primary discriminant or an alternate of the variant (40_codec.md R171). -/
def variantNames (v : Variant) (r : Nat) : Bool := v.prim == r || v.alts.contains r

/-- `enumDecode(E, r)` (40_codec.md R171): the index of the variant `r` names; none is `InvalidValue`. -/
def enumDecode (e : EnumEntry) (r : Nat) : Option Nat :=
  e.variants.findIdx? fun v => variantNames v r

/-- `PRIM(E, j)` (10_state.md R34); 0 where there is no variant `j` (never read there). -/
def enumPrim (e : EnumEntry) (j : Nat) : Nat :=
  match e.variants[j]? with
  | some v => v.prim
  | none => 0

/-- ENCE (40_codec.md R153). -/
def execEnce (eid : BitVec 8) (s : State) : Result :=
  .next <| match enumEntry s.roms eid.toNat with
  | none => s.raise .illegalCommand
  | some e =>
    if s.op 3 ≥ e.variants.length then s.raise .illegalCommand
    else
      let p := enumPrim e (s.op 3)
      s.succeed (word p) (word (p / 2 ^ 32)) 0 0

/-- ENCD (40_codec.md R154). -/
def execEncd (eid : BitVec 8) (s : State) : Result :=
  .next <| match enumEntry s.roms eid.toNat with
  | none => s.raise .illegalCommand
  | some e =>
    match enumDecode e s.op64 with
    | none => s.raise .invalidValue
    | some j => s.succeed (word j) 0 0 0

end Sys2Proof.Machine
end

