-- ==== Sys2Proof/Machine/Layout.lean ====
section
/-! DEFINITION. Layouts: ROM encoding (30_encoding.md R98, R99), placement and well-formedness
(40_codec.md R140 to R143), value images (R160, R161), pack (R162, R163), unpack (R168, R172), and the
commands PACK and UNPK (R165, R170).

Layouts nest through STRUCT fields, without cycles (WF-STRUCT). Every function that follows the nesting
recurses on a depth, and takes the operation on nested layouts as an argument; the number of Layout ROM
entries is depth enough for every valid layout (log 19). -/

namespace Sys2Proof.Machine

/-! ## ROM encoding -/

/-- The field kind of a `KIND` code (30_encoding.md R99). -/
def kindOfCode (c : Nat) : Kind :=
  match c with
  | 0 => .uint
  | 1 => .bool
  | 2 => .enum
  | 3 => .struct
  | 4 => .bytes
  | 5 => .skip
  | 6 => .zst
  | c => .reserved c

/-- The `KIND` code of a field kind (30_encoding.md R99). -/
def kindCode : Kind → Nat
  | .uint => 0
  | .bool => 1
  | .enum => 2
  | .struct => 3
  | .bytes => 4
  | .skip => 5
  | .zst => 6
  | .reserved c => c

/-- A field descriptor from its 64 bits (30_encoding.md R98). -/
def fieldOfBits (d : BitVec 64) : FieldDesc :=
  { off := (d.extractLsb' 0 3).toNat
    b := (d.extractLsb' 3 16).toNat
    w := (d.extractLsb' 19 16).toNat
    kind := kindOfCode (d.extractLsb' 35 4).toNat
    ts := (d.extractLsb' 39 4).toNat
    ref := (d.extractLsb' 43 8).toNat }

/-- The 64 bits of a field descriptor, reserved bits 0 (30_encoding.md R98). -/
def fieldBits (f : FieldDesc) : BitVec 64 :=
  (0#13 ++ BitVec.ofNat 8 f.ref ++ BitVec.ofNat 4 f.ts ++ BitVec.ofNat 4 (kindCode f.kind)
    ++ BitVec.ofNat 16 f.w ++ BitVec.ofNat 16 f.b ++ BitVec.ofNat 3 f.off
    : BitVec (13 + 8 + 4 + 4 + 16 + 16 + 3))

/-- A Layout ROM entry from its header and descriptor words (30_encoding.md R98). An entry whose reserved
bits are not 0, or with fewer than `K` descriptors, is loaded with `VALID = 0`. DESIGN CHOICE, log 17. -/
def layoutOfBits (hdr : Word) (descs : List (BitVec 64)) : LayoutEntry :=
  let k := (hdr.extractLsb' 16 8).toNat
  let used := descs.take k
  { valid := hdr.extractLsb' 31 1 == 1#1 && hdr.extractLsb' 24 7 == 0#7 && decide (used.length = k)
      && used.all fun d => d.extractLsb' 51 13 == 0#13
    n := (hdr.extractLsb' 0 16).toNat
    fields := used.map fieldOfBits }

/-- The header word of a Layout ROM entry (30_encoding.md R98). -/
def layoutHeader (l : LayoutEntry) : Word :=
  (BitVec.ofBool l.valid ++ 0#7 ++ BitVec.ofNat 8 l.fields.length ++ BitVec.ofNat 16 l.n
    : BitVec (1 + 7 + 8 + 16))

/-! ## Placement and well-formedness -/

/-- The first wire bit of a field (40_codec.md R140). -/
def startBit (f : FieldDesc) : Nat := 8 * f.b + f.off

/-- The wire bit after a field's last (40_codec.md R140). -/
def endBit (f : FieldDesc) : Nat := startBit f + f.w

/-- A field of a layout declaration: width and paddings in bits (40_codec.md R141). -/
structure FieldDecl where
  width : Nat
  skipBefore : Nat
  skipAfter : Nat
deriving DecidableEq, Repr

/-- The positions `(B, OFF)` of a declaration's fields from cursor `c` on (40_codec.md R141). -/
def placeFrom (c : Nat) : List FieldDecl → List (Nat × Nat)
  | [] => []
  | d :: ds =>
    let start := c + d.skipBefore
    (start / 8, start % 8) :: placeFrom (start + d.width + d.skipAfter) ds

/-- The cursor after a declaration's last field; it equals `8 * N(L)` (40_codec.md R141). -/
def declaredBits : List FieldDecl → Nat
  | [] => 0
  | d :: ds => d.skipBefore + d.width + d.skipAfter + declaredBits ds

/-- The Layout ROM entry of an id, valid or not. -/
def layoutRaw (r : Roms) (lid : Nat) : LayoutEntry := r.layouts.getD lid default

/-- `VALID(LID)`: the Layout ROM entry of an id, if there is a valid one (40_codec.md R142). -/
def layoutEntry (r : Roms) (lid : Nat) : Option LayoutEntry :=
  match r.layouts[lid]? with
  | some l => if l.valid then some l else none
  | none => none

/-- The raw values of an enum, primaries and alternates of every variant (40_codec.md R143). -/
def enumValues (e : EnumEntry) : List Nat := e.variants.flatMap fun v => v.prim :: v.alts

/-- The well-formedness of an Enum ROM entry (40_codec.md R143, 10_state.md R34). -/
def enumOk (e : EnumEntry) : Bool :=
  e.valid && [1, 2, 4, 8].contains e.u && decide (1 ≤ e.variants.length)
    && decide (e.variants.length ≤ 256) && (enumValues e).all (fun v => decide (v < 2 ^ (8 * e.u)))
    && decide (enumValues e).Nodup

/-- The descriptor fits its ROM fields (10_state.md R33). A `TS` or `REF` that is not 0 in a field whose kind does not
use it is neither refused here nor read anywhere. DESIGN CHOICE, log 29. -/
def fieldFits (f : FieldDesc) : Bool :=
  decide (f.b < 2 ^ 16) && decide (f.off < 8) && decide (f.w < 2 ^ 16) && decide (f.ts < 16)
    && decide (f.ref < 256)

/-- `WF-KIND` (40_codec.md R142). -/
def wfKind (f : FieldDesc) : Bool :=
  match f.kind with
  | .reserved _ => false
  | .uint | .bool | .enum | .struct | .bytes | .skip | .zst => true

/-- `WF-ORDER` (40_codec.md R142) over the fields with `W > 0`, none starting before bit `from_`. -/
def wfOrderFrom (from_ : Nat) : List FieldDesc → Bool
  | [] => true
  | f :: fs =>
    if f.w = 0 then wfOrderFrom from_ fs
    else decide (from_ ≤ startBit f) && wfOrderFrom (endBit f) fs

/-- `WF-SIZE` (40_codec.md R142). -/
def wfSize (n : Nat) (f : FieldDesc) : Bool := decide (endBit f ≤ 8 * n)

/-- `WF-WIDE` (40_codec.md R142). -/
def wfWide (f : FieldDesc) : Bool := decide (f.w ≤ 8) || (decide (f.off = 0) && decide (f.w % 8 = 0))

/-- `WF-NARROW` (40_codec.md R142). -/
def wfNarrow (f : FieldDesc) : Bool :=
  match f.kind with
  | .uint | .bool | .enum | .struct => decide (8 < f.w) || decide (f.off + f.w ≤ 8)
  | .bytes | .skip | .zst | .reserved _ => true

/-- `WF-BOOL`, `WF-UINT`, `WF-ENUM`, `WF-STRUCT`, `WF-BYTES` and `WF-ZERO` (40_codec.md R142): the check of
a field's own kind. `nestedOk` says whether the layout a STRUCT field names is valid, without a cycle. `TS` is
checked for UINT alone and `REF` for ENUM and STRUCT alone. DESIGN CHOICE, log 29. -/
def wfOfKind (r : Roms) (nestedOk : Nat → Bool) (f : FieldDesc) : Bool :=
  match f.kind with
  | .bool => decide (f.w = 1)
  | .uint => [1, 2, 4, 8].contains f.ts && decide (1 ≤ f.w) && decide (f.w ≤ 8 * f.ts)
      && (decide (f.w ≤ 8) || decide (f.w = 8 * f.ts))
  | .enum =>
    match enumEntry r f.ref with
    | none => false
    | some e => enumOk e && decide (1 ≤ f.w) && decide (f.w ≤ 8 * e.u)
        && (decide (f.w ≤ 8) || decide (f.w = 8 * e.u))
        && e.variants.all fun v => decide (v.prim < 2 ^ f.w)
  | .struct =>
    nestedOk f.ref
      && ((decide (8 < f.w) && decide (f.w = 8 * (layoutRaw r f.ref).n))
        || (decide (1 ≤ f.w) && decide (f.w ≤ 8) && decide ((layoutRaw r f.ref).n = 1)
          && (layoutRaw r f.ref).fields.all fun g => decide (endBit g ≤ f.w)))
  | .bytes => decide (f.off = 0) && decide (8 ≤ f.w) && decide (f.w % 8 = 0)
  | .skip => decide (f.w = 0)
  | .zst => decide (f.w = 0)
  | .reserved _ => false

/-- Every check of 40_codec.md R142 on one field. -/
def fieldOk (r : Roms) (nestedOk : Nat → Bool) (n : Nat) (f : FieldDesc) : Bool :=
  fieldFits f && wfKind f && wfSize n f && wfWide f && wfNarrow f && wfOfKind r nestedOk f

/-- Every check of 40_codec.md R142 on a Layout ROM entry, following at most `depth` levels of nesting. -/
def layoutOk (r : Roms) : Nat → LayoutEntry → Bool
  | 0, _ => false
  | depth + 1, l =>
    l.valid && decide (l.n < 2 ^ 16) && decide (l.fields.length < 256) && wfOrderFrom 0 l.fields
      && l.fields.all (fieldOk r
        (fun ref => decide (ref < r.layouts.length) && layoutOk r depth (layoutRaw r ref)) l.n)

/-- The nesting depth the block follows: the number of Layout ROM entries (log 19). -/
def romDepth (r : Roms) : Nat := r.layouts.length

/-- Both ROMs hold only well-formed entries with `VALID = 1` (40_codec.md R142, R143). -/
def romsOk (r : Roms) : Bool :=
  (r.enums.all fun e => !e.valid || enumOk e)
    && r.layouts.all fun l => !l.valid || layoutOk r (romDepth r) l

/-- The loader's last act (70_reset_and_hazards.md R355): an entry that fails a check keeps `VALID = 0`. -/
def validateRoms (r : Roms) : Roms :=
  let r' : Roms := { r with enums := r.enums.map fun e => { e with valid := enumOk e } }
  { r' with layouts := r'.layouts.map fun l => { l with valid := layoutOk r' (romDepth r') l } }

/-! ## Values and value images -/

/-- A component of `Value(L)` (40_codec.md R161). SKIP and ZST fields have the unit value. -/
inductive Value where
  | num (v : Nat)
  | bool (b : Bool)
  | variant (j : Nat)
  | struct (vs : List Value)
  | bytes (bs : List Byte)
  | unit
deriving Repr, Inhabited

/-- The size of a field's slot in the value image (40_codec.md R160). -/
def slotSize (nestSize : Nat → Nat) (f : FieldDesc) : Nat :=
  match f.kind with
  | .uint | .bool | .enum | .skip => 8
  | .struct => nestSize f.ref
  | .bytes => f.w / 8
  | .zst | .reserved _ => 0

/-- `img_size` of a field list (40_codec.md R160). -/
def fieldsSize (nestSize : Nat → Nat) (fs : List FieldDesc) : Nat :=
  (fs.map (slotSize nestSize)).sum

/-- `img_size(L)` (40_codec.md R160). -/
def imgSize (r : Roms) : Nat → Nat → Nat
  | 0, _ => 0
  | depth + 1, lid => fieldsSize (imgSize r depth) (layoutRaw r lid).fields

/-- Reading a field's slot (40_codec.md R161); an ENUM slot out of range gives no value. -/
def readSlot (r : Roms) (nestRead : Nat → List Byte → Option (List Value)) (f : FieldDesc)
    (slot : List Byte) : Option Value :=
  match f.kind with
  | .uint => some (.num (fromLE slot % 2 ^ (8 * f.ts)))
  | .bool => some (.bool (fromLE slot != 0))
  | .enum =>
    match enumEntry r f.ref with
    | none => none
    | some e => if fromLE slot < e.variants.length then some (.variant (fromLE slot)) else none
  | .struct => (nestRead f.ref slot).map .struct
  | .bytes => some (.bytes slot)
  | .skip | .zst | .reserved _ => some .unit

/-- Reading the slots of a field list one after another (40_codec.md R160). -/
def readFields (r : Roms) (nestSize : Nat → Nat) (nestRead : Nat → List Byte → Option (List Value)) :
    List FieldDesc → List Byte → Option (List Value)
  | [], _ => some []
  | f :: fs, img =>
    match readSlot r nestRead f (img.take (slotSize nestSize f)) with
    | none => none
    | some x =>
      match readFields r nestSize nestRead fs (img.drop (slotSize nestSize f)) with
      | none => none
      | some xs => some (x :: xs)

/-- Reading an image as a `Value(L)` (40_codec.md R161). -/
def readImage (r : Roms) : Nat → Nat → List Byte → Option (List Value)
  | 0, _, _ => none
  | depth + 1, lid, img =>
    readFields r (imgSize r depth) (readImage r depth) (layoutRaw r lid).fields img

/-- The slot of a component (40_codec.md R160); a SKIP slot is the zero default (R172). -/
def slotBytes (nestImage : Nat → List Value → List Byte) (f : FieldDesc) (x : Value) : List Byte :=
  match f.kind, x with
  | .uint, .num v => leBytes 8 v
  | .bool, .bool b => leBytes 8 b.toNat
  | .enum, .variant j => leBytes 8 j
  | .skip, _ => leBytes 8 0
  | .struct, .struct vs => nestImage f.ref vs
  | .bytes, .bytes bs => bs
  | _, _ => []

/-- The slots of a field list (40_codec.md R160). -/
def imageFields (nestImage : Nat → List Value → List Byte) : List FieldDesc → List Value → List Byte
  | f :: fs, x :: xs => slotBytes nestImage f x ++ imageFields nestImage fs xs
  | _, _ => []

/-- The image of a `Value(L)` (40_codec.md R160, R161). -/
def image (r : Roms) : Nat → Nat → List Value → List Byte
  | 0, _, _ => []
  | depth + 1, lid, vs => imageFields (image r depth) (layoutRaw r lid).fields vs

/-! ## Pack -/

/-- `raw(F, x)` (40_codec.md R162); a narrow STRUCT is packed into one zero byte. -/
def rawValue (r : Roms) (nestPack : Nat → List Value → List Byte → List Byte) (f : FieldDesc)
    (x : Value) : Nat :=
  match f.kind, x with
  | .uint, .num v => v
  | .bool, .bool b => b.toNat
  | .enum, .variant j => match enumEntry r f.ref with
    | some e => enumPrim e j
    | none => 0
  | .struct, .struct vs => (byteAt (nestPack f.ref vs (zeros 1)) 0).toNat
  | _, _ => 0

/-- The narrow step of pack: the OR merge into byte `B` (40_codec.md R163). -/
def packNarrow (f : FieldDesc) (raw : Nat) (buf : List Byte) : List Byte :=
  buf.modify f.b fun old => mergeByte old f.off f.w raw

/-- One field's step of pack (40_codec.md R163). -/
def packField (r : Roms) (nestPack : Nat → List Value → List Byte → List Byte) (f : FieldDesc)
    (x : Value) (buf : List Byte) : List Byte :=
  match f.kind with
  | .skip | .zst | .reserved _ => buf
  | .bytes => match x with
    | .bytes bs => splice buf f.b bs
    | _ => buf
  | .uint | .bool | .enum =>
    if f.w ≤ 8 then packNarrow f (rawValue r nestPack f x) buf
    else splice buf f.b (leBytes (f.w / 8) (rawValue r nestPack f x))
  | .struct =>
    if f.w ≤ 8 then packNarrow f (rawValue r nestPack f x) buf
    else match x with
      | .struct vs => splice buf f.b (nestPack f.ref vs (slice buf f.b (layoutRaw r f.ref).n))
      | _ => buf

/-- The fields of a layout, packed in declaration order (40_codec.md R163). -/
def packFields (r : Roms) (nestPack : Nat → List Value → List Byte → List Byte) :
    List FieldDesc → List Value → List Byte → List Byte
  | f :: fs, x :: xs, buf => packFields r nestPack fs xs (packField r nestPack f x buf)
  | _, _, buf => buf

/-- `packInto(L, v, buf)` (40_codec.md R163). -/
def packInto (r : Roms) : Nat → Nat → List Value → List Byte → List Byte
  | 0, _, _, buf => buf
  | depth + 1, lid, vs, buf => packFields r (packInto r depth) (layoutRaw r lid).fields vs buf

/-! ## Unpack -/

/-- One field's step of unpack; `none` is `InvalidValue` (40_codec.md R168, R171, R172). -/
def unpackField (r : Roms) (nestUnpack : Nat → List Byte → Option (List Value)) (f : FieldDesc)
    (buf : List Byte) : Option Value :=
  let raw := if f.w ≤ 8 then extractByte (byteAt buf f.b) f.off f.w
    else fromLE (slice buf f.b (f.w / 8))
  match f.kind with
  | .skip | .zst | .reserved _ => some .unit
  | .bytes => some (.bytes (slice buf f.b (f.w / 8)))
  | .uint => some (.num raw)
  | .bool => some (.bool (raw != 0))
  | .enum =>
    match enumEntry r f.ref with
    | none => none
    | some e => (enumDecode e raw).map .variant
  | .struct =>
    (nestUnpack f.ref (if f.w ≤ 8 then [BitVec.ofNat 8 raw]
      else slice buf f.b (layoutRaw r f.ref).n)).map .struct

/-- The fields of a layout, unpacked in declaration order; the first failure is the result
(40_codec.md R168). -/
def unpackFields (r : Roms) (nestUnpack : Nat → List Byte → Option (List Value)) :
    List FieldDesc → List Byte → Option (List Value)
  | [], _ => some []
  | f :: fs, buf =>
    match unpackField r nestUnpack f buf with
    | none => none
    | some x =>
      match unpackFields r nestUnpack fs buf with
      | none => none
      | some xs => some (x :: xs)

/-- `unpackFrom(L, buf)` (40_codec.md R168). -/
def unpackFrom (r : Roms) : Nat → Nat → List Byte → Option (List Value)
  | 0, _, _ => none
  | depth + 1, lid, buf => unpackFields r (unpackFrom r depth) (layoutRaw r lid).fields buf

/-! ## PACK and UNPK -/

/-- PACK (40_codec.md R165). -/
def execPack (lid : BitVec 8) (clr : BitVec 1) (s : State) : Result :=
  .next <| match layoutEntry s.roms lid.toNat with
  | none => s.raise .illegalCommand
  | some l =>
    let depth := romDepth s.roms
    let size := imgSize s.roms depth lid.toNat
    if !(s.inBm (s.op 0) (s.op 1) && s.inBm (s.op 3) size) then s.raise .illegalAddress
    else if s.op 1 < l.n then s.raise .bufferTooShort
    else match readImage s.roms depth lid.toNat (s.bmRead (s.op 3) size) with
      | none => s.raise .illegalCommand
      | some vs =>
        let base := if clr = 1#1 then zeros l.n else s.bmRead (s.op 0) l.n
        (s.bmWrite (s.op 0) (packInto s.roms depth lid.toNat vs base)).succeed (word l.n) 0 0 0

/-- UNPK (40_codec.md R170). -/
def execUnpk (lid : BitVec 8) (s : State) : Result :=
  .next <| match layoutEntry s.roms lid.toNat with
  | none => s.raise .illegalCommand
  | some l =>
    let depth := romDepth s.roms
    let size := imgSize s.roms depth lid.toNat
    if !(s.inBm (s.op 0) (s.op 1) && s.inBm (s.op 3) size) then s.raise .illegalAddress
    else if s.op 1 < l.n then s.raise .readBufferTooShort
    else match unpackFrom s.roms depth lid.toNat (s.bmRead (s.op 0) l.n) with
      | none => s.raise .invalidValue
      | some vs => (s.bmWrite (s.op 3) (image s.roms depth lid.toNat vs)).succeed (word l.n) 0 0 0

end Sys2Proof.Machine
end

