-- ==== Sys2Proof/Machine/Sdo.lean ====
section
/-! DEFINITION. The SDO Transfer engine: the exchange (41_mailbox.md R220, R221), SDWR (42_sdo.md R241) and
SDRD (R250 to R256). The atomic steps are those of `Machine/Mailbox.lean`, with the counter step
(R206) before every request. -/

namespace Sys2Proof.Machine

/-- `checkResponse(rx, c, idx, sub)` (41_mailbox.md R221): the error it raises, if any. -/
def checkResponse (abortFirst : Bool) (rx : List Byte) (c : BitVec 3) (idx : BitVec 16) (sub : BitVec 8) :
    Option Err :=
  let valid := rxCounter rx == c && rxType rx == mbxTypeCoe
  let aborted := rxCs rx == 4#3
  let abort : Err := .sdoAborted (BitVec.ofNat 32 (rxData4 rx)) idx sub
  if abortFirst then
    if aborted then some abort else if !valid then some (.sdoResponseInvalid idx sub) else none
  else
    if !valid then some (.sdoResponseInvalid idx sub) else if aborted then some abort else none

/-- The counter step before a request (41_mailbox.md R206): the request carries the value taken. -/
def State.takeAndBuild (s : State) (slv : BitVec 8) (ph : Phase) (build : BitVec 3 → List Byte) : State :=
  let c := (s.slave slv).cnt
  let t := s.takeCounter slv
  (t.setHid { t.hid with curCnt := c, txBuf := build c }).goto (.exch ph .drainStatus)

/-- One step of `EXCH(s, req, c, idx, sub)` (41_mailbox.md R220); `accept` goes on after a response that
passes `checkResponse`. -/
def State.exchange (s : State) (slv : BitVec 8) (idx : BitVec 16) (ph : Phase) (k : ExchStep)
    (accept : State → State) : State :=
  let sl := s.slave slv
  match k with
  | .drainStatus => s.drainStatus sl State.failSdo (·.goto (.exch ph .drainRead))
      (·.goto (.exch ph .acquire))
  | .drainRead => s.readMailbox sl State.failSdo fun s _ => s.goto (.exch ph .acquire)
  | .acquire => s.pollMailbox sl sl.wSm false State.raiseSdo State.failSdo (·.goto (.exch ph .send))
  | .send =>
    s.transport (.write sl.station sl.wAddr (s.hid.txBuf ++ zeros (sl.wLen.toNat - 16))) State.failSdo
      fun s _ => (s.setXs .requestSent).goto (.exch ph .await)
  | .await => s.pollMailbox sl sl.rSm true State.raiseSdo State.failSdo (·.goto (.exch ph .receive))
  | .receive => s.readMailbox sl State.failSdo fun s rx =>
      let t := (s.keepMailbox rx).setXs .responseReceived
      match checkResponse t.params.abortFirst rx t.hid.curCnt idx t.opSub with
      | some e => t.failSdo e
      | none => accept t

/-- SDWR (42_sdo.md R241). -/
def execSdwr (slv : BitVec 8) (idx : BitVec 16) (s : State) : Result :=
  match s.micro with
  | .start => .next <|
      if !s.configured slv then s.raiseSdo .illegalCommand
      else if s.op 1 = 0 ∨ 4 < s.op 1 then s.raiseSdo .notSupported
      else if !s.inBm (s.op 0) (s.op 1) then s.raiseSdo .illegalAddress
      else (s.setXs .idle).goto (.counter .download (s.bmRead (s.op 0) (s.op 1)))
  | .counter .download val => .next <| s.takeAndBuild slv .download fun c =>
      downloadRequest c s.opCa (s.op 1) idx s.opSub val
  | .exch .download k => .next <| s.exchange slv idx .download k fun s =>
      s.finishSdo (word (s.op 1)) (s.hid.curCnt.setWidth 32) 0 0
  | .finish c => .next <| s.complete c
  | _ => .fault .microStateMismatch

/-- The classification of an initiate response (42_sdo.md R250 to R255): an error, a payload to copy, or
the start of the segments. -/
def State.classify (s : State) (slv : BitVec 8) : State :=
  let rx := s.hid.rxBuf
  if rxExpedited rx then
    let n := 4 - rxSizeCode rx
    if s.op 1 < n then s.failSdo .bufferTooShort else s.goto (.payload 0 12 n)
  else if rxLength rx < 10 then s.failSdo (.unspecified 1)
  else if rxData4 rx ≤ rxLength rx - 10 then
    if (s.slave slv).rLen.toNat < 16 + rxData4 rx then s.failSdo (.unspecified 2)
    else if s.op 1 < rxData4 rx then s.failSdo .bufferTooShort
    else s.goto (.payload 1 16 (rxData4 rx))
  else
    (s.setHid { s.hid with offset := 0, toggle := 0, segCnt := 0, xs := .segmentedContinue }).goto
      (.counter (.segment s.hid.curCnt) [])

/-- A segment response that passed `checkResponse` (42_sdo.md R255, R256): an error, or a chunk to
copy. -/
def State.segmentArrived (s : State) (slv : BitVec 8) (idx : BitVec 16) (first : BitVec 3) : State :=
  let rx := s.hid.rxBuf
  if s.params.checkToggle && rxToggle rx != s.hid.toggle then s.failSdo (.sdoResponseInvalid idx s.opSub)
  else match chunkLen rx with
    | none => s.failSdo (.unspecified 3)
    | some k =>
      if (s.slave slv).rLen.toNat < 9 + k then s.failSdo (.unspecified 4)
      else if s.op 1 < s.hid.offset.toNat + k then s.failSdo .bufferTooShort
      else s.goto (.chunk first k)

/-- The copy of a segment's chunk and what follows it (42_sdo.md R255): the next segment, or success. -/
def State.storeChunk (s : State) (first : BitVec 3) (k : Nat) : State :=
  let rx := s.hid.rxBuf
  let t := s.bmWrite (s.op 0 + s.hid.offset.toNat) (slice rx 9 k)
  let h := { s.hid with offset := s.hid.offset + word k, segCnt := s.hid.segCnt + 1 }
  if rxLast rx then (t.setHid h).finishSdo h.offset 2 h.segCnt (first.setWidth 32)
  else (t.setHid { h with toggle := 1 - h.toggle, xs := .segmentedContinue }).goto
    (.counter (.segment first) [])

/-- SDRD (42_sdo.md R250). -/
def execSdrd (slv : BitVec 8) (idx : BitVec 16) (s : State) : Result :=
  match s.micro with
  | .start => .next <|
      if !s.configured slv then s.raiseSdo .illegalCommand
      else if !s.inBm (s.op 0) (s.op 1) then s.raiseSdo .illegalAddress
      else (s.setXs .idle).goto (.counter .initiate [])
  | .counter .initiate _ => .next <| s.takeAndBuild slv .initiate fun c =>
      uploadRequest c s.opCa idx s.opSub
  | .counter (.segment first) _ => .next <| s.takeAndBuild slv (.segment first) fun c =>
      segmentRequest c s.hid.toggle
  | .exch .initiate k => .next <| s.exchange slv idx .initiate k (·.classify slv)
  | .exch (.segment first) k => .next <| s.exchange slv idx (.segment first) k
      (·.segmentArrived slv idx first)
  | .payload kind src n => .next <|
      (s.bmWrite (s.op 0) (slice s.hid.rxBuf src n)).finishSdo (word n) kind 0
        (s.hid.curCnt.setWidth 32)
  | .chunk first k => .next <| s.storeChunk first k
  | .finish c => .next <| s.complete c
  | _ => .fault .microStateMismatch

end Sys2Proof.Machine
end

