-- ==== Sys2Proof/Syntax.lean ====
section
/-! DEFINITION. The commands of the block, one constructor per row of spec/opcode_table.json
(30_encoding.md R102). Every field is an unsigned immediate of the width R100 gives it. -/

namespace Sys2Proof

/-- A command of the block, with the fields of its format (30_encoding.md R91 to R97). -/
inductive Instr where
  /-- FINS, field insert (40_codec.md R145). -/
  | fins (off : BitVec 3) (wid : BitVec 8)
  /-- FEXT, field extract (R146). -/
  | fext (off : BitVec 3) (wid : BitVec 8)
  /-- BINS, boolean insert (R147); its rule allows `WID = 1` only. -/
  | bins (off : BitVec 3) (wid : BitVec 8)
  /-- BEXT, boolean extract (R148); its rule allows `WID = 1` only. -/
  | bext (off : BitVec 3) (wid : BitVec 8)
  /-- LEST, little-endian integer store (R149). -/
  | lest (nb : BitVec 8)
  /-- LELD, little-endian integer load (R150). -/
  | leld (nb : BitVec 8)
  /-- BAPK, byte-array pack (R151). -/
  | bapk
  /-- BAUP, byte-array unpack (R152). -/
  | baup
  /-- ENCE, enum encode (R153). -/
  | ence (eid : BitVec 8)
  /-- ENCD, enum decode (R154). -/
  | encd (eid : BitVec 8)
  /-- PACK, pack a value image by layout (R165). -/
  | pack (lid : BitVec 8) (clr : BitVec 1)
  /-- UNPK, unpack a buffer by layout (R170). -/
  | unpk (lid : BitVec 8)
  /-- SCFG, configure a slave handle (41_mailbox.md R200). -/
  | scfg (slv : BitVec 8)
  /-- CNXT, take the next counter value (R205). -/
  | cnxt (slv : BitVec 8)
  /-- MDRN, drain a stale read mailbox (R212). -/
  | mdrn (slv : BitVec 8)
  /-- MACQ, acquire the write mailbox (R211). -/
  | macq (slv : BitVec 8)
  /-- MSND, write a message to the write mailbox (R214). -/
  | msnd (slv : BitVec 8)
  /-- MAWT, await and read the response (R213). -/
  | mawt (slv : BitVec 8)
  /-- SDWR, expedited SDO download (42_sdo.md R241). -/
  | sdwr (slv : BitVec 8) (idx : BitVec 16)
  /-- SDRD, SDO upload (R250). -/
  | sdrd (slv : BitVec 8) (idx : BitVec 16)
  /-- ALRQ, request an AL state (43_al_gate.md R291). -/
  | alrq (slv : BitVec 8) (st : BitVec 4)
  /-- ALWT, wait for an AL state (R292). -/
  | alwt (slv : BitVec 8) (st : BitVec 4)
deriving DecidableEq, Repr, Inhabited

/-- The pseudo-instruction `PACKNEW lid=L` (30_encoding.md R105). -/
def Instr.packNew (lid : BitVec 8) : Instr := .pack lid 1#1

/-- The pseudo-instruction `PACKTO lid=L` (30_encoding.md R105). -/
def Instr.packTo (lid : BitVec 8) : Instr := .pack lid 0#1

end Sys2Proof
end

