-- ==== Sys2Proof/Machine/Dispatch.lean ====
section
/-! DEFINITION. One atomic step of a command at the running port: one arm per command. -/

namespace Sys2Proof.Machine

def exec (i : Instr) (s : State) : Host.Outcome State Fault Refusal :=
  match i with
  -- Codec Unit
  | .fins off wid => Sys2Proof.Machine.execFins off wid s
  | .fext off wid => Sys2Proof.Machine.execFext off wid s
  | .bins off wid => Sys2Proof.Machine.execBins off wid s
  | .bext off wid => Sys2Proof.Machine.execBext off wid s
  | .lest nb => Sys2Proof.Machine.execLest nb s
  | .leld nb => Sys2Proof.Machine.execLeld nb s
  | .bapk => Sys2Proof.Machine.execBapk s
  | .baup => Sys2Proof.Machine.execBaup s
  | .ence eid => Sys2Proof.Machine.execEnce eid s
  | .encd eid => Sys2Proof.Machine.execEncd eid s
  | .pack lid clr => Sys2Proof.Machine.execPack lid clr s
  | .unpk lid => Sys2Proof.Machine.execUnpk lid s
  -- Slave Table
  | .scfg slv => Sys2Proof.Machine.execScfg slv s
  | .cnxt slv => Sys2Proof.Machine.execCnxt slv s
  -- Mailbox Channel
  | .mdrn slv => Sys2Proof.Machine.execMdrn slv s
  | .macq slv => Sys2Proof.Machine.execMacq slv s
  | .msnd slv => Sys2Proof.Machine.execMsnd slv s
  | .mawt slv => Sys2Proof.Machine.execMawt slv s
  -- SDO Transfer
  | .sdwr slv idx => Sys2Proof.Machine.execSdwr slv idx s
  | .sdrd slv idx => Sys2Proof.Machine.execSdrd slv idx s
  -- State Gate
  | .alrq slv st => Sys2Proof.Machine.execAlrq slv st s
  | .alwt slv st => Sys2Proof.Machine.execAlwt slv st s

end Sys2Proof.Machine
end

