-- ==== Sys2Proof/WellFormed.lean ====
section
/-! DEFINITION. The legal field ranges of each command (30_encoding.md R103, "a field is outside the
legal range its command's rule states"). A command that is not well formed still decodes and runs: its
own rule completes it with IllegalCommand (log 22). -/

namespace Sys2Proof

/-- The AL state codes `STATE_CODES` (00_scope.md R10): Init, PreOp, Bootstrap, SafeOp, Op. -/
def stateCodes : List (BitVec 4) := [1#4, 2#4, 3#4, 4#4, 8#4]

/-- The byte counts LEST and LELD may name (30_encoding.md R92). -/
def byteCounts : List (BitVec 8) := [1#8, 2#8, 4#8, 8#8]

/-- The legal width of a narrow field (40_codec.md R145): `WID <= 8` and `OFF + WID <= 8`. -/
def narrowOk (off : BitVec 3) (wid : BitVec 8) : Bool :=
  decide (wid.toNat ≤ 8) && decide (off.toNat + wid.toNat ≤ 8)

/-- Every field of the command lies in the legal range its rule states. -/
def Instr.wf : Instr → Bool
  | .fins off wid => narrowOk off wid
  | .fext off wid => narrowOk off wid
  | .bins _ wid => wid == 1#8
  | .bext _ wid => wid == 1#8
  | .lest nb => byteCounts.contains nb
  | .leld nb => byteCounts.contains nb
  | .bapk => true
  | .baup => true
  | .ence _ => true
  | .encd _ => true
  | .pack _ _ => true
  | .unpk _ => true
  | .scfg _ => true
  | .cnxt _ => true
  | .mdrn _ => true
  | .macq _ => true
  | .msnd _ => true
  | .mawt _ => true
  | .sdwr _ _ => true
  | .sdrd _ _ => true
  | .alrq _ st => stateCodes.contains st
  | .alwt _ st => stateCodes.contains st

end Sys2Proof
end

