-- ==== Sys2Proof/Decode.lean ====
section
/-! DEFINITION. Decoding a command word (30_encoding.md R90 to R97, R102, R103) and encoding a command.
The decoder tells the command from `OPC` alone, then checks the reserved bits of its format (R90). -/

namespace Sys2Proof

/-- Why a word is no command word (30_encoding.md R103). -/
inductive DecodeError where
  /-- `OPC` is not in R102 (this takes in `0x00` and `0xF0..0xFF`). -/
  | unknownOpcode (opc : BitVec 8)
  /-- A reserved bit of the opcode's format is 1. -/
  | reservedBits (opc : BitVec 8)
deriving DecidableEq, Repr

/-- Bits 31:24 of a command word (R90). -/
def opcField (w : Word) : BitVec 8 := w.extractLsb' 24 8

/-- Bits 23:16: `EID`, `LID` or `SLV` (R94 to R97). -/
def idField (w : Word) : BitVec 8 := w.extractLsb' 16 8

/-- Bits 18:16: `OFF` (R91). -/
def offField (w : Word) : BitVec 3 := w.extractLsb' 16 3

/-- Bits 15:8: `WID` or `NB` (R91, R92). -/
def byteField (w : Word) : BitVec 8 := w.extractLsb' 8 8

/-- Bits 15:0: `IDX` (R96). -/
def idxField (w : Word) : BitVec 16 := w.extractLsb' 0 16

/-- Bits 3:0: `ST` (R97). -/
def stField (w : Word) : BitVec 4 := w.extractLsb' 0 4

/-- Bit 0: `CLR` (R95). -/
def clrField (w : Word) : BitVec 1 := w.extractLsb' 0 1

/-- The command `i` if the reserved bits `resv` of the word are 0, else a refusal. -/
def checked (w : Word) (resv : Word) (i : Instr) : Except DecodeError Instr :=
  if w &&& resv = 0#32 then .ok i else .error (.reservedBits (opcField w))

/-- The command a word encodes, or why it encodes none. -/
def decode (w : Word) : Except DecodeError Instr :=
  match opcField w with
  | 0x01#8 => checked w 0x00F800FF#32 (.fins (offField w) (byteField w))
  | 0x02#8 => checked w 0x00F800FF#32 (.fext (offField w) (byteField w))
  | 0x03#8 => checked w 0x00F800FF#32 (.bins (offField w) (byteField w))
  | 0x04#8 => checked w 0x00F800FF#32 (.bext (offField w) (byteField w))
  | 0x05#8 => checked w 0x00FF00FF#32 (.lest (byteField w))
  | 0x06#8 => checked w 0x00FF00FF#32 (.leld (byteField w))
  | 0x07#8 => checked w 0x00FFFFFF#32 .bapk
  | 0x08#8 => checked w 0x00FFFFFF#32 .baup
  | 0x09#8 => checked w 0x0000FFFF#32 (.ence (idField w))
  | 0x0A#8 => checked w 0x0000FFFF#32 (.encd (idField w))
  | 0x0B#8 => checked w 0x0000FFFE#32 (.pack (idField w) (clrField w))
  | 0x0C#8 => checked w 0x0000FFFF#32 (.unpk (idField w))
  | 0x10#8 => checked w 0x0000FFFF#32 (.scfg (idField w))
  | 0x11#8 => checked w 0x0000FFFF#32 (.cnxt (idField w))
  | 0x20#8 => checked w 0x0000FFFF#32 (.mdrn (idField w))
  | 0x21#8 => checked w 0x0000FFFF#32 (.macq (idField w))
  | 0x22#8 => checked w 0x0000FFFF#32 (.msnd (idField w))
  | 0x23#8 => checked w 0x0000FFFF#32 (.mawt (idField w))
  | 0x30#8 => checked w 0x00000000#32 (.sdwr (idField w) (idxField w))
  | 0x31#8 => checked w 0x00000000#32 (.sdrd (idField w) (idxField w))
  | 0x40#8 => checked w 0x0000FFF0#32 (.alrq (idField w) (stField w))
  | 0x41#8 => checked w 0x0000FFF0#32 (.alwt (idField w) (stField w))
  | opc => .error (.unknownOpcode opc)

/-- Format F (R91). -/
def encF (opc : BitVec 8) (off : BitVec 3) (wid : BitVec 8) : Word :=
  (opc ++ 0#5 ++ off ++ wid ++ 0#8 : BitVec (8 + 5 + 3 + 8 + 8))

/-- Format N (R92). -/
def encN (opc : BitVec 8) (nb : BitVec 8) : Word :=
  (opc ++ 0#8 ++ nb ++ 0#8 : BitVec (8 + 8 + 8 + 8))

/-- Format Z (R93). -/
def encZ (opc : BitVec 8) : Word := (opc ++ 0#24 : BitVec (8 + 24))

/-- Formats E and S0, and L with `CLR = 0` (R94 to R96): an id in bits 23:16 and zeros below. -/
def encId (opc : BitVec 8) (id : BitVec 8) : Word := (opc ++ id ++ 0#16 : BitVec (8 + 8 + 16))

/-- Format L (R95). -/
def encL (opc : BitVec 8) (lid : BitVec 8) (clr : BitVec 1) : Word :=
  (opc ++ lid ++ 0#15 ++ clr : BitVec (8 + 8 + 15 + 1))

/-- Format S (R96). -/
def encS (opc : BitVec 8) (slv : BitVec 8) (idx : BitVec 16) : Word :=
  (opc ++ slv ++ idx : BitVec (8 + 8 + 16))

/-- Format A (R97). -/
def encA (opc : BitVec 8) (slv : BitVec 8) (st : BitVec 4) : Word :=
  (opc ++ slv ++ 0#12 ++ st : BitVec (8 + 8 + 12 + 4))

/-- The word of a command (30_encoding.md R91 to R97, R102). -/
def encode : Instr → Word
  | .fins off wid => encF 0x01#8 off wid
  | .fext off wid => encF 0x02#8 off wid
  | .bins off wid => encF 0x03#8 off wid
  | .bext off wid => encF 0x04#8 off wid
  | .lest nb => encN 0x05#8 nb
  | .leld nb => encN 0x06#8 nb
  | .bapk => encZ 0x07#8
  | .baup => encZ 0x08#8
  | .ence eid => encId 0x09#8 eid
  | .encd eid => encId 0x0A#8 eid
  | .pack lid clr => encL 0x0B#8 lid clr
  | .unpk lid => encId 0x0C#8 lid
  | .scfg slv => encId 0x10#8 slv
  | .cnxt slv => encId 0x11#8 slv
  | .mdrn slv => encId 0x20#8 slv
  | .macq slv => encId 0x21#8 slv
  | .msnd slv => encId 0x22#8 slv
  | .mawt slv => encId 0x23#8 slv
  | .sdwr slv idx => encS 0x30#8 slv idx
  | .sdrd slv idx => encS 0x31#8 slv idx
  | .alrq slv st => encA 0x40#8 slv st
  | .alwt slv st => encA 0x41#8 slv st

/-- The instruction the decoder reads from the `nbits`-bit word `w`, bit 0 the least significant bit
of the command word. A command is one 32-bit word (R90); the bits above `nbits` are 0. -/
def decodeTableWord (nbits w : Nat) : Option Instr :=
  match decode (BitVec.ofNat 32 (w % 2 ^ nbits)) with
  | .ok i => some i
  | .error _ => none

end Sys2Proof
end

