-- ==== Sys2Proof/Machine/HostInterface.lean ====
section
/-! DEFINITION. What the environment does to the block besides answering the Transport: host writes
(10_state.md R21, R22, R35, 70_reset_and_hazards.md R370), reset (R350, R351) and the ROM loader (R355),
and the host-program expansions of 30_encoding.md R104, R105. -/

namespace Sys2Proof.Machine

/-- A port is BUSY (10_state.md R23). -/
def Port.isBusy (p : Port) : Bool :=
  match p.pst with
  | .idle => false
  | .busy _ => true

/-- The state with port `p` changed by `f`; nothing changes where there is no such port (log 20). -/
def State.mapPort (s : State) (p : Nat) (f : Port → Port) : State := { s with ports := s.ports.modify p f }

/-- A host write of `OP[i]` (10_state.md R22): refused while the port is BUSY (R370) and while reset is
asserted (log 16). -/
def State.hostOp (s : State) (p : Nat) (i : Fin 8) (v : Word) : State :=
  if s.inReset then s
  else s.mapPort p fun pt => if pt.isBusy then pt else { pt with op := pt.op.set i v }

/-- A host write of `CMD` (10_state.md R21, R25): it starts the command, or is refused while the port is
BUSY (R370) and while reset is asserted (log 16). -/
def State.hostCmd (s : State) (p : Nat) (w : Word) : State :=
  if s.inReset then s
  else s.mapPort p fun pt =>
    if pt.isBusy then pt else { pt with cmd := w, stat := Stat.started, pst := .busy .start }

/-- A host write of `BM` bytes (10_state.md R35); a range that does not lie in `BM` changes nothing
(DESIGN CHOICE, log 18), nor does a write while reset is asserted (log 16). -/
def State.hostBm (s : State) (a : Nat) (bs : List Byte) : State :=
  if s.inReset || !s.inBm a bs.length then s else s.bmWrite a bs

/-- A port after a reset of a running block: the reset values, and hidden registers that are unspecified
(70_reset_and_hazards.md R350; log 6). -/
def Port.afterReset (maxMbxLen k : Nat) : Port :=
  { Port.reset maxMbxLen with hid := Hidden.free maxMbxLen k }

/-- A Slave Table entry after a reset of a running block: `CFG = 0`, `CNT = 1`, the other fields
unspecified (70_reset_and_hazards.md R350; log 5). -/
def Slave.afterReset (k : Nat) : Slave :=
  { cfg := false
    station := Config.freeBits .station 16 k
    wAddr := Config.freeBits .wAddr 16 k
    wLen := Config.freeBits .wLen 16 k
    wSm := Config.freeBits .wSm 8 k
    rAddr := Config.freeBits .rAddr 16 k
    rLen := Config.freeBits .rLen 16 k
    rSm := Config.freeBits .rSm 8 k
    cnt := 1 }

/-- Block reset (70_reset_and_hazards.md R350, R351): every port and Slave Table entry takes its reset
values, so every running command is abandoned without completing; `BM` (log 7), the ROMs and the
Transport operations done so far stay. -/
def State.assertReset (s : State) : State :=
  { s with
    inReset := true
    ports := s.ports.mapIdx fun i _ => Port.afterReset s.params.maxMbxLen (s.freeCtr + i)
    slaves := s.slaves.mapIdx fun i _ => Slave.afterReset (s.freeCtr + s.ports.length + i)
    freeCtr := s.freeCtr + s.ports.length + s.slaves.length }

/-- Reset is released (70_reset_and_hazards.md R355 step 2): the ROMs keep `VALID = 1` only where every
check passes (R355 step 1). Without an asserted reset there is nothing to release. -/
def State.releaseReset (s : State) : State :=
  if s.inReset then { s with inReset := false, roms := validateRoms s.roms } else s

/-- The loader writes a Layout ROM entry (70_reset_and_hazards.md R355 step 1, 30_encoding.md R98): only
while reset is asserted, for the ROM is not writable after reset (10_state.md R32). -/
def State.loadLayout (s : State) (lid : Nat) (hdr : Word) (descs : List (BitVec 64)) : State :=
  if s.inReset then
    { s with roms := { s.roms with layouts := s.roms.layouts.set lid (layoutOfBits hdr descs) } }
  else s

/-- The loader writes an Enum ROM entry (70_reset_and_hazards.md R355 step 1): only while reset is
asserted. -/
def State.loadEnum (s : State) (eid : Nat) (e : EnumEntry) : State :=
  if s.inReset then { s with roms := { s.roms with enums := s.roms.enums.set eid e } } else s

/-! ## Host programs (30_encoding.md R104, R105) -/

/-- The statement `<MNEMONIC> ...` for port `p`: the host writes `CMD` with the command's word. -/
def hostIssue (p : Nat) (i : Instr) : Event := .hostCmd p (encode i)

/-- What the host does after the SDRD of `SDREAD.T` has completed with `RS0 = n` (30_encoding.md R105,
42_sdo.md R262): `OP1 <- RS0`, `OP3 <-` the image base, then UNPK. -/
def typedReadTail (p : Nat) (n imageBase : Word) (lid : BitVec 8) : List Event :=
  [.hostOp p 1 n, .hostOp p 3 imageBase, hostIssue p (.unpk lid)]

/-- What the host does after the PACK of `SDWRITE.T` has completed (30_encoding.md R105, 42_sdo.md R262):
`OP0 <-` the scratch buffer, `OP1 <- N(L)`, `OP2 <-` the sub-index and flag, then SDWR. -/
def typedWriteTail (p : Nat) (buffer size sub : Word) (slv : BitVec 8) (idx : BitVec 16) : List Event :=
  [.hostOp p 0 buffer, .hostOp p 1 size, .hostOp p 2 sub, hostIssue p (.sdwr slv idx)]

end Sys2Proof.Machine
end

