-- ==== Sys2Proof/Machine/PortStep.lean ====
section
/-! DEFINITION. One atomic step of a port, and one event (10_state.md R20, R23, 20_memory.md R75). -/

namespace Sys2Proof.Machine

/-- The state in which port `p` is the running port and `d` is the environment's draw for its step. -/
def State.select (s : State) (p : Nat) (d : Draw) : State := { s with active := p, draw := d }

/-- Port `p` takes its next atomic step with the draw `d`: a BUSY port runs the command its `CMD` encodes,
and a word that encodes none completes at once with IllegalCommand (30_encoding.md R103). An IDLE port
does nothing (10_state.md R23), and neither does a port that does not exist (log 20). -/
def portStep (s : State) (p : Nat) (d : Draw) : Result :=
  match s.ports[p]? with
  | none => .next s
  | some pt =>
    match pt.pst with
    | .idle => .next s
    | .busy _ =>
      match decode pt.cmd with
      | .error _ => .next ((s.select p d).raise .illegalCommand)
      | .ok i => exec i (s.select p d)

/-- One event of the agenda. -/
def happen (s : State) : Event → Result
  | .hostOp p i v => .next (s.hostOp p i v)
  | .hostCmd p w => .next (s.hostCmd p w)
  | .hostBm a bs => .next (s.hostBm a bs)
  | .assertReset => .next s.assertReset
  | .releaseReset => .next s.releaseReset
  | .loadLayout lid hdr descs => .next (s.loadLayout lid hdr descs)
  | .loadEnum eid e => .next (s.loadEnum eid e)
  | .port p d => portStep s p d

end Sys2Proof.Machine
end

