-- ==== Sys2Proof/Machine/Step.lean ====
section
/-! DEFINITION. One step of the machine: the next event of the agenda happens (log 1). -/

namespace Sys2Proof.Machine

/-- One step. With nothing on the agenda the block waits (70_reset_and_hazards.md R350,
60_exceptions.md R330). -/
def step (s : State) : Host.Outcome State Fault Refusal :=
  match s.agenda with
  | [] => .next s
  | e :: rest => happen { s with agenda := rest } e

/-- The state in which the very next step runs the command word `w` at port 0: its `CMD` holds the word,
it is BUSY at the start of the command (10_state.md R21, R25), and it takes the next step, with no timeout
and an all-zero answer drawn (log 26). -/
def State.withFetchWord (s : State) (nbits w : Nat) : State :=
  let t := s.mapPort 0 fun pt =>
    { pt with cmd := BitVec.ofNat 32 (w % 2 ^ nbits), stat := Stat.started, pst := .busy .start }
  { t with agenda := .port 0 { timeout := false, answer := .ok [] } :: t.agenda }

end Sys2Proof.Machine
end

