-- ==== Sys2Proof/Machine/Runs.lean ====
section
/-! DEFINITION. Infinite runs of the machine, and the weak fairness of polls that says which of them the block
admits (41_mailbox.md R210, 43_al_gate.md R292, 70_reset_and_hazards.md R367). -/

namespace Sys2Proof.Machine

/-- `σ 0, σ 1, …` is an infinite run: each state is what the step before it answered, with the events the
environment has put on the agenda meanwhile. -/
def InfiniteRun (σ : Nat → State) : Prop :=
  ∀ k, ∃ t more, step (σ k) = .next t ∧ σ (k + 1) = { t with agenda := t.agenda ++ more }

/-- The micro-states that are poll loops: those of MACQ, MAWT, the exchange and ALWT (41_mailbox.md R211, R213,
R220, 43_al_gate.md R292). -/
def Micro.isPoll : Micro → Bool
  | .acquire => true
  | .await => true
  | .exch _ .acquire => true
  | .exch _ .await => true
  | .alPoll => true
  | _ => false

/-- Port `p` is in the poll loop `m`. -/
def Polls (s : State) (p : Nat) (m : Micro) : Prop :=
  m.isPoll = true ∧ ∃ pt, s.ports[p]? = some pt ∧ pt.pst = .busy m

/-- A mailbox status read answered `a` shows the full bit as `want` (41_mailbox.md R210). -/
def statusShows (want : Bool) (a : Answer) : Bool :=
  match a.fit 1 with
  | .ok b => isFull b == want
  | .err _ => false

/-- An AL status read answered `a` shows the state `st` (43_al_gate.md R292). -/
def stateShows (st : BitVec 4) (a : Answer) : Bool :=
  match a.fit 2 with
  | .ok w => alState (alWord w) == st
  | .err _ => false

/-- The read of command `i`'s poll loop `m`, answered `a`, shows what the loop waits for: a write mailbox that is
not full, a read mailbox that is full, the target state. -/
def pollSees (i : Instr) (m : Micro) (a : Answer) : Bool :=
  match i, m with
  | .macq _, .acquire => statusShows false a
  | .mawt _, .await => statusShows true a
  | .sdwr _ _, .exch _ .acquire => statusShows false a
  | .sdwr _ _, .exch _ .await => statusShows true a
  | .sdrd _ _, .exch _ .acquire => statusShows false a
  | .sdrd _ _, .exch _ .await => statusShows true a
  | .alwt _ st, .alPoll => stateShows st a
  | _, _ => false

/-- The next step is an iteration of port `p`'s poll loop `m` in which the timeout fires or the read shows what the
loop waits for. -/
def EndsPoll (s : State) (p : Nat) (m : Micro) : Prop :=
  ∃ d rest pt i, s.agenda = .port p d :: rest ∧ s.ports[p]? = some pt ∧ decode pt.cmd = .ok i ∧
    (d.timeout = true ∨ pollSees i m d.answer = true)

/-- Weak fairness (41_mailbox.md R210): a run in which a poll goes on forever and neither sees what it waits for nor
times out is not admitted. -/
def FairPolls (σ : Nat → State) : Prop :=
  ∀ k p m, (∀ j, k ≤ j → Polls (σ j) p m) → ∃ j, k ≤ j ∧ EndsPoll (σ j) p m

/-- A run the block admits: an infinite run that is fair to its polls. -/
structure AdmittedRun (σ : Nat → State) : Prop where
  run : InfiniteRun σ
  fair : FairPolls σ

end Sys2Proof.Machine
end

