-- ==== Sys2Proof/Safety.lean ====
section
/-! DEFINITION. The terms statements are made in: the invariant of the machine, what a step leaves
unchanged, how a command ends, and the run of one command through a list of draws. -/

namespace Sys2Proof.Machine

/-! ## The invariant -/

/-- The OPEN parameters lie in the ranges of 00_scope.md R10. -/
def paramsOk (s : State) : Bool :=
  decide (64 ≤ s.params.bmSize) && decide (s.params.bmSize ≤ 2 ^ 32)
    && decide (16 ≤ s.params.maxMbxLen) && decide (s.params.maxMbxLen ≤ 65535)
    && decide (1 ≤ s.ports.length) && decide (1 ≤ s.slaves.length) && decide (s.slaves.length ≤ 256)
    && decide (s.roms.layouts.length ≤ 256) && decide (s.roms.enums.length ≤ 256)

/-- A Slave Table entry: `CNT` is never 0 (10_state.md R30), and a configured entry's lengths lie in
`16 .. MAX_MBX_LEN` (41_mailbox.md R200). -/
def slaveOk (maxMbxLen : Nat) (sl : Slave) : Bool :=
  decide (sl.cnt ≠ 0) && (!sl.cfg || (decide (16 ≤ sl.wLen.toNat) && decide (sl.wLen.toNat ≤ maxMbxLen)
    && decide (16 ≤ sl.rLen.toNat) && decide (sl.rLen.toNat ≤ maxMbxLen)))

/-- `STAT` agrees with `PST` (10_state.md R25): `BUSY` is 1 exactly while the port is BUSY, `ERR` says
whether `ECODE` is not 0, and while BUSY every other field is 0. -/
def statOk (p : Port) : Bool :=
  (p.stat.busy == p.isBusy) && (p.stat.err == (p.stat.ecode != 0))
    && (!p.isBusy || p.stat == Stat.started)

/-- The fixed sizes of the hidden buffers (10_state.md R26). -/
def hiddenOk (maxMbxLen : Nat) (h : Hidden) : Bool :=
  decide (h.txBuf.length = 16) && decide (h.rxBuf.length = maxMbxLen)

/-- The handle names a configured entry of the Slave Table. -/
def slaveReady (slaves : List Slave) (slv : BitVec 8) : Bool :=
  decide (slv.toNat < slaves.length) && (slaves.getD slv.toNat default).cfg

/-- The micro-state `m` is one the command `i` of port `p` can be in (10_state.md R23), and what the
command has checked still holds: its slave is configured, its `BM` ranges lie in `BM`, and what it is about
to copy fits. -/
def microFits (s : State) (p : Port) (i : Instr) (m : Micro) : Bool :=
  let op0 := (p.op[0]).toNat
  let op1 := (p.op[1]).toNat
  let ready := slaveReady s.slaves
  let range := decide (op0 + op1 ≤ s.params.bmSize)
  match i, m with
  | _, .start => true
  | .mdrn slv, .drainStatus => ready slv
  | .mdrn slv, .drainRead => ready slv
  | .mdrn slv, .finish _ => ready slv
  | .macq slv, .acquire => ready slv
  | .macq slv, .finish _ => ready slv
  | .msnd slv, .send msg => ready slv && decide (msg.length = (s.slave slv).wLen.toNat)
  | .msnd slv, .finish _ => ready slv
  | .mawt slv, .await => ready slv && range && decide ((s.slave slv).rLen.toNat ≤ op1)
  | .mawt slv, .receive => ready slv && range && decide ((s.slave slv).rLen.toNat ≤ op1)
  | .mawt slv, .store => ready slv && range && decide ((s.slave slv).rLen.toNat ≤ op1)
  | .mawt slv, .finish _ => ready slv
  | .sdwr slv _, .counter .download val =>
    ready slv && range && decide (1 ≤ op1) && decide (op1 ≤ 4) && decide (val.length = op1)
  | .sdwr slv _, .exch .download _ => ready slv && range && decide (1 ≤ op1) && decide (op1 ≤ 4)
  | .sdwr slv _, .finish _ => ready slv
  | .sdrd slv _, .counter .initiate _ => ready slv && range
  | .sdrd slv _, .counter (.segment _) _ => ready slv && range && decide (p.hid.offset.toNat ≤ op1)
  | .sdrd slv _, .exch .initiate _ => ready slv && range
  | .sdrd slv _, .exch (.segment _) _ => ready slv && range && decide (p.hid.offset.toNat ≤ op1)
  | .sdrd slv _, .payload _ _ n => ready slv && range && decide (n ≤ op1)
  | .sdrd slv _, .chunk _ k => ready slv && range && decide (p.hid.offset.toNat + k ≤ op1)
  | .sdrd slv _, .finish _ => ready slv
  | .alrq slv _, .alControl => ready slv
  | .alrq slv _, .alCode => ready slv
  | .alrq slv _, .finish _ => ready slv
  | .alwt slv _, .alPoll => ready slv
  | .alwt slv _, .finish _ => ready slv
  | _, _ => false

/-- A port: `STAT`, the hidden buffers, and a micro-state of its own command. -/
def portOk (s : State) (p : Port) : Bool :=
  statOk p && hiddenOk s.params.maxMbxLen p.hid &&
    match p.pst with
    | .idle => true
    | .busy m =>
      match decode p.cmd with
      | .ok i => microFits s p i m
      | .error _ => m == .start

/-- The invariant of the machine. -/
structure State.Inv (s : State) : Prop where
  /-- The parameters are in range (00_scope.md R10). -/
  params : paramsOk s = true
  /-- `BM` is in canonical form. -/
  memWf : s.bm.wf = true
  /-- No listed `BM` address lies outside `0 .. BM_SIZE-1` (20_memory.md R71). -/
  memBelow : Memory.below s.params.bmSize s.bm = true
  /-- Every Slave Table entry is legal. -/
  slaves : s.slaves.all (slaveOk s.params.maxMbxLen) = true
  /-- Every port is in a state its command can be in. -/
  ports : s.ports.all (portOk s) = true
  /-- Once reset is released, the ROMs hold only well-formed entries with `VALID = 1`
  (40_codec.md R142, R143). -/
  roms : (s.inReset || romsOk s.roms) = true
  /-- While reset is asserted every port is IDLE (70_reset_and_hazards.md R350). -/
  quiet : (!s.inReset || s.ports.all fun p => !p.isBusy) = true

/-! ## Frames and ends -/

/-- The running port exists. -/
def Runnable (s : State) : Prop := s.active < s.ports.length

/-- What no step of a command writes: the parameters, the ROMs, the reset line, every register of every
other port, the running port's `CMD` and `OP` registers, and the model's own agenda, choice of port and
draw. -/
def Untouched (s t : State) : Prop :=
  t.params = s.params ∧ t.roms = s.roms ∧ t.inReset = s.inReset ∧
  t.ports.length = s.ports.length ∧ (∀ q, q ≠ s.active → t.ports[q]? = s.ports[q]?) ∧
  t.port.cmd = s.port.cmd ∧ t.port.op = s.port.op ∧
  t.agenda = s.agenda ∧ t.active = s.active ∧ t.draw = s.draw

/-- Every byte of `BM` reads as before. -/
def SameMemory (s t : State) : Prop := ∀ a, t.bm.read a = s.bm.read a

/-- `BM` holds the bytes `bs` from `a` on, and every other byte reads as before. -/
def Wrote (s t : State) (a : Nat) (bs : List Byte) : Prop :=
  (∀ k, k < bs.length → t.bm.read (a + k) = byteAt bs k) ∧
  ∀ x, (x < a ∨ a + bs.length ≤ x) → t.bm.read x = s.bm.read x

/-- The running port has completed: `RS`, `ECODE` and `XSTATE` as given, `BUSY = 0`, `DONE = 1`,
`ERR` = (`ECODE` is not 0), and it is IDLE (10_state.md R24, R25, R312). -/
def Done (t : State) (rs : Vector Word 4) (ecode : BitVec 8) (xstate : BitVec 4) : Prop :=
  t.port.rs = rs ∧ t.port.pst = .idle ∧
  t.port.stat = { busy := false, done := true, err := ecode != 0, ecode := ecode, xstate := xstate }

/-- The running port is BUSY in micro-state `m`, and its `RS` and `STAT` are as before
(70_reset_and_hazards.md R366). -/
def Goes (s t : State) (m : Micro) : Prop :=
  t.port.pst = .busy m ∧ t.port.rs = s.port.rs ∧ t.port.stat = s.port.stat

/-- Of the running port's hidden registers only `XS` changes, to `x` (10_state.md R26, 42_sdo.md R240). -/
def KeepsHidden (s t : State) (x : XState) : Prop := t.port.hid = { s.port.hid with xs := x }

/-- Of the running port's hidden registers only `XS` and `RXBUF` change: `XS` to `x`, and the first bytes of
`RXBUF` to `rx` (10_state.md R26, 41_mailbox.md R213, R220, 42_sdo.md R240). That the bytes of `RXBUF` behind
`rx` stay is the model's reading (log 23). -/
def KeepsResponse (s t : State) (rx : List Byte) (x : XState) : Prop :=
  t.port.hid = { s.port.hid with rxBuf := rx ++ s.port.hid.rxBuf.drop rx.length, xs := x }

/-- A Codec, Slave Table or check step touches neither the Slave Table nor the Transport. -/
def NoSlaveNoWire (s t : State) : Prop := t.slaves = s.slaves ∧ t.wire = s.wire

/-- The step of command `i` raises `e` and does nothing else: no `BM` byte, Slave Table entry or Transport
operation (60_exceptions.md R312, R313); `xstate` is what `STAT.XSTATE` becomes. -/
def Raises (i : Instr) (s : State) (e : Err) (xstate : BitVec 4) : Prop :=
  ∃ t, exec i s = .next t ∧ Untouched s t ∧ SameMemory s t ∧ NoSlaveNoWire s t ∧
    Done t e.info e.code xstate

/-- The step of command `i` goes on to micro-state `m`, sets `XS` to `x` and changes nothing else. -/
def AdvancesXs (i : Instr) (s : State) (m : Micro) (x : XState) : Prop :=
  ∃ t, exec i s = .next t ∧ Untouched s t ∧ SameMemory s t ∧ NoSlaveNoWire s t ∧ Goes s t m ∧ KeepsHidden s t x

/-- The step of command `i` goes on to micro-state `m` and changes nothing else. -/
def Advances (i : Instr) (s : State) (m : Micro) : Prop := AdvancesXs i s m s.port.hid.xs

/-- From `s` to `t` the one Transport operation `op` is made and recorded with the answer drawn for it, and the
port goes on to micro-state `m`; neither `BM` nor the Slave Table changes. -/
def Transacted (s t : State) (op : TransportOp) (m : Micro) : Prop :=
  Untouched s t ∧ SameMemory s t ∧ t.slaves = s.slaves ∧ t.wire = (op, s.answer op) :: s.wire ∧ Goes s t m

/-- The step of command `i` is the one Transport operation `op`, and then goes on to micro-state `m` with `XS` at
`x`; every other hidden register stays. -/
def TransactsXs (i : Instr) (s : State) (op : TransportOp) (m : Micro) (x : XState) : Prop :=
  ∃ t, exec i s = .next t ∧ Transacted s t op m ∧ KeepsHidden s t x

/-- The step of command `i` is the one Transport operation `op`, and then goes on to micro-state `m`; every hidden
register stays. -/
def Transacts (i : Instr) (s : State) (op : TransportOp) (m : Micro) : Prop := TransactsXs i s op m s.port.hid.xs

/-- The step of command `i` is the Transport operation `op`, whose answer `rx` `RXBUF` now holds, and then goes
on to micro-state `m` with `XS` at `x`; every other hidden register stays. -/
def ReceivesXs (i : Instr) (s : State) (op : TransportOp) (rx : List Byte) (m : Micro) (x : XState) : Prop :=
  ∃ t, exec i s = .next t ∧ Transacted s t op m ∧ KeepsResponse s t rx x

/-- The step of command `i` is the Transport operation `op`, whose answer `rx` `RXBUF` now holds, and then goes
on to micro-state `m`; every other hidden register stays. -/
def Receives (i : Instr) (s : State) (op : TransportOp) (rx : List Byte) (m : Micro) : Prop :=
  ReceivesXs i s op rx m s.port.hid.xs

/-- The completion step of command `i` writes the results `c` and changes nothing else
(60_exceptions.md R312, 70_reset_and_hazards.md R366). -/
def Completes (i : Instr) (s : State) (c : Completion) : Prop :=
  ∃ t, exec i s = .next t ∧ Untouched s t ∧ SameMemory s t ∧ NoSlaveNoWire s t ∧
    Done t c.rs c.ecode c.xstate

/-- The step of command `i` completes it with success and the results `rs`; of `BM` exactly the bytes `bs`
from `a` on are written, and neither the Slave Table nor the Transport is touched. -/
def Succeeds (i : Instr) (s : State) (a : Nat) (bs : List Byte) (rs : Vector Word 4) : Prop :=
  ∃ t, exec i s = .next t ∧ Untouched s t ∧ NoSlaveNoWire s t ∧ Wrote s t a bs ∧ Done t rs 0 0

/-- The bytes `BM[a .. a+n-1]`. -/
def bytesAt (s : State) (a n : Nat) : List Byte := (List.range n).map fun k => s.bm.read (a + k)

/-- The read of the status register of sync manager `sm` (41_mailbox.md R210, 00_scope.md R10). -/
def statusRead (sl : Slave) (sm : BitVec 8) : TransportOp :=
  .read sl.station (0x0805#16 + 8#16 * sm.setWidth 16) 1

/-- A Transport operation is a write. -/
def isWrite : TransportOp → Bool
  | .read _ _ _ => false
  | .write _ _ _ => true

/-- The successor of a counter value (41_mailbox.md R204). -/
def succCount (n : BitVec 3) : BitVec 3 := if n = 7#3 then 1#3 else n + 1#3

/-- The Slave Table after the counter step on `slv` (41_mailbox.md R205). -/
def countedSlaves (s : State) (slv : BitVec 8) : List Slave :=
  s.slaves.set slv.toNat { s.slave slv with cnt := succCount (s.slave slv).cnt }

/-- The results of a command that ended with error `e`, as its completion step will write them. -/
def errResults (e : Err) (xstate : BitVec 4) : Completion := { rs := e.info, ecode := e.code, xstate := xstate }

/-- The results of a command that succeeded, as its completion step will write them. -/
def okResults (rs : Vector Word 4) (xstate : BitVec 4) : Completion := { rs := rs, ecode := 0, xstate := xstate }

/-- The running port exists and is BUSY in micro-state `m`. -/
def At (s : State) (m : Micro) : Prop := Runnable s ∧ s.port.pst = .busy m

/-! ## Layouts and values in their domain -/

/-- Layout `a` has a STRUCT field that names layout `b` (40_codec.md R142, WF-STRUCT). -/
def Nests (r : Roms) (a b : Nat) : Prop :=
  ∃ l f, r.layouts[a]? = some l ∧ f ∈ l.fields ∧ f.kind = .struct ∧ f.ref = b

/-- A component is one of `Value(L)` (40_codec.md R161), a UINT component being below `2^(bits f)`. -/
def valueOk (r : Roms) (bits : FieldDesc → Nat) (nestOk : Nat → List Value → Bool) (f : FieldDesc)
    (x : Value) : Bool :=
  match f.kind, x with
  | .uint, .num v => decide (v < 2 ^ bits f)
  | .bool, .bool _ => true
  | .enum, .variant j =>
    match enumEntry r f.ref with
    | some e => decide (j < e.variants.length)
    | none => false
  | .struct, .struct vs => nestOk f.ref vs
  | .bytes, .bytes bs => decide (bs.length = f.w / 8)
  | .skip, .unit => true
  | .zst, .unit => true
  | _, _ => false

/-- One component per field (40_codec.md R161). -/
def valuesOk (r : Roms) (bits : FieldDesc → Nat) (nestOk : Nat → List Value → Bool) :
    List FieldDesc → List Value → Bool
  | [], [] => true
  | f :: fs, x :: xs => valueOk r bits nestOk f x && valuesOk r bits nestOk fs xs
  | _, _ => false

/-- `vs` is a `Value(L)` whose UINT components, at every level, are below `2^(bits f)`. -/
def valuesOkAt (r : Roms) (bits : FieldDesc → Nat) : Nat → Nat → List Value → Bool
  | 0, _, _ => false
  | depth + 1, lid, vs => valuesOk r bits (valuesOkAt r bits depth) (layoutRaw r lid).fields vs

/-- `vs` is a `Value(L)` (40_codec.md R161): a UINT component is below `2^(8*TS)`. -/
def inDomain (r : Roms) (depth lid : Nat) (vs : List Value) : Bool :=
  valuesOkAt r (fun f => 8 * f.ts) depth lid vs

/-- `vs` has its fields "in valid bit ranges" (40_codec.md R180): a UINT component is below `2^W`. -/
def inRange (r : Roms) (depth lid : Nat) (vs : List Value) : Bool :=
  valuesOkAt r (fun f => f.w) depth lid vs

/-- Bit `k` of a packed buffer, bit `8b + i` being bit `i` of byte `b` (40_codec.md R140). -/
def bitAt (buf : List Byte) (k : Nat) : Bool := (byteAt buf (k / 8)).getLsbD (k % 8)

/-- A field of `L` occupies bit `k` (40_codec.md R140). -/
def occupied (l : LayoutEntry) (k : Nat) : Bool :=
  l.fields.any fun f => decide (startBit f ≤ k) && decide (k < endBit f)

/-! ## Runs of one command -/

/-- The running port takes one atomic step of command `i` for each draw, one after another, nothing else
happening in between. -/
def runCommand (i : Instr) : List Draw → State → Result
  | [], s => .next s
  | d :: ds, s =>
    match exec i { s with draw := d } with
    | .next t => runCommand i ds t
    | .fault r => .fault r
    | .refused r => .refused r

/-- Whether a mailbox status read answered with this draw shows the full bit (41_mailbox.md R210). -/
def statusOf (d : Draw) : Option Bool :=
  match d.answer.fit 1 with
  | .ok b => some (isFull b)
  | .err _ => none

/-- A poll iteration that does not time out and whose status read shows the full bit as given. -/
def shows (full : Bool) (d : Draw) : Bool := !d.timeout && statusOf d == some full

/-- The Transport answers `Ok`. -/
def isOk (d : Draw) : Bool :=
  match d.answer with
  | .ok _ => true
  | .err _ => false

/-- The draws of a drain that goes through (41_mailbox.md R212): an empty read mailbox, or a full one
that is read. -/
def drains : List Draw → Bool
  | [d] => statusOf d == some false
  | [d, e] => statusOf d == some true && isOk e
  | _ => false

/-- The draws of one exchange (41_mailbox.md R220) that reads the response `rx`: the drain, polls of a
write mailbox that is full, then not full, the request write, polls of a read mailbox that is not full,
then full, and the read. -/
def Exchanges (sl : Slave) (ds : List Draw) (rx : List Byte) : Prop :=
  ∃ drain polls₁ acquired sent polls₂ filled read,
    ds = drain ++ polls₁ ++ [acquired, sent] ++ polls₂ ++ [filled, read] ∧
    drains drain = true ∧ (∀ d ∈ polls₁, shows true d = true) ∧ shows false acquired = true ∧
    isOk sent = true ∧ (∀ d ∈ polls₂, shows false d = true) ∧ shows true filled = true ∧
    read.answer.fit sl.rLen.toNat = .ok rx

/-- The value `k` counter steps after `c` in the cycle 1..7 (41_mailbox.md R204, R207). -/
def counterAfter (c : BitVec 3) (k : Nat) : BitVec 3 := BitVec.ofNat 3 ((c.toNat - 1 + k) % 7 + 1)

/-- A safe run: it meets neither a fault nor a refusal in any number of steps. -/
def SafeRun (s : State) : Prop := ∀ n, ∃ t, Sys2Proof.core.run n s = .next t

end Sys2Proof.Machine
end

