-- ==== Sys2Proof/Certificates/Slice0/Obligations.lean ====
section
/-! DEFINITION. The statements for the provers. Each docstring names the rule of spec/ it formalises. -/

open Sys2Proof Sys2Proof.Machine

/-! ## Encoding and decoding -/

/-- Decoding the word of a command gives the command back, with every operand at every value its field
holds (30_encoding.md R90 to R97, R102). -/
def Obligations.DecodeAfterEncodeIsIdentity : Prop := ∀ i : Instr, decode (encode i) = .ok i

/-- A word that decodes is the word of the command it decodes to: each command has one word
(30_encoding.md R90 to R97, R102). -/
def Obligations.EncodeAfterDecodeIsIdentity : Prop :=
  ∀ (w : Word) (i : Instr), decode w = .ok i → encode i = w

/-- The rows of the opcode map, each the bits its format fixes and their values (30_encoding.md R91 to R97,
R102). For BINS and BEXT the width field is left out: R147 and R148 check it. -/
def opcodeRows : List (Word × Word) :=
  [ (0xFFF800FF, 0x01000000), (0xFFF800FF, 0x02000000), (0xFFF800FF, 0x03000000),
    (0xFFF800FF, 0x04000000), (0xFFFF00FF, 0x05000000), (0xFFFF00FF, 0x06000000),
    (0xFFFFFFFF, 0x07000000), (0xFFFFFFFF, 0x08000000), (0xFF00FFFF, 0x09000000),
    (0xFF00FFFF, 0x0A000000), (0xFF00FFFE, 0x0B000000), (0xFF00FFFF, 0x0C000000),
    (0xFF00FFFF, 0x10000000), (0xFF00FFFF, 0x11000000), (0xFF00FFFF, 0x20000000),
    (0xFF00FFFF, 0x21000000), (0xFF00FFFF, 0x22000000), (0xFF00FFFF, 0x23000000),
    (0xFF000000, 0x30000000), (0xFF000000, 0x31000000), (0xFF00FFF0, 0x40000000),
    (0xFF00FFF0, 0x41000000) ]

/-- The legal ranges of the fields of a word, by opcode (40_codec.md R145 to R150, 43_al_gate.md R290). -/
def legalFields (w : Word) : Prop :=
  let opc := w.toNat / 2 ^ 24
  let off := w.toNat / 2 ^ 16 % 8
  let mid := w.toNat / 2 ^ 8 % 256
  ((opc = 0x01 ∨ opc = 0x02) → mid ≤ 8 ∧ off + mid ≤ 8) ∧
  ((opc = 0x03 ∨ opc = 0x04) → mid = 1) ∧
  ((opc = 0x05 ∨ opc = 0x06) → mid ∈ [1, 2, 4, 8]) ∧
  ((opc = 0x40 ∨ opc = 0x41) → w.toNat % 16 ∈ [1, 2, 3, 4, 8])

/-- A word decodes exactly where it matches a row of the opcode map (30_encoding.md R90, R102, R103). -/
def Obligations.DecodesExactlyTheOpcodeMap : Prop :=
  ∀ w : Word, (∃ i, decode w = .ok i) ↔ ∃ r ∈ opcodeRows, w &&& r.1 = r.2

/-- A few words written out from the formats of 30_encoding.md decode to their commands. -/
def Obligations.WrittenWordsDecode : Prop :=
  decode 0x01020300#32 = .ok (.fins 2#3 3#8) ∧ decode 0x04040100#32 = .ok (.bext 4#3 1#8) ∧
  decode 0x05000800#32 = .ok (.lest 8#8) ∧ decode 0x08000000#32 = .ok .baup ∧
  decode 0x0A010000#32 = .ok (.encd 1#8) ∧ decode 0x0B010001#32 = .ok (.pack 1#8 1#1) ∧
  decode 0x11020000#32 = .ok (.cnxt 2#8) ∧ decode 0x23000000#32 = .ok (.mawt 0#8) ∧
  decode 0x31001018#32 = .ok (.sdrd 0#8 0x1018#16) ∧ decode 0x40000004#32 = .ok (.alrq 0#8 4#4)

/-! ## Steps, host writes, reset -/

/-- Where the next event is a step of a BUSY port whose `CMD` encodes a command, the machine's step is that
command's step at that port, with the draw of the event (10_state.md R23, 20_memory.md R75). The agenda of
events is the model's choice (log 1). -/
def Obligations.StepRunsTheDecodedCommand : Prop :=
  ∀ (s : State) (p : Nat) (d : Draw) (rest : List Event) (pt : Port) (m : Micro) (i : Instr),
    s.agenda = .port p d :: rest → s.ports[p]? = some pt → pt.pst = .busy m → decode pt.cmd = .ok i →
    step s = exec i { s with agenda := rest, active := p, draw := d }

/-- An illegal command word: its `OPC` is not in the opcode map, or a reserved bit of its format is 1, or a
field is outside its legal range. The command completes at once with IllegalCommand and no other effect
(30_encoding.md R103). -/
def Obligations.IllegalWordCompletesAtOnce : Prop :=
  ∀ (s : State) (p : Nat) (d : Draw) (rest : List Event) (pt : Port),
    s.agenda = .port p d :: rest → s.ports[p]? = some pt → pt.pst = .busy .start →
    ¬((∃ r ∈ opcodeRows, pt.cmd &&& r.1 = r.2) ∧ legalFields pt.cmd) →
    ∃ t, step s = .next t ∧ Untouched { s with agenda := rest, active := p, draw := d } t ∧
      SameMemory s t ∧ NoSlaveNoWire s t ∧ Done t #v[0, 0, 0, 0] 0x0E 0

/-- A host write of `CMD` while the port is idle (and reset released) starts the command: `CMD` holds the
word, `BUSY` is 1 and every other field of `STAT` is 0, and nothing else changes (10_state.md R21, R25). -/
def Obligations.HostWriteOfCmdStartsTheCommand : Prop :=
  ∀ (s : State) (p : Nat) (w : Word) (rest : List Event) (pt : Port),
    s.agenda = .hostCmd p w :: rest → s.inReset = false → s.ports[p]? = some pt → pt.pst = .idle →
    step s = .next { s with
      agenda := rest
      ports := s.ports.set p { pt with
        cmd := w, pst := .busy .start
        stat := { busy := true, done := false, err := false, ecode := 0, xstate := 0 } } }

/-- A host write of `CMD` or of any `OP[i]` while the port is BUSY is refused: nothing changes, and nothing
records the refusal (70_reset_and_hazards.md R370). -/
def Obligations.HostWritesWhileBusyAreRefused : Prop :=
  ∀ (s : State) (p : Nat) (rest : List Event) (pt : Port) (m : Micro),
    s.ports[p]? = some pt → pt.pst = .busy m →
    (∀ w, s.agenda = .hostCmd p w :: rest → step s = .next { s with agenda := rest }) ∧
    (∀ i v, s.agenda = .hostOp p i v :: rest → step s = .next { s with agenda := rest })

/-- With reset released, a host write of `OP[i]` of an idle port sets that register and nothing else, and a
host write of `BM` bytes that lie in `BM` sets those bytes and nothing else (10_state.md R22, R35). -/
def Obligations.HostWritesOperandsAndMemory : Prop :=
  ∀ (s : State) (rest : List Event), s.inReset = false → s.bm.wf = true →
    (∀ (p : Nat) (i : Fin 8) (v : Word) (pt : Port), s.agenda = .hostOp p i v :: rest →
      s.ports[p]? = some pt → pt.pst = .idle →
      ∃ op' : Vector Word 8, op'[i] = v ∧ (∀ j : Fin 8, j ≠ i → op'[j] = pt.op[j]) ∧
        step s = .next { s with agenda := rest, ports := s.ports.set p { pt with op := op' } }) ∧
    (∀ (a : Nat) (bs : List Byte), s.agenda = .hostBm a bs :: rest →
      a + bs.length ≤ s.params.bmSize →
      ∃ m', step s = .next { s with agenda := rest, bm := m' } ∧
        (∀ k, k < bs.length → m'.read (a + k) = byteAt bs k) ∧
        ∀ x, (x < a ∨ a + bs.length ≤ x) → m'.read x = s.bm.read x)

/-- What asserting reset leaves: every port's `CMD`, `OP`, `RS` and `STAT` 0 and its `PST` IDLE, whatever it
was running; every Slave Table entry `CFG = 0` and `CNT = 1`; the ROMs, the parameters, and the Transport
operations done so far unchanged (70_reset_and_hazards.md R350, R351, R352). That `BM` is kept is the
model's reading of R351 (log 7). -/
def Obligations.ResetClearsPortsAndHandles : Prop :=
  ∀ (s : State) (rest : List Event), s.agenda = .assertReset :: rest →
    ∃ t, step s = .next t ∧ t.ports.length = s.ports.length ∧ t.slaves.length = s.slaves.length ∧
      (∀ p ∈ t.ports, p.cmd = 0#32 ∧ (∀ i : Fin 8, p.op[i] = 0#32) ∧ (∀ i : Fin 4, p.rs[i] = 0#32) ∧
        p.stat.word = 0#32 ∧ p.pst = .idle) ∧
      (∀ sl ∈ t.slaves, sl.cfg = false ∧ sl.cnt = 1#3) ∧
      t.roms = s.roms ∧ t.params = s.params ∧ t.wire = s.wire ∧ t.bm = s.bm

/-- Right after reset every port register is 0 and every port IDLE, every Slave Table entry has `CFG = 0`
and `CNT = 1`, and no command has run (10_state.md R38). The values R38 leaves unspecified are the model's
own (log 4 to log 6) and are not stated; that the reset line is released is log 16. -/
def Obligations.ResetStateHoldsTheSpecValues : Prop :=
  (∀ p ∈ State.reset.ports, p.cmd = 0#32 ∧ (∀ i : Fin 8, p.op[i] = 0#32) ∧
    (∀ i : Fin 4, p.rs[i] = 0#32) ∧ p.stat.word = 0#32 ∧ p.pst = .idle) ∧
  (∀ sl ∈ State.reset.slaves, sl.cfg = false ∧ sl.cnt = 1#3) ∧
  State.reset.inReset = false ∧ State.reset.wire = []

/-- A port leaves `IDLE` only by a host write of its `CMD`, and returns to `IDLE` only by completing its
command, `DONE` being 1 then, or by reset (10_state.md R23, 70_reset_and_hazards.md R351). -/
def Obligations.PortsStartByHostWriteAndStopByCompleting : Prop :=
  ∀ (s t : State) (q : Nat) (pt pt' : Port), step s = .next t → s.ports[q]? = some pt →
    t.ports[q]? = some pt' →
    (pt.pst = .idle → pt'.pst ≠ .idle → ∃ w rest, s.agenda = .hostCmd q w :: rest ∧
      pt'.cmd = w ∧ pt'.pst = .busy .start) ∧
    (pt.pst ≠ .idle → pt'.pst = .idle →
      (∃ rest, s.agenda = .assertReset :: rest) ∨
      (∃ d rest, s.agenda = .port q d :: rest) ∧ pt'.stat.busy = false ∧ pt'.stat.done = true)

/-! ## The whole machine -/

/-- The checks of an Enum ROM entry (40_codec.md R143); at most 256 variants by 10_state.md R34. -/
def EnumChecks (e : EnumEntry) : Prop :=
  e.u ∈ [1, 2, 4, 8] ∧ 1 ≤ e.variants.length ∧ e.variants.length ≤ 256 ∧
  (∀ v ∈ e.variants, v.prim < 2 ^ (8 * e.u) ∧ ∀ a ∈ v.alts, a < 2 ^ (8 * e.u)) ∧
  (e.variants.flatMap fun v => v.prim :: v.alts).Nodup

/-- The checks of one field of a layout of `n` bytes (40_codec.md R142: WF-KIND, WF-SIZE, WF-WIDE, WF-NARROW,
WF-BOOL, WF-UINT, WF-ENUM, WF-STRUCT but for the cycles, WF-BYTES, WF-ZERO), and that the descriptor's numbers fit
their ROM fields (10_state.md R33). -/
def FieldChecks (r : Roms) (n : Nat) (f : FieldDesc) : Prop :=
  let narrow := f.w ≤ 8 → f.off + f.w ≤ 8
  (f.b < 2 ^ 16 ∧ f.off < 8 ∧ f.w < 2 ^ 16 ∧ f.ts < 16 ∧ f.ref < 256) ∧
  8 * f.b + f.off + f.w ≤ 8 * n ∧ (8 < f.w → f.off = 0 ∧ f.w % 8 = 0) ∧
  match f.kind with
  | .uint => narrow ∧ f.ts ∈ [1, 2, 4, 8] ∧ 1 ≤ f.w ∧ f.w ≤ 8 * f.ts ∧ (8 < f.w → f.w = 8 * f.ts)
  | .bool => narrow ∧ f.w = 1
  | .enum => narrow ∧ ∃ e, r.enums[f.ref]? = some e ∧ e.valid = true ∧ 1 ≤ f.w ∧ f.w ≤ 8 * e.u ∧
      (8 < f.w → f.w = 8 * e.u) ∧ ∀ v ∈ e.variants, v.prim < 2 ^ f.w
  | .struct => narrow ∧ ∃ g, r.layouts[f.ref]? = some g ∧ g.valid = true ∧
      (8 < f.w ∧ f.w = 8 * g.n ∨
        1 ≤ f.w ∧ f.w ≤ 8 ∧ g.n = 1 ∧ ∀ h ∈ g.fields, 8 * h.b + h.off + h.w ≤ f.w)
  | .bytes => f.off = 0 ∧ 8 ≤ f.w ∧ f.w % 8 = 0
  | .skip | .zst => f.w = 0
  | .reserved _ => False

/-- The checks of the Layout ROM entry `l` of id `lid` (40_codec.md R142): those of its fields, WF-ORDER over the
fields with `W > 0`, that it does not reach itself through STRUCT fields, and that its numbers fit the header
(30_encoding.md R98). -/
def LayoutChecks (r : Roms) (lid : Nat) (l : LayoutEntry) : Prop :=
  l.n < 2 ^ 16 ∧ l.fields.length < 256 ∧ (∀ f ∈ l.fields, FieldChecks r l.n f) ∧
  ((l.fields.filter fun f => 0 < f.w).IsChain fun f g => 8 * f.b + f.off + f.w ≤ 8 * g.b + g.off) ∧
  ¬Relation.TransGen (Nests r) lid lid

/-- The ROMs (10_state.md R32 to R34, 20_memory.md R80, 30_encoding.md R98, R99, 40_codec.md R142, R143,
70_reset_and_hazards.md R355): while reset is asserted the loader writes the one entry it names, a Layout ROM
entry as its header and descriptor words say; releasing reset ends it, keeps every entry's contents, and leaves
`VALID = 1` exactly where every check holds; while reset is released no step writes a ROM or a parameter.
The model's readings and choices in this: how reset is asserted and released (log 16), a reserved bit or a missing
descriptor (log 17), that a chain of nested layouts is followed to its end (log 19), ids out of range (log 20),
numbers for ROM fields (log 25), 256 variants (log 28), `TS` and `REF` of kinds that do not use them (log 29). -/
def Obligations.RomsAreLoadedCheckedAndThenFixed : Prop :=
  (∀ s t : State, step s = .next t → s.inReset = false → t.roms = s.roms ∧ t.params = s.params) ∧
  ∀ (s : State) (rest : List Event), s.inReset = true →
    (∀ lid hdr descs, s.agenda = .loadLayout lid hdr descs :: rest →
      ∃ l, step s = .next { s with
          agenda := rest, roms := { s.roms with layouts := s.roms.layouts.set lid l } } ∧
        let k := hdr.toNat / 2 ^ 16 % 256
        (l.valid = true ↔ hdr.toNat / 2 ^ 31 = 1 ∧ hdr.toNat / 2 ^ 24 % 128 = 0 ∧ k ≤ descs.length ∧
          ∀ d ∈ descs.take k, d.toNat / 2 ^ 51 = 0) ∧
        l.n = hdr.toNat % 2 ^ 16 ∧ l.fields.length = min k descs.length ∧
        ∀ (i : Nat) f d, l.fields[i]? = some f → descs[i]? = some d →
          let code := d.toNat / 2 ^ 35 % 16
          f.off = d.toNat % 8 ∧ f.b = d.toNat / 2 ^ 3 % 2 ^ 16 ∧ f.w = d.toNat / 2 ^ 19 % 2 ^ 16 ∧
          f.ts = d.toNat / 2 ^ 39 % 16 ∧ f.ref = d.toNat / 2 ^ 43 % 256 ∧
          f.kind = [Kind.uint, .bool, .enum, .struct, .bytes, .skip, .zst].getD code (.reserved code)) ∧
    (∀ eid e, s.agenda = .loadEnum eid e :: rest →
      step s = .next { s with agenda := rest, roms := { s.roms with enums := s.roms.enums.set eid e } }) ∧
    (s.agenda = .releaseReset :: rest →
      ∃ r, step s = .next { s with agenda := rest, inReset := false, roms := r } ∧
        r.enums.length = s.roms.enums.length ∧ r.layouts.length = s.roms.layouts.length ∧
        (∀ (eid : Nat) e, s.roms.enums[eid]? = some e →
          ∃ v, r.enums[eid]? = some { e with valid := v } ∧ (v = true ↔ e.valid = true ∧ EnumChecks e)) ∧
        ∀ (lid : Nat) l, s.roms.layouts[lid]? = some l →
          ∃ v, r.layouts[lid]? = some { l with valid := v } ∧
            (v = true ↔ l.valid = true ∧ LayoutChecks r lid l))

/-- While `CFG = 1`, every step but a reset leaves a Slave Table entry as it is except for its counter,
which stays or takes its successor (10_state.md R30, 41_mailbox.md R200, 70_reset_and_hazards.md R352). -/
def Obligations.ConfiguredEntriesChangeOnlyInTheirCounter : Prop :=
  ∀ (s t : State) (k : Nat) (sl : Slave), step s = .next t →
    (∀ rest, s.agenda ≠ .assertReset :: rest) → s.slaves[k]? = some sl → sl.cfg = true →
    t.slaves[k]? = some sl ∨ t.slaves[k]? = some { sl with cnt := succCount sl.cnt }

/-- No step of a command writes its port's `CMD` or `OP` registers, any register of another port, the ROMs
or the parameters (10_state.md R21, R22, 60_exceptions.md R310, R319). -/
def Obligations.CommandStepsLeaveOthersAlone : Prop :=
  ∀ (i : Instr) (s t : State), Runnable s → exec i s = .next t → Untouched s t

/-- `RS` and `STAT` are written only by a step that completes the command: a step after which the port is
still BUSY leaves both as they were, and one after which it is IDLE has set `DONE` (10_state.md R24, R25,
70_reset_and_hazards.md R366). -/
def Obligations.ResultsAppearOnlyAtCompletion : Prop :=
  ∀ (i : Instr) (s t : State), Runnable s → exec i s = .next t →
    (∃ m, Goes s t m) ∨
    (t.port.pst = .idle ∧ t.port.stat.busy = false ∧ t.port.stat.done = true ∧
      t.port.stat.err = (t.port.stat.ecode != 0))

/-- The machine right after reset meets the invariant, with the values the model chose for what the spec
leaves open (log 2 to log 6). -/
def Obligations.ResetStateMeetsTheInvariant : Prop := State.reset.Inv

/-- Every step keeps the invariant: parameters in range, `BM` canonical and inside `BM_SIZE`, counters never
0 and mailbox lengths legal, `STAT` agreeing with `PST`, every port in a micro-state of its own command with
its checks still holding, ROM entries with `VALID = 1` well formed (10_state.md R23, R25, R30, 40_codec.md
R142, R143, 20_memory.md R65, R71). -/
def Obligations.StepsKeepTheInvariant : Prop :=
  ∀ s t : State, s.Inv → step s = .next t → t.Inv

/-- From a state that meets the invariant the machine never stops: every step of every run answers a next
state, for an error is a way for a command to complete (60_exceptions.md R310) and no run reaches the fault
of log 12. -/
def Obligations.RunsNeverStop : Prop := ∀ s : State, s.Inv → SafeRun s

/-- Every command answers a next state at every micro-state it can be in: FINS, FEXT, BINS, BEXT, LEST, LELD,
BAPK, BAUP, ENCE, ENCD, PACK, UNPK, SCFG, CNXT, MDRN, MACQ, MSND, MAWT, SDWR, SDRD, ALRQ, ALWT (10_state.md
R23, log 12). -/
def Obligations.EveryCommandStepAnswersNext : Prop :=
  ∀ (i : Instr) (s : State), microFits s s.port i s.micro = true → ∃ t, exec i s = .next t

/-- What R367 says of termination (70_reset_and_hazards.md R367): a codec command, SCFG and CNXT complete in one
step, without a Transport operation, and a codec command does not touch the Slave Table; MSND completes in at
most three steps and MDRN and ALRQ in at most four, whatever is drawn; every poll of MACQ, MAWT, ALWT or an
exchange ends, in an infinite run the block admits. Of MACQ, MAWT, ALWT, SDWR and SDRD it says that their polls
end, not that they complete: R367 lets a segmented SDRD run forever. What one atomic step is and which runs the
block admits (41_mailbox.md R210) are the model's readings (log 10, log 21). -/
def Obligations.BoundedCommandsCompleteAndPollsEnd : Prop :=
  (∀ (i : Instr) (s : State), Runnable s →
    ((∃ off wid, i = .fins off wid) ∨ (∃ off wid, i = .fext off wid) ∨ (∃ off wid, i = .bins off wid) ∨
      (∃ off wid, i = .bext off wid) ∨ (∃ nb, i = .lest nb) ∨ (∃ nb, i = .leld nb) ∨ i = .bapk ∨
      i = .baup ∨ (∃ e, i = .ence e) ∨ (∃ e, i = .encd e) ∨ (∃ l c, i = .pack l c) ∨
      (∃ l, i = .unpk l)) →
    ∃ t, exec i s = .next t ∧ t.port.pst = .idle ∧ t.port.stat.done = true ∧ NoSlaveNoWire s t) ∧
  (∀ (slv : BitVec 8) (s : State), Runnable s →
    (∃ t, exec (.scfg slv) s = .next t ∧ t.port.pst = .idle ∧ t.port.stat.done = true ∧
      t.wire = s.wire) ∧
    (∃ t, exec (.cnxt slv) s = .next t ∧ t.port.pst = .idle ∧ t.port.stat.done = true ∧
      t.wire = s.wire)) ∧
  (∀ (i : Instr) (n : Nat) (s : State) (ds : List Draw),
    ((∃ slv, i = .msnd slv) ∧ n = 3 ∨ (∃ slv, i = .mdrn slv) ∧ n = 4 ∨ (∃ slv st, i = .alrq slv st) ∧ n = 4) →
    At s .start → ds.length = n →
    ∃ k t, k ≤ n ∧ runCommand i (ds.take k) s = .next t ∧ t.port.pst = .idle ∧ t.port.stat.done = true) ∧
  (∀ σ, AdmittedRun σ → ∀ k p m, Polls (σ k) p m → ∃ j, k < j ∧ ¬Polls (σ j) p m)

/-- No State Gate command writes a Slave Table field, a `BM` byte or, while it runs, the port's SDO
registers (43_al_gate.md R294). -/
def Obligations.StateGateTouchesNoMailboxState : Prop :=
  ∀ (slv : BitVec 8) (st : BitVec 4) (s t : State), Runnable s →
    (exec (.alrq slv st) s = .next t ∨ exec (.alwt slv st) s = .next t) →
    t.slaves = s.slaves ∧ t.bm = s.bm ∧ (t.port.pst ≠ .idle → t.port.hid = s.port.hid)

/-- A command does not read the hidden registers an earlier command left (10_state.md R26, R27), as two runs
show: from its start, its steps one after another with nothing in between, the same command with the same draws
does the same to `BM`, the Slave Table, the Transport, `RS` and `STAT`, whatever those registers hold. What one
atomic step is, is the model's reading (log 10). -/
def Obligations.EarlierHiddenStateIsNeverRead : Prop :=
  ∀ (i : Instr) (s : State) (h : Hidden) (ds : List Draw) (t t' : State),
    At s .start → s.slaves.all (slaveOk s.params.maxMbxLen) = true →
    runCommand i ds s = .next t → runCommand i ds (s.setHid h) = .next t' →
    t'.bm = t.bm ∧ t'.slaves = t.slaves ∧ t'.wire = t.wire ∧ t'.port.rs = t.port.rs ∧
      t'.port.stat = t.port.stat ∧ t'.port.pst = t.port.pst

/-- The error codes of 60_exceptions.md R311, the information of R313, and the bit positions of `STAT`
(10_state.md R25). -/
def Obligations.ErrorCodesInformationAndStatusBits : Prop :=
  (∀ (st : DevAddr) (code t r : BitVec 32) (al idx : BitVec 16) (sub : BitVec 8),
    (Err.bufferTooShort.code = 0x01 ∧ Err.readBufferTooShort.code = 0x02 ∧ Err.invalidValue.code = 0x03 ∧
      (Err.mailboxTimeout st).code = 0x04 ∧ (Err.sdoAborted code idx sub).code = 0x05 ∧
      (Err.sdoResponseInvalid idx sub).code = 0x06 ∧ (Err.stateTransition al).code = 0x07 ∧
      Err.notSupported.code = 0x08 ∧ Err.timeout.code = 0x09 ∧ (Err.transport t).code = 0x0A ∧
      Err.illegalAddress.code = 0x0D ∧ Err.illegalCommand.code = 0x0E ∧
      (Err.unspecified r).code = 0x0F) ∧
    (Err.mailboxTimeout st).info = #v[st.setWidth 32, 0, 0, 0] ∧
    (Err.sdoAborted code idx sub).info = #v[code, idx.setWidth 32, sub.setWidth 32, 0] ∧
    (Err.sdoResponseInvalid idx sub).info = #v[0, idx.setWidth 32, sub.setWidth 32, 0] ∧
    (Err.stateTransition al).info = #v[al.setWidth 32, 0, 0, 0] ∧
    (Err.transport t).info = #v[t, 0, 0, 0] ∧ (Err.unspecified r).info = #v[r, 0, 0, 0] ∧
    ∀ e ∈ [Err.bufferTooShort, .readBufferTooShort, .invalidValue, .notSupported, .timeout,
      .illegalAddress, .illegalCommand], e.info = #v[0, 0, 0, 0]) ∧
  ∀ st : Stat, st.word.getLsbD 0 = st.busy ∧ st.word.getLsbD 1 = st.done ∧ st.word.getLsbD 2 = st.err ∧
    st.word.extractLsb' 3 5 = 0#5 ∧ st.word.extractLsb' 8 8 = st.ecode ∧
    st.word.extractLsb' 16 4 = st.xstate ∧ st.word.extractLsb' 20 12 = 0#12

/-! ## Codec Unit: field primitives -/

/-- FINS (40_codec.md R145): the checks in order, then `byte |= (value << OFF) & mask`. -/
def Obligations.FinsMergesIntoOneByte : Prop :=
  ∀ (off : BitVec 3) (wid : BitVec 8) (s : State), Runnable s → s.bm.wf = true →
    let legal := wid.toNat ≤ 8 ∧ off.toNat + wid.toNat ≤ 8
    let a := s.op 0 + s.op 2
    let mask := ((1 <<< wid.toNat) - 1) <<< off.toNat
    let b : Byte := BitVec.ofNat 8 ((s.bm.read a).toNat ||| ((s.op 3 <<< off.toNat) &&& mask))
    (¬legal → Raises (.fins off wid) s .illegalCommand 0) ∧
    (legal → s.params.bmSize < s.op 0 + s.op 1 → Raises (.fins off wid) s .illegalAddress 0) ∧
    (legal → s.op 0 + s.op 1 ≤ s.params.bmSize → s.op 1 ≤ s.op 2 →
      Raises (.fins off wid) s .bufferTooShort 0) ∧
    (legal → s.op 0 + s.op 1 ≤ s.params.bmSize → s.op 2 < s.op 1 →
      Succeeds (.fins off wid) s a [b] #v[b.setWidth 32, 0, 0, 0])

/-- FEXT (40_codec.md R146): its word, the checks in order, then `(byte & mask) >> OFF`; `BM` is not written.
-/
def Obligations.FextExtractsOneField : Prop :=
  ∀ (off : BitVec 3) (wid : BitVec 8) (s : State), Runnable s →
    let legal := wid.toNat ≤ 8 ∧ off.toNat + wid.toNat ≤ 8
    let mask := ((1 <<< wid.toNat) - 1) <<< off.toNat
    let v := ((s.bm.read (s.op 0 + s.op 2)).toNat &&& mask) >>> off.toNat
    encode (.fext off wid) = 0x02#8 ++ 0#5 ++ off ++ wid ++ 0#8 ∧
    (¬legal → Raises (.fext off wid) s .illegalCommand 0) ∧
    (legal → s.params.bmSize < s.op 0 + s.op 1 → Raises (.fext off wid) s .illegalAddress 0) ∧
    (legal → s.op 0 + s.op 1 ≤ s.params.bmSize → s.op 1 ≤ s.op 2 →
      Raises (.fext off wid) s .readBufferTooShort 0) ∧
    (legal → s.op 0 + s.op 1 ≤ s.params.bmSize → s.op 2 < s.op 1 →
      Succeeds (.fext off wid) s 0 [] #v[BitVec.ofNat 32 v, 0, 0, 0])

/-- BINS (40_codec.md R147): the checks in order, then bit `OFF` of the byte is set if `OP[3]` is not 0 and
kept otherwise; every other bit is kept. -/
def Obligations.BinsSetsOneBit : Prop :=
  ∀ (off : BitVec 3) (wid : BitVec 8) (s : State), Runnable s → s.bm.wf = true →
    let a := s.op 0 + s.op 2
    (wid ≠ 1#8 → Raises (.bins off wid) s .illegalCommand 0) ∧
    (wid = 1#8 → s.params.bmSize < s.op 0 + s.op 1 → Raises (.bins off wid) s .illegalAddress 0) ∧
    (wid = 1#8 → s.op 0 + s.op 1 ≤ s.params.bmSize → s.op 1 ≤ s.op 2 →
      Raises (.bins off wid) s .bufferTooShort 0) ∧
    (wid = 1#8 → s.op 0 + s.op 1 ≤ s.params.bmSize → s.op 2 < s.op 1 →
      ∃ b : Byte, Succeeds (.bins off wid) s a [b] #v[b.setWidth 32, 0, 0, 0] ∧
        ∀ k, k < 8 → b.getLsbD k =
          ((s.bm.read a).getLsbD k || (decide (k = off.toNat) && decide (s.op 3 ≠ 0))))

/-- BEXT (40_codec.md R148): its word, the checks in order, then bit `OFF` of the byte. -/
def Obligations.BextReadsOneBit : Prop :=
  ∀ (off : BitVec 3) (wid : BitVec 8) (s : State), Runnable s →
    encode (.bext off wid) = 0x04#8 ++ 0#5 ++ off ++ wid ++ 0#8 ∧
    (wid ≠ 1#8 → Raises (.bext off wid) s .illegalCommand 0) ∧
    (wid = 1#8 → s.params.bmSize < s.op 0 + s.op 1 → Raises (.bext off wid) s .illegalAddress 0) ∧
    (wid = 1#8 → s.op 0 + s.op 1 ≤ s.params.bmSize → s.op 1 ≤ s.op 2 →
      Raises (.bext off wid) s .readBufferTooShort 0) ∧
    (wid = 1#8 → s.op 0 + s.op 1 ≤ s.params.bmSize → s.op 2 < s.op 1 →
      Succeeds (.bext off wid) s 0 []
        #v[if (s.bm.read (s.op 0 + s.op 2)).getLsbD off.toNat then 1 else 0, 0, 0, 0])

/-- LEST (40_codec.md R149): its word, the checks in order, then the low `NB` bytes of the 64-bit value, least
significant first, overwrite the buffer bytes from the index on. -/
def Obligations.LestStoresLittleEndian : Prop :=
  ∀ (nb : BitVec 8) (s : State), Runnable s → s.bm.wf = true →
    let legal := nb.toNat ∈ [1, 2, 4, 8]
    let v := s.op 4 * 2 ^ 32 + s.op 3
    encode (.lest nb) = 0x05#8 ++ 0#8 ++ nb ++ 0#8 ∧
    (¬legal → Raises (.lest nb) s .illegalCommand 0) ∧
    (legal → s.params.bmSize < s.op 0 + s.op 1 → Raises (.lest nb) s .illegalAddress 0) ∧
    (legal → s.op 0 + s.op 1 ≤ s.params.bmSize → s.op 1 < s.op 2 + nb.toNat →
      Raises (.lest nb) s .bufferTooShort 0) ∧
    (legal → s.op 0 + s.op 1 ≤ s.params.bmSize → s.op 2 + nb.toNat ≤ s.op 1 →
      Succeeds (.lest nb) s (s.op 0 + s.op 2)
        ((List.range nb.toNat).map fun k => BitVec.ofNat 8 (v / 256 ^ k)) #v[nb.setWidth 32, 0, 0, 0])

/-- LELD (40_codec.md R150): its word, the checks in order, then the unsigned value of the `NB` bytes, least
significant first, in `RS[0]` and `RS[1]`. -/
def Obligations.LeldLoadsLittleEndian : Prop :=
  ∀ (nb : BitVec 8) (s : State), Runnable s →
    let legal := nb.toNat ∈ [1, 2, 4, 8]
    let v := ∑ k ∈ Finset.range nb.toNat, (s.bm.read (s.op 0 + s.op 2 + k)).toNat * 256 ^ k
    encode (.leld nb) = 0x06#8 ++ 0#8 ++ nb ++ 0#8 ∧
    (¬legal → Raises (.leld nb) s .illegalCommand 0) ∧
    (legal → s.params.bmSize < s.op 0 + s.op 1 → Raises (.leld nb) s .illegalAddress 0) ∧
    (legal → s.op 0 + s.op 1 ≤ s.params.bmSize → s.op 1 < s.op 2 + nb.toNat →
      Raises (.leld nb) s .readBufferTooShort 0) ∧
    (legal → s.op 0 + s.op 1 ≤ s.params.bmSize → s.op 2 + nb.toNat ≤ s.op 1 →
      Succeeds (.leld nb) s 0 [] #v[BitVec.ofNat 32 v, BitVec.ofNat 32 (v / 2 ^ 32), 0, 0])

/-- BAPK (40_codec.md R151): the checks in order, then the `OP[4]` source bytes, all read before any is
written, are copied to the buffer from the index on. -/
def Obligations.BapkCopiesIntoTheBuffer : Prop :=
  ∀ s : State, Runnable s → s.bm.wf = true →
    let inside := s.op 0 + s.op 1 ≤ s.params.bmSize ∧ s.op 3 + s.op 4 ≤ s.params.bmSize
    (¬inside → Raises .bapk s .illegalAddress 0) ∧
    (inside → s.op 1 < s.op 2 + s.op 4 → Raises .bapk s .bufferTooShort 0) ∧
    (inside → s.op 2 + s.op 4 ≤ s.op 1 →
      Succeeds .bapk s (s.op 0 + s.op 2) (bytesAt s (s.op 3) (s.op 4))
        #v[s.port.op[4], 0, 0, 0])

/-- BAUP (40_codec.md R152): its word, the checks in order, then the `OP[4]` buffer bytes from the index on,
all read before any is written, are copied to the destination. -/
def Obligations.BaupCopiesOutOfTheBuffer : Prop :=
  ∀ s : State, Runnable s → s.bm.wf = true →
    let inside := s.op 0 + s.op 1 ≤ s.params.bmSize ∧ s.op 3 + s.op 4 ≤ s.params.bmSize
    encode .baup = 0x08#8 ++ 0#24 ∧
    (¬inside → Raises .baup s .illegalAddress 0) ∧
    (inside → s.op 1 < s.op 2 + s.op 4 → Raises .baup s .readBufferTooShort 0) ∧
    (inside → s.op 2 + s.op 4 ≤ s.op 1 →
      Succeeds .baup s (s.op 3) (bytesAt s (s.op 0 + s.op 2) (s.op 4)) #v[s.port.op[4], 0, 0, 0])

/-- ENCE (40_codec.md R153): IllegalCommand for an invalid entry or a variant out of range, else the primary
discriminant of the variant. -/
def Obligations.EnceGivesThePrimary : Prop :=
  ∀ (eid : BitVec 8) (s : State), Runnable s →
    ((¬∃ e, s.roms.enums[eid.toNat]? = some e ∧ e.valid = true) →
      Raises (.ence eid) s .illegalCommand 0) ∧
    ∀ e, s.roms.enums[eid.toNat]? = some e → e.valid = true →
      (e.variants.length ≤ s.op 3 → Raises (.ence eid) s .illegalCommand 0) ∧
      ∀ v, e.variants[s.op 3]? = some v →
        Succeeds (.ence eid) s 0 []
          #v[BitVec.ofNat 32 v.prim, BitVec.ofNat 32 (v.prim / 2 ^ 32), 0, 0]

/-- ENCD (40_codec.md R154, R171): its word; IllegalCommand for an invalid entry; the variant the raw value
names as a primary or an alternate; InvalidValue if it names none. -/
def Obligations.EncdGivesTheVariantNamed : Prop :=
  ∀ (eid : BitVec 8) (s : State), Runnable s →
    encode (.encd eid) = 0x0A#8 ++ eid ++ 0#16 ∧
    ((¬∃ e, s.roms.enums[eid.toNat]? = some e ∧ e.valid = true) →
      Raises (.encd eid) s .illegalCommand 0) ∧
    ∀ e, s.roms.enums[eid.toNat]? = some e → enumOk e = true →
      let r := s.op 4 * 2 ^ 32 + s.op 3
      (∀ j v, e.variants[j]? = some v → (r = v.prim ∨ r ∈ v.alts) →
        Succeeds (.encd eid) s 0 [] #v[BitVec.ofNat 32 j, 0, 0, 0]) ∧
      ((∀ v ∈ e.variants, r ≠ v.prim ∧ r ∉ v.alts) → Raises (.encd eid) s .invalidValue 0)

/-! ## Codec Unit: layouts -/

/-- PACK (40_codec.md R165): the checks in order, then the packed bytes of the value image, over zeros
(`CLR = 1`) or over the bytes the buffer holds (`CLR = 0`), and `RS[0] = N(L)`. -/
def Obligations.PackWritesThePackedBytes : Prop :=
  ∀ (lid : BitVec 8) (clr : BitVec 1) (s : State), Runnable s → s.bm.wf = true →
    ((¬∃ l, s.roms.layouts[lid.toNat]? = some l ∧ l.valid = true) →
      Raises (.pack lid clr) s .illegalCommand 0) ∧
    ∀ l, s.roms.layouts[lid.toNat]? = some l → l.valid = true →
      let depth := s.roms.layouts.length
      let size := imgSize s.roms depth lid.toNat
      let inside := s.op 0 + s.op 1 ≤ s.params.bmSize ∧ s.op 3 + size ≤ s.params.bmSize
      let base := if clr = 1#1 then List.replicate l.n 0#8 else bytesAt s (s.op 0) l.n
      (¬inside → Raises (.pack lid clr) s .illegalAddress 0) ∧
      (inside → s.op 1 < l.n → Raises (.pack lid clr) s .bufferTooShort 0) ∧
      (inside → l.n ≤ s.op 1 → readImage s.roms depth lid.toNat (bytesAt s (s.op 3) size) = none →
        Raises (.pack lid clr) s .illegalCommand 0) ∧
      (∀ vs, inside → l.n ≤ s.op 1 →
        readImage s.roms depth lid.toNat (bytesAt s (s.op 3) size) = some vs →
        (packInto s.roms depth lid.toNat vs base).length = l.n ∧
        Succeeds (.pack lid clr) s (s.op 0) (packInto s.roms depth lid.toNat vs base)
          #v[BitVec.ofNat 32 l.n, 0, 0, 0])

/-- UNPK (40_codec.md R170): the checks in order, then the value image of what the first `N(L)` buffer bytes
unpack to, all or nothing, and `RS[0] = N(L)`; the image of a well-formed layout has `img_size(L)` bytes. -/
def Obligations.UnpkWritesTheValueImage : Prop :=
  ∀ (lid : BitVec 8) (s : State), Runnable s → s.bm.wf = true →
    ((¬∃ l, s.roms.layouts[lid.toNat]? = some l ∧ l.valid = true) →
      Raises (.unpk lid) s .illegalCommand 0) ∧
    ∀ l, s.roms.layouts[lid.toNat]? = some l → l.valid = true →
      let depth := s.roms.layouts.length
      let size := imgSize s.roms depth lid.toNat
      let inside := s.op 0 + s.op 1 ≤ s.params.bmSize ∧ s.op 3 + size ≤ s.params.bmSize
      let found := unpackFrom s.roms depth lid.toNat (bytesAt s (s.op 0) l.n)
      (¬inside → Raises (.unpk lid) s .illegalAddress 0) ∧
      (inside → s.op 1 < l.n → Raises (.unpk lid) s .readBufferTooShort 0) ∧
      (inside → l.n ≤ s.op 1 → found = none → Raises (.unpk lid) s .invalidValue 0) ∧
      (∀ vs, inside → l.n ≤ s.op 1 → found = some vs →
        Succeeds (.unpk lid) s (s.op 3) (image s.roms depth lid.toNat vs)
          #v[BitVec.ofNat 32 l.n, 0, 0, 0] ∧
        (layoutOk s.roms depth l = true → (image s.roms depth lid.toNat vs).length = size))

/-- Round trip (40_codec.md R180): for a valid layout and a value with its fields in valid bit ranges,
unpacking what was packed into zeros gives the value back. -/
def Obligations.UnpackAfterPackGivesTheValueBack : Prop :=
  ∀ (r : Roms) (lid : Nat) (l : LayoutEntry) (vs : List Value), r.layouts[lid]? = some l →
    layoutOk r r.layouts.length l = true → inRange r r.layouts.length lid vs = true →
    unpackFrom r r.layouts.length lid
      (packInto r r.layouts.length lid vs (List.replicate l.n 0#8)) = some vs

/-- The number of bytes of a field's slot in the value image (40_codec.md R160). -/
def slotLength (r : Roms) (depth : Nat) (f : FieldDesc) : Nat :=
  match f.kind with
  | .uint | .bool | .enum | .skip => 8
  | .struct => imgSize r depth f.ref
  | .bytes => f.w / 8
  | .zst | .reserved _ => 0

/-- The bytes of a component's slot (40_codec.md R160, R172): eight bytes, least significant first, of the
number, of 1 or 0, of the variant index, or of the default 0; a nested image; the array itself. -/
def slotOf (r : Roms) (depth : Nat) (f : FieldDesc) (x : Value) : List Byte :=
  let eight (v : Nat) : List Byte := (List.range 8).map fun k => BitVec.ofNat 8 (v / 256 ^ k)
  match f.kind, x with
  | .uint, .num v => eight v
  | .bool, .bool b => eight (if b then 1 else 0)
  | .enum, .variant j => eight j
  | .skip, _ => eight 0
  | .struct, .struct vs => image r depth f.ref vs
  | .bytes, .bytes bs => bs
  | _, _ => []

/-- What a slot reads as (40_codec.md R161): the number modulo `2^(8*TS)`, true where it is not 0, the
variant it is the index of, a nested value, the array; a SKIP or ZST slot is not looked at. -/
def slotReadsAs (r : Roms) (depth : Nat) (f : FieldDesc) (slot : List Byte) (x : Value) : Prop :=
  let v := ∑ k ∈ Finset.range slot.length, (byteAt slot k).toNat * 256 ^ k
  match f.kind, x with
  | .uint, .num n => n = v % 2 ^ (8 * f.ts)
  | .bool, .bool b => b = decide (v ≠ 0)
  | .enum, .variant j => j = v ∧ ∃ e, r.enums[f.ref]? = some e ∧ v < e.variants.length
  | .struct, .struct vs => readImage r depth f.ref slot = some vs
  | .bytes, .bytes bs => bs = slot
  | .skip, .unit | .zst, .unit => True
  | _, _ => False

/-- A value image holds its value (40_codec.md R160, R161): it is the slots of the fields one after another,
its size is the sum of theirs, reading it gives the value back, and reading any image gives what its slots
read as, field by field, or nothing where some slot reads as nothing. -/
def Obligations.ReadingAnImageGivesTheValueBack : Prop :=
  (∀ (r : Roms) (lid : Nat) (l : LayoutEntry) (vs : List Value), r.layouts[lid]? = some l →
    layoutOk r r.layouts.length l = true → inDomain r r.layouts.length lid vs = true →
    (image r r.layouts.length lid vs).length = imgSize r r.layouts.length lid ∧
    readImage r r.layouts.length lid (image r r.layouts.length lid vs) = some vs) ∧
  ∀ (r : Roms) (depth lid : Nat) (l : LayoutEntry), r.layouts[lid]? = some l →
    layoutOk r (depth + 1) l = true →
    imgSize r (depth + 1) lid = (l.fields.map (slotLength r depth)).sum ∧
    (∀ vs, image r (depth + 1) lid vs = (List.zipWith (slotOf r depth) l.fields vs).flatten) ∧
    ∀ slots vs, List.Forall₂ (fun f slot => slot.length = slotLength r depth f) l.fields slots →
      (readImage r (depth + 1) lid slots.flatten = some vs ↔ vs.length = l.fields.length ∧
        ∀ (i : Nat) f slot x, l.fields[i]? = some f → slots[i]? = some slot → vs[i]? = some x →
          slotReadsAs r depth f slot x)

/-- Bit `j` of what a field holds after pack (40_codec.md R162, R163): for a field of at most 8 bits the old
bit OR bit `j` of the number, of the boolean, of the primary discriminant or of the nested byte packed into
zero; for a wider one bit `j` of the number or of the nested bytes, least significant byte first; for BYTES
bit `j` of the array. -/
def packedBit (r : Roms) (depth : Nat) (f : FieldDesc) (x : Value) (buf : List Byte) (j : Nat) : Bool :=
  let old := decide (f.w ≤ 8) && bitAt buf (startBit f + j)
  match f.kind, x with
  | .uint, .num v => old || v.testBit j
  | .bool, .bool b => old || b
  | .enum, .variant k => old || ((r.enums[f.ref]?).bind (·.variants[k]?)).any (·.prim.testBit j)
  | .bytes, .bytes bs => bitAt bs j
  | .struct, .struct vs =>
    if f.w ≤ 8 then old || bitAt (packInto r depth f.ref vs [0#8]) j
    else bitAt (packInto r depth f.ref vs ((buf.drop f.b).take (f.w / 8))) j
  | _, _ => false

/-- What a field unpacks to (40_codec.md R168, R171): the number its bits are, true where they are not 0, the
variant they name, the array; a nested layout unpacks its own bytes, or the one byte its bits are. -/
def unpacksAs (r : Roms) (depth : Nat) (f : FieldDesc) (buf : List Byte) (x : Value) : Prop :=
  let v := ∑ j ∈ Finset.range f.w, (bitAt buf (startBit f + j)).toNat * 2 ^ j
  match f.kind, x with
  | .uint, .num n => n = v
  | .bool, .bool b => b = decide (v ≠ 0)
  | .enum, .variant j => ∃ e d, r.enums[f.ref]? = some e ∧ e.variants[j]? = some d ∧ (v = d.prim ∨ v ∈ d.alts)
  | .bytes, .bytes bs => bs = (buf.drop f.b).take (f.w / 8)
  | .struct, .struct vs =>
    unpackFrom r depth f.ref (if f.w ≤ 8 then [BitVec.ofNat 8 v] else (buf.drop f.b).take (f.w / 8)) = some vs
  | .skip, .unit | .zst, .unit => True
  | _, _ => False

/-- Where the fields of a layout lie and what they hold (40_codec.md R140, R162, R163, R168, R181): packing
one field of a valid layout changes only the bits that field occupies, no bit of a sibling or of padding;
packing a value gives every field the bits of its component; unpacking gives what the fields' bits are, field
by field, or nothing where some field's bits are nothing. -/
def Obligations.FieldsArePackedAndUnpackedInPlace : Prop :=
  ∀ (r : Roms) (depth : Nat) (l : LayoutEntry) (buf : List Byte),
    layoutOk r (depth + 1) l = true → buf.length = l.n →
    (∀ f x, f ∈ l.fields → valueOk r (fun g => 8 * g.ts) (valuesOkAt r (fun g => 8 * g.ts) depth) f x = true →
      (packField r (packInto r depth) f x buf).length = l.n ∧
      ∀ k, ¬(startBit f ≤ k ∧ k < endBit f) →
        bitAt (packField r (packInto r depth) f x buf) k = bitAt buf k) ∧
    ∀ lid, r.layouts[lid]? = some l →
      (∀ vs (i : Nat) f x, inDomain r (depth + 1) lid vs = true → l.fields[i]? = some f → vs[i]? = some x →
        ∀ j, j < f.w →
          bitAt (packInto r (depth + 1) lid vs buf) (startBit f + j) = packedBit r depth f x buf j) ∧
      ∀ vs, unpackFrom r (depth + 1) lid buf = some vs ↔ vs.length = l.fields.length ∧
        ∀ (i : Nat) f x, l.fields[i]? = some f → vs[i]? = some x → unpacksAs r depth f buf x

/-- Merging into a buffer (40_codec.md R165, R184): where the occupied bits of the buffer are 0, `CLR = 0`
gives every occupied bit the value `CLR = 1` gives it; every padding bit keeps its old value, and is 0 with
`CLR = 1`. -/
def Obligations.MergePackKeepsPaddingBits : Prop :=
  ∀ (r : Roms) (lid : Nat) (l : LayoutEntry) (vs : List Value) (buf : List Byte),
    r.layouts[lid]? = some l → layoutOk r r.layouts.length l = true →
    inDomain r r.layouts.length lid vs = true → buf.length = l.n →
    let merged := packInto r r.layouts.length lid vs buf
    let cleared := packInto r r.layouts.length lid vs (List.replicate l.n 0#8)
    (∀ k, occupied l k = false → bitAt merged k = bitAt buf k ∧ bitAt cleared k = false) ∧
    ((∀ k, occupied l k = true → bitAt buf k = false) →
      ∀ k, occupied l k = true → bitAt merged k = bitAt cleared k)

/-- Alternates (40_codec.md R182, R171): every alternate of a variant, and its primary, decode to that
variant; a value that is neither of any variant decodes to none. -/
def Obligations.AlternatesDecodeToTheirVariant : Prop :=
  ∀ e : EnumEntry, enumOk e = true →
    (∀ j v, e.variants[j]? = some v →
      enumDecode e v.prim = some j ∧ ∀ a ∈ v.alts, enumDecode e a = some j) ∧
    (∀ r, (∀ v ∈ e.variants, r ≠ v.prim ∧ r ∉ v.alts) → enumDecode e r = none)

/-! ## Slave Table and counter -/

/-- SCFG (41_mailbox.md R200): IllegalCommand for a handle out of range or already configured or a length
outside `16 .. MAX_MBX_LEN`; else the entry holds the operands, `CNT = 1`, `CFG = 1`. -/
def Obligations.ScfgConfiguresAHandleOnce : Prop :=
  ∀ (slv : BitVec 8) (s : State), Runnable s →
    let wl := (s.port.op[1]).extractLsb' 16 16
    let rl := (s.port.op[2]).extractLsb' 16 16
    let legal := slv.toNat < s.slaves.length ∧ (s.slave slv).cfg = false ∧
      16 ≤ wl.toNat ∧ wl.toNat ≤ s.params.maxMbxLen ∧ 16 ≤ rl.toNat ∧ rl.toNat ≤ s.params.maxMbxLen
    (¬legal → Raises (.scfg slv) s .illegalCommand 0) ∧
    (legal → ∃ t, exec (.scfg slv) s = .next t ∧ Untouched s t ∧ SameMemory s t ∧ t.wire = s.wire ∧
      t.slaves = s.slaves.set slv.toNat
        { cfg := true
          station := (s.port.op[0]).extractLsb' 0 16
          wAddr := (s.port.op[1]).extractLsb' 0 16
          wLen := wl
          wSm := (s.port.op[3]).extractLsb' 0 8
          rAddr := (s.port.op[2]).extractLsb' 0 16
          rLen := rl
          rSm := (s.port.op[3]).extractLsb' 8 8
          cnt := 1#3 } ∧
      Done t #v[1, 0, 0, 0] 0 0)

/-- CNXT (41_mailbox.md R205): IllegalCommand for a handle out of range or not configured; else the counter
is returned as it was and advances to its successor. -/
def Obligations.CnxtReturnsAndAdvancesTheCounter : Prop :=
  ∀ (slv : BitVec 8) (s : State), Runnable s →
    (s.configured slv = false → Raises (.cnxt slv) s .illegalCommand 0) ∧
    (s.configured slv = true → ∃ t, exec (.cnxt slv) s = .next t ∧ Untouched s t ∧ SameMemory s t ∧
      t.wire = s.wire ∧ t.slaves = countedSlaves s slv ∧
      Done t #v[(s.slave slv).cnt.setWidth 32, 0, 0, 0] 0 0)

/-- The counter values the step from `s` to `t` takes on a slave and hands to a command: `RS[0]` of a CNXT, or
`CUR_CNT` of an SDWR or SDRD, the counter its request carries (41_mailbox.md R205, R206). -/
def takenBy (slv : BitVec 8) (s t : State) : List Nat :=
  match s.agenda with
  | .port p _ :: _ =>
    match s.ports[p]?, t.ports[p]? with
    | some pt, some pt' =>
      match pt.pst, decode pt.cmd with
      | .busy _, .ok (.cnxt v) => if v = slv then [(pt'.rs[0]).toNat] else []
      | .busy (.counter _ _), .ok (.sdwr v _) => if v = slv then [pt'.hid.curCnt.toNat] else []
      | .busy (.counter _ _), .ok (.sdrd v _) => if v = slv then [pt'.hid.curCnt.toNat] else []
      | _, _ => []
    | _, _ => []
  | _ => []

/-- The counter values taken on a slave in the next `n` steps of the machine, in order. -/
def takenIn (slv : BitVec 8) : Nat → State → List Nat
  | 0, _ => []
  | n + 1, s =>
    match step s with
    | .next t => takenBy slv s t ++ takenIn slv n t
    | _ => []

/-- The counter sequence (41_mailbox.md R204, R206, R207): in any run without a reset, the counter steps on one
slave, CNXT's and the SDO requests', by any mix of ports, take successive values of the cycle
1, 2, …, 7, 1, …, never 0, and leave the counter at the next one. The agenda that interleaves the ports is the
model's choice (log 1). -/
def Obligations.CounterStepsFollowTheCycle : Prop :=
  ∀ (slv : BitVec 8) (s : State) (n : Nat), s.Inv → s.configured slv = true →
    .assertReset ∉ s.agenda.take n →
    let c := (s.slave slv).cnt
    let vs := takenIn slv n s
    vs = (List.range vs.length).map (fun k => (counterAfter c k).toNat) ∧ (∀ v ∈ vs, 1 ≤ v ∧ v ≤ 7) ∧
    ∃ t, Sys2Proof.core.run n s = .next t ∧ t.configured slv = true ∧
      (t.slave slv).cnt = counterAfter c vs.length

/-! ## Mailbox Channel -/

/-- MDRN (41_mailbox.md R212): one status read of the read mailbox; if it shows full, one read of the whole
mailbox, whose bytes go nowhere, and `RS[0] = 1`; else `RS[0] = 0`. What one atomic step is, is the model's
reading (log 10). -/
def Obligations.MdrnDrainsAFullMailbox : Prop :=
  ∀ (slv : BitVec 8) (s : State),
    let sl := s.slave slv
    let status := statusRead sl sl.rSm
    let whole : TransportOp := .read sl.station sl.rAddr sl.rLen.toNat
    (At s .start → s.configured slv = false → Raises (.mdrn slv) s .illegalCommand 0) ∧
    (At s .start → s.configured slv = true → Advances (.mdrn slv) s .drainStatus) ∧
    (At s .drainStatus →
      (∀ b, s.answer status = .ok b → (byteAt b 0).getLsbD 3 = true →
        Transacts (.mdrn slv) s status .drainRead) ∧
      (∀ b, s.answer status = .ok b → (byteAt b 0).getLsbD 3 = false →
        Transacts (.mdrn slv) s status (.finish (okResults #v[0, 0, 0, 0] 0))) ∧
      (∀ t, s.answer status = .err t →
        Transacts (.mdrn slv) s status (.finish (errResults (.transport t) 0)))) ∧
    (At s .drainRead →
      (∀ b, s.answer whole = .ok b →
        Transacts (.mdrn slv) s whole (.finish (okResults #v[1, 0, 0, 0] 0))) ∧
      (∀ t, s.answer whole = .err t →
        Transacts (.mdrn slv) s whole (.finish (errResults (.transport t) 0)))) ∧
    (∀ c, At s (.finish c) → Completes (.mdrn slv) s c)

/-- MACQ (41_mailbox.md R210, R211): the write mailbox's status is read until it shows not full; the timeout
may fire before any read. What one atomic step is, is the model's reading (log 10). -/
def Obligations.MacqPollsUntilNotFull : Prop :=
  ∀ (slv : BitVec 8) (s : State),
    let sl := s.slave slv
    let status := statusRead sl sl.wSm
    (At s .start → s.configured slv = false → Raises (.macq slv) s .illegalCommand 0) ∧
    (At s .start → s.configured slv = true → Advances (.macq slv) s .acquire) ∧
    (At s .acquire → s.draw.timeout = true → Raises (.macq slv) s (.mailboxTimeout sl.station) 0) ∧
    (At s .acquire → s.draw.timeout = false →
      (∀ b, s.answer status = .ok b → (byteAt b 0).getLsbD 3 = true →
        Transacts (.macq slv) s status .acquire) ∧
      (∀ b, s.answer status = .ok b → (byteAt b 0).getLsbD 3 = false →
        Transacts (.macq slv) s status (.finish (okResults #v[0, 0, 0, 0] 0))) ∧
      (∀ t, s.answer status = .err t →
        Transacts (.macq slv) s status (.finish (errResults (.transport t) 0)))) ∧
    (∀ c, At s (.finish c) → Completes (.macq slv) s c)

/-- MSND (41_mailbox.md R214): the checks in order, then the message padded with zeros to `W_LEN` is written
to the write mailbox in one operation, and `RS[0]` is the count. What one atomic step is, is the model's
reading (log 10). -/
def Obligations.MsndWritesTheWholeMailbox : Prop :=
  ∀ (slv : BitVec 8) (s : State),
    let sl := s.slave slv
    let msg := bytesAt s (s.op 0) (s.op 1) ++ List.replicate (sl.wLen.toNat - s.op 1) 0#8
    let inside := s.op 0 + s.op 1 ≤ s.params.bmSize
    (At s .start → s.configured slv = false → Raises (.msnd slv) s .illegalCommand 0) ∧
    (At s .start → s.configured slv = true → ¬inside → Raises (.msnd slv) s .illegalAddress 0) ∧
    (At s .start → s.configured slv = true → inside → sl.wLen.toNat < s.op 1 →
      Raises (.msnd slv) s .bufferTooShort 0) ∧
    (At s .start → s.configured slv = true → inside → s.op 1 ≤ sl.wLen.toNat →
      Advances (.msnd slv) s (.send msg) ∧ msg.length = sl.wLen.toNat) ∧
    (∀ m, At s (.send m) →
      let put : TransportOp := .write sl.station sl.wAddr m
      (∀ b, s.answer put = .ok b →
        Transacts (.msnd slv) s put (.finish (okResults #v[s.port.op[1], 0, 0, 0] 0))) ∧
      (∀ t, s.answer put = .err t →
        Transacts (.msnd slv) s put (.finish (errResults (.transport t) 0)))) ∧
    (∀ c, At s (.finish c) → Completes (.msnd slv) s c)

/-- MAWT (41_mailbox.md R213): the checks in order, then the read mailbox's status is read until it shows
full, then one read of the whole mailbox into `RXBUF`, whose bytes the next step copies to the destination.
What one atomic step is, and that `RXBUF` keeps its bytes behind those read, are the model's readings (log 10,
log 23). -/
def Obligations.MawtDeliversTheMailbox : Prop :=
  ∀ (slv : BitVec 8) (s : State),
    let sl := s.slave slv
    let status := statusRead sl sl.rSm
    let whole : TransportOp := .read sl.station sl.rAddr sl.rLen.toNat
    let inside := s.op 0 + s.op 1 ≤ s.params.bmSize
    (At s .start → s.configured slv = false → Raises (.mawt slv) s .illegalCommand 0) ∧
    (At s .start → s.configured slv = true → ¬inside → Raises (.mawt slv) s .illegalAddress 0) ∧
    (At s .start → s.configured slv = true → inside → s.op 1 < sl.rLen.toNat →
      Raises (.mawt slv) s .bufferTooShort 0) ∧
    (At s .start → s.configured slv = true → inside → sl.rLen.toNat ≤ s.op 1 →
      Advances (.mawt slv) s .await) ∧
    (At s .await → s.draw.timeout = true → Raises (.mawt slv) s (.mailboxTimeout sl.station) 0) ∧
    (At s .await → s.draw.timeout = false →
      (∀ b, s.answer status = .ok b → (byteAt b 0).getLsbD 3 = true →
        Transacts (.mawt slv) s status .receive) ∧
      (∀ b, s.answer status = .ok b → (byteAt b 0).getLsbD 3 = false →
        Transacts (.mawt slv) s status .await) ∧
      (∀ t, s.answer status = .err t →
        Transacts (.mawt slv) s status (.finish (errResults (.transport t) 0)))) ∧
    (At s .receive →
      (∀ b, s.answer whole = .ok b → Receives (.mawt slv) s whole b .store ∧ b.length = sl.rLen.toNat) ∧
      (∀ t, s.answer whole = .err t →
        Transacts (.mawt slv) s whole (.finish (errResults (.transport t) 0)))) ∧
    (At s .store → s.bm.wf = true → sl.rLen.toNat ≤ s.port.hid.rxBuf.length →
      ∃ t, exec (.mawt slv) s = .next t ∧ Untouched s t ∧ NoSlaveNoWire s t ∧
        Wrote s t (s.op 0) (s.port.hid.rxBuf.take sl.rLen.toNat) ∧
        Goes s t (.finish (okResults #v[sl.rLen.setWidth 32, 0, 0, 0] 0))) ∧
    (∀ c, At s (.finish c) → Completes (.mawt slv) s c)

/-! ## SDO Transfer -/

/-- The checks of SDWR and SDRD, in order, each error with `XSTATE = 6`, before any counter step or Transport
operation (42_sdo.md R241, R250, 60_exceptions.md R312, R317); then `XS` is `Idle` (R240). What one atomic
step is, is the model's reading (log 10). -/
def Obligations.SdoCommandsCheckBeforeAnyEffect : Prop :=
  ∀ (slv : BitVec 8) (idx : BitVec 16) (s : State), At s .start →
    let inside := s.op 0 + s.op 1 ≤ s.params.bmSize
    let short := 1 ≤ s.op 1 ∧ s.op 1 ≤ 4
    (s.configured slv = false →
      Raises (.sdwr slv idx) s .illegalCommand 6 ∧ Raises (.sdrd slv idx) s .illegalCommand 6) ∧
    (s.configured slv = true → ¬short → Raises (.sdwr slv idx) s .notSupported 6) ∧
    (s.configured slv = true → short → ¬inside → Raises (.sdwr slv idx) s .illegalAddress 6) ∧
    (s.configured slv = true → ¬inside → Raises (.sdrd slv idx) s .illegalAddress 6) ∧
    (s.configured slv = true → short → inside →
      AdvancesXs (.sdwr slv idx) s (.counter .download (bytesAt s (s.op 0) (s.op 1))) .idle) ∧
    (s.configured slv = true → inside → AdvancesXs (.sdrd slv idx) s (.counter .initiate []) .idle)

/-- The counter step before each request and the request it builds, byte for byte (41_mailbox.md R206,
30_encoding.md R116); it leaves `XS` and every hidden register but `CUR_CNT` and `TXBUF`. What one atomic step
is, is the model's reading (log 10). -/
def Obligations.RequestsTakeACounterAndAreBuiltAsGiven : Prop :=
  ∀ (slv : BitVec 8) (idx : BitVec 16) (s : State),
    let c := (s.slave slv).cnt
    let ca := (s.port.op[2]).toNat / 256 % 2
    let sub : Byte := (s.port.op[2]).extractLsb' 0 8
    let head (b8 : Nat) : List Byte :=
      [0x0A, 0x00, 0x00, 0x00, 0x00, BitVec.ofNat 8 (0x03 + c.toNat * 16), 0x00, 0x20, BitVec.ofNat 8 b8]
    let lo : Byte := idx.extractLsb' 0 8
    let hi : Byte := idx.extractLsb' 8 8
    let built (i : Instr) (ph : Phase) (req : List Byte) : Prop :=
      ∃ t, exec i s = .next t ∧ Untouched s t ∧ SameMemory s t ∧ t.wire = s.wire ∧
        t.slaves = countedSlaves s slv ∧ Goes s t (.exch ph .drainStatus) ∧
        t.port.hid = { s.port.hid with curCnt := c, txBuf := req }
    (∀ val : List Byte, At s (.counter .download val) → val.length = s.op 1 → 1 ≤ s.op 1 →
      s.op 1 ≤ 4 →
      built (.sdwr slv idx) .download
        (head (0x20 + ca * 16 + (4 - s.op 1) * 4 + 0x03) ++ [lo, hi, sub] ++ val ++
          List.replicate (4 - s.op 1) 0)) ∧
    (∀ val, At s (.counter .initiate val) →
      built (.sdrd slv idx) .initiate
        (head (0x40 + ca * 16) ++ [lo, hi, sub] ++ [0x00, 0x00, 0x00, 0x00])) ∧
    (∀ first val, At s (.counter (.segment first) val) →
      built (.sdrd slv idx) (.segment first)
        (head (0x60 + s.port.hid.toggle.toNat * 16) ++ List.replicate 7 0))

/-- The exchange (41_mailbox.md R220) up to the response: drain, acquire, write, await, each one Transport
operation, with the errors of each and of the response's read; the request written is the one in `TXBUF`,
padded with zeros to `W_LEN`. Every step keeps the hidden registers but `XS`, which becomes `RequestSent` when
the request is written and `Failed` with an error (42_sdo.md R240). What one atomic step is, is the model's
reading (log 10). -/
def Obligations.ExchangeRunsDrainAcquireSendAwait : Prop :=
  ∀ (slv : BitVec 8) (idx : BitVec 16) (i : Instr) (ph : Phase) (s : State),
    ((i = .sdwr slv idx ∧ ph = .download) ∨ (i = .sdrd slv idx ∧ ph ≠ .download)) →
    let sl := s.slave slv
    let wStatus := statusRead sl sl.wSm
    let rStatus := statusRead sl sl.rSm
    let whole : TransportOp := .read sl.station sl.rAddr sl.rLen.toNat
    let put : TransportOp :=
      .write sl.station sl.wAddr (s.port.hid.txBuf ++ List.replicate (sl.wLen.toNat - 16) 0#8)
    let fails (op : TransportOp) (t : BitVec 32) : Prop :=
      TransactsXs i s op (.finish (errResults (.transport t) 6)) .failed
    (At s (.exch ph .drainStatus) →
      (∀ b, s.answer rStatus = .ok b → (byteAt b 0).getLsbD 3 = true →
        Transacts i s rStatus (.exch ph .drainRead)) ∧
      (∀ b, s.answer rStatus = .ok b → (byteAt b 0).getLsbD 3 = false →
        Transacts i s rStatus (.exch ph .acquire)) ∧
      (∀ t, s.answer rStatus = .err t → fails rStatus t)) ∧
    (At s (.exch ph .drainRead) →
      (∀ b, s.answer whole = .ok b → Transacts i s whole (.exch ph .acquire)) ∧
      (∀ t, s.answer whole = .err t → fails whole t)) ∧
    (At s (.exch ph .acquire) → s.draw.timeout = true → Raises i s (.mailboxTimeout sl.station) 6) ∧
    (At s (.exch ph .acquire) → s.draw.timeout = false →
      (∀ b, s.answer wStatus = .ok b → (byteAt b 0).getLsbD 3 = true →
        Transacts i s wStatus (.exch ph .acquire)) ∧
      (∀ b, s.answer wStatus = .ok b → (byteAt b 0).getLsbD 3 = false →
        Transacts i s wStatus (.exch ph .send)) ∧
      (∀ t, s.answer wStatus = .err t → fails wStatus t)) ∧
    (At s (.exch ph .send) →
      (∀ b, s.answer put = .ok b → TransactsXs i s put (.exch ph .await) .requestSent) ∧
      (∀ t, s.answer put = .err t → fails put t)) ∧
    (At s (.exch ph .await) → s.draw.timeout = true → Raises i s (.mailboxTimeout sl.station) 6) ∧
    (At s (.exch ph .await) → s.draw.timeout = false →
      (∀ b, s.answer rStatus = .ok b → (byteAt b 0).getLsbD 3 = true →
        Transacts i s rStatus (.exch ph .receive)) ∧
      (∀ b, s.answer rStatus = .ok b → (byteAt b 0).getLsbD 3 = false →
        Transacts i s rStatus (.exch ph .await)) ∧
      (∀ t, s.answer rStatus = .err t → fails rStatus t)) ∧
    (At s (.exch ph .receive) → ∀ t, s.answer whole = .err t → fails whole t) ∧
    (∀ c, At s (.finish c) → Completes i s c)

/-- The check of a response (41_mailbox.md R221, R222): a counter or type that does not match is
SdoResponseInvalid, an aborted flag is SdoAborted with the four code bytes, in the order
`ABORT_BEFORE_VALIDATE` gives; any response an SDWR accepts ends it with success (42_sdo.md R242); nothing of
a refused response is written to `BM`. `XS` becomes `Failed`, `Aborted` or `Complete` (R240). What one atomic
step is, and that `RXBUF` keeps its bytes behind the response, are the model's readings (log 10, log 23). -/
def Obligations.ResponsesAreValidatedBeforeUse : Prop :=
  ∀ (slv : BitVec 8) (idx : BitVec 16) (i : Instr) (ph : Phase) (s : State) (rx : List Byte),
    ((i = .sdwr slv idx ∧ ph = .download) ∨ (i = .sdrd slv idx ∧ ph ≠ .download)) →
    At s (.exch ph .receive) →
    let sl := s.slave slv
    let whole : TransportOp := .read sl.station sl.rAddr sl.rLen.toNat
    let sub : Byte := (s.port.op[2]).extractLsb' 0 8
    let valid := (byteAt rx 5).toNat / 16 % 8 = s.port.hid.curCnt.toNat ∧ (byteAt rx 5).toNat % 16 = 3
    let aborted := (byteAt rx 8).toNat / 32 = 4
    let code : BitVec 32 := byteAt rx 15 ++ byteAt rx 14 ++ byteAt rx 13 ++ byteAt rx 12
    let invalidEnd := ReceivesXs i s whole rx (.finish (errResults (.sdoResponseInvalid idx sub) 6)) .failed
    let abortEnd := ReceivesXs i s whole rx (.finish (errResults (.sdoAborted code idx sub) 5)) .aborted
    s.answer whole = .ok rx → 16 ≤ sl.rLen.toNat →
    (s.params.abortFirst = false → (¬valid → invalidEnd) ∧ (valid → aborted → abortEnd)) ∧
    (s.params.abortFirst = true → (aborted → abortEnd) ∧ (¬aborted → ¬valid → invalidEnd)) ∧
    (valid → ¬aborted → i = .sdwr slv idx → ReceivesXs i s whole rx (.finish
      (okResults #v[s.port.op[1], s.port.hid.curCnt.setWidth 32, 0, 0] 4)) .complete)

/-- A whole SDWR (42_sdo.md R241): from its start, with a valid size and range, and an exchange whose
response passes the check, it completes with `RS[0] = n`, `RS[1]` the counter it took, `XSTATE = 4`; one
counter value is taken, `BM` does not change, each draw of the exchange answers one Transport operation, and
the one write among them is the download request with that counter, padded to `W_LEN`, to the write mailbox.
What one atomic step is, is the model's reading (log 10). -/
def Obligations.SdwrDownloadsAndCompletes : Prop :=
  ∀ (slv : BitVec 8) (idx : BitVec 16) (s : State) (d₀ d₁ dEnd : Draw) (ex : List Draw) (rx : List Byte),
    At s .start → s.configured slv = true → 1 ≤ s.op 1 → s.op 1 ≤ 4 →
    s.op 0 + s.op 1 ≤ s.params.bmSize → 16 ≤ (s.slave slv).rLen.toNat →
    Exchanges (s.slave slv) ex rx →
    (byteAt rx 5).toNat / 16 % 8 = (s.slave slv).cnt.toNat → (byteAt rx 5).toNat % 16 = 3 →
    (byteAt rx 8).toNat / 32 ≠ 4 →
    ∃ t, runCommand (.sdwr slv idx) (d₀ :: d₁ :: ex ++ [dEnd]) s = .next t ∧
      SameMemory s t ∧ t.slaves = countedSlaves s slv ∧
      (∃ new, t.wire = new ++ s.wire ∧ new.length = ex.length ∧
        (new.map Prod.fst).filter isWrite = [.write (s.slave slv).station (s.slave slv).wAddr
          (downloadRequest (s.slave slv).cnt s.opCa (s.op 1) idx s.opSub (bytesAt s (s.op 0) (s.op 1)) ++
            List.replicate ((s.slave slv).wLen.toNat - 16) 0#8)]) ∧
      Done t #v[s.port.op[1], (s.slave slv).cnt.setWidth 32, 0, 0] 0 4

/-- What SDRD does with an initiate response that passes the check (42_sdo.md R250 to R255): expedited and
normal payloads that fit are copied next, the others end in BufferTooShort or in the completion with
Unspecified that 60_exceptions.md R318 gives, and a size past the declared data length starts the segments at
offset 0 with toggle 0; `RXBUF` holds the response, and `XS` is `ResponseReceived`, `Failed` or
`SegmentedContinue` (R240). What one atomic step is, that Unspecified is this completion, and that `RXBUF` keeps
its bytes behind the response are the model's readings (log 10, log 13, log 23). -/
def Obligations.SdrdClassifiesTheInitiateResponse : Prop :=
  ∀ (slv : BitVec 8) (idx : BitVec 16) (s : State) (rx : List Byte),
    At s (.exch .initiate .receive) →
    let sl := s.slave slv
    let whole : TransportOp := .read sl.station sl.rAddr sl.rLen.toNat
    let i : Instr := .sdrd slv idx
    let b8 := (byteAt rx 8).toNat
    let len := (byteAt rx 0).toNat + 256 * (byteAt rx 1).toNat
    let cs := (byteAt rx 15 ++ byteAt rx 14 ++ byteAt rx 13 ++ byteAt rx 12 : BitVec (8 + 8 + 8 + 8)).toNat
    let n := 4 - b8 / 4 % 4
    let ends (e : Err) : Prop := ReceivesXs i s whole rx (.finish (errResults e 6)) .failed
    s.answer whole = .ok rx → 16 ≤ sl.rLen.toNat →
    (byteAt rx 5).toNat / 16 % 8 = s.port.hid.curCnt.toNat → (byteAt rx 5).toNat % 16 = 3 →
    b8 / 32 ≠ 4 →
    (b8 / 2 % 2 = 1 → s.op 1 < n → ends .bufferTooShort) ∧
    (b8 / 2 % 2 = 1 → n ≤ s.op 1 → ReceivesXs i s whole rx (.payload 0 12 n) .responseReceived) ∧
    (b8 / 2 % 2 = 0 → len < 10 → ends (.unspecified 1)) ∧
    (b8 / 2 % 2 = 0 → 10 ≤ len → cs ≤ len - 10 → sl.rLen.toNat < 16 + cs → ends (.unspecified 2)) ∧
    (b8 / 2 % 2 = 0 → 10 ≤ len → cs ≤ len - 10 → 16 + cs ≤ sl.rLen.toNat → s.op 1 < cs →
      ends .bufferTooShort) ∧
    (b8 / 2 % 2 = 0 → 10 ≤ len → cs ≤ len - 10 → 16 + cs ≤ sl.rLen.toNat → cs ≤ s.op 1 →
      ReceivesXs i s whole rx (.payload 1 16 cs) .responseReceived) ∧
    (b8 / 2 % 2 = 0 → 10 ≤ len → len - 10 < cs →
      ∃ t, exec i s = .next t ∧ Transacted s t whole (.counter (.segment s.port.hid.curCnt) []) ∧
        t.port.hid = { s.port.hid with
          rxBuf := rx ++ s.port.hid.rxBuf.drop rx.length
          offset := 0#32, toggle := 0#1, segCnt := 0#32, xs := .segmentedContinue })

/-- What SDRD does with a segment response that passes the check (42_sdo.md R255, R256, R257, R259): the
toggle check if the parameter asks for it, the chunk length `LENGTH - 3` with the `segment_data_size`
correction at exactly 7, the bounds, with the completion with Unspecified that 60_exceptions.md R318 gives, and
then the copy; `RXBUF` holds the response, `XS` is `ResponseReceived` or `Failed` (R240), and `OFFSET`, `TOGGLE`,
`SEGCNT` and `CUR_CNT` stay. What one atomic step is, that Unspecified is this completion, and that `RXBUF` keeps
its bytes behind the response are the model's readings (log 10, log 13, log 23). -/
def Obligations.SdrdMeasuresTheSegment : Prop :=
  ∀ (slv : BitVec 8) (idx : BitVec 16) (first : BitVec 3) (s : State) (rx : List Byte),
    At s (.exch (.segment first) .receive) →
    let sl := s.slave slv
    let whole : TransportOp := .read sl.station sl.rAddr sl.rLen.toNat
    let i : Instr := .sdrd slv idx
    let b8 := (byteAt rx 8).toNat
    let len := (byteAt rx 0).toNat + 256 * (byteAt rx 1).toNat
    let k := if len - 3 = 7 then 7 - b8 / 2 % 8 else len - 3
    let off := s.port.hid.offset.toNat
    let toggleOk := s.params.checkToggle = true → b8 / 16 % 2 = s.port.hid.toggle.toNat
    let sub : Byte := (s.port.op[2]).extractLsb' 0 8
    let ends (e : Err) : Prop := ReceivesXs i s whole rx (.finish (errResults e 6)) .failed
    s.answer whole = .ok rx → 16 ≤ sl.rLen.toNat →
    (byteAt rx 5).toNat / 16 % 8 = s.port.hid.curCnt.toNat → (byteAt rx 5).toNat % 16 = 3 →
    b8 / 32 ≠ 4 →
    (¬toggleOk → ends (.sdoResponseInvalid idx sub)) ∧
    (toggleOk → len < 3 → ends (.unspecified 3)) ∧
    (toggleOk → 3 ≤ len → sl.rLen.toNat < 9 + k → ends (.unspecified 4)) ∧
    (toggleOk → 3 ≤ len → 9 + k ≤ sl.rLen.toNat → s.op 1 < off + k → ends .bufferTooShort) ∧
    (toggleOk → 3 ≤ len → 9 + k ≤ sl.rLen.toNat → off + k ≤ s.op 1 →
      ReceivesXs i s whole rx (.chunk first k) .responseReceived)

/-- The copies of SDRD (42_sdo.md R253, R254, R255, R257): a payload is copied and ends the command; a chunk
is copied at `OFFSET`, which grows by its length, and then either the command ends with the results of R261
or the toggle flips and the next segment request follows; `XS` is `Complete` or `SegmentedContinue` (R240), and
every other hidden register stays. What one atomic step is, is the model's reading (log 10). -/
def Obligations.SdrdCopiesPayloadsAndChunks : Prop :=
  ∀ (slv : BitVec 8) (idx : BitVec 16) (s : State), s.bm.wf = true →
    let rx := s.port.hid.rxBuf
    let i : Instr := .sdrd slv idx
    let off := s.port.hid.offset.toNat
    (∀ kind src n, At s (.payload kind src n) → src + n ≤ rx.length →
      ∃ t, exec i s = .next t ∧ Untouched s t ∧ NoSlaveNoWire s t ∧
        Wrote s t (s.op 0) ((List.range n).map fun j => byteAt rx (src + j)) ∧
        Goes s t (.finish (okResults #v[BitVec.ofNat 32 n, kind, 0, s.port.hid.curCnt.setWidth 32] 4)) ∧
        KeepsHidden s t .complete) ∧
    (∀ first k, At s (.chunk first k) → 9 + k ≤ rx.length → off + k < 2 ^ 32 →
      ∃ t, exec i s = .next t ∧ Untouched s t ∧ NoSlaveNoWire s t ∧
        Wrote s t (s.op 0 + off) ((List.range k).map fun j => byteAt rx (9 + j)) ∧
        let h : Hidden := { s.port.hid with offset := BitVec.ofNat 32 (off + k), segCnt := s.port.hid.segCnt + 1#32 }
        ((byteAt rx 8).toNat % 2 = 1 →
          Goes s t (.finish (okResults
            #v[BitVec.ofNat 32 (off + k), 2, s.port.hid.segCnt + 1#32, first.setWidth 32] 4)) ∧
          t.port.hid = { h with xs := .complete }) ∧
        ((byteAt rx 8).toNat % 2 = 0 →
          Goes s t (.counter (.segment first) []) ∧
          t.port.hid = { h with toggle := s.port.hid.toggle + 1#1, xs := .segmentedContinue }))

/-- A whole expedited SDRD (42_sdo.md R250, R253, R261): from its start, with an exchange whose response
passes the check and is expedited, the `4 - SIZE_CODE` bytes are copied to the destination and nothing else
of `BM` changes; `RS` is the count, 0, 0 and the counter taken. What one atomic step is, is the model's
reading (log 10). -/
def Obligations.SdrdExpeditedUploadDelivers : Prop :=
  ∀ (slv : BitVec 8) (idx : BitVec 16) (s : State) (d₀ d₁ dCopy dEnd : Draw) (ex : List Draw)
    (rx : List Byte),
    At s .start → s.configured slv = true → s.bm.wf = true →
    s.op 0 + s.op 1 ≤ s.params.bmSize → 16 ≤ (s.slave slv).rLen.toNat →
    Exchanges (s.slave slv) ex rx →
    (byteAt rx 5).toNat / 16 % 8 = (s.slave slv).cnt.toNat → (byteAt rx 5).toNat % 16 = 3 →
    (byteAt rx 8).toNat / 32 ≠ 4 → (byteAt rx 8).toNat / 2 % 2 = 1 →
    let n := 4 - (byteAt rx 8).toNat / 4 % 4
    n ≤ s.op 1 →
    ∃ t, runCommand (.sdrd slv idx) (d₀ :: d₁ :: ex ++ [dCopy, dEnd]) s = .next t ∧
      Wrote s t (s.op 0) ((List.range n).map fun j => byteAt rx (12 + j)) ∧
      t.slaves = countedSlaves s slv ∧
      Done t #v[BitVec.ofNat 32 n, 0, 0, (s.slave slv).cnt.setWidth 32] 0 4

/-- The draws and responses of the segments of an upload (42_sdo.md R255): for each segment the counter
step, an exchange that reads `rx`, and the copy; the counters follow the cycle from `c` on, no response is
aborted, the chunk is `LENGTH - 3` bytes with the correction at exactly 7, and only the last response
carries the last flag. -/
def SegmentRun (sl : Slave) (checkToggle : Bool) :
    BitVec 3 → BitVec 1 → List (Draw × List Draw × Draw × List Byte) → Prop
  | _, _, [] => False
  | c, tg, (_, ex, _, rx) :: rest =>
    let b8 := (byteAt rx 8).toNat
    let len := (byteAt rx 0).toNat + 256 * (byteAt rx 1).toNat
    Exchanges sl ex rx ∧ (byteAt rx 5).toNat / 16 % 8 = c.toNat ∧ (byteAt rx 5).toNat % 16 = 3 ∧
    b8 / 32 ≠ 4 ∧ (checkToggle = true → b8 / 16 % 2 = tg.toNat) ∧ 3 ≤ len ∧
    9 + (if len - 3 = 7 then 7 - b8 / 2 % 8 else len - 3) ≤ sl.rLen.toNat ∧
    (if rest = [] then b8 % 2 = 1
      else b8 % 2 = 0 ∧ SegmentRun sl checkToggle (succCount c) (tg + 1#1) rest)

/-- The bytes the segments of a run carry, one chunk after another (42_sdo.md R255, R256). -/
def segmentBytes (segs : List (Draw × List Draw × Draw × List Byte)) : List Byte :=
  segs.flatMap fun g =>
    let rx := g.2.2.2
    let len := (byteAt rx 0).toNat + 256 * (byteAt rx 1).toNat
    let k := if len - 3 = 7 then 7 - (byteAt rx 8).toNat / 2 % 8 else len - 3
    (List.range k).map fun j => byteAt rx (9 + j)

/-- A whole segmented SDRD (42_sdo.md R250, R252, R255, R256, R257, R261), with any number of segments: the
chunks are accumulated in the destination in the order they arrive and nothing else of `BM` changes; `RS` is
the number of bytes, 2, the number of segments and the initiate request's counter; one counter value is taken
for each request. What one atomic step is, is the model's reading (log 10). -/
def Obligations.SdrdSegmentedUploadDelivers : Prop :=
  ∀ (slv : BitVec 8) (idx : BitVec 16) (s : State) (d₀ d₁ dEnd : Draw) (ex : List Draw) (rx : List Byte)
    (segs : List (Draw × List Draw × Draw × List Byte)),
    At s .start → s.configured slv = true → s.bm.wf = true →
    s.op 0 + s.op 1 ≤ s.params.bmSize → 16 ≤ (s.slave slv).rLen.toNat →
    Exchanges (s.slave slv) ex rx →
    let c := (s.slave slv).cnt
    let len := (byteAt rx 0).toNat + 256 * (byteAt rx 1).toNat
    let cs := (byteAt rx 15 ++ byteAt rx 14 ++ byteAt rx 13 ++ byteAt rx 12 : BitVec (8 + 8 + 8 + 8)).toNat
    (byteAt rx 5).toNat / 16 % 8 = c.toNat → (byteAt rx 5).toNat % 16 = 3 →
    (byteAt rx 8).toNat / 32 ≠ 4 → (byteAt rx 8).toNat / 2 % 2 = 0 → 10 ≤ len → len - 10 < cs →
    SegmentRun (s.slave slv) s.params.checkToggle (succCount c) 0#1 segs →
    (segmentBytes segs).length ≤ s.op 1 →
    ∃ t, runCommand (.sdrd slv idx)
        (d₀ :: d₁ :: ex ++ (segs.flatMap fun g => g.1 :: g.2.1 ++ [g.2.2.1]) ++ [dEnd]) s = .next t ∧
      Wrote s t (s.op 0) (segmentBytes segs) ∧
      t.slaves = s.slaves.set slv.toNat
        { s.slave slv with cnt := (succCount^[segs.length + 1]) c } ∧
      Done t #v[BitVec.ofNat 32 (segmentBytes segs).length, 2, BitVec.ofNat 32 segs.length,
        c.setWidth 32] 0 4

/-! ## State Gate -/

/-- ALRQ (43_al_gate.md R290, R291): the checks, then one write of the target with the error-acknowledge flag
to the AL control register; a response whose state is no state code is InvalidValue; its error flag leads to
a read of the status code and StateTransitionError; else `RS[0]` is the response. What one atomic step is, is
the model's reading (log 10). -/
def Obligations.AlrqRequestsTheState : Prop :=
  ∀ (slv : BitVec 8) (st : BitVec 4) (s : State),
    let sl := s.slave slv
    let i : Instr := .alrq slv st
    let legal := s.configured slv = true ∧ st.toNat ∈ [1, 2, 3, 4, 8]
    let put : TransportOp := .write sl.station 0x0120#16 [BitVec.ofNat 8 (0x10 + st.toNat), 0x00]
    let get : TransportOp := .read sl.station 0x0134#16 2
    let word (b : List Byte) : Nat := (byteAt b 0).toNat + 256 * (byteAt b 1).toNat
    (At s .start → ¬legal → Raises i s .illegalCommand 0) ∧
    (At s .start → legal → Advances i s .alControl) ∧
    (At s .alControl →
      (∀ b, s.answer put = .ok b → word b % 16 ∉ [1, 2, 3, 4, 8] →
        Transacts i s put (.finish (errResults .invalidValue 0))) ∧
      (∀ b, s.answer put = .ok b → word b % 16 ∈ [1, 2, 3, 4, 8] → word b / 16 % 2 = 1 →
        Transacts i s put .alCode) ∧
      (∀ b, s.answer put = .ok b → word b % 16 ∈ [1, 2, 3, 4, 8] → word b / 16 % 2 = 0 →
        Transacts i s put (.finish (okResults #v[BitVec.ofNat 32 (word b), 0, 0, 0] 0))) ∧
      (∀ t, s.answer put = .err t → Transacts i s put (.finish (errResults (.transport t) 0)))) ∧
    (At s .alCode →
      (∀ b, s.answer get = .ok b →
        Transacts i s get (.finish (errResults (.stateTransition (BitVec.ofNat 16 (word b))) 0))) ∧
      (∀ t, s.answer get = .err t → Transacts i s get (.finish (errResults (.transport t) 0)))) ∧
    (∀ c, At s (.finish c) → Completes i s c)

/-- ALWT (43_al_gate.md R290, R292): the checks, then the AL status register is read until its state nibble
is the target; the timeout may fire before any read; a state that is no state code is InvalidValue. What one
atomic step is, is the model's reading (log 10). -/
def Obligations.AlwtWaitsForTheState : Prop :=
  ∀ (slv : BitVec 8) (st : BitVec 4) (s : State),
    let sl := s.slave slv
    let i : Instr := .alwt slv st
    let legal := s.configured slv = true ∧ st.toNat ∈ [1, 2, 3, 4, 8]
    let get : TransportOp := .read sl.station 0x0130#16 2
    let word (b : List Byte) : Nat := (byteAt b 0).toNat + 256 * (byteAt b 1).toNat
    (At s .start → ¬legal → Raises i s .illegalCommand 0) ∧
    (At s .start → legal → Advances i s .alPoll) ∧
    (At s .alPoll → s.draw.timeout = true → Raises i s .timeout 0) ∧
    (At s .alPoll → s.draw.timeout = false →
      (∀ b, s.answer get = .ok b → word b % 16 ∉ [1, 2, 3, 4, 8] →
        Transacts i s get (.finish (errResults .invalidValue 0))) ∧
      (∀ b, s.answer get = .ok b → word b % 16 ∈ [1, 2, 3, 4, 8] → word b % 16 = st.toNat →
        Transacts i s get (.finish (okResults #v[BitVec.ofNat 32 (word b), 0, 0, 0] 0))) ∧
      (∀ b, s.answer get = .ok b → word b % 16 ∈ [1, 2, 3, 4, 8] → word b % 16 ≠ st.toNat →
        Transacts i s get .alPoll) ∧
      (∀ t, s.answer get = .err t → Transacts i s get (.finish (errResults (.transport t) 0)))) ∧
    (∀ c, At s (.finish c) → Completes i s c)
end

