-- ==== Sys2Proof/Laws/State.lean ====
section
/-! SUPPORT. One lemma per field per update of State: what each operation of `Machine/Ops.lean` leaves as it
was, and what it sets. -/

namespace Sys2Proof.Machine

variable (s : State)

@[simp] theorem State.setPort_params (p : Port) : (s.setPort p).params = s.params := rfl
@[simp] theorem State.setPort_roms (p : Port) : (s.setPort p).roms = s.roms := rfl
@[simp] theorem State.setPort_inReset (p : Port) : (s.setPort p).inReset = s.inReset := rfl
@[simp] theorem State.setPort_slaves (p : Port) : (s.setPort p).slaves = s.slaves := rfl
@[simp] theorem State.setPort_bm (p : Port) : (s.setPort p).bm = s.bm := rfl
@[simp] theorem State.setPort_agenda (p : Port) : (s.setPort p).agenda = s.agenda := rfl
@[simp] theorem State.setPort_active (p : Port) : (s.setPort p).active = s.active := rfl
@[simp] theorem State.setPort_draw (p : Port) : (s.setPort p).draw = s.draw := rfl
@[simp] theorem State.setPort_wire (p : Port) : (s.setPort p).wire = s.wire := rfl
@[simp] theorem State.setPort_freeCtr (p : Port) : (s.setPort p).freeCtr = s.freeCtr := rfl
@[simp] theorem State.setPort_ports_length (p : Port) : (s.setPort p).ports.length = s.ports.length := by
  exact List.length_set

@[simp] theorem State.goto_params (m : Micro) : (s.goto m).params = s.params := rfl
@[simp] theorem State.goto_roms (m : Micro) : (s.goto m).roms = s.roms := rfl
@[simp] theorem State.goto_inReset (m : Micro) : (s.goto m).inReset = s.inReset := rfl
@[simp] theorem State.goto_slaves (m : Micro) : (s.goto m).slaves = s.slaves := rfl
@[simp] theorem State.goto_bm (m : Micro) : (s.goto m).bm = s.bm := rfl
@[simp] theorem State.goto_agenda (m : Micro) : (s.goto m).agenda = s.agenda := rfl
@[simp] theorem State.goto_active (m : Micro) : (s.goto m).active = s.active := rfl
@[simp] theorem State.goto_draw (m : Micro) : (s.goto m).draw = s.draw := rfl
@[simp] theorem State.goto_wire (m : Micro) : (s.goto m).wire = s.wire := rfl
@[simp] theorem State.goto_freeCtr (m : Micro) : (s.goto m).freeCtr = s.freeCtr := rfl
@[simp] theorem State.goto_ports_length (m : Micro) : (s.goto m).ports.length = s.ports.length := by
  exact List.length_set

@[simp] theorem State.setHid_params (h : Hidden) : (s.setHid h).params = s.params := rfl
@[simp] theorem State.setHid_roms (h : Hidden) : (s.setHid h).roms = s.roms := rfl
@[simp] theorem State.setHid_inReset (h : Hidden) : (s.setHid h).inReset = s.inReset := rfl
@[simp] theorem State.setHid_slaves (h : Hidden) : (s.setHid h).slaves = s.slaves := rfl
@[simp] theorem State.setHid_bm (h : Hidden) : (s.setHid h).bm = s.bm := rfl
@[simp] theorem State.setHid_agenda (h : Hidden) : (s.setHid h).agenda = s.agenda := rfl
@[simp] theorem State.setHid_active (h : Hidden) : (s.setHid h).active = s.active := rfl
@[simp] theorem State.setHid_draw (h : Hidden) : (s.setHid h).draw = s.draw := rfl
@[simp] theorem State.setHid_wire (h : Hidden) : (s.setHid h).wire = s.wire := rfl
@[simp] theorem State.setHid_freeCtr (h : Hidden) : (s.setHid h).freeCtr = s.freeCtr := rfl
@[simp] theorem State.setHid_ports_length (h : Hidden) : (s.setHid h).ports.length = s.ports.length := by
  exact List.length_set

@[simp] theorem State.setXs_params (x : XState) : (s.setXs x).params = s.params := rfl
@[simp] theorem State.setXs_roms (x : XState) : (s.setXs x).roms = s.roms := rfl
@[simp] theorem State.setXs_inReset (x : XState) : (s.setXs x).inReset = s.inReset := rfl
@[simp] theorem State.setXs_slaves (x : XState) : (s.setXs x).slaves = s.slaves := rfl
@[simp] theorem State.setXs_bm (x : XState) : (s.setXs x).bm = s.bm := rfl
@[simp] theorem State.setXs_agenda (x : XState) : (s.setXs x).agenda = s.agenda := rfl
@[simp] theorem State.setXs_active (x : XState) : (s.setXs x).active = s.active := rfl
@[simp] theorem State.setXs_draw (x : XState) : (s.setXs x).draw = s.draw := rfl
@[simp] theorem State.setXs_wire (x : XState) : (s.setXs x).wire = s.wire := rfl
@[simp] theorem State.setXs_freeCtr (x : XState) : (s.setXs x).freeCtr = s.freeCtr := rfl
@[simp] theorem State.setXs_ports_length (x : XState) : (s.setXs x).ports.length = s.ports.length := by
  exact List.length_set

@[simp] theorem State.keepMailbox_params (x : List Byte) : (s.keepMailbox x).params = s.params := rfl
@[simp] theorem State.keepMailbox_roms (x : List Byte) : (s.keepMailbox x).roms = s.roms := rfl
@[simp] theorem State.keepMailbox_inReset (x : List Byte) : (s.keepMailbox x).inReset = s.inReset := rfl
@[simp] theorem State.keepMailbox_slaves (x : List Byte) : (s.keepMailbox x).slaves = s.slaves := rfl
@[simp] theorem State.keepMailbox_bm (x : List Byte) : (s.keepMailbox x).bm = s.bm := rfl
@[simp] theorem State.keepMailbox_agenda (x : List Byte) : (s.keepMailbox x).agenda = s.agenda := rfl
@[simp] theorem State.keepMailbox_active (x : List Byte) : (s.keepMailbox x).active = s.active := rfl
@[simp] theorem State.keepMailbox_draw (x : List Byte) : (s.keepMailbox x).draw = s.draw := rfl
@[simp] theorem State.keepMailbox_wire (x : List Byte) : (s.keepMailbox x).wire = s.wire := rfl
@[simp] theorem State.keepMailbox_freeCtr (x : List Byte) : (s.keepMailbox x).freeCtr = s.freeCtr := rfl
@[simp] theorem State.keepMailbox_ports_length (x : List Byte) : (s.keepMailbox x).ports.length = s.ports.length := by
  exact List.length_set

@[simp] theorem State.finish_params (c : Completion) : (s.finish c).params = s.params := rfl
@[simp] theorem State.finish_roms (c : Completion) : (s.finish c).roms = s.roms := rfl
@[simp] theorem State.finish_inReset (c : Completion) : (s.finish c).inReset = s.inReset := rfl
@[simp] theorem State.finish_slaves (c : Completion) : (s.finish c).slaves = s.slaves := rfl
@[simp] theorem State.finish_bm (c : Completion) : (s.finish c).bm = s.bm := rfl
@[simp] theorem State.finish_agenda (c : Completion) : (s.finish c).agenda = s.agenda := rfl
@[simp] theorem State.finish_active (c : Completion) : (s.finish c).active = s.active := rfl
@[simp] theorem State.finish_draw (c : Completion) : (s.finish c).draw = s.draw := rfl
@[simp] theorem State.finish_wire (c : Completion) : (s.finish c).wire = s.wire := rfl
@[simp] theorem State.finish_freeCtr (c : Completion) : (s.finish c).freeCtr = s.freeCtr := rfl
@[simp] theorem State.finish_ports_length (c : Completion) : (s.finish c).ports.length = s.ports.length := by
  exact List.length_set

@[simp] theorem State.complete_params (c : Completion) : (s.complete c).params = s.params := rfl
@[simp] theorem State.complete_roms (c : Completion) : (s.complete c).roms = s.roms := rfl
@[simp] theorem State.complete_inReset (c : Completion) : (s.complete c).inReset = s.inReset := rfl
@[simp] theorem State.complete_slaves (c : Completion) : (s.complete c).slaves = s.slaves := rfl
@[simp] theorem State.complete_bm (c : Completion) : (s.complete c).bm = s.bm := rfl
@[simp] theorem State.complete_agenda (c : Completion) : (s.complete c).agenda = s.agenda := rfl
@[simp] theorem State.complete_active (c : Completion) : (s.complete c).active = s.active := rfl
@[simp] theorem State.complete_draw (c : Completion) : (s.complete c).draw = s.draw := rfl
@[simp] theorem State.complete_wire (c : Completion) : (s.complete c).wire = s.wire := rfl
@[simp] theorem State.complete_ports_length (c : Completion) : (s.complete c).ports.length = s.ports.length := by
  exact List.length_set

@[simp] theorem State.raise_params (e : Err) : (s.raise e).params = s.params := rfl
@[simp] theorem State.raise_roms (e : Err) : (s.raise e).roms = s.roms := rfl
@[simp] theorem State.raise_inReset (e : Err) : (s.raise e).inReset = s.inReset := rfl
@[simp] theorem State.raise_slaves (e : Err) : (s.raise e).slaves = s.slaves := rfl
@[simp] theorem State.raise_bm (e : Err) : (s.raise e).bm = s.bm := rfl
@[simp] theorem State.raise_agenda (e : Err) : (s.raise e).agenda = s.agenda := rfl
@[simp] theorem State.raise_active (e : Err) : (s.raise e).active = s.active := rfl
@[simp] theorem State.raise_draw (e : Err) : (s.raise e).draw = s.draw := rfl
@[simp] theorem State.raise_wire (e : Err) : (s.raise e).wire = s.wire := rfl
@[simp] theorem State.raise_ports_length (e : Err) : (s.raise e).ports.length = s.ports.length := by
  exact List.length_set

@[simp] theorem State.raiseSdo_params (e : Err) : (s.raiseSdo e).params = s.params := rfl
@[simp] theorem State.raiseSdo_roms (e : Err) : (s.raiseSdo e).roms = s.roms := rfl
@[simp] theorem State.raiseSdo_inReset (e : Err) : (s.raiseSdo e).inReset = s.inReset := rfl
@[simp] theorem State.raiseSdo_slaves (e : Err) : (s.raiseSdo e).slaves = s.slaves := rfl
@[simp] theorem State.raiseSdo_bm (e : Err) : (s.raiseSdo e).bm = s.bm := rfl
@[simp] theorem State.raiseSdo_agenda (e : Err) : (s.raiseSdo e).agenda = s.agenda := rfl
@[simp] theorem State.raiseSdo_active (e : Err) : (s.raiseSdo e).active = s.active := rfl
@[simp] theorem State.raiseSdo_draw (e : Err) : (s.raiseSdo e).draw = s.draw := rfl
@[simp] theorem State.raiseSdo_wire (e : Err) : (s.raiseSdo e).wire = s.wire := rfl
@[simp] theorem State.raiseSdo_ports_length (e : Err) : (s.raiseSdo e).ports.length = s.ports.length := by
  exact List.length_set

@[simp] theorem State.succeed_params (a b c d : Word) : (s.succeed a b c d).params = s.params := rfl
@[simp] theorem State.succeed_roms (a b c d : Word) : (s.succeed a b c d).roms = s.roms := rfl
@[simp] theorem State.succeed_inReset (a b c d : Word) : (s.succeed a b c d).inReset = s.inReset := rfl
@[simp] theorem State.succeed_slaves (a b c d : Word) : (s.succeed a b c d).slaves = s.slaves := rfl
@[simp] theorem State.succeed_bm (a b c d : Word) : (s.succeed a b c d).bm = s.bm := rfl
@[simp] theorem State.succeed_agenda (a b c d : Word) : (s.succeed a b c d).agenda = s.agenda := rfl
@[simp] theorem State.succeed_active (a b c d : Word) : (s.succeed a b c d).active = s.active := rfl
@[simp] theorem State.succeed_draw (a b c d : Word) : (s.succeed a b c d).draw = s.draw := rfl
@[simp] theorem State.succeed_wire (a b c d : Word) : (s.succeed a b c d).wire = s.wire := rfl
@[simp] theorem State.succeed_ports_length (a b c d : Word) : (s.succeed a b c d).ports.length = s.ports.length := by
  exact List.length_set

@[simp] theorem State.fail_params (e : Err) : (s.fail e).params = s.params := rfl
@[simp] theorem State.fail_roms (e : Err) : (s.fail e).roms = s.roms := rfl
@[simp] theorem State.fail_inReset (e : Err) : (s.fail e).inReset = s.inReset := rfl
@[simp] theorem State.fail_slaves (e : Err) : (s.fail e).slaves = s.slaves := rfl
@[simp] theorem State.fail_bm (e : Err) : (s.fail e).bm = s.bm := rfl
@[simp] theorem State.fail_agenda (e : Err) : (s.fail e).agenda = s.agenda := rfl
@[simp] theorem State.fail_active (e : Err) : (s.fail e).active = s.active := rfl
@[simp] theorem State.fail_draw (e : Err) : (s.fail e).draw = s.draw := rfl
@[simp] theorem State.fail_wire (e : Err) : (s.fail e).wire = s.wire := rfl
@[simp] theorem State.fail_freeCtr (e : Err) : (s.fail e).freeCtr = s.freeCtr := rfl
@[simp] theorem State.fail_ports_length (e : Err) : (s.fail e).ports.length = s.ports.length := by
  exact List.length_set

@[simp] theorem State.failSdo_params (e : Err) : (s.failSdo e).params = s.params := rfl
@[simp] theorem State.failSdo_roms (e : Err) : (s.failSdo e).roms = s.roms := rfl
@[simp] theorem State.failSdo_inReset (e : Err) : (s.failSdo e).inReset = s.inReset := rfl
@[simp] theorem State.failSdo_slaves (e : Err) : (s.failSdo e).slaves = s.slaves := rfl
@[simp] theorem State.failSdo_bm (e : Err) : (s.failSdo e).bm = s.bm := rfl
@[simp] theorem State.failSdo_agenda (e : Err) : (s.failSdo e).agenda = s.agenda := rfl
@[simp] theorem State.failSdo_active (e : Err) : (s.failSdo e).active = s.active := rfl
@[simp] theorem State.failSdo_draw (e : Err) : (s.failSdo e).draw = s.draw := rfl
@[simp] theorem State.failSdo_wire (e : Err) : (s.failSdo e).wire = s.wire := rfl
@[simp] theorem State.failSdo_freeCtr (e : Err) : (s.failSdo e).freeCtr = s.freeCtr := rfl
@[simp] theorem State.failSdo_ports_length (e : Err) : (s.failSdo e).ports.length = s.ports.length := by
  exact List.length_set.trans List.length_set

@[simp] theorem State.finishSdo_params (a b c d : Word) : (s.finishSdo a b c d).params = s.params := rfl
@[simp] theorem State.finishSdo_roms (a b c d : Word) : (s.finishSdo a b c d).roms = s.roms := rfl
@[simp] theorem State.finishSdo_inReset (a b c d : Word) : (s.finishSdo a b c d).inReset = s.inReset := rfl
@[simp] theorem State.finishSdo_slaves (a b c d : Word) : (s.finishSdo a b c d).slaves = s.slaves := rfl
@[simp] theorem State.finishSdo_bm (a b c d : Word) : (s.finishSdo a b c d).bm = s.bm := rfl
@[simp] theorem State.finishSdo_agenda (a b c d : Word) : (s.finishSdo a b c d).agenda = s.agenda := rfl
@[simp] theorem State.finishSdo_active (a b c d : Word) : (s.finishSdo a b c d).active = s.active := rfl
@[simp] theorem State.finishSdo_draw (a b c d : Word) : (s.finishSdo a b c d).draw = s.draw := rfl
@[simp] theorem State.finishSdo_wire (a b c d : Word) : (s.finishSdo a b c d).wire = s.wire := rfl
@[simp] theorem State.finishSdo_freeCtr (a b c d : Word) : (s.finishSdo a b c d).freeCtr = s.freeCtr := rfl
@[simp] theorem State.finishSdo_ports_length (a b c d : Word) : (s.finishSdo a b c d).ports.length = s.ports.length := by
  exact List.length_set.trans List.length_set

@[simp] theorem State.setSlave_params (v : BitVec 8) (e : Slave) : (s.setSlave v e).params = s.params := rfl
@[simp] theorem State.setSlave_roms (v : BitVec 8) (e : Slave) : (s.setSlave v e).roms = s.roms := rfl
@[simp] theorem State.setSlave_inReset (v : BitVec 8) (e : Slave) : (s.setSlave v e).inReset = s.inReset := rfl
@[simp] theorem State.setSlave_bm (v : BitVec 8) (e : Slave) : (s.setSlave v e).bm = s.bm := rfl
@[simp] theorem State.setSlave_agenda (v : BitVec 8) (e : Slave) : (s.setSlave v e).agenda = s.agenda := rfl
@[simp] theorem State.setSlave_active (v : BitVec 8) (e : Slave) : (s.setSlave v e).active = s.active := rfl
@[simp] theorem State.setSlave_draw (v : BitVec 8) (e : Slave) : (s.setSlave v e).draw = s.draw := rfl
@[simp] theorem State.setSlave_wire (v : BitVec 8) (e : Slave) : (s.setSlave v e).wire = s.wire := rfl
@[simp] theorem State.setSlave_freeCtr (v : BitVec 8) (e : Slave) : (s.setSlave v e).freeCtr = s.freeCtr := rfl
@[simp] theorem State.setSlave_ports (v : BitVec 8) (e : Slave) : (s.setSlave v e).ports = s.ports := rfl
@[simp] theorem State.setSlave_port (v : BitVec 8) (e : Slave) : (s.setSlave v e).port = s.port := rfl

@[simp] theorem State.takeCounter_params (v : BitVec 8) : (s.takeCounter v).params = s.params := rfl
@[simp] theorem State.takeCounter_roms (v : BitVec 8) : (s.takeCounter v).roms = s.roms := rfl
@[simp] theorem State.takeCounter_inReset (v : BitVec 8) : (s.takeCounter v).inReset = s.inReset := rfl
@[simp] theorem State.takeCounter_bm (v : BitVec 8) : (s.takeCounter v).bm = s.bm := rfl
@[simp] theorem State.takeCounter_agenda (v : BitVec 8) : (s.takeCounter v).agenda = s.agenda := rfl
@[simp] theorem State.takeCounter_active (v : BitVec 8) : (s.takeCounter v).active = s.active := rfl
@[simp] theorem State.takeCounter_draw (v : BitVec 8) : (s.takeCounter v).draw = s.draw := rfl
@[simp] theorem State.takeCounter_wire (v : BitVec 8) : (s.takeCounter v).wire = s.wire := rfl
@[simp] theorem State.takeCounter_freeCtr (v : BitVec 8) : (s.takeCounter v).freeCtr = s.freeCtr := rfl
@[simp] theorem State.takeCounter_ports (v : BitVec 8) : (s.takeCounter v).ports = s.ports := rfl
@[simp] theorem State.takeCounter_port (v : BitVec 8) : (s.takeCounter v).port = s.port := rfl

@[simp] theorem State.bmWrite_params (a : Nat) (bs : List Byte) : (s.bmWrite a bs).params = s.params := rfl
@[simp] theorem State.bmWrite_roms (a : Nat) (bs : List Byte) : (s.bmWrite a bs).roms = s.roms := rfl
@[simp] theorem State.bmWrite_inReset (a : Nat) (bs : List Byte) : (s.bmWrite a bs).inReset = s.inReset := rfl
@[simp] theorem State.bmWrite_slaves (a : Nat) (bs : List Byte) : (s.bmWrite a bs).slaves = s.slaves := rfl
@[simp] theorem State.bmWrite_agenda (a : Nat) (bs : List Byte) : (s.bmWrite a bs).agenda = s.agenda := rfl
@[simp] theorem State.bmWrite_active (a : Nat) (bs : List Byte) : (s.bmWrite a bs).active = s.active := rfl
@[simp] theorem State.bmWrite_draw (a : Nat) (bs : List Byte) : (s.bmWrite a bs).draw = s.draw := rfl
@[simp] theorem State.bmWrite_wire (a : Nat) (bs : List Byte) : (s.bmWrite a bs).wire = s.wire := rfl
@[simp] theorem State.bmWrite_freeCtr (a : Nat) (bs : List Byte) : (s.bmWrite a bs).freeCtr = s.freeCtr := rfl
@[simp] theorem State.bmWrite_ports (a : Nat) (bs : List Byte) : (s.bmWrite a bs).ports = s.ports := rfl
@[simp] theorem State.bmWrite_port (a : Nat) (bs : List Byte) : (s.bmWrite a bs).port = s.port := rfl

@[simp] theorem State.transact_params (op : TransportOp) : (s.transact op).params = s.params := rfl
@[simp] theorem State.transact_roms (op : TransportOp) : (s.transact op).roms = s.roms := rfl
@[simp] theorem State.transact_inReset (op : TransportOp) : (s.transact op).inReset = s.inReset := rfl
@[simp] theorem State.transact_slaves (op : TransportOp) : (s.transact op).slaves = s.slaves := rfl
@[simp] theorem State.transact_bm (op : TransportOp) : (s.transact op).bm = s.bm := rfl
@[simp] theorem State.transact_agenda (op : TransportOp) : (s.transact op).agenda = s.agenda := rfl
@[simp] theorem State.transact_active (op : TransportOp) : (s.transact op).active = s.active := rfl
@[simp] theorem State.transact_draw (op : TransportOp) : (s.transact op).draw = s.draw := rfl
@[simp] theorem State.transact_freeCtr (op : TransportOp) : (s.transact op).freeCtr = s.freeCtr := rfl
@[simp] theorem State.transact_ports (op : TransportOp) : (s.transact op).ports = s.ports := rfl
@[simp] theorem State.transact_port (op : TransportOp) : (s.transact op).port = s.port := rfl

@[simp] theorem State.setSlave_slaves (v : BitVec 8) (e : Slave) :
    (s.setSlave v e).slaves = s.slaves.set v.toNat e := rfl
@[simp] theorem State.bmWrite_bm (a : Nat) (bs : List Byte) :
    (s.bmWrite a bs).bm = s.bm.writeRange a bs := rfl
@[simp] theorem State.transact_wire (op : TransportOp) :
    (s.transact op).wire = (op, s.answer op) :: s.wire := rfl
@[simp] theorem State.complete_freeCtr (c : Completion) : (s.complete c).freeCtr = s.freeCtr + 1 := rfl

/-! ## The running port -/

@[simp] theorem runnable_setPort (p : Port) : Runnable (s.setPort p) ↔ Runnable s := by
  simp [Runnable]
@[simp] theorem runnable_bmWrite (a : Nat) (bs : List Byte) : Runnable (s.bmWrite a bs) ↔ Runnable s :=
  Iff.rfl
@[simp] theorem runnable_transact (op : TransportOp) : Runnable (s.transact op) ↔ Runnable s := Iff.rfl
@[simp] theorem runnable_setSlave (v : BitVec 8) (e : Slave) : Runnable (s.setSlave v e) ↔ Runnable s :=
  Iff.rfl
@[simp] theorem runnable_takeCounter (v : BitVec 8) : Runnable (s.takeCounter v) ↔ Runnable s := Iff.rfl
@[simp] theorem runnable_goto (m : Micro) : Runnable (s.goto m) ↔ Runnable s := runnable_setPort s _
@[simp] theorem runnable_setHid (h : Hidden) : Runnable (s.setHid h) ↔ Runnable s := runnable_setPort s _
@[simp] theorem runnable_setXs (x : XState) : Runnable (s.setXs x) ↔ Runnable s := runnable_setPort s _
@[simp] theorem runnable_keepMailbox (x : List Byte) : Runnable (s.keepMailbox x) ↔ Runnable s :=
  runnable_setPort s _
@[simp] theorem runnable_finish (c : Completion) : Runnable (s.finish c) ↔ Runnable s := runnable_setPort s _
@[simp] theorem runnable_complete (c : Completion) : Runnable (s.complete c) ↔ Runnable s := by
  simp [Runnable, State.complete, State.setPort]

variable {s}

/-- The running port is the list entry the state names. -/
theorem port_eq_of_getElem? {p : Port} (h : s.ports[s.active]? = some p) : s.port = p := by
  simp [State.port, h]

theorem getElem?_active (h : Runnable s) : s.ports[s.active]? = some s.port := by
  simp [State.port, List.getElem?_eq_getElem h]

@[simp] theorem setPort_port (h : Runnable s) (p : Port) : (s.setPort p).port = p := by
  simp only [Runnable] at h
  simp [State.port, State.setPort, h]

@[simp] theorem goto_port (h : Runnable s) (m : Micro) :
    (s.goto m).port = { s.port with pst := .busy m } := setPort_port h _

@[simp] theorem setHid_port (h : Runnable s) (k : Hidden) :
    (s.setHid k).port = { s.port with hid := k } := setPort_port h _

@[simp] theorem setXs_port (h : Runnable s) (x : XState) :
    (s.setXs x).port = { s.port with hid := { s.port.hid with xs := x } } := setPort_port h _

@[simp] theorem keepMailbox_port (h : Runnable s) (rx : List Byte) :
    (s.keepMailbox rx).port =
      { s.port with hid := { s.port.hid with rxBuf := rx ++ s.port.hid.rxBuf.drop rx.length } } :=
  setPort_port h _

@[simp] theorem finish_port (h : Runnable s) (c : Completion) :
    (s.finish c).port = { s.port with pst := .busy (.finish c) } := setPort_port h _

@[simp] theorem complete_port (h : Runnable s) (c : Completion) :
    (s.complete c).port = { s.port with
      rs := c.rs, stat := c.stat, pst := .idle, hid := Hidden.free s.params.maxMbxLen s.freeCtr } :=
  setPort_port h _

/-- The micro-state of a BUSY port. -/
theorem micro_of_busy {m : Micro} (h : s.port.pst = .busy m) : s.micro = m := by
  simp [State.micro, h]

theorem micro_of_idle (h : s.port.pst = .idle) : s.micro = .start := by
  simp [State.micro, h]

/-- What one port write leaves of the others. -/
theorem setPort_getElem?_ne (p : Port) {q : Nat} (h : q ≠ s.active) :
    (s.setPort p).ports[q]? = s.ports[q]? := by
  simp [State.setPort, Ne.symm h]

end Sys2Proof.Machine
end

