-- ==== Sys2Proof/Laws/Ops.lean ====
section
/-! SUPPORT. What each shared operation can do, said once: what it leaves untouched and how it ends a
step. -/

namespace Sys2Proof.Machine

variable {s t u : State}

/-! ## Untouched -/

theorem Untouched.refl (s : State) : Untouched s s :=
  ⟨rfl, rfl, rfl, rfl, fun _ _ => rfl, rfl, rfl, rfl, rfl, rfl⟩

theorem Untouched.trans (h : Untouched s t) (k : Untouched t u) : Untouched s u := by
  obtain ⟨a1, a2, a3, a4, a5, a6, a7, a8, a9, a10⟩ := h
  obtain ⟨b1, b2, b3, b4, b5, b6, b7, b8, b9, b10⟩ := k
  exact ⟨b1.trans a1, b2.trans a2, b3.trans a3, b4.trans a4,
    fun q hq => (b5 q (a9 ▸ hq)).trans (a5 q hq), b6.trans a6, b7.trans a7, b8.trans a8, b9.trans a9,
    b10.trans a10⟩

/-- Replacing the running port by one with the same `CMD` and `OP` touches nothing a command may not. -/
theorem untouched_setPort (s : State) {p : Port} (hc : p.cmd = s.port.cmd) (ho : p.op = s.port.op) :
    Untouched s (s.setPort p) := by
  refine ⟨rfl, rfl, rfl, by simp, fun q hq => setPort_getElem?_ne p hq, ?_, ?_, rfl, rfl, rfl⟩
  all_goals
    by_cases h : Runnable s
    · simp [setPort_port h, hc, ho]
    · simp only [Runnable] at h
      simp [State.port, State.setPort, List.set_eq_of_length_le (Nat.le_of_not_lt h)]

theorem untouched_goto (s : State) (m : Micro) : Untouched s (s.goto m) := untouched_setPort s rfl rfl
theorem untouched_setHid (s : State) (h : Hidden) : Untouched s (s.setHid h) := untouched_setPort s rfl rfl
theorem untouched_setXs (s : State) (x : XState) : Untouched s (s.setXs x) := untouched_setPort s rfl rfl
theorem untouched_keepMailbox (s : State) (rx : List Byte) : Untouched s (s.keepMailbox rx) :=
  untouched_setPort s rfl rfl
theorem untouched_finish (s : State) (c : Completion) : Untouched s (s.finish c) :=
  untouched_setPort s rfl rfl

theorem untouched_complete (s : State) (c : Completion) : Untouched s (s.complete c) := by
  have h := untouched_setPort s (p := { s.port with
      rs := c.rs, stat := c.stat, pst := .idle, hid := Hidden.free s.params.maxMbxLen s.freeCtr }) rfl rfl
  exact h

theorem untouched_bmWrite (s : State) (a : Nat) (bs : List Byte) : Untouched s (s.bmWrite a bs) :=
  ⟨rfl, rfl, rfl, rfl, fun _ _ => rfl, rfl, rfl, rfl, rfl, rfl⟩
theorem untouched_setSlave (s : State) (v : BitVec 8) (e : Slave) : Untouched s (s.setSlave v e) :=
  ⟨rfl, rfl, rfl, rfl, fun _ _ => rfl, rfl, rfl, rfl, rfl, rfl⟩
theorem untouched_takeCounter (s : State) (v : BitVec 8) : Untouched s (s.takeCounter v) :=
  ⟨rfl, rfl, rfl, rfl, fun _ _ => rfl, rfl, rfl, rfl, rfl, rfl⟩
theorem untouched_transact (s : State) (op : TransportOp) : Untouched s (s.transact op) :=
  ⟨rfl, rfl, rfl, rfl, fun _ _ => rfl, rfl, rfl, rfl, rfl, rfl⟩

theorem untouched_raise (s : State) (e : Err) : Untouched s (s.raise e) := untouched_complete s _
theorem untouched_raiseSdo (s : State) (e : Err) : Untouched s (s.raiseSdo e) := untouched_complete s _
theorem untouched_succeed (s : State) (a b c d : Word) : Untouched s (s.succeed a b c d) :=
  untouched_complete s _
theorem untouched_fail (s : State) (e : Err) : Untouched s (s.fail e) := untouched_finish s _
theorem untouched_failSdo (s : State) (e : Err) : Untouched s (s.failSdo e) :=
  (untouched_setXs s _).trans (untouched_finish _ _)
theorem untouched_finishSdo (s : State) (a b c d : Word) : Untouched s (s.finishSdo a b c d) :=
  (untouched_setXs s _).trans (untouched_finish _ _)

/-! ## Completion -/

/-- A completed port is done with the results given. -/
theorem done_complete (h : Runnable s) (c : Completion) : Done (s.complete c) c.rs c.ecode c.xstate := by
  simp [Done, complete_port h, Completion.stat]

theorem done_raise (h : Runnable s) (e : Err) : Done (s.raise e) e.info e.code 0 := done_complete h _

theorem done_raiseSdo (h : Runnable s) (e : Err) :
    Done (s.raiseSdo e) e.info e.code (xstateCode e.terminal) := done_complete h _

theorem done_succeed (h : Runnable s) (a b c d : Word) : Done (s.succeed a b c d) #v[a, b, c, d] 0 0 :=
  done_complete h _

/-- A step that is one `raise` and nothing else. -/
theorem raises_of {i : Instr} {e : Err} (h : Runnable s) (hx : exec i s = .next (s.raise e)) :
    Raises i s e 0 :=
  ⟨_, hx, untouched_raise s e, fun _ => rfl, ⟨rfl, rfl⟩, done_raise h e⟩

theorem raises_sdo_of {i : Instr} {e : Err} (h : Runnable s) (hx : exec i s = .next (s.raiseSdo e)) :
    Raises i s e (xstateCode e.terminal) :=
  ⟨_, hx, untouched_raiseSdo s e, fun _ => rfl, ⟨rfl, rfl⟩, done_raiseSdo h e⟩

/-- A step that completes with the results a finishing port holds. -/
theorem completes_of {i : Instr} {c : Completion} (h : Runnable s)
    (hx : exec i s = .next (s.complete c)) : Completes i s c :=
  ⟨_, hx, untouched_complete s c, fun _ => rfl, ⟨rfl, rfl⟩, done_complete h c⟩

/-! ## Going on -/

theorem goes_goto (h : Runnable s) (m : Micro) : Goes s (s.goto m) m := by
  simp [Goes, goto_port h]

theorem goes_finish (h : Runnable s) (c : Completion) : Goes s (s.finish c) (.finish c) := goes_goto h _

theorem keepsHidden_goto (h : Runnable s) (m : Micro) : KeepsHidden s (s.goto m) s.port.hid.xs := by
  simp [KeepsHidden, goto_port h]

theorem setXs_goto_port (h : Runnable s) (x : XState) (m : Micro) : ((s.setXs x).goto m).port =
    { s.port with pst := .busy m, hid := { s.port.hid with xs := x } } := by
  rw [goto_port (by rwa [runnable_setXs]), setXs_port h]

theorem goes_setXs_goto (h : Runnable s) (x : XState) (m : Micro) : Goes s ((s.setXs x).goto m) m := by
  simp [Goes, setXs_goto_port h]

theorem keepsHidden_setXs_goto (h : Runnable s) (x : XState) (m : Micro) :
    KeepsHidden s ((s.setXs x).goto m) x := by
  simp [KeepsHidden, setXs_goto_port h]

/-- A step that only goes on to another micro-state. -/
theorem advances_of {i : Instr} {m : Micro} (h : Runnable s) (hx : exec i s = .next (s.goto m)) :
    Advances i s m :=
  ⟨_, hx, untouched_goto s m, fun _ => rfl, ⟨rfl, rfl⟩, goes_goto h m, keepsHidden_goto h m⟩

/-- A step that sets `XS` and goes on to another micro-state. -/
theorem advances_setXs {i : Instr} {x : XState} {m : Micro} (h : Runnable s)
    (hx : exec i s = .next ((s.setXs x).goto m)) : AdvancesXs i s m x :=
  ⟨_, hx, (untouched_setXs s x).trans (untouched_goto _ m), fun _ => rfl, ⟨rfl, rfl⟩,
    goes_setXs_goto h x m, keepsHidden_setXs_goto h x m⟩

/-! ## The Transport -/

/-- A Transport step answered `Ok`. -/
theorem transport_ok {op : TransportOp} {b : List Byte} (h : s.answer op = .ok b)
    (f : State → Err → State) (g : State → List Byte → State) :
    s.transport op f g = g (s.transact op) b := by
  simp [State.transport, h]

/-- A Transport step answered `Err`. -/
theorem transport_err {op : TransportOp} {t : BitVec 32} (h : s.answer op = .err t)
    (f : State → Err → State) (g : State → List Byte → State) :
    s.transport op f g = f (s.transact op) (.transport t) := by
  simp [State.transport, h]

/-- Whatever holds after both continuations of a Transport step holds after the step. -/
theorem transport_cases {P : State → Prop} (s : State) (op : TransportOp) (f : State → Err → State)
    (g : State → List Byte → State) (hf : ∀ t, s.answer op = .err t → P (f (s.transact op) (.transport t)))
    (hg : ∀ b, s.answer op = .ok b → P (g (s.transact op) b)) : P (s.transport op f g) := by
  unfold State.transport
  split
  · exact hf _ ‹_›
  · exact hg _ ‹_›

/-- An `Ok` answer has exactly as many bytes as its operation asks for. -/
theorem answer_length {op : TransportOp} {b : List Byte} (h : s.answer op = .ok b) : b.length = op.len := by
  unfold State.answer Answer.fit at h
  split at h
  · simp only [Answer.ok.injEq] at h
    subst h
    simp [fitBytes, zeros]
    omega
  · cases h

/-- A step that is one Transport operation and then goes on. -/
theorem transacts_goto {i : Instr} {op : TransportOp} {m : Micro} (h : Runnable s)
    (hx : exec i s = .next ((s.transact op).goto m)) : Transacts i s op m :=
  ⟨_, hx, ⟨(untouched_transact s op).trans (untouched_goto _ m), fun _ => rfl, rfl, rfl,
    goes_goto (s := s.transact op) h m⟩, keepsHidden_goto (s := s.transact op) h m⟩

/-- A step that is one Transport operation, sets `XS` and then goes on. -/
theorem transacts_setXs {i : Instr} {op : TransportOp} {x : XState} {m : Micro} (h : Runnable s)
    (hx : exec i s = .next (((s.transact op).setXs x).goto m)) : TransactsXs i s op m x :=
  ⟨_, hx, ⟨(untouched_transact s op).trans ((untouched_setXs _ x).trans (untouched_goto _ m)), fun _ => rfl,
    rfl, rfl, goes_setXs_goto (s := s.transact op) h x m⟩, keepsHidden_setXs_goto (s := s.transact op) h x m⟩

/-- A step that is one Transport operation and leaves the micro-state for another iteration. -/
theorem transacts_stay {i : Instr} {op : TransportOp} {m : Micro} (hm : s.port.pst = .busy m)
    (hx : exec i s = .next (s.transact op)) : Transacts i s op m :=
  ⟨_, hx, ⟨untouched_transact s op, fun _ => rfl, rfl, rfl, hm, rfl, rfl⟩, rfl⟩

/-- A step that is one Transport operation and then an SDO error. -/
theorem transacts_failSdo {i : Instr} {op : TransportOp} {e : Err} (h : Runnable s)
    (hx : exec i s = .next ((s.transact op).failSdo e)) :
    TransactsXs i s op (.finish (errResults e (xstateCode e.terminal))) e.terminal := transacts_setXs h hx

end Sys2Proof.Machine
end

