-- ==== Sys2Proof/Laws/Memory.lean ====
section
/-! SUPPORT. The Buffer Memory: reading after writing, and that every operation keeps the canonical form and
the bound. -/

namespace Sys2Proof.Machine

variable {m : Memory} {a lo size : Nat} {b : Byte}

/-! ## The canonical form -/

theorem wfFrom_mono {lo' : Nat} (h : Memory.wfFrom lo m = true) (hl : lo' ≤ lo) :
    Memory.wfFrom lo' m = true := by
  cases m with
  | nil => rfl
  | cons c m =>
    simp only [Memory.wfFrom, Bool.and_eq_true, decide_eq_true_eq] at h ⊢
    exact ⟨⟨by omega, h.1.2⟩, h.2⟩

/-- Below a canonical memory's first address nothing is listed. -/
theorem read_of_lt (h : Memory.wfFrom lo m = true) (ha : a < lo) : m.read a = Memory.blank := by
  induction m generalizing lo with
  | nil => rfl
  | cons c m ih =>
    simp only [Memory.wfFrom, Bool.and_eq_true, decide_eq_true_eq] at h
    rw [Memory.read, if_neg (by omega)]
    exact ih h.2 (by omega)

theorem wfFrom_cons (h : Memory.wfFrom (a + 1) m = true) (hl : lo ≤ a) :
    Memory.wfFrom lo (Memory.cons a b m) = true := by
  unfold Memory.cons
  split
  · exact wfFrom_mono h (by omega)
  · simp_all [Memory.wfFrom]

/-- A write keeps the canonical form. -/
theorem wfFrom_write (h : Memory.wfFrom lo m = true) (hl : lo ≤ a) (b : Byte) :
    Memory.wfFrom lo (m.write a b) = true := by
  induction m generalizing lo with
  | nil => exact wfFrom_cons rfl hl
  | cons c m ih =>
    have h' := h
    simp only [Memory.wfFrom, Bool.and_eq_true, decide_eq_true_eq] at h'
    obtain ⟨⟨h1, h2⟩, h3⟩ := h'
    unfold Memory.write
    split
    · refine wfFrom_cons ?_ hl
      simp only [Memory.wfFrom, Bool.and_eq_true, decide_eq_true_eq]
      exact ⟨⟨by omega, h2⟩, h3⟩
    · split
      · subst a; exact wfFrom_cons h3 hl
      · simp only [Memory.wfFrom, Bool.and_eq_true, decide_eq_true_eq]
        exact ⟨⟨h1, h2⟩, ih h3 (by omega)⟩

theorem wf_write (h : m.wf = true) (a : Nat) (b : Byte) : (m.write a b).wf = true :=
  wfFrom_write h (Nat.zero_le _) b

theorem wf_writeRange (h : m.wf = true) (a : Nat) (bs : List Byte) : (m.writeRange a bs).wf = true := by
  induction bs generalizing m a with
  | nil => exact h
  | cons b bs ih => exact ih (wf_write h a b) _

/-- The memory right after reset is in canonical form. -/
theorem wf_reset : State.reset.bm.wf = true := rfl

/-! ## The bound -/

theorem below_cons (h : Memory.below size m = true) (ha : a < size) :
    Memory.below size (Memory.cons a b m) = true := by
  unfold Memory.cons
  split
  · exact h
  · simp only [Memory.below, List.all_cons, Bool.and_eq_true, decide_eq_true_eq]
    exact ⟨ha, h⟩

/-- A write inside the bound lists no address outside it. -/
theorem below_write (h : Memory.below size m = true) (ha : a < size) (b : Byte) :
    Memory.below size (m.write a b) = true := by
  induction m with
  | nil => exact below_cons rfl ha
  | cons c m ih =>
    have h' := h
    simp only [Memory.below, List.all_cons, Bool.and_eq_true, decide_eq_true_eq] at h'
    unfold Memory.write
    split
    · exact below_cons h ha
    · split
      · exact below_cons h'.2 ha
      · simp only [Memory.below, List.all_cons, Bool.and_eq_true, decide_eq_true_eq]
        exact ⟨h'.1, ih h'.2⟩

theorem below_writeRange (h : Memory.below size m = true) (a : Nat) (bs : List Byte)
    (ha : a + bs.length ≤ size) : Memory.below size (m.writeRange a bs) = true := by
  induction bs generalizing m a with
  | nil => exact h
  | cons b bs ih =>
    simp only [List.length_cons] at ha
    exact ih (below_write h (by omega) b) _ (by omega)

/-! ## Reading after writing -/

theorem read_cons (x : Nat) (h : Memory.wfFrom (a + 1) m = true) :
    (Memory.cons a b m).read x = if x = a then b else m.read x := by
  unfold Memory.cons
  split
  · subst b
    split
    · subst x; exact read_of_lt h (Nat.lt_succ_self _)
    · rfl
  · simp only [Memory.read, eq_comm]

theorem read_write_from (h : Memory.wfFrom lo m = true) (a : Nat) (b : Byte) (x : Nat) :
    (m.write a b).read x = if x = a then b else m.read x := by
  induction m generalizing lo with
  | nil => exact read_cons x rfl
  | cons c m ih =>
    have h' := h
    simp only [Memory.wfFrom, Bool.and_eq_true, decide_eq_true_eq] at h'
    obtain ⟨⟨h1, h2⟩, h3⟩ := h'
    unfold Memory.write
    split
    · refine read_cons x ?_
      simp only [Memory.wfFrom, Bool.and_eq_true, decide_eq_true_eq]
      exact ⟨⟨by omega, h2⟩, h3⟩
    · split
      · subst a
        rw [read_cons x h3]
        simp only [Memory.read]
        split
        · rfl
        · rw [if_neg (by omega)]
      · simp only [Memory.read, ih h3]
        by_cases hx : c.1 = x
        · rw [if_pos hx, if_pos hx, if_neg (by omega)]
        · rw [if_neg hx, if_neg hx]

/-- A byte written is read back, and every other byte reads as before. -/
theorem read_write (h : m.wf = true) (a : Nat) (b : Byte) (x : Nat) :
    (m.write a b).read x = if x = a then b else m.read x := read_write_from h a b x

/-- A range written is read back, and every byte outside it reads as before. -/
theorem read_writeRange (h : m.wf = true) (a : Nat) (bs : List Byte) (x : Nat) :
    (m.writeRange a bs).read x =
      if a ≤ x ∧ x < a + bs.length then byteAt bs (x - a) else m.read x := by
  induction bs generalizing m a with
  | nil => simp [Memory.writeRange]
  | cons b bs ih =>
    rw [Memory.writeRange, ih (wf_write h a b), read_write h]
    simp only [List.length_cons]
    by_cases hx : x = a
    · subst x
      rw [if_neg (by omega), if_pos rfl, if_pos (by omega)]
      simp [byteAt]
    · by_cases h1 : a + 1 ≤ x ∧ x < a + 1 + bs.length
      · rw [if_pos h1, if_pos (by omega)]
        obtain ⟨k, hk⟩ : ∃ k, x - a = k + 1 := ⟨x - a - 1, by omega⟩
        rw [hk, show x - (a + 1) = k by omega]
        simp [byteAt]
      · rw [if_neg h1, if_neg hx, if_neg (by omega)]

@[simp] theorem readRange_length (m : Memory) (a n : Nat) : (m.readRange a n).length = n := by
  induction n generalizing a with
  | zero => rfl
  | succ n ih => simp [Memory.readRange, ih]

/-- A range read is the bytes at its addresses. -/
theorem readRange_eq_map (m : Memory) (a n : Nat) :
    m.readRange a n = (List.range n).map fun k => m.read (a + k) := by
  induction n generalizing a with
  | zero => rfl
  | succ n ih =>
    rw [Memory.readRange, ih, List.range_succ_eq_map]
    simp [Function.comp_def, Nat.add_assoc, Nat.add_comm 1]

variable {s : State}

@[simp] theorem bmRead_length (s : State) (a n : Nat) : (s.bmRead a n).length = n := readRange_length _ _ _

theorem bmRead_eq (s : State) (a n : Nat) : s.bmRead a n = bytesAt s a n := readRange_eq_map _ _ _

@[simp] theorem bytesAt_length (s : State) (a n : Nat) : (bytesAt s a n).length = n := by simp [bytesAt]

/-- What a write of `bs` at `a` does to `BM`. -/
theorem wrote_bmWrite (h : s.bm.wf = true) (a : Nat) (bs : List Byte) : Wrote s (s.bmWrite a bs) a bs := by
  refine ⟨fun k hk => ?_, fun x hx => ?_⟩
  · rw [State.bmWrite_bm, read_writeRange h, if_pos (by omega), Nat.add_sub_cancel_left]
  · rw [State.bmWrite_bm, read_writeRange h, if_neg (by omega)]

/-- A step that writes nothing wrote the empty range. -/
theorem wrote_nil {t : State} (a : Nat) (h : SameMemory s t) : Wrote s t a [] :=
  ⟨fun _ hk => absurd hk (Nat.not_lt_zero _), fun x _ => h x⟩

/-- A step that writes `bs` at `a` and then completes with success. -/
theorem succeeds_of {i : Instr} {a : Nat} {bs : List Byte} {r0 r1 r2 r3 : Word} (h : Runnable s)
    (hw : s.bm.wf = true) (hx : exec i s = .next ((s.bmWrite a bs).succeed r0 r1 r2 r3)) :
    Succeeds i s a bs #v[r0, r1, r2, r3] :=
  ⟨_, hx, (untouched_bmWrite s a bs).trans (untouched_succeed _ _ _ _ _), ⟨rfl, rfl⟩,
    wrote_bmWrite hw a bs, done_succeed (s := s.bmWrite a bs) h _ _ _ _⟩

/-- A step that writes nothing and completes with success. -/
theorem succeeds_quietly_of {i : Instr} {r0 r1 r2 r3 : Word} (h : Runnable s)
    (hx : exec i s = .next (s.succeed r0 r1 r2 r3)) : Succeeds i s 0 [] #v[r0, r1, r2, r3] :=
  ⟨_, hx, untouched_succeed s _ _ _ _, ⟨rfl, rfl⟩, wrote_nil 0 fun _ => rfl, done_succeed h _ _ _ _⟩

end Sys2Proof.Machine
end

