-- ==== Sys2Proof/Laws/Shape.lean ====
section
/-! SUPPORT. What a step of a command can do, said once: at most one effect outside its port, and then it
either completes the running port or moves it to another micro-state (20_memory.md R70, R75). -/

namespace Sys2Proof.Machine

variable {s t u : State}

/-- What a command step does apart from moving its port: nothing, one Transport operation, one `BM` write,
the configuration of a handle that is not configured (SCFG), or one counter step. Never two of them. -/
inductive Aside (s : State) : State → Prop where
  | same : Aside s s
  | transact (op : TransportOp) : Aside s (s.transact op)
  | bmWrite (a : Nat) (bs : List Byte) : Aside s (s.bmWrite a bs)
  | configure (slv : BitVec 8) (e : Slave) (hlt : slv.toNat < s.slaves.length)
      (hc : (s.slave slv).cfg = false) (he : slaveOk s.params.maxMbxLen e = true) (hcfg : e.cfg = true) :
      Aside s (s.setSlave slv e)
  | count (slv : BitVec 8) : Aside s (s.takeCounter slv)

/-- `t` is `s` with the running port completed or moved on. -/
def PortMoves (s t : State) : Prop :=
  (∃ c, t = s.complete c) ∨ ∃ h m, t = (s.setHid h).goto m

/-- The shape of every command step. -/
def Shape (s t : State) : Prop := ∃ u, Aside s u ∧ PortMoves u t

/-! ## Writing the running port twice -/

theorem setPort_setPort (s : State) (p q : Port) : (s.setPort p).setPort q = s.setPort q := by
  simp [State.setPort]

theorem setHid_setHid (s : State) (h k : Hidden) : (s.setHid h).setHid k = s.setHid k := by
  by_cases hr : Runnable s
  · simp [State.setHid, setPort_port hr, setPort_setPort]
  · simp only [Runnable, Nat.not_lt] at hr
    simp [State.setHid, State.setPort, List.set_eq_of_length_le hr]

theorem setHid_complete (s : State) (h : Hidden) (c : Completion) :
    (s.setHid h).complete c = s.complete c := by
  by_cases hr : Runnable s
  · simp [State.complete, State.setHid, setPort_port hr, setPort_setPort]
  · simp only [Runnable, Nat.not_lt] at hr
    simp [State.complete, State.setHid, State.setPort, List.set_eq_of_length_le hr]

/-- Writing the running port back changes nothing. -/
theorem setPort_port_self (s : State) : s.setPort s.port = s := by
  by_cases hr : Runnable s
  · have : s.ports.set s.active s.port = s.ports := by
      simp [State.port, List.getElem?_eq_getElem (show s.active < s.ports.length from hr)]
    simp [State.setPort, this]
  · simp only [Runnable, Nat.not_lt] at hr
    simp [State.setPort, List.set_eq_of_length_le hr]

theorem setHid_hid (s : State) : s.setHid s.hid = s := setPort_port_self s

/-- A port already in micro-state `m` is where moving it to `m` puts it. -/
theorem goto_self {m : Micro} (hm : s.port.pst = .busy m) : s.goto m = s := by
  have hp : ({ s.port with pst := .busy m } : Port) = s.port := by rw [← hm]
  rw [State.goto, hp, setPort_port_self]

/-! ## The shape of each end -/

theorem moves_complete (s : State) (c : Completion) : PortMoves s (s.complete c) := .inl ⟨c, rfl⟩

theorem moves_setHid {h : Hidden} (k : PortMoves (s.setHid h) t) : PortMoves s t := by
  obtain ⟨c, rfl⟩ | ⟨k, m, rfl⟩ := k
  · exact .inl ⟨c, setHid_complete s h c⟩
  · exact .inr ⟨k, m, congrArg (State.goto · m) (setHid_setHid s h k)⟩

theorem moves_goto (s : State) (m : Micro) : PortMoves s (s.goto m) := .inr ⟨s.hid, m, by rw [setHid_hid]⟩

theorem moves_setXs {x : XState} (k : PortMoves (s.setXs x) t) : PortMoves s t := moves_setHid k
theorem moves_keepMailbox {rx : List Byte} (k : PortMoves (s.keepMailbox rx) t) : PortMoves s t :=
  moves_setHid k
theorem moves_raise (s : State) (e : Err) : PortMoves s (s.raise e) := moves_complete s _
theorem moves_raiseSdo (s : State) (e : Err) : PortMoves s (s.raiseSdo e) := moves_complete s _
theorem moves_succeed (s : State) (a b c d : Word) : PortMoves s (s.succeed a b c d) := moves_complete s _
theorem moves_finish (s : State) (c : Completion) : PortMoves s (s.finish c) := moves_goto s _
theorem moves_fail (s : State) (e : Err) : PortMoves s (s.fail e) := moves_goto s _
theorem moves_failSdo (s : State) (e : Err) : PortMoves s (s.failSdo e) := moves_setXs (moves_finish _ _)
theorem moves_finishSdo (s : State) (a b c d : Word) : PortMoves s (s.finishSdo a b c d) :=
  moves_setXs (moves_finish _ _)

theorem shape_of_moves (k : PortMoves s t) : Shape s t := ⟨s, .same, k⟩
theorem shape_raise (s : State) (e : Err) : Shape s (s.raise e) := shape_of_moves (moves_raise s e)
theorem shape_raiseSdo (s : State) (e : Err) : Shape s (s.raiseSdo e) := shape_of_moves (moves_raiseSdo s e)
theorem shape_succeed (s : State) (a b c d : Word) : Shape s (s.succeed a b c d) :=
  shape_of_moves (moves_succeed s a b c d)
theorem shape_complete (s : State) (c : Completion) : Shape s (s.complete c) :=
  shape_of_moves (moves_complete s c)
theorem shape_goto (s : State) (m : Micro) : Shape s (s.goto m) := shape_of_moves (moves_goto s m)

theorem shape_transact {op : TransportOp} (k : PortMoves (s.transact op) t) : Shape s t :=
  ⟨_, .transact op, k⟩
theorem shape_bmWrite {a : Nat} {bs : List Byte} (k : PortMoves (s.bmWrite a bs) t) : Shape s t :=
  ⟨_, .bmWrite a bs, k⟩
theorem shape_takeCounter {v : BitVec 8} (k : PortMoves (s.takeCounter v) t) : Shape s t :=
  ⟨_, .count v, k⟩

/-- A poll that goes on stays where it is. -/
theorem moves_stay {m : Micro} (hm : s.port.pst = .busy m) : PortMoves s s := by
  have := moves_goto s m
  rwa [goto_self hm] at this

/-! ## What the shape says -/

theorem Aside.untouched (h : Aside s u) : Untouched s u := by
  cases h with
  | same => exact Untouched.refl s
  | transact op => exact untouched_transact s op
  | bmWrite a bs => exact untouched_bmWrite s a bs
  | configure slv e => exact untouched_setSlave s slv e
  | count slv => exact untouched_takeCounter s slv

theorem Aside.ports (h : Aside s u) : u.ports = s.ports := by cases h <;> rfl

theorem Aside.active (h : Aside s u) : u.active = s.active := by cases h <;> rfl

theorem Aside.port (h : Aside s u) : u.port = s.port := by
  rw [State.port, State.port, h.ports, h.active]

theorem Aside.runnable (h : Aside s u) (hr : Runnable s) : Runnable u := by
  rw [Runnable, h.ports, h.active]; exact hr

theorem PortMoves.untouched (h : PortMoves s t) : Untouched s t := by
  obtain ⟨c, rfl⟩ | ⟨k, m, rfl⟩ := h
  · exact untouched_complete _ c
  · exact (untouched_setHid _ k).trans (untouched_goto _ m)

theorem PortMoves.same (h : PortMoves s t) : t.bm = s.bm ∧ t.slaves = s.slaves ∧ t.wire = s.wire := by
  obtain ⟨c, rfl⟩ | ⟨k, m, rfl⟩ := h <;> exact ⟨rfl, rfl, rfl⟩

theorem Shape.untouched (k : Shape s t) : Untouched s t := by
  obtain ⟨u, hu, ht⟩ := k
  exact hu.untouched.trans ht.untouched

/-- A step either goes on, with `RS` and `STAT` as they were, or completes. -/
theorem PortMoves.ends (hr : Runnable s) (k : PortMoves s t) :
    (∃ m, Goes s t m) ∨ ∃ c : Completion, Done t c.rs c.ecode c.xstate := by
  obtain ⟨c, rfl⟩ | ⟨k, m, rfl⟩ := k
  · exact .inr ⟨c, done_complete hr c⟩
  · refine .inl ⟨m, ?_⟩
    have h2 : Runnable (s.setHid k) := by rw [runnable_setHid]; exact hr
    rw [Goes, goto_port h2, setHid_port hr]
    exact ⟨rfl, rfl, rfl⟩

theorem Shape.ends (hr : Runnable s) (k : Shape s t) :
    (∃ m, Goes s t m) ∨ ∃ c : Completion, Done t c.rs c.ecode c.xstate := by
  obtain ⟨u, hu, ht⟩ := k
  have := ht.ends (hu.runnable hr)
  simpa only [Goes, hu.port] using this

end Sys2Proof.Machine
end

