-- ==== Sys2Proof/Laws/Steps.lean ====
section
/-! SUPPORT. The shared steps of the meanings, each as a case analysis: what holds at every end of the step
holds after it. Then the shape of a step of every command. -/

namespace Sys2Proof.Machine

variable {s t : State} {P : State → Prop}

theorem onBuffer_cases {legal ranges : Bool} {need : Nat} {short : Err} {body : Nat → State}
    (hc : P (s.raise .illegalCommand)) (ha : P (s.raise .illegalAddress)) (hs : P (s.raise short))
    (hb : legal = true → s.inBm (s.op 0) (s.op 1) = true → ranges = true → s.op 2 + need ≤ s.op 1 →
      P (body (s.op 0 + s.op 2))) : P (s.onBuffer legal ranges need short body) := by
  unfold State.onBuffer
  split_ifs with h1 h2 h3
  · exact hc
  · exact ha
  · exact hs
  · simp only [Bool.not_eq_true', Bool.not_eq_false, Bool.and_eq_true] at h1 h2
    exact hb h1 h2.1 h2.2 (by omega)

theorem drainStatus_cases {sl : Slave} {onErr : State → Err → State} {full empty : State → State}
    (he : ∀ t, P (onErr (s.transact (.read sl.station (smStatusAddr sl.rSm) 1)) (.transport t)))
    (hf : P (full (s.transact (.read sl.station (smStatusAddr sl.rSm) 1))))
    (hn : P (empty (s.transact (.read sl.station (smStatusAddr sl.rSm) 1)))) :
    P (s.drainStatus sl onErr full empty) := by
  refine transport_cases _ _ _ _ (fun t _ => he t) fun b _ => ?_
  split
  · exact hf
  · exact hn

theorem readMailbox_cases {sl : Slave} {onErr : State → Err → State} {onOk : State → List Byte → State}
    (he : ∀ t, P (onErr (s.transact (.read sl.station sl.rAddr sl.rLen.toNat)) (.transport t)))
    (hk : ∀ b, s.answer (.read sl.station sl.rAddr sl.rLen.toNat) = .ok b →
      P (onOk (s.transact (.read sl.station sl.rAddr sl.rLen.toNat)) b)) :
    P (s.readMailbox sl onErr onOk) := transport_cases _ _ _ _ (fun t _ => he t) hk

theorem pollMailbox_cases {sl : Slave} {sm : BitVec 8} {want : Bool} {onTimeout onErr : State → Err → State}
    {done : State → State} (ht : P (onTimeout s (.mailboxTimeout sl.station)))
    (he : ∀ t, P (onErr (s.transact (.read sl.station (smStatusAddr sm) 1)) (.transport t)))
    (hd : P (done (s.transact (.read sl.station (smStatusAddr sm) 1))))
    (hs : P (s.transact (.read sl.station (smStatusAddr sm) 1))) :
    P (s.pollMailbox sl sm want onTimeout onErr done) := by
  unfold State.pollMailbox
  split
  · exact ht
  · refine transport_cases _ _ _ _ (fun t _ => he t) fun b _ => ?_
    split
    · exact hd
    · exact hs

/-! ## The shape of a step of every command -/

theorem shape_exchange {slv : BitVec 8} {idx : BitVec 16} {ph : Phase} {k : ExchStep}
    {acc : State → State} (hm : s.port.pst = .busy (.exch ph k)) (h : ∀ t, PortMoves t (acc t)) :
    Shape s (s.exchange slv idx ph k acc) := by
  cases k <;> simp only [State.exchange]
  · exact drainStatus_cases (fun _ => shape_transact (moves_failSdo _ _)) (shape_transact (moves_goto _ _))
      (shape_transact (moves_goto _ _))
  · exact readMailbox_cases (fun _ => shape_transact (moves_failSdo _ _))
      fun _ _ => shape_transact (moves_goto _ _)
  · exact pollMailbox_cases (shape_raiseSdo _ _) (fun _ => shape_transact (moves_failSdo _ _))
      (shape_transact (moves_goto _ _)) (shape_transact (moves_stay hm))
  · exact transport_cases _ _ _ _ (fun _ _ => shape_transact (moves_failSdo _ _))
      fun _ _ => shape_transact (moves_setXs (moves_goto _ _))
  · exact pollMailbox_cases (shape_raiseSdo _ _) (fun _ => shape_transact (moves_failSdo _ _))
      (shape_transact (moves_goto _ _)) (shape_transact (moves_stay hm))
  · refine readMailbox_cases (fun _ => shape_transact (moves_failSdo _ _)) fun rx _ => ?_
    split
    · exact shape_transact (moves_keepMailbox (moves_setXs (moves_failSdo _ _)))
    · exact shape_transact (moves_keepMailbox (moves_setXs (h _)))

theorem moves_classify (s : State) (slv : BitVec 8) : PortMoves s (s.classify slv) := by
  unfold State.classify
  simp only
  split_ifs
  · exact moves_failSdo _ _
  · exact moves_goto _ _
  · exact moves_failSdo _ _
  · exact moves_failSdo _ _
  · exact moves_failSdo _ _
  · exact moves_goto _ _
  · exact moves_setHid (moves_goto _ _)

theorem moves_segmentArrived (s : State) (slv : BitVec 8) (idx : BitVec 16) (first : BitVec 3) :
    PortMoves s (s.segmentArrived slv idx first) := by
  unfold State.segmentArrived
  simp only
  split
  · exact moves_failSdo _ _
  · split
    · exact moves_failSdo _ _
    · split_ifs
      · exact moves_failSdo _ _
      · exact moves_failSdo _ _
      · exact moves_goto _ _

theorem shape_storeChunk (s : State) (first : BitVec 3) (k : Nat) : Shape s (s.storeChunk first k) := by
  unfold State.storeChunk
  simp only
  split_ifs
  · exact shape_bmWrite (moves_setHid (moves_finishSdo _ _ _ _ _))
  · exact shape_bmWrite (moves_setHid (moves_goto _ _))

/-- The micro-state of a port that is BUSY. -/
theorem busy_of_micro {m : Micro} (h : s.micro = m) (hm : m ≠ .start) : s.port.pst = .busy m := by
  unfold State.micro at h
  split at h
  · exact absurd h.symm hm
  · subst h; assumption

/-- Every step of every command has the shape. -/
theorem exec_shape {i : Instr} (h : exec i s = .next t) : Shape s t := by
  cases i <;> simp only [exec] at h
  case fins => cases h; exact onBuffer_cases (shape_raise _ _) (shape_raise _ _) (shape_raise _ _)
                fun _ _ _ _ => shape_bmWrite (moves_succeed _ _ _ _ _)
  case fext => cases h; exact onBuffer_cases (shape_raise _ _) (shape_raise _ _) (shape_raise _ _)
                fun _ _ _ _ => shape_succeed _ _ _ _ _
  case bins => cases h; exact onBuffer_cases (shape_raise _ _) (shape_raise _ _) (shape_raise _ _)
                fun _ _ _ _ => shape_bmWrite (moves_succeed _ _ _ _ _)
  case bext => cases h; exact onBuffer_cases (shape_raise _ _) (shape_raise _ _) (shape_raise _ _)
                fun _ _ _ _ => shape_succeed _ _ _ _ _
  case lest => cases h; exact onBuffer_cases (shape_raise _ _) (shape_raise _ _) (shape_raise _ _)
                fun _ _ _ _ => shape_bmWrite (moves_succeed _ _ _ _ _)
  case leld => cases h; exact onBuffer_cases (shape_raise _ _) (shape_raise _ _) (shape_raise _ _)
                fun _ _ _ _ => shape_succeed _ _ _ _ _
  case bapk => cases h; exact onBuffer_cases (shape_raise _ _) (shape_raise _ _) (shape_raise _ _)
                fun _ _ _ _ => shape_bmWrite (moves_succeed _ _ _ _ _)
  case baup => cases h; exact onBuffer_cases (shape_raise _ _) (shape_raise _ _) (shape_raise _ _)
                fun _ _ _ _ => shape_bmWrite (moves_succeed _ _ _ _ _)
  case ence =>
    cases h
    split
    · exact shape_raise _ _
    · split_ifs
      · exact shape_raise _ _
      · exact shape_succeed _ _ _ _ _
  case encd =>
    cases h
    split
    · exact shape_raise _ _
    · split
      · exact shape_raise _ _
      · exact shape_succeed _ _ _ _ _
  case pack =>
    cases h
    split
    · exact shape_raise _ _
    · simp only
      split_ifs
      · exact shape_raise _ _
      · exact shape_raise _ _
      all_goals
        split
        · exact shape_raise _ _
        · exact shape_bmWrite (moves_succeed _ _ _ _ _)
  case unpk =>
    cases h
    split
    · exact shape_raise _ _
    · simp only
      split_ifs
      · exact shape_raise _ _
      · exact shape_raise _ _
      · split
        · exact shape_raise _ _
        · exact shape_bmWrite (moves_succeed _ _ _ _ _)
  case scfg =>
    cases h
    simp only
    split_ifs with h1 h2
    · exact shape_raise _ _
    · exact shape_raise _ _
    · simp only [Bool.or_eq_true, Bool.not_eq_true', decide_eq_false_iff_not, not_or, Decidable.not_not,
        Bool.not_eq_true] at h1
      exact ⟨_, .configure _ _ h1.1 h1.2 (by simp [slaveOk]; omega) rfl, moves_succeed _ _ _ _ _⟩
  case cnxt =>
    cases h
    split_ifs
    · exact shape_takeCounter (moves_succeed _ _ _ _ _)
    · exact shape_raise _ _
  case mdrn slv =>
    unfold execMdrn at h
    split at h <;> cases h
    · split_ifs
      · exact shape_goto _ _
      · exact shape_raise _ _
    · exact drainStatus_cases (fun _ => shape_transact (moves_fail _ _)) (shape_transact (moves_goto _ _))
        (shape_transact (moves_finish _ _))
    · exact readMailbox_cases (fun _ => shape_transact (moves_fail _ _))
        fun _ _ => shape_transact (moves_finish _ _)
    · exact shape_complete _ _
  case macq slv =>
    unfold execMacq at h
    split at h <;> cases h
    · split_ifs
      · exact shape_goto _ _
      · exact shape_raise _ _
    · rename_i hm
      exact pollMailbox_cases (shape_raise _ _) (fun _ => shape_transact (moves_fail _ _))
        (shape_transact (moves_finish _ _)) (shape_transact (moves_stay (m := .acquire)
          (busy_of_micro (s := s) hm (by simp))))
    · exact shape_complete _ _
  case msnd slv =>
    unfold execMsnd at h
    split at h <;> cases h
    · split_ifs
      · exact shape_raise _ _
      · exact shape_raise _ _
      · exact shape_raise _ _
      · exact shape_goto _ _
    · exact transport_cases _ _ _ _ (fun _ _ => shape_transact (moves_fail _ _))
        fun _ _ => shape_transact (moves_finish _ _)
    · exact shape_complete _ _
  case mawt slv =>
    unfold execMawt at h
    split at h <;> cases h
    · split_ifs
      · exact shape_raise _ _
      · exact shape_raise _ _
      · exact shape_raise _ _
      · exact shape_goto _ _
    · rename_i hm
      exact pollMailbox_cases (shape_raise _ _) (fun _ => shape_transact (moves_fail _ _))
        (shape_transact (moves_goto _ _)) (shape_transact (moves_stay (m := .await)
          (busy_of_micro (s := s) hm (by simp))))
    · exact readMailbox_cases (fun _ => shape_transact (moves_fail _ _))
        fun _ _ => shape_transact (moves_setHid (moves_goto _ _))
    · exact shape_bmWrite (moves_finish _ _)
    · exact shape_complete _ _
  case sdwr slv idx =>
    unfold execSdwr at h
    split at h <;> cases h
    · split_ifs
      · exact shape_raiseSdo _ _
      · exact shape_raiseSdo _ _
      · exact shape_raiseSdo _ _
      · exact shape_of_moves (moves_setXs (moves_goto _ _))
    · exact shape_takeCounter (moves_setHid (moves_goto _ _))
    · rename_i hm
      exact shape_exchange (busy_of_micro hm (by simp)) fun _ => moves_finishSdo _ _ _ _ _
    · exact shape_complete _ _
  case sdrd slv idx =>
    unfold execSdrd at h
    split at h <;> cases h
    · split_ifs
      · exact shape_raiseSdo _ _
      · exact shape_raiseSdo _ _
      · exact shape_of_moves (moves_setXs (moves_goto _ _))
    · exact shape_takeCounter (moves_setHid (moves_goto _ _))
    · exact shape_takeCounter (moves_setHid (moves_goto _ _))
    · rename_i hm
      exact shape_exchange (busy_of_micro hm (by simp)) fun _ => moves_classify _ _
    · rename_i hm
      exact shape_exchange (busy_of_micro hm (by simp)) fun _ => moves_segmentArrived _ _ _ _
    · exact shape_bmWrite (moves_finishSdo _ _ _ _ _)
    · exact shape_storeChunk _ _ _
    · exact shape_complete _ _
  case alrq slv st =>
    unfold execAlrq at h
    split at h <;> cases h
    · split_ifs
      · exact shape_goto _ _
      · exact shape_raise _ _
    · refine transport_cases _ _ _ _ (fun _ _ => shape_transact (moves_fail _ _)) fun _ _ => ?_
      simp only
      split_ifs
      · exact shape_transact (moves_fail _ _)
      · exact shape_transact (moves_goto _ _)
      · exact shape_transact (moves_finish _ _)
    · exact transport_cases _ _ _ _ (fun _ _ => shape_transact (moves_fail _ _))
        fun _ _ => shape_transact (moves_fail _ _)
    · exact shape_complete _ _
  case alwt slv st =>
    unfold execAlwt at h
    split at h <;> cases h
    · split_ifs
      · exact shape_goto _ _
      · exact shape_raise _ _
    · rename_i hm
      split_ifs
      · exact shape_raise _ _
      · refine transport_cases _ _ _ _ (fun _ _ => shape_transact (moves_fail _ _)) fun _ _ => ?_
        simp only
        split_ifs
        · exact shape_transact (moves_fail _ _)
        · exact shape_transact (moves_finish _ _)
        · exact shape_transact (moves_stay (m := .alPoll) (busy_of_micro (s := s) hm (by simp)))
    · exact shape_complete _ _

/-- A step of a port does nothing, or it is a command step of a BUSY port. -/
theorem portStep_shape {p : Nat} {d : Draw} (h : portStep s p d = .next t) :
    t = s ∨ (∃ pt m, s.ports[p]? = some pt ∧ pt.pst = .busy m) ∧ Shape (s.select p d) t := by
  unfold portStep at h
  split at h
  · cases h; exact .inl rfl
  · rename_i pt hp
    split at h
    · cases h; exact .inl rfl
    · rename_i m hm
      refine .inr ⟨⟨pt, m, hp, hm⟩, ?_⟩
      split at h
      · cases h; exact shape_raise _ _
      · exact exec_shape h

end Sys2Proof.Machine
end

