-- ==== Sys2Proof/Laws/Codec.lean ====
section
/-! SUPPORT. The Codec Unit's shared operations: the checks of the field primitives, little-endian numbers,
enum entries. -/

namespace Sys2Proof.Machine

/-! ## The checks on a buffer, in order -/

variable {s : State} {legal ranges : Bool} {need : Nat} {short : Err} {body : Nat → State}

theorem onBuffer_illegal (h : legal = false) :
    s.onBuffer legal ranges need short body = s.raise .illegalCommand := by
  simp [State.onBuffer, h]

theorem onBuffer_range (h : legal = true) (hr : ranges = false ∨ s.params.bmSize < s.op 0 + s.op 1) :
    s.onBuffer legal ranges need short body = s.raise .illegalAddress := by
  obtain rfl | hr := hr
  · simp [State.onBuffer, h]
  · simp [State.onBuffer, h, State.inBm]
    intro
    omega

theorem onBuffer_short (h : legal = true) (h1 : ranges = true) (hr : s.op 0 + s.op 1 ≤ s.params.bmSize)
    (hl : s.op 1 < s.op 2 + need) : s.onBuffer legal ranges need short body = s.raise short := by
  simp [State.onBuffer, h, h1, State.inBm, hr]
  intro
  omega

theorem onBuffer_ok (h : legal = true) (h1 : ranges = true) (hr : s.op 0 + s.op 1 ≤ s.params.bmSize)
    (hl : s.op 2 + need ≤ s.op 1) :
    s.onBuffer legal ranges need short body = body (s.op 0 + s.op 2) := by
  simp [State.onBuffer, h, h1, State.inBm, hr]
  intro
  omega

theorem inBm_iff {a n : Nat} : s.inBm a n = true ↔ a + n ≤ s.params.bmSize := by simp [State.inBm]

/-! ## Results as registers -/

theorem word_byte (b : Byte) : word b.toNat = b.setWidth 32 := by
  apply BitVec.eq_of_toNat_eq
  simp [word]

theorem word_op (s : State) (i : Fin 8) : word (s.op i) = s.port.op[i] := by
  simp [word, State.op]

/-! ## Little-endian numbers (00_scope.md R14) -/

@[simp] theorem length_leBytes (n v : Nat) : (leBytes n v).length = n := by
  induction n generalizing v with
  | zero => rfl
  | succ n ih => simp [leBytes, ih]

theorem leBytes_eq (n v : Nat) : leBytes n v = (List.range n).map fun k => BitVec.ofNat 8 (v / 256 ^ k) := by
  induction n generalizing v with
  | zero => rfl
  | succ n ih =>
    rw [leBytes, ih, List.range_succ_eq_map]
    simp [Function.comp_def, Nat.div_div_eq_div_mul, Nat.pow_succ, Nat.mul_comm]

theorem fromLE_map (n : Nat) (f : Nat → Byte) :
    fromLE ((List.range n).map f) = ∑ k ∈ Finset.range n, (f k).toNat * 256 ^ k := by
  induction n generalizing f with
  | zero => rfl
  | succ n ih =>
    rw [List.range_succ_eq_map, Finset.sum_range_succ']
    simp only [List.map_cons, List.map_map, fromLE, ih, Function.comp_def, Finset.mul_sum]
    rw [Nat.add_comm]
    congr 1
    · exact Finset.sum_congr rfl fun _ _ => by rw [Nat.pow_succ]; ring
    · simp

theorem fromLE_lt (bs : List Byte) : fromLE bs < 256 ^ bs.length := by
  induction bs with
  | nil => simp [fromLE]
  | cons b bs ih =>
    have := b.isLt
    simp only [fromLE, List.length_cons, Nat.pow_succ]
    omega

/-- The number of the low `n` bytes of a value is the value mod `256^n`. -/
theorem fromLE_leBytes (n v : Nat) : fromLE (leBytes n v) = v % 256 ^ n := by
  induction n generalizing v with
  | zero => simp [leBytes, fromLE, Nat.mod_one]
  | succ n ih =>
    rw [leBytes, fromLE, ih, Nat.pow_succ, Nat.mul_comm (256 ^ n), Nat.mod_mul]
    simp

theorem countLegal_iff (nb : BitVec 8) : countLegal nb = true ↔ nb.toNat ∈ [1, 2, 4, 8] := by
  simp [countLegal, ← BitVec.toNat_inj, or_assoc]

/-! ## Enum entries -/

theorem enumEntry_none {r : Roms} {eid : Nat} (h : ¬∃ e, r.enums[eid]? = some e ∧ e.valid = true) :
    enumEntry r eid = none := by
  unfold enumEntry
  split
  · rename_i e he
    split
    · exact absurd ⟨e, he, ‹_›⟩ h
    · rfl
  · rfl

theorem enumEntry_some {r : Roms} {eid : Nat} {e : EnumEntry} (h : r.enums[eid]? = some e)
    (hv : e.valid = true) : enumEntry r eid = some e := by
  simp [enumEntry, h, hv]

/-- No raw value names two variants of a valid entry (40_codec.md R143). -/
theorem enumOk_distinct {e : EnumEntry} (h : enumOk e = true) {j j' : Nat} {v v' : Variant}
    (hj : e.variants[j]? = some v) (hj' : e.variants[j']? = some v') {r : Nat}
    (h1 : variantNames v r = true) (h2 : variantNames v' r = true) : j = j' := by
  simp only [enumOk, Bool.and_eq_true, decide_eq_true_eq] at h
  have hn := h.2
  simp only [enumValues, List.nodup_flatMap] at hn
  by_contra hne
  have hd := List.pairwise_iff_getElem.1 hn.2
  obtain ⟨l1, e1⟩ := List.getElem?_eq_some_iff.1 hj
  obtain ⟨l2, e2⟩ := List.getElem?_eq_some_iff.1 hj'
  have mem : ∀ w : Variant, variantNames w r = true → r ∈ w.prim :: w.alts := by
    intro w hw
    simp only [variantNames, Bool.or_eq_true, beq_iff_eq, List.contains_iff_mem] at hw
    obtain h | h := hw <;> simp [h]
  obtain hlt | hlt := Nat.lt_or_gt_of_ne hne
  · have := hd j j' l1 l2 hlt
    rw [e1, e2] at this
    exact this (mem v h1) (mem v' h2)
  · have := hd j' j l2 l1 hlt
    rw [e1, e2] at this
    exact this (mem v' h2) (mem v h1)

/-! ## Layout entries -/

theorem layoutEntry_none {r : Roms} {lid : Nat} (h : ¬∃ l, r.layouts[lid]? = some l ∧ l.valid = true) :
    layoutEntry r lid = none := by
  unfold layoutEntry
  split
  · rename_i l hl
    split
    · exact absurd ⟨l, hl, ‹_›⟩ h
    · rfl
  · rfl

theorem layoutEntry_some {r : Roms} {lid : Nat} {l : LayoutEntry} (h : r.layouts[lid]? = some l)
    (hv : l.valid = true) : layoutEntry r lid = some l := by
  simp [layoutEntry, h, hv]

theorem layoutRaw_of_some {r : Roms} {lid : Nat} {l : LayoutEntry} (h : r.layouts[lid]? = some l) :
    layoutRaw r lid = l := by
  simp [layoutRaw, h]

/-! ## Packing keeps the length of the buffer -/

@[simp] theorem length_splice (buf : List Byte) (o : Nat) (xs : List Byte) :
    (splice buf o xs).length = buf.length := by
  fun_induction splice <;> simp_all

@[simp] theorem length_packField (r : Roms) (np : Nat → List Value → List Byte → List Byte) (f : FieldDesc)
    (x : Value) (buf : List Byte) : (packField r np f x buf).length = buf.length := by
  unfold packField packNarrow
  split <;> (try split) <;> (try split) <;> simp

theorem length_packFields (r : Roms) (np : Nat → List Value → List Byte → List Byte) (fs : List FieldDesc)
    (xs : List Value) (buf : List Byte) : (packFields r np fs xs buf).length = buf.length := by
  induction fs generalizing xs buf with
  | nil => simp [packFields]
  | cons f fs ih =>
    cases xs with
    | nil => simp [packFields]
    | cons x xs => rw [packFields, ih, length_packField]

@[simp] theorem length_packInto (r : Roms) (d lid : Nat) (vs : List Value) (buf : List Byte) :
    (packInto r d lid vs buf).length = buf.length := by
  cases d with
  | zero => rfl
  | succ d => exact length_packFields _ _ _ _ _

end Sys2Proof.Machine
end

