-- ==== Sys2Proof/Laws/Decode.lean ====
section
/-! SUPPORT. The words of the encoder as numbers, and the fields the decoder reads from them. -/

namespace Sys2Proof

/-- Bits put side by side, as a number. -/
theorem toNat_append {n m : Nat} (x : BitVec n) (y : BitVec m) :
    (x ++ y).toNat = x.toNat * 2 ^ m + y.toNat := by
  rw [BitVec.toNat_append, ← Nat.shiftLeft_add_eq_or_of_lt y.isLt, Nat.shiftLeft_eq]

/-! ## The fields of a word as numbers -/

theorem opcField_toNat (w : Word) : (opcField w).toNat = w.toNat / 2 ^ 24 := by
  have := w.isLt
  simp only [opcField, BitVec.extractLsb'_toNat, Nat.shiftRight_eq_div_pow]
  omega
theorem idField_toNat (w : Word) : (idField w).toNat = w.toNat / 2 ^ 16 % 2 ^ 8 := by
  simp only [idField, BitVec.extractLsb'_toNat, Nat.shiftRight_eq_div_pow]
theorem offField_toNat (w : Word) : (offField w).toNat = w.toNat / 2 ^ 16 % 2 ^ 3 := by
  simp only [offField, BitVec.extractLsb'_toNat, Nat.shiftRight_eq_div_pow]
theorem byteField_toNat (w : Word) : (byteField w).toNat = w.toNat / 2 ^ 8 % 2 ^ 8 := by
  simp only [byteField, BitVec.extractLsb'_toNat, Nat.shiftRight_eq_div_pow]
theorem idxField_toNat (w : Word) : (idxField w).toNat = w.toNat % 2 ^ 16 := by
  simp [idxField, BitVec.extractLsb'_toNat]
theorem stField_toNat (w : Word) : (stField w).toNat = w.toNat % 2 ^ 4 := by
  simp [stField, BitVec.extractLsb'_toNat]
theorem clrField_toNat (w : Word) : (clrField w).toNat = w.toNat % 2 := by
  simp [clrField, BitVec.extractLsb'_toNat]

/-! ## The words as numbers -/

theorem encF_toNat (opc : BitVec 8) (off : BitVec 3) (wid : BitVec 8) :
    (encF opc off wid).toNat = opc.toNat * 2 ^ 24 + off.toNat * 2 ^ 16 + wid.toNat * 2 ^ 8 := by
  simp only [encF, toNat_append, BitVec.toNat_ofNat]; omega
theorem encN_toNat (opc nb : BitVec 8) : (encN opc nb).toNat = opc.toNat * 2 ^ 24 + nb.toNat * 2 ^ 8 := by
  simp only [encN, toNat_append, BitVec.toNat_ofNat]; omega
theorem encZ_toNat (opc : BitVec 8) : (encZ opc).toNat = opc.toNat * 2 ^ 24 := by
  simp only [encZ, toNat_append, BitVec.toNat_ofNat]; omega
theorem encId_toNat (opc id : BitVec 8) : (encId opc id).toNat = opc.toNat * 2 ^ 24 + id.toNat * 2 ^ 16 := by
  simp only [encId, toNat_append, BitVec.toNat_ofNat]; omega
theorem encL_toNat (opc lid : BitVec 8) (clr : BitVec 1) :
    (encL opc lid clr).toNat = opc.toNat * 2 ^ 24 + lid.toNat * 2 ^ 16 + clr.toNat := by
  simp only [encL, toNat_append, BitVec.toNat_ofNat]; omega
theorem encS_toNat (opc slv : BitVec 8) (idx : BitVec 16) :
    (encS opc slv idx).toNat = opc.toNat * 2 ^ 24 + slv.toNat * 2 ^ 16 + idx.toNat := by
  simp only [encS, toNat_append]; omega
theorem encA_toNat (opc slv : BitVec 8) (st : BitVec 4) :
    (encA opc slv st).toNat = opc.toNat * 2 ^ 24 + slv.toNat * 2 ^ 16 + st.toNat := by
  simp only [encA, toNat_append, BitVec.toNat_ofNat]; omega

/-! ## The opcode of each format -/

theorem opcField_encF (opc : BitVec 8) (off : BitVec 3) (wid : BitVec 8) :
    opcField (encF opc off wid) = opc := by
  apply BitVec.eq_of_toNat_eq; rw [opcField_toNat, encF_toNat]; omega
theorem opcField_encN (opc nb : BitVec 8) : opcField (encN opc nb) = opc := by
  apply BitVec.eq_of_toNat_eq; rw [opcField_toNat, encN_toNat]; omega
theorem opcField_encZ (opc : BitVec 8) : opcField (encZ opc) = opc := by
  apply BitVec.eq_of_toNat_eq; rw [opcField_toNat, encZ_toNat]; omega
theorem opcField_encId (opc id : BitVec 8) : opcField (encId opc id) = opc := by
  apply BitVec.eq_of_toNat_eq; rw [opcField_toNat, encId_toNat]; omega
theorem opcField_encL (opc lid : BitVec 8) (clr : BitVec 1) : opcField (encL opc lid clr) = opc := by
  apply BitVec.eq_of_toNat_eq; rw [opcField_toNat, encL_toNat]; omega
theorem opcField_encS (opc slv : BitVec 8) (idx : BitVec 16) : opcField (encS opc slv idx) = opc := by
  apply BitVec.eq_of_toNat_eq; rw [opcField_toNat, encS_toNat]; omega
theorem opcField_encA (opc slv : BitVec 8) (st : BitVec 4) : opcField (encA opc slv st) = opc := by
  apply BitVec.eq_of_toNat_eq; rw [opcField_toNat, encA_toNat]; omega

/-! ## Reserved bits -/

/-- The bits `lo .. lo + n - 1` of a word are 0 exactly where the word has no bit of their mask. -/
theorem and_mask_eq_zero (w : Word) (lo n : Nat) (h : lo + n ≤ 32) :
    w &&& BitVec.ofNat 32 ((2 ^ n - 1) * 2 ^ lo) = 0#32 ↔ w.toNat / 2 ^ lo % 2 ^ n = 0 := by
  have hm : (2 ^ n - 1) * 2 ^ lo < 2 ^ 32 := by
    have : 2 ^ n * 2 ^ lo ≤ 2 ^ 32 := by
      rw [← Nat.pow_add]; exact Nat.pow_le_pow_right (by omega) (by omega)
    have h1 : 0 < 2 ^ lo := by positivity
    have h2 : 0 < 2 ^ n := by positivity
    calc (2 ^ n - 1) * 2 ^ lo < 2 ^ n * 2 ^ lo := Nat.mul_lt_mul_of_pos_right (by omega) h1
      _ ≤ 2 ^ 32 := this
  rw [← BitVec.toNat_inj, BitVec.toNat_and, BitVec.toNat_ofNat, Nat.mod_eq_of_lt hm, BitVec.toNat_ofNat,
    Nat.zero_mod, ← Nat.shiftLeft_eq, ← Nat.and_two_pow_sub_one_eq_mod, ← Nat.shiftRight_eq_div_pow]
  constructor
  · intro e
    apply Nat.eq_of_testBit_eq
    intro i
    have := congrArg (fun x => x.testBit (lo + i)) e
    simp only [Nat.testBit_and, Nat.testBit_shiftLeft, Nat.zero_testBit] at this
    simp only [Nat.testBit_and, Nat.testBit_shiftRight, Nat.zero_testBit]
    simpa [show lo + i - lo = i by omega] using this
  · intro e
    apply Nat.eq_of_testBit_eq
    intro i
    simp only [Nat.testBit_and, Nat.testBit_shiftLeft, Nat.zero_testBit]
    by_cases hi : lo ≤ i
    · have := congrArg (fun x => x.testBit (i - lo)) e
      simp only [Nat.testBit_and, Nat.testBit_shiftRight, Nat.zero_testBit] at this
      rw [show lo + (i - lo) = i by omega] at this
      simpa [hi] using this
    · simp [hi]

/-- A reserved mask made of two bit ranges. -/
theorem and_or_eq_zero (w a b : Word) : w &&& (a ||| b) = 0#32 ↔ w &&& a = 0#32 ∧ w &&& b = 0#32 := by
  simp only [← BitVec.toNat_inj, BitVec.toNat_and, BitVec.toNat_or, BitVec.toNat_ofNat, Nat.zero_mod,
    Nat.and_or_distrib_left, Nat.or_eq_zero_iff]

/-- The reserved bits of format F (30_encoding.md R91). -/
theorem reservedF (w : Word) : w &&& 0x00F800FF#32 = 0#32 ↔ w.toNat / 2 ^ 19 % 2 ^ 5 = 0 ∧ w.toNat % 2 ^ 8 = 0 := by
  have h := and_or_eq_zero w (BitVec.ofNat 32 ((2 ^ 5 - 1) * 2 ^ 19)) (BitVec.ofNat 32 ((2 ^ 8 - 1) * 2 ^ 0))
  rw [and_mask_eq_zero w 19 5 (by omega), and_mask_eq_zero w 0 8 (by omega), Nat.pow_zero, Nat.div_one] at h
  exact h
/-- The reserved bits of format N (R92). -/
theorem reservedN (w : Word) : w &&& 0x00FF00FF#32 = 0#32 ↔ w.toNat / 2 ^ 16 % 2 ^ 8 = 0 ∧ w.toNat % 2 ^ 8 = 0 := by
  have h := and_or_eq_zero w (BitVec.ofNat 32 ((2 ^ 8 - 1) * 2 ^ 16)) (BitVec.ofNat 32 ((2 ^ 8 - 1) * 2 ^ 0))
  rw [and_mask_eq_zero w 16 8 (by omega), and_mask_eq_zero w 0 8 (by omega), Nat.pow_zero, Nat.div_one] at h
  exact h
/-- The reserved bits of format Z (R93). -/
theorem reservedZ (w : Word) : w &&& 0x00FFFFFF#32 = 0#32 ↔ w.toNat % 2 ^ 24 = 0 := by
  have h := and_mask_eq_zero w 0 24 (by omega)
  rwa [Nat.pow_zero, Nat.div_one] at h
/-- The reserved bits of formats E and S0 and of UNPK (R94 to R96). -/
theorem reservedId (w : Word) : w &&& 0x0000FFFF#32 = 0#32 ↔ w.toNat % 2 ^ 16 = 0 := by
  have h := and_mask_eq_zero w 0 16 (by omega)
  rwa [Nat.pow_zero, Nat.div_one] at h
/-- The reserved bits of PACK (R95). -/
theorem reservedL (w : Word) : w &&& 0x0000FFFE#32 = 0#32 ↔ w.toNat / 2 ^ 1 % 2 ^ 15 = 0 :=
  and_mask_eq_zero w 1 15 (by omega)
/-- The reserved bits of format A (R97). -/
theorem reservedA (w : Word) : w &&& 0x0000FFF0#32 = 0#32 ↔ w.toNat / 2 ^ 4 % 2 ^ 12 = 0 :=
  and_mask_eq_zero w 4 12 (by omega)

end Sys2Proof
end

