-- ==== Sys2Proof/Laws/Mailbox.lean ====
section
/-! SUPPORT. The mailbox steps, one equation per answer of the Transport and per timeout draw. -/

namespace Sys2Proof.Machine

variable {s : State} {sl : Slave}

theorem micro_of_at {m : Micro} (h : At s m) : s.micro = m := micro_of_busy h.2

/-- A step that is one Transport operation after which only the completion is left. -/
theorem transacts_finish {i : Instr} {op : TransportOp} {c : Completion} (h : Runnable s)
    (hx : exec i s = .next ((s.transact op).finish c)) : Transacts i s op (.finish c) := transacts_goto h hx

theorem isFull_eq (b : List Byte) : isFull b = (byteAt b 0).getLsbD 3 := rfl

theorem statusRead_eq (sl : Slave) (sm : BitVec 8) :
    TransportOp.read sl.station (smStatusAddr sm) 1 = statusRead sl sm := rfl

theorem nextCount_eq (n : BitVec 3) : nextCount n = succCount n := by
  revert n
  decide

/-! ## The drain's status read (41_mailbox.md R212) -/

section Drain

variable {onErr : State → Err → State} {full empty : State → State}

theorem drainStatus_full {b : List Byte} (h : s.answer (statusRead sl sl.rSm) = .ok b)
    (hb : (byteAt b 0).getLsbD 3 = true) :
    s.drainStatus sl onErr full empty = full (s.transact (statusRead sl sl.rSm)) := by
  rw [State.drainStatus, statusRead_eq, transport_ok h, isFull_eq, if_pos hb]

theorem drainStatus_empty {b : List Byte} (h : s.answer (statusRead sl sl.rSm) = .ok b)
    (hb : (byteAt b 0).getLsbD 3 = false) :
    s.drainStatus sl onErr full empty = empty (s.transact (statusRead sl sl.rSm)) := by
  rw [State.drainStatus, statusRead_eq, transport_ok h, isFull_eq, if_neg (by rw [hb]; decide)]

theorem drainStatus_err {t : BitVec 32} (h : s.answer (statusRead sl sl.rSm) = .err t) :
    s.drainStatus sl onErr full empty = onErr (s.transact (statusRead sl sl.rSm)) (.transport t) := by
  rw [State.drainStatus, statusRead_eq, transport_err h]

end Drain

/-! ## The read of the whole mailbox (41_mailbox.md R212, R213) -/

section Read

variable {onErr : State → Err → State} {onOk : State → List Byte → State}

theorem readMailbox_ok {b : List Byte} (h : s.answer (.read sl.station sl.rAddr sl.rLen.toNat) = .ok b) :
    s.readMailbox sl onErr onOk = onOk (s.transact (.read sl.station sl.rAddr sl.rLen.toNat)) b :=
  transport_ok h _ _

theorem readMailbox_err {t : BitVec 32} (h : s.answer (.read sl.station sl.rAddr sl.rLen.toNat) = .err t) :
    s.readMailbox sl onErr onOk =
      onErr (s.transact (.read sl.station sl.rAddr sl.rLen.toNat)) (.transport t) :=
  transport_err h _ _

end Read

/-! ## A poll iteration (41_mailbox.md R210) -/

section Poll

variable {sm : BitVec 8} {want : Bool} {onTimeout onErr : State → Err → State} {done : State → State}

theorem pollMailbox_timeout (h : s.draw.timeout = true) :
    s.pollMailbox sl sm want onTimeout onErr done = onTimeout s (.mailboxTimeout sl.station) := by
  simp [State.pollMailbox, h]

theorem pollMailbox_done {b : List Byte} (h : s.draw.timeout = false)
    (ha : s.answer (statusRead sl sm) = .ok b) (hb : (byteAt b 0).getLsbD 3 = want) :
    s.pollMailbox sl sm want onTimeout onErr done = done (s.transact (statusRead sl sm)) := by
  rw [State.pollMailbox, h, if_neg (by decide), statusRead_eq, transport_ok ha, isFull_eq, if_pos hb]

theorem pollMailbox_again {b : List Byte} (h : s.draw.timeout = false)
    (ha : s.answer (statusRead sl sm) = .ok b) (hb : (byteAt b 0).getLsbD 3 ≠ want) :
    s.pollMailbox sl sm want onTimeout onErr done = s.transact (statusRead sl sm) := by
  rw [State.pollMailbox, h, if_neg (by decide), statusRead_eq, transport_ok ha, isFull_eq, if_neg hb]

theorem pollMailbox_err {t : BitVec 32} (h : s.draw.timeout = false)
    (ha : s.answer (statusRead sl sm) = .err t) :
    s.pollMailbox sl sm want onTimeout onErr done = onErr (s.transact (statusRead sl sm)) (.transport t) := by
  rw [State.pollMailbox, h, if_neg (by decide), statusRead_eq, transport_err ha]

end Poll

/-! ## Slave Table entries -/

theorem slave_getElem? {slv : BitVec 8} (h : slv.toNat < s.slaves.length) :
    s.slaves[slv.toNat]? = some (s.slave slv) := by
  simp [State.slave, h]

theorem configured_eq (s : State) (slv : BitVec 8) : s.configured slv = slaveReady s.slaves slv := rfl

/-- A configured entry's lengths lie in `16 .. MAX_MBX_LEN` and its counter is not 0. -/
theorem slave_bounds (h : s.slaves.all (slaveOk s.params.maxMbxLen) = true) {slv : BitVec 8}
    (hr : s.configured slv = true) :
    16 ≤ (s.slave slv).wLen.toNat ∧ (s.slave slv).wLen.toNat ≤ s.params.maxMbxLen ∧
      16 ≤ (s.slave slv).rLen.toNat ∧ (s.slave slv).rLen.toNat ≤ s.params.maxMbxLen ∧
      (s.slave slv).cnt ≠ 0 := by
  simp only [State.configured, Bool.and_eq_true, decide_eq_true_eq] at hr
  rw [List.all_eq_true] at h
  have := h _ (List.mem_of_getElem? (slave_getElem? hr.1))
  simp only [slaveOk, hr.2, Bool.not_true, Bool.false_or, Bool.and_eq_true, decide_eq_true_eq] at this
  exact ⟨this.2.1.1.1, this.2.1.1.2, this.2.1.2, this.2.2, this.1⟩

end Sys2Proof.Machine
end

