-- ==== Sys2Proof/Laws/Sdo.lean ====
section
/-! SUPPORT. The SDO engine: the request messages, the fields of a response as numbers, the counter step, and
the exchange's steps (30_encoding.md R116, R117, 41_mailbox.md R220, R221). -/

namespace Sys2Proof.Machine

variable {s t : State}

theorem word_halfword (b : BitVec 16) : word b.toNat = b.setWidth 32 := by
  apply BitVec.eq_of_toNat_eq
  simp [word]

/-! ## Requests -/

theorem leBytes_two (v : BitVec 16) : leBytes 2 v.toNat = [v.extractLsb' 0 8, v.extractLsb' 8 8] := by
  simp only [leBytes, List.cons.injEq, and_true]
  refine ⟨?_, ?_⟩ <;> apply BitVec.eq_of_toNat_eq <;> simp [Nat.shiftRight_eq_div_pow]

/-- The first eight bytes of every request (30_encoding.md R116). -/
theorem request_head (c : BitVec 3) : mailboxHeader 10 c ++ coeHeader =
    [0x0A, 0x00, 0x00, 0x00, 0x00, BitVec.ofNat 8 (0x03 + c.toNat * 16), 0x00, 0x20] := by
  revert c
  decide

@[simp] theorem length_downloadRequest (c : BitVec 3) (ca : BitVec 1) (n : Nat) (idx : BitVec 16)
    (sub : BitVec 8) (val : List Byte) : (downloadRequest c ca n idx sub val).length = 16 := by
  rw [downloadRequest, request_head]
  simp [fitBytes, zeros]
  omega

@[simp] theorem length_uploadRequest (c : BitVec 3) (ca : BitVec 1) (idx : BitVec 16) (sub : BitVec 8) :
    (uploadRequest c ca idx sub).length = 16 := by
  rw [uploadRequest, request_head]
  simp [zeros]

@[simp] theorem length_segmentRequest (c : BitVec 3) (t : BitVec 1) : (segmentRequest c t).length = 16 := by
  rw [segmentRequest, request_head]
  simp [zeros]

/-! ## The counter step before a request -/

theorem takeAndBuild_port (h : Runnable s) (slv : BitVec 8) (ph : Phase) (build : BitVec 3 → List Byte) :
    (s.takeAndBuild slv ph build).port =
      { s.port with
        pst := .busy (.exch ph .drainStatus)
        hid := { s.port.hid with curCnt := (s.slave slv).cnt, txBuf := build (s.slave slv).cnt } } := by
  have h1 : Runnable (s.takeCounter slv) := h
  rw [State.takeAndBuild, goto_port (by rw [runnable_setHid]; exact h1), setHid_port h1]
  rfl

theorem takeAndBuild_slaves (s : State) (slv : BitVec 8) (ph : Phase) (build : BitVec 3 → List Byte) :
    (s.takeAndBuild slv ph build).slaves = countedSlaves s slv := by
  show (s.takeCounter slv).slaves = _
  simp [State.takeCounter, countedSlaves, nextCount_eq]

theorem untouched_takeAndBuild (s : State) (slv : BitVec 8) (ph : Phase) (build : BitVec 3 → List Byte) :
    Untouched s (s.takeAndBuild slv ph build) :=
  (untouched_takeCounter _ _).trans ((untouched_setHid _ _).trans (untouched_goto _ _))

/-! ## The fields of a response as numbers (30_encoding.md R117) -/

theorem rxCounter_toNat (rx : List Byte) : (rxCounter rx).toNat = (byteAt rx 5).toNat / 16 % 8 := by
  rw [rxCounter, BitVec.extractLsb'_toNat, Nat.shiftRight_eq_div_pow]

theorem rxType_toNat (rx : List Byte) : (rxType rx).toNat = (byteAt rx 5).toNat % 16 := by
  rw [rxType, BitVec.extractLsb'_toNat, Nat.shiftRight_zero]

theorem rxCs_toNat (rx : List Byte) : (rxCs rx).toNat = (byteAt rx 8).toNat / 32 := by
  have := (byteAt rx 8).isLt
  rw [rxCs, rxCmd, BitVec.extractLsb'_toNat, Nat.shiftRight_eq_div_pow]
  omega

theorem rxExpedited_eq (rx : List Byte) : rxExpedited rx = decide ((byteAt rx 8).toNat / 2 % 2 = 1) := by
  rw [rxExpedited, rxCmd, BitVec.getLsbD, Nat.testBit_eq_decide_div_mod_eq]

theorem rxLast_eq (rx : List Byte) : rxLast rx = decide ((byteAt rx 8).toNat % 2 = 1) := by
  rw [rxLast, rxCmd, BitVec.getLsbD, Nat.testBit_eq_decide_div_mod_eq, Nat.pow_zero, Nat.div_one]

theorem rxSizeCode_eq (rx : List Byte) : rxSizeCode rx = (byteAt rx 8).toNat / 4 % 4 := by
  rw [rxSizeCode, rxCmd, BitVec.extractLsb'_toNat, Nat.shiftRight_eq_div_pow]

theorem rxSegDataSize_eq (rx : List Byte) : rxSegDataSize rx = (byteAt rx 8).toNat / 2 % 8 := by
  rw [rxSegDataSize, rxCmd, BitVec.extractLsb'_toNat, Nat.shiftRight_eq_div_pow]

theorem rxToggle_toNat (rx : List Byte) : (rxToggle rx).toNat = (byteAt rx 8).toNat / 16 % 2 := by
  rw [rxToggle, rxCmd, BitVec.extractLsb'_toNat, Nat.shiftRight_eq_div_pow]

/-- A slice inside a sequence is the bytes at its places. -/
theorem slice_eq_map {bs : List Byte} {off n : Nat} (h : off + n ≤ bs.length) :
    slice bs off n = (List.range n).map fun k => byteAt bs (off + k) := by
  apply List.ext_getElem
  · simp [slice]
    omega
  · intro k h1 h2
    simp only [slice, List.length_take, List.length_drop, List.length_map, List.length_range] at h1 h2
    simp [slice, byteAt, show off + k < bs.length by omega]

theorem rxLength_eq {rx : List Byte} (h : 2 ≤ rx.length) :
    rxLength rx = (byteAt rx 0).toNat + 256 * (byteAt rx 1).toNat := by
  rw [rxLength, slice_eq_map (by omega)]
  simp [List.range_succ, fromLE]

theorem rxData4_eq {rx : List Byte} (h : 16 ≤ rx.length) :
    rxData4 rx = (byteAt rx 12).toNat + 256 * ((byteAt rx 13).toNat
      + 256 * ((byteAt rx 14).toNat + 256 * (byteAt rx 15).toNat)) := by
  rw [rxData4, slice_eq_map (by omega)]
  simp [List.range_succ, fromLE]

/-- The four bytes at offset 12 as one 32-bit number, least significant first. -/
theorem ofNat_rxData4 {rx : List Byte} (h : 16 ≤ rx.length) : BitVec.ofNat 32 (rxData4 rx) =
    (byteAt rx 15 ++ byteAt rx 14 ++ byteAt rx 13 ++ byteAt rx 12 : BitVec (8 + 8 + 8 + 8)) := by
  apply BitVec.eq_of_toNat_eq
  have h0 := (byteAt rx 12).isLt
  have h1 := (byteAt rx 13).isLt
  have h2 := (byteAt rx 14).isLt
  have h3 := (byteAt rx 15).isLt
  rw [rxData4_eq h, BitVec.toNat_ofNat]
  simp only [Sys2Proof.toNat_append]
  omega

/-- The check of a response with the bytes of the response as numbers (41_mailbox.md R221). -/
theorem checkResponse_eq (first : Bool) (rx : List Byte) (c : BitVec 3) (idx : BitVec 16) (sub : BitVec 8) :
    checkResponse first rx c idx sub =
      if first then
        if (byteAt rx 8).toNat / 32 = 4 then some (.sdoAborted (BitVec.ofNat 32 (rxData4 rx)) idx sub)
        else if (byteAt rx 5).toNat / 16 % 8 = c.toNat ∧ (byteAt rx 5).toNat % 16 = 3 then none
        else some (.sdoResponseInvalid idx sub)
      else if (byteAt rx 5).toNat / 16 % 8 = c.toNat ∧ (byteAt rx 5).toNat % 16 = 3 then
        if (byteAt rx 8).toNat / 32 = 4 then some (.sdoAborted (BitVec.ofNat 32 (rxData4 rx)) idx sub)
        else none
      else some (.sdoResponseInvalid idx sub) := by
  have hv : (rxCounter rx == c && rxType rx == mbxTypeCoe) =
      decide ((byteAt rx 5).toNat / 16 % 8 = c.toNat ∧ (byteAt rx 5).toNat % 16 = 3) := by
    rw [← rxCounter_toNat, ← rxType_toNat, Bool.eq_iff_iff]
    simp only [Bool.and_eq_true, beq_iff_eq, decide_eq_true_eq, ← BitVec.toNat_inj]
    rfl
  have ha : (rxCs rx == 4#3) = decide ((byteAt rx 8).toNat / 32 = 4) := by
    rw [← rxCs_toNat, Bool.eq_iff_iff]
    simp only [beq_iff_eq, decide_eq_true_eq, ← BitVec.toNat_inj]
    rfl
  unfold checkResponse
  rw [hv, ha]
  by_cases h1 : (byteAt rx 5).toNat / 16 % 8 = c.toNat ∧ (byteAt rx 5).toNat % 16 = 3 <;>
    by_cases h2 : (byteAt rx 8).toNat / 32 = 4 <;> cases first <;> simp [h1, h2]

/-- A response that passes the check. -/
theorem checkResponse_none {first : Bool} {rx : List Byte} {c : BitVec 3} {idx : BitVec 16} {sub : BitVec 8}
    (hc : (byteAt rx 5).toNat / 16 % 8 = c.toNat) (ht : (byteAt rx 5).toNat % 16 = 3)
    (ha : (byteAt rx 8).toNat / 32 ≠ 4) : checkResponse first rx c idx sub = none := by
  rw [checkResponse_eq]
  cases first <;> simp [hc, ht, ha]

/-! ## The response in `RXBUF` -/

/-- The state in which a response that was read is looked at. -/
def State.received (s : State) (op : TransportOp) (rx : List Byte) : State :=
  ((s.transact op).keepMailbox rx).setXs .responseReceived

theorem runnable_received (h : Runnable s) (op : TransportOp) (rx : List Byte) :
    Runnable (s.received op rx) := by
  rw [State.received, runnable_setXs, runnable_keepMailbox]
  exact h

theorem received_port (h : Runnable s) (op : TransportOp) (rx : List Byte) :
    (s.received op rx).port = { s.port with
      hid := { s.port.hid with
        rxBuf := rx ++ s.port.hid.rxBuf.drop rx.length
        xs := .responseReceived } } := by
  have h1 : Runnable (s.transact op) := h
  rw [State.received, setXs_port (by rw [runnable_keepMailbox]; exact h1), keepMailbox_port h1]
  rfl

theorem received_hid (h : Runnable s) (op : TransportOp) (rx : List Byte) : (s.received op rx).hid =
    { s.port.hid with rxBuf := rx ++ s.port.hid.rxBuf.drop rx.length, xs := .responseReceived } := by
  rw [State.hid, received_port h]

theorem received_op (h : Runnable s) (op : TransportOp) (rx : List Byte) (i : Fin 8) :
    (s.received op rx).op i = s.op i := by
  rw [State.op, received_port h]
  rfl

theorem untouched_received (s : State) (op : TransportOp) (rx : List Byte) :
    Untouched s (s.received op rx) :=
  (untouched_transact _ _).trans ((untouched_keepMailbox _ _).trans (untouched_setXs _ _))

/-- The last step of the exchange, the response being `rx`. -/
theorem exchange_receive {slv : BitVec 8} {idx : BitVec 16} {ph : Phase} {acc : State → State}
    {rx : List Byte} (h : Runnable s)
    (ha : s.answer (.read (s.slave slv).station (s.slave slv).rAddr (s.slave slv).rLen.toNat) = .ok rx) :
    s.exchange slv idx ph .receive acc =
      match checkResponse s.params.abortFirst rx s.port.hid.curCnt idx s.opSub with
      | some e => (s.received (.read (s.slave slv).station (s.slave slv).rAddr (s.slave slv).rLen.toNat)
          rx).failSdo e
      | none => acc (s.received (.read (s.slave slv).station (s.slave slv).rAddr (s.slave slv).rLen.toNat)
          rx) := by
  simp only [State.exchange]
  rw [readMailbox_ok ha]
  change (match checkResponse (s.received _ rx).params.abortFirst rx (s.received _ rx).hid.curCnt idx
    (s.received _ rx).opSub with
    | some e => (s.received _ rx).failSdo e
    | none => acc (s.received _ rx)) = _
  rw [State.hid, State.opSub, received_port h]
  rfl

theorem keepsResponse_received (h : Runnable s) (op : TransportOp) (rx : List Byte) :
    KeepsResponse s (s.received op rx) rx .responseReceived := by
  simp [KeepsResponse, received_port h]

/-- A step that reads a response, sets `XS` and then goes on. -/
theorem receives_setXs {i : Instr} {op : TransportOp} {rx : List Byte} {x : XState} {m : Micro}
    (h : Runnable s) (hx : exec i s = .next (((s.received op rx).setXs x).goto m)) : ReceivesXs i s op rx m x := by
  have hr := runnable_received h op rx
  refine ⟨_, hx, ⟨(untouched_received _ _ _).trans ((untouched_setXs _ _).trans (untouched_goto _ _)),
    fun _ => rfl, rfl, rfl, ?_⟩, ?_⟩
  · rw [Goes, setXs_goto_port hr, received_port h]
    exact ⟨rfl, rfl, rfl⟩
  · rw [KeepsResponse, setXs_goto_port hr, received_port h]

/-- A step that reads a response and then goes on. -/
theorem receives_goto {i : Instr} {op : TransportOp} {rx : List Byte} {m : Micro} (h : Runnable s)
    (hx : exec i s = .next ((s.received op rx).goto m)) : ReceivesXs i s op rx m .responseReceived := by
  have hr := runnable_received h op rx
  refine ⟨_, hx, ⟨(untouched_received _ _ _).trans (untouched_goto _ _), fun _ => rfl, rfl, rfl, ?_⟩, ?_⟩
  · rw [Goes, goto_port hr, received_port h]
    exact ⟨rfl, rfl, rfl⟩
  · rw [KeepsResponse, goto_port hr, received_port h]

/-- MAWT's read of the mailbox into `RXBUF`. -/
theorem receives_keep {i : Instr} {op : TransportOp} {rx : List Byte} {m : Micro} (h : Runnable s)
    (hx : exec i s = .next (((s.transact op).keepMailbox rx).goto m)) : Receives i s op rx m := by
  have h1 : Runnable (s.transact op) := h
  have h2 : Runnable ((s.transact op).keepMailbox rx) := by rwa [runnable_keepMailbox]
  refine ⟨_, hx, ⟨(untouched_transact _ _).trans ((untouched_keepMailbox _ _).trans (untouched_goto _ _)),
    fun _ => rfl, rfl, rfl, ?_⟩, ?_⟩
  · rw [Goes, goto_port h2, keepMailbox_port h1]
    exact ⟨rfl, rfl, rfl⟩
  · rw [KeepsResponse, goto_port h2, keepMailbox_port h1]
    rfl

/-- A step that reads a response and then ends with an error. -/
theorem receives_failSdo {i : Instr} {op : TransportOp} {rx : List Byte} {e : Err} (h : Runnable s)
    (hx : exec i s = .next ((s.received op rx).failSdo e)) :
    ReceivesXs i s op rx (.finish (errResults e (xstateCode e.terminal))) e.terminal := receives_setXs h hx

end Sys2Proof.Machine
end

