-- ==== Sys2Proof/Laws/Exchange.lean ====
section
/-! SUPPORT. Runs of the exchange: what a list of draws that lets it through does (41_mailbox.md R220). -/

namespace Sys2Proof.Machine

/-! ## The fields of a response in `RXBUF` -/

/-- The first bytes of `RXBUF` are those of the response. -/
theorem byteAt_app {rx tl : List Byte} {j : Nat} (h : j < rx.length) : byteAt (rx ++ tl) j = byteAt rx j := by
  simp [byteAt, List.getElem?_append_left h]

theorem rxLength_app {rx tl : List Byte} (h : 16 ≤ rx.length) : rxLength (rx ++ tl) = (byteAt rx 0).toNat +
    256 * (byteAt rx 1).toNat := by
  rw [rxLength_eq (by simp; omega), byteAt_app (by omega), byteAt_app (by omega)]

/-- `DATA4` is the four bytes put side by side. -/
theorem rxData4_toNat {rx : List Byte} (h : 16 ≤ rx.length) : rxData4 rx =
    (byteAt rx 15 ++ byteAt rx 14 ++ byteAt rx 13 ++ byteAt rx 12 : BitVec (8 + 8 + 8 + 8)).toNat := by
  rw [← ofNat_rxData4 h, BitVec.toNat_ofNat, Nat.mod_eq_of_lt]
  rw [rxData4_eq h]
  have h0 := (byteAt rx 12).isLt
  have h1 := (byteAt rx 13).isLt
  have h2 := (byteAt rx 14).isLt
  have h3 := (byteAt rx 15).isLt
  omega

theorem rxData4_app {rx tl : List Byte} (h : 16 ≤ rx.length) : rxData4 (rx ++ tl) = rxData4 rx := by
  rw [rxData4_eq h, rxData4_eq (by simp; omega), byteAt_app (by omega), byteAt_app (by omega), byteAt_app
      (by omega), byteAt_app (by omega)]

theorem received_params {s : State} (op rx) : (s.received op rx).params = s.params := rfl

theorem received_slave {s : State} (op rx slv) : (s.received op rx).slave slv = s.slave slv := rfl

/-! ## Steps of the exchange -/

/-- The command `i` is in an exchange of the phase `ph`: SDWR's download, or SDRD's initiate request or a
segment. -/
def Exchanging (i : Instr) (slv : BitVec 8) (idx : BitVec 16) (ph : Phase) : Prop :=
  (i = .sdwr slv idx ∧ ph = .download) ∨ (i = .sdrd slv idx ∧ ph ≠ .download)

/-- In a step of the exchange the command runs that step. -/
theorem exec_exchange {slv : BitVec 8} {idx : BitVec 16} {i : Instr} {ph : Phase} {s : State}
    (hi : Exchanging i slv idx ph) {k} (h : At s (.exch ph k)) :
   ∃ acc, exec i s = .next (s.exchange slv idx ph k acc) := by
  rcases hi with ⟨rfl, rfl⟩ | ⟨rfl, hp⟩
  · exact ⟨_, by simp only [exec, execSdwr, micro_of_at h]; rfl⟩
  · cases ph with
    | download => exact absurd rfl hp
    | initiate => exact ⟨_, by simp only [exec, execSdrd, micro_of_at h]; rfl⟩
    | segment f => exact ⟨_, by simp only [exec, execSdrd, micro_of_at h]; rfl⟩

/-! ## Runs -/

/-- `u` comes after `s` by Transport steps of the exchange alone, the operations of `n`, newest first,
being done. -/
structure Follows (s u : State) (n : List (TransportOp × Answer)) : Prop where
  bm : u.bm = s.bm
  slaves : u.slaves = s.slaves
  params : u.params = s.params
  run : Runnable u
  port : ∃ x m, u.port = { s.port with pst := m, hid := { s.port.hid with xs := x } }
  wire : u.wire = n ++ s.wire

theorem Follows.refl {s : State} (h : Runnable s) : Follows s s [] :=
    ⟨rfl, rfl, rfl, h, ⟨s.port.hid.xs, s.port.pst, rfl⟩, rfl⟩

theorem Follows.trans {s t u : State} {a b} (h : Follows s t a) (k : Follows t u b) : Follows s u (b ++ a) := by
  obtain ⟨x, m, hp⟩ := h.port
  obtain ⟨y, l, hq⟩ := k.port
  exact ⟨k.bm.trans h.bm, k.slaves.trans h.slaves, k.params.trans h.params, k.run, ⟨y, l, by rw [hq, hp]⟩,
      by rw [k.wire, h.wire, List.append_assoc]⟩

theorem Follows.slave {s u : State} {n} (h : Follows s u n) (slv) : u.slave slv = s.slave slv := by rw
    [State.slave, State.slave, h.slaves]

theorem Follows.hid {s u : State} {n} (h : Follows s u n) : u.port.hid.txBuf = s.port.hid.txBuf ∧
    u.port.hid.curCnt = s.port.hid.curCnt ∧ u.port.hid.toggle = s.port.hid.toggle ∧ u.port.hid.offset =
    s.port.hid.offset ∧ u.port.hid.segCnt = s.port.hid.segCnt ∧ u.port.op = s.port.op := by
  obtain ⟨x, m, hp⟩ := h.port
  rw [hp]; simp

theorem follows_goto {s : State} (h : Runnable s) (d : Draw) (op) (m) : Follows s
    ((({ s with draw := d } : State).transact op).goto m) [(op, ({ s with draw := d } : State).answer op)] := by
  have h1 : Runnable (({ s with draw := d } : State).transact op) := h
  refine ⟨rfl, rfl, rfl, by rw [runnable_goto]; exact h, ⟨s.port.hid.xs, .busy m, ?_⟩, rfl⟩
  rw [goto_port h1]; rfl

theorem at_goto {s : State} (h : Runnable s) (m) : At (s.goto m) m :=
    ⟨by rw [runnable_goto]; exact h, by rw [goto_port h]⟩

theorem runCommand_cons {i d ds} {s t : State} (h : exec i { s with draw := d } = .next t) : runCommand i
    (d :: ds) s = runCommand i ds t := by
  simp only [runCommand, h]

/-- A run goes on where it stopped. -/
theorem runCommand_append {i} {ds es : List Draw} {s t : State} (h : runCommand i ds s = .next t) :
    runCommand i (ds ++ es) s = runCommand i es t := by
  induction ds generalizing s with
  | nil => simp only [runCommand] at h; cases h; rfl
  | cons d ds ih =>
    simp only [runCommand] at h
    simp only [List.cons_append, runCommand]
    split at h
    · exact ih h
    · cases h
    · cases h

theorem at_draw {s : State} {m} (h : At s m) (d : Draw) : At { s with draw := d } m := h

theorem status_full {s : State} {d : Draw} {sl : Slave} {sm} {b} (h : statusOf d = some b) : ∃ bs,
    ({ s with draw := d } : State).answer (statusRead sl sm) = .ok bs ∧ (byteAt bs 0).getLsbD 3 = b := by
  simp only [statusOf] at h
  have e : ({ s with draw := d } : State).answer (statusRead sl sm) = d.answer.fit 1 := rfl
  rw [e]
  split at h
  · rename_i bs hb; exact ⟨bs, hb, by simpa [isFull_eq] using h⟩
  · cases h

theorem ok_any {s : State} {d : Draw} (h : isOk d = true) (op) : ∃ bs,
    ({ s with draw := d } : State).answer op = .ok bs := by
  simp only [isOk] at h
  split at h
  · rename_i bs hb; exact ⟨fitBytes op.len bs, by simp [State.answer, hb, Answer.fit]⟩
  · cases h

variable {slv : BitVec 8} {idx : BitVec 16} {i : Instr} {ph : Phase}

/-- A drain that goes through (41_mailbox.md R212). -/
theorem drain_run (hi : Exchanging i slv idx ph) {s : State} (h : At s (.exch ph .drainStatus)) {ds}
    (hd : drains ds = true) :
    ∃ u n, runCommand i ds s = .next u ∧ At u (.exch ph .acquire) ∧ Follows s u n ∧ n.length = ds.length ∧
        (n.map Prod.fst).filter isWrite = [] := by
  match ds, hd with
  | [d], hd =>
    simp only [drains, beq_iff_eq] at hd
    obtain ⟨acc, hx⟩ := exec_exchange hi (at_draw h d)
    obtain ⟨bs, ha, hf⟩ := status_full (s := s) (sl := s.slave slv) (sm := (s.slave slv).rSm) hd
    simp only [State.exchange] at hx
    rw [show ({ s with draw := d } : State).slave slv = s.slave slv from rfl, drainStatus_empty ha hf] at hx
    exact ⟨_, _, by rw [runCommand_cons hx]; rfl, at_goto (by exact h.1) _, follows_goto h.1 d _ _, rfl,
        rfl⟩
  | [d, e], hd =>
    simp only [drains, Bool.and_eq_true, beq_iff_eq] at hd
    obtain ⟨acc, hx⟩ := exec_exchange hi (at_draw h d)
    obtain ⟨bs, ha, hf⟩ := status_full (s := s) (sl := s.slave slv) (sm := (s.slave slv).rSm) hd.1
    simp only [State.exchange] at hx
    rw [show ({ s with draw := d } : State).slave slv = s.slave slv from rfl, drainStatus_full ha hf] at hx
    have r1 := follows_goto h.1 d (statusRead (s.slave slv) (s.slave slv).rSm) (.exch ph .drainRead)
    have a1 := at_goto (s := ({ s with draw := d } : State).transact
        (statusRead (s.slave slv) (s.slave slv).rSm)) (by exact h.1) (.exch ph .drainRead)
    generalize (({ s with draw := d } : State).transact (statusRead (s.slave slv) (s.slave slv).rSm)).goto
        (.exch ph .drainRead) = v at *
    obtain ⟨acc, hy⟩ := exec_exchange hi (at_draw a1 e)
    obtain ⟨cs, hc⟩ := ok_any (s := v) hd.2 (.read (v.slave slv).station (v.slave slv).rAddr
        (v.slave slv).rLen.toNat)
    simp only [State.exchange] at hy
    rw [show ({ v with draw := e } : State).slave slv = v.slave slv from rfl, readMailbox_ok hc] at hy
    exact ⟨_, _, by rw [runCommand_cons hx, runCommand_cons hy]; rfl, at_goto (by exact a1.1) _, r1.trans
        (follows_goto a1.1 e _ _), rfl, rfl⟩

/-- Polls of a write mailbox that stays full. -/
theorem acquire_polls_run (hi : Exchanging i slv idx ph) {ds : List Draw} {s : State}
    (h : At s (.exch ph .acquire)) (hd : ∀ d ∈ ds, shows true d = true) :
    ∃ u n, runCommand i ds s = .next u ∧ At u (.exch ph .acquire) ∧ Follows s u n ∧ n.length = ds.length ∧
        (n.map Prod.fst).filter isWrite = [] := by
  induction ds generalizing s with
  | nil => exact ⟨s, [], rfl, h, Follows.refl h.1, rfl, rfl⟩
  | cons d ds ih =>
    have hd' := hd d (by simp)
    simp only [shows, Bool.and_eq_true, Bool.not_eq_true', beq_iff_eq] at hd'
    obtain ⟨acc, hx⟩ := exec_exchange hi (at_draw h d)
    obtain ⟨bs, ha, hf⟩ := status_full (s := s) (sl := s.slave slv) (sm := (s.slave slv).wSm) hd'.2
    simp only [State.exchange] at hx
    rw [show ({ s with draw := d } : State).slave slv = s.slave slv from rfl, pollMailbox_again
        (s := ({ s with draw := d } : State)) hd'.1 ha (by rw [hf]; decide)] at hx
    rw [← goto_self (s := ({ s with draw := d } : State).transact
        (statusRead (s.slave slv) (s.slave slv).wSm)) (m := .exch ph .acquire) h.2] at hx
    have r1 := follows_goto h.1 d (statusRead (s.slave slv) (s.slave slv).wSm) (.exch ph .acquire)
    have a1 := at_goto (s := ({ s with draw := d } : State).transact
        (statusRead (s.slave slv) (s.slave slv).wSm)) (by exact h.1) (.exch ph .acquire)
    obtain ⟨u, n, h1, h2, h3, h4, h5⟩ := ih a1 (fun e he => hd e (by simp [he]))
    exact ⟨u, _, by rw [runCommand_cons hx, h1], h2, r1.trans h3, by simp [h4], by simp
        [h5, statusRead, isWrite]⟩

/-- Polls of a read mailbox that stays empty. -/
theorem await_polls_run (hi : Exchanging i slv idx ph) {ds : List Draw} {s : State}
    (h : At s (.exch ph .await)) (hd : ∀ d ∈ ds, shows false d = true) :
    ∃ u n, runCommand i ds s = .next u ∧ At u (.exch ph .await) ∧ Follows s u n ∧ n.length = ds.length ∧
        (n.map Prod.fst).filter isWrite = [] := by
  induction ds generalizing s with
  | nil => exact ⟨s, [], rfl, h, Follows.refl h.1, rfl, rfl⟩
  | cons d ds ih =>
    have hd' := hd d (by simp)
    simp only [shows, Bool.and_eq_true, Bool.not_eq_true', beq_iff_eq] at hd'
    obtain ⟨acc, hx⟩ := exec_exchange hi (at_draw h d)
    obtain ⟨bs, ha, hf⟩ := status_full (s := s) (sl := s.slave slv) (sm := (s.slave slv).rSm) hd'.2
    simp only [State.exchange] at hx
    rw [show ({ s with draw := d } : State).slave slv = s.slave slv from rfl, pollMailbox_again
        (s := ({ s with draw := d } : State)) hd'.1 ha (by rw [hf]; decide)] at hx
    rw [← goto_self (s := ({ s with draw := d } : State).transact
        (statusRead (s.slave slv) (s.slave slv).rSm)) (m := .exch ph .await) h.2] at hx
    have r1 := follows_goto h.1 d (statusRead (s.slave slv) (s.slave slv).rSm) (.exch ph .await)
    have a1 := at_goto (s := ({ s with draw := d } : State).transact
        (statusRead (s.slave slv) (s.slave slv).rSm)) (by exact h.1) (.exch ph .await)
    obtain ⟨u, n, h1, h2, h3, h4, h5⟩ := ih a1 (fun e he => hd e (by simp [he]))
    exact ⟨u, _, by rw [runCommand_cons hx, h1], h2, r1.trans h3, by simp [h4], by simp
        [h5, statusRead, isWrite]⟩

/-- The exchange up to the read of the response (41_mailbox.md R220): what was written is the request,
    padded. -/
theorem exchange_run (hi : Exchanging i slv idx ph) {s : State} (h : At s (.exch ph .drainStatus)) {ds rx}
    (hd : Exchanges (s.slave slv) ds rx) :
    ∃ pre d u n, ds = pre ++ [d] ∧ runCommand i pre s = .next u ∧ At u (.exch ph .receive) ∧ Follows s u n
        ∧ n.length + 1 = ds.length ∧
      (n.map Prod.fst).filter isWrite = [.write (s.slave slv).station (s.slave slv).wAddr
          (s.port.hid.txBuf ++ List.replicate ((s.slave slv).wLen.toNat - 16) 0#8)] ∧
      ({ u with draw := d } : State).answer (.read (u.slave slv).station (u.slave slv).rAddr
          (u.slave slv).rLen.toNat) = .ok rx := by
  obtain ⟨drain, polls1, acq, sent, polls2, filled, read, rfl, hdr, hp1, hac, hse, hp2, hfi, hre⟩ := hd
  obtain ⟨u1, n1, run1, at1, rel1, len1, w1⟩ := drain_run hi h hdr
  obtain ⟨u2, n2, run2, at2, rel2, len2, w2⟩ := acquire_polls_run hi at1 hp1
  simp only [shows, Bool.and_eq_true, Bool.not_eq_true', beq_iff_eq] at hac hfi
  obtain ⟨acc, hx⟩ := exec_exchange hi (at_draw at2 acq)
  obtain ⟨bs, ha, hf⟩ := status_full (s := u2) (sl := u2.slave slv) (sm := (u2.slave slv).wSm) hac.2
  simp only [State.exchange] at hx
  rw [show ({ u2 with draw := acq } : State).slave slv = u2.slave slv from rfl, pollMailbox_done
      (s := ({ u2 with draw := acq } : State)) hac.1 ha hf] at hx
  have rel3 := follows_goto at2.1 acq (statusRead (u2.slave slv) (u2.slave slv).wSm) (.exch ph .send)
  have at3 := at_goto (s := ({ u2 with draw := acq } : State).transact
      (statusRead (u2.slave slv) (u2.slave slv).wSm)) (by exact at2.1) (.exch ph .send)
  generalize (({ u2 with draw := acq } : State).transact
      (statusRead (u2.slave slv) (u2.slave slv).wSm)).goto (.exch ph .send) = u3 at *
  obtain ⟨acc, hy⟩ := exec_exchange hi (at_draw at3 sent)
  simp only [State.exchange] at hy
  obtain ⟨cs, hc⟩ := ok_any (s := u3) hse (.write (u3.slave slv).station (u3.slave slv).wAddr
      (u3.hid.txBuf ++ zeros ((u3.slave slv).wLen.toNat - 16)))
  rw [transport_ok (s := ({ u3 with draw := sent } : State)) (by exact hc)] at hy
  have rel4 : Follows u3 (((({ u3 with draw := sent } : State).transact
      (.write (u3.slave slv).station (u3.slave slv).wAddr
      (u3.hid.txBuf ++ zeros ((u3.slave slv).wLen.toNat - 16)))).setXs .requestSent).goto
      (.exch ph .await)) [(.write (u3.slave slv).station (u3.slave slv).wAddr
      (u3.hid.txBuf ++ zeros ((u3.slave slv).wLen.toNat - 16)), .ok cs)] := by
    have r3 : Runnable (({ u3 with draw := sent } : State).transact
        (.write (u3.slave slv).station (u3.slave slv).wAddr
        (u3.hid.txBuf ++ zeros ((u3.slave slv).wLen.toNat - 16)))) := at3.1
    refine ⟨rfl, rfl, rfl, by rw [runnable_goto, runnable_setXs]; exact r3,
        ⟨.requestSent, .busy (.exch ph .await), ?_⟩, ?_⟩
    · rw [goto_port (by rw [runnable_setXs]; exact r3), setXs_port r3]; rfl
    · rw [← hc]; rfl
  have at4 : At (((({ u3 with draw := sent } : State).transact
      (.write (u3.slave slv).station (u3.slave slv).wAddr
      (u3.hid.txBuf ++ zeros ((u3.slave slv).wLen.toNat - 16)))).setXs .requestSent).goto
      (.exch ph .await)) (.exch ph .await) := at_goto (by rw [runnable_setXs]; exact at3.1) _
  replace hy : exec i { u3 with draw := sent } = .next
      (((({ u3 with draw := sent } : State).transact
      (.write (u3.slave slv).station (u3.slave slv).wAddr
      (u3.hid.txBuf ++ zeros ((u3.slave slv).wLen.toNat - 16)))).setXs .requestSent).goto
      (.exch ph .await)) := hy
  generalize (((({ u3 with draw := sent } : State).transact
      (.write (u3.slave slv).station (u3.slave slv).wAddr
      (u3.hid.txBuf ++ zeros ((u3.slave slv).wLen.toNat - 16)))).setXs .requestSent).goto
      (.exch ph .await)) = u4 at *
  obtain ⟨u5, n5, run5, at5, rel5, len5, w5⟩ := await_polls_run hi at4 hp2
  obtain ⟨acc, hz⟩ := exec_exchange hi (at_draw at5 filled)
  obtain ⟨es, he, hfe⟩ := status_full (s := u5) (sl := u5.slave slv) (sm := (u5.slave slv).rSm) hfi.2
  simp only [State.exchange] at hz
  rw [show ({ u5 with draw := filled } : State).slave slv = u5.slave slv from rfl, pollMailbox_done
      (s := ({ u5 with draw := filled } : State)) hfi.1 he hfe] at hz
  have rel6 := follows_goto at5.1 filled (statusRead (u5.slave slv) (u5.slave slv).rSm) (.exch ph .receive)
  have at6 := at_goto (s := ({ u5 with draw := filled } : State).transact
      (statusRead (u5.slave slv) (u5.slave slv).rSm)) (by exact at5.1) (.exch ph .receive)
  generalize (({ u5 with draw := filled } : State).transact
      (statusRead (u5.slave slv) (u5.slave slv).rSm)).goto (.exch ph .receive) = u6 at *
  have relAll := ((((rel1.trans rel2).trans rel3).trans rel4).trans rel5).trans rel6
  have rel3' := (rel1.trans rel2).trans rel3
  refine ⟨drain ++ (polls1 ++ (acq :: sent :: (polls2 ++ [filled]))), read, u6, _, by simp, ?_, at6,
      relAll, ?_, ?_, ?_⟩
  · rw [runCommand_append run1, runCommand_append run2, runCommand_cons hx, runCommand_cons hy,
      runCommand_append run5, runCommand_cons hz]; rfl
  · simp [len1, len2, len5]; omega
  · rw [rel3'.slave, show u3.hid.txBuf = s.port.hid.txBuf from rel3'.hid.1]
    simp only [List.map_append, List.filter_append, w1, w2, w5]
    simp [statusRead, isWrite, zeros]
  · rw [relAll.slave]; exact hre

end Sys2Proof.Machine
end

