-- ==== Sys2Proof/Laws/Roms.lean ====
section
/-! SUPPORT. Layout ROM checks: monotone in the depth, what the loader leaves, and the size of an image
(40_codec.md R142, R160, 70_reset_and_hazards.md R355). -/

namespace Sys2Proof.Machine

theorem all_imp_fields {r r' : Roms} {n1 n2 : Nat → Bool} {n : Nat} {fs : List FieldDesc}
  (he : ∀ ref e, enumEntry r ref = some e → enumEntry r' ref = some e)
  (hraw : ∀ ref, (layoutRaw r' ref).n = (layoutRaw r ref).n ∧ (layoutRaw r' ref).fields =
      (layoutRaw r ref).fields)
  (hn : ∀ ref, n1 ref = true → n2 ref = true)
  (h : fs.all (fieldOk r n1 n) = true) : fs.all (fieldOk r' n2 n) = true := by
  rw [List.all_eq_true] at h ⊢
  intro f hf
  have := h f hf
  simp only [fieldOk, Bool.and_eq_true] at this ⊢
  refine ⟨this.1, ?_⟩
  have h6 := this.2
  unfold wfOfKind at h6 ⊢
  cases hk : f.kind <;> simp only [hk] at h6 ⊢ <;> try exact h6
  case enum =>
    split at h6
    · cases h6
    · rename_i e hE
      rw [he _ _ hE]; exact h6
  case struct =>
    rw [(hraw f.ref).1, (hraw f.ref).2]
    simp only [Bool.and_eq_true] at h6 ⊢
    exact ⟨hn _ h6.1, h6.2⟩

/-- A layout valid at one depth is valid at the next. -/
theorem layoutOk_mono {r : Roms} {d : Nat} {l : LayoutEntry} (h : layoutOk r d l = true) : layoutOk r (d+1)
    l = true := by
  induction d generalizing l with
  | zero => cases h
  | succ d ih =>
    simp only [layoutOk.eq_2, Bool.and_eq_true] at h
    rw [layoutOk.eq_2]
    simp only [Bool.and_eq_true]
    refine ⟨h.1, all_imp_fields (fun _ _ h => h) (fun _ => ⟨rfl, rfl⟩) ?_ h.2⟩
    intro ref hr
    simp only [Bool.and_eq_true] at hr ⊢
    exact ⟨hr.1, ih hr.2⟩

theorem layoutOk_mono_le {r : Roms} {d d' : Nat} (hd : d ≤ d') {l : LayoutEntry}
    (h : layoutOk r d l = true) : layoutOk r d' l = true := by
  induction hd with
  | refl => exact h
  | step _ ih => exact layoutOk_mono ih

theorem valid_of_layoutOk {r : Roms} {d : Nat} {l : LayoutEntry} (h : layoutOk r d l = true) :
    l.valid = true := by
  cases d with
  | zero => cases h
  | succ d =>
    simp only [layoutOk, Bool.and_eq_true] at h
    exact h.1.1.1.1

/-- The loader's last act leaves only well-formed entries valid (70_reset_and_hazards.md R355). -/
theorem romsOk_validate (r : Roms) : romsOk (validateRoms r) = true := by
  simp only [romsOk, Bool.and_eq_true, List.all_eq_true]
  constructor
  · intro e he
    simp only [validateRoms, List.mem_map] at he
    obtain ⟨e', _, rfl⟩ := he
    simp only [Bool.or_eq_true, Bool.not_eq_true']
    by_cases h : enumOk e' = true
    · right
      have : e'.valid = true := by simp only [enumOk, Bool.and_eq_true] at h; exact h.1.1.1.1.1
      have h2 : ({ e' with valid := enumOk e' } : EnumEntry) = e' := by cases e'; simp_all
      rw [h2]; exact h
    · left; simpa using h
  · intro l hl
    simp only [validateRoms, List.mem_map] at hl
    obtain ⟨l', _, rfl⟩ := hl
    simp only [Bool.or_eq_true, Bool.not_eq_true']
    set r' : Roms := { r with enums := r.enums.map fun e => { e with valid := enumOk e } } with hr'
    by_cases h : layoutOk r' (romDepth r') l' = true
    · right
      have hlen : romDepth (validateRoms r) = romDepth r' := by simp [romDepth, validateRoms, hr']
      have hv : ({ l' with valid := layoutOk r' (romDepth r') l' } : LayoutEntry) = l' := by
        have := valid_of_layoutOk h
        cases l'; simp_all
      rw [hv, hlen]
      -- main: layoutOk r' d l → layoutOk r'' d l when d ≤ D
      have main : ∀ d, d ≤ romDepth r' → ∀ l, layoutOk r' d l = true → layoutOk (validateRoms r) d l = true := by
        intro d
        induction d with
        | zero => intro _ l h; cases h
        | succ d ih =>
          intro hd l h
          rw [layoutOk.eq_2] at h ⊢
          simp only [Bool.and_eq_true] at h ⊢
          have hraw : ∀ ref, (layoutRaw (validateRoms r) ref) =
              { layoutRaw r' ref with valid := layoutOk r' (romDepth r') (layoutRaw r' ref) } ∨
              (layoutRaw (validateRoms r) ref) = layoutRaw r' ref := by
            intro ref
            by_cases hh : ref < r.layouts.length
            · left; simp [layoutRaw, validateRoms, hr', hh]
            · right; simp [layoutRaw, validateRoms, hr', hh]
          refine ⟨h.1, all_imp_fields (r := r') (fun _ _ h => h)
              (n1 := fun ref => decide (ref < r'.layouts.length) && layoutOk r' d (layoutRaw r' ref)) ?_ ?_ h.2⟩
          · intro ref; obtain h | h := hraw ref <;> rw [h] <;> exact ⟨rfl, rfl⟩
          · intro ref hr
            simp only [Bool.and_eq_true, decide_eq_true_eq] at hr ⊢
            refine ⟨by simpa [validateRoms, hr'] using hr.1, ?_⟩
            obtain h | h := hraw ref
            · have hv2 := valid_of_layoutOk hr.2
              have : layoutRaw (validateRoms r) ref = layoutRaw r' ref := by
                rw [h, layoutOk_mono_le (by omega) hr.2]
                cases hx : layoutRaw r' ref; rw [hx] at hv2; simp_all
              rw [this]
              exact ih (by omega) _ hr.2
            · rw [h]; exact ih (by omega) _ hr.2
      exact main _ le_rfl _ h
    · left; simpa using h

/-! ## Order and nesting -/

/-- WF-ORDER as a chain over the fields with `W > 0`, the first of them starting at bit `k` or later. -/
theorem wfOrderFrom_iff (fs : List FieldDesc) (k : Nat) : wfOrderFrom k fs = true ↔
    (fs.filter fun f => 0 < f.w).IsChain (fun f g => endBit f ≤ startBit g) ∧
    ∀ f ∈ (fs.filter fun f => 0 < f.w).head?, k ≤ startBit f := by
  induction fs generalizing k with
  | nil => simp [wfOrderFrom]
  | cons f fs ih =>
    rw [wfOrderFrom]
    by_cases h : f.w = 0
    · simp [h, ih]
    · rw [if_neg h, Bool.and_eq_true, ih, decide_eq_true_eq]
      simp only [List.filter_cons, decide_eq_true (Nat.pos_of_ne_zero h), if_true, List.head?_cons,
        Option.mem_some_iff, forall_eq', List.isChain_cons]
      tauto

/-- A layout that a valid one names is valid one level down. -/
theorem layoutOk_of_nests {r : Roms} {a b d : Nat} (hn : Nests r a b)
    (hd : layoutOk r d (layoutRaw r a) = true) :
    ∃ d', d = d' + 1 ∧ b < r.layouts.length ∧ layoutOk r d' (layoutRaw r b) = true := by
  obtain ⟨l, f, hl, hf, hk, rfl⟩ := hn
  rw [show layoutRaw r a = l by simp [layoutRaw, hl]] at hd
  cases d with
  | zero => cases hd
  | succ d =>
    simp only [layoutOk, Bool.and_eq_true, List.all_eq_true] at hd
    have := hd.2 f hf
    simp only [fieldOk, wfOfKind, hk, Bool.and_eq_true, decide_eq_true_eq] at this
    exact ⟨d, rfl, this.2.1⟩

/-- A layout below a valid one, any number of levels down, is valid at a smaller depth. -/
theorem layoutOk_below {r : Roms} {a b : Nat} (hn : Relation.TransGen (Nests r) a b) {d : Nat}
    (hd : layoutOk r d (layoutRaw r a) = true) :
    ∃ d', d' < d ∧ b < r.layouts.length ∧ layoutOk r d' (layoutRaw r b) = true := by
  induction hn with
  | single h =>
    obtain ⟨d', rfl, hb, h'⟩ := layoutOk_of_nests h hd
    exact ⟨d', Nat.lt_succ_self d', hb, h'⟩
  | tail _ h ih =>
    obtain ⟨d₁, hlt, -, h₁⟩ := ih
    obtain ⟨d', rfl, hb, h'⟩ := layoutOk_of_nests h h₁
    exact ⟨d', by omega, hb, h'⟩

/-- A valid layout does not reach itself. -/
theorem not_nests_self {r : Roms} {a d : Nat} (hd : layoutOk r d (layoutRaw r a) = true) :
    ¬Relation.TransGen (Nests r) a a := by
  intro h
  induction d using Nat.strong_induction_on with
  | _ d ih =>
    obtain ⟨d', hlt, -, h'⟩ := layoutOk_below h hd
    exact ih d' hlt h'

/-- A valid layout is valid at a depth of the number of layouts it can reach, itself among them (log 19). -/
theorem layoutOk_card {r : Roms} {d : Nat} : ∀ {S : Finset Nat} {a : Nat}, a < r.layouts.length →
    (∀ b, Relation.ReflTransGen (Nests r) a b → b ∈ S) → layoutOk r d (layoutRaw r a) = true →
    layoutOk r S.card (layoutRaw r a) = true := by
  induction d with
  | zero => intro S a _ _ h; cases h
  | succ d ih =>
    intro S a ha hS h
    have hac := not_nests_self h
    rw [← Finset.card_erase_add_one (hS a .refl), layoutOk.eq_2]
    rw [layoutOk.eq_2] at h
    simp only [Bool.and_eq_true, List.all_eq_true] at h ⊢
    refine ⟨h.1, fun f hf => ?_⟩
    have hfo := h.2 f hf
    simp only [fieldOk, Bool.and_eq_true] at hfo ⊢
    refine ⟨hfo.1, ?_⟩
    have h6 := hfo.2
    unfold wfOfKind at h6 ⊢
    cases hk : f.kind <;> simp only [hk] at h6 ⊢ <;> try exact h6
    simp only [Bool.and_eq_true, decide_eq_true_eq] at h6 ⊢
    have e : Nests r a f.ref :=
      ⟨_, f, List.getElem?_eq_getElem ha, by simpa [layoutRaw, ha] using hf, hk, rfl⟩
    refine ⟨⟨h6.1.1, ih h6.1.1 (fun b hb => Finset.mem_erase.2 ⟨?_, hS b (.head e hb)⟩) h6.1.2⟩, h6.2⟩
    rintro rfl
    exact hac (Relation.TransGen.head' e hb)

/-! ## Sizes -/

/-- The image of unpacked components has the size of their slots. -/
theorem length_imageFields (r : Roms) (nOk : Nat → Bool) (n : Nat) (nsize : Nat → Nat)
    (nun : Nat → List Byte → Option (List Value)) (nim : Nat → List Value → List Byte)
   (hn : ∀ ref b vs, nOk ref = true → b.length = (layoutRaw r ref).n → nun ref b = some vs →
       (nim ref vs).length = nsize ref)
   (fs : List FieldDesc) (hf : ∀ f ∈ fs, fieldOk r nOk n f = true) (buf : List Byte) (hb : buf.length = n)
       (vs : List Value) (h : unpackFields r nun fs buf = some vs) :
   (imageFields nim fs vs).length = fieldsSize nsize fs := by
  induction fs generalizing vs with
  | nil => simp [imageFields, fieldsSize]
  | cons f fs ih =>
    simp only [unpackFields] at h
    split at h
    · cases h
    · rename_i x hx
      split at h
      · cases h
      · rename_i xs hxs
        cases h
        have := ih (fun g hg => hf g (List.mem_cons_of_mem _ hg)) xs hxs
        simp only [imageFields, List.length_append, this, fieldsSize, List.map_cons, List.sum_cons]
        congr 1
        have hok := hf f List.mem_cons_self
        simp only [fieldOk, Bool.and_eq_true] at hok
        obtain ⟨⟨⟨⟨⟨h1,h2⟩,h3⟩,h4⟩,h5⟩,h6⟩ := hok
        unfold unpackField at hx
        unfold slotBytes slotSize
        cases hk : f.kind <;> simp only [hk] at hx ⊢
        case uint => cases hx; simp [length_leBytes]
        case bool => cases hx; simp [length_leBytes]
        case enum =>
          split at hx
          · cases hx
          · simp only [Option.map_eq_some_iff] at hx
            obtain ⟨j, _, rfl⟩ := hx
            simp [length_leBytes]
        case struct =>
          simp only [Option.map_eq_some_iff] at hx
          obtain ⟨ws, hws, rfl⟩ := hx
          simp only [wfOfKind, hk, Bool.and_eq_true, Bool.or_eq_true, decide_eq_true_eq] at h6
          refine hn f.ref _ ws h6.1 ?_ hws
          have h3 : 8 * f.b + f.off + f.w ≤ 8 * n := of_decide_eq_true h3
          split
          · simp; omega
          · simp [slice]; omega
        case bytes =>
          cases hx
          simp only [wfOfKind, hk, Bool.and_eq_true, decide_eq_true_eq] at h6
          have h3 : 8 * f.b + f.off + f.w ≤ 8 * n := of_decide_eq_true h3
          simp [slice]; omega
        case skip => cases hx; simp [length_leBytes]
        case zst => cases hx; rfl
        case reserved => cases hx; rfl

/-- The image of what unpacks has `img_size(L)` bytes. -/
theorem length_image (r : Roms) (d lid : Nat) (hl : layoutOk r d (layoutRaw r lid) = true)
    (buf : List Byte) (hb : buf.length = (layoutRaw r lid).n) (vs : List Value)
    (h : unpackFrom r d lid buf = some vs) : (image r d lid vs).length = imgSize r d lid := by
  induction d generalizing lid buf vs with
  | zero => cases h
  | succ d ih =>
    simp only [layoutOk, Bool.and_eq_true, List.all_eq_true] at hl
    refine length_imageFields r _ _ (imgSize r d) (unpackFrom r d) (image r d) ?_ _ hl.2 buf hb vs h
    intro ref b ws hok hb hu
    simp only [Bool.and_eq_true, decide_eq_true_eq] at hok
    exact ih ref hok.2 b hb ws hu

end Sys2Proof.Machine
end

