-- ==== Sys2Proof/Laws/Invariant.lean ====
section
/-! SUPPORT. How steps keep the invariant: what a step does beside its port, how it leaves its port, and
host writes. -/

namespace Sys2Proof.Machine

variable {i : Instr} {s t : State}

/-- What a port has to meet depends on the parameters and the Slave Table alone. -/
theorem portOk_congr {s t : State} (h1 : t.params = s.params) (h2 : t.slaves = s.slaves) (p : Port) :
    portOk t p = portOk s p := by
  simp only [portOk, microFits, State.slave, h1, h2]; rfl

/-- The invariant does not look at the agenda, the choice of port, the draw, the wire and the counter. -/
theorem inv_congr {s t : State} (h : s.Inv) (h1 : t.params = s.params) (h2 : t.slaves = s.slaves)
    (h3 : t.roms = s.roms) (h4 : t.inReset = s.inReset) (h5 : t.ports = s.ports) (h6 : t.bm = s.bm) : t.Inv := by
  obtain ⟨a,b,c,d,e,f,g⟩ := h
  refine ⟨?_, by rw [h6]; exact b, by rw [h1,h6]; exact c, by rw [h1,h2]; exact d, ?_, by rw [h3,h4]; exact
      f, by rw [h4,h5]; exact g⟩
  · simpa only [paramsOk, h1, h2, h3, h5] using a
  · rw [h5, show (portOk t) = portOk s from funext (portOk_congr h1 h2)]; exact e

/-- Every configured entry stays configured and keeps its lengths. -/
def Keeps (s t : State) : Prop := ∀ slv, slaveReady s.slaves slv = true → slaveReady t.slaves slv = true ∧
    (t.slave slv).rLen = (s.slave slv).rLen ∧ (t.slave slv).wLen = (s.slave slv).wLen

/-- What a command has checked still holds where the Slave Table keeps its configured entries. -/
theorem Keeps.micro {s t : State} (h1 : t.params = s.params) (h : Keeps s t) (p : Port) (i : Instr)
    (m : Micro) (k : microFits s p i m = true) : microFits t p i m = true := by
  unfold microFits at k ⊢
  simp only [h1] at k ⊢
  split at k <;> (try simp only [Bool.and_eq_true, decide_eq_true_eq] at k ⊢)
  all_goals first
    | exact (h _ k).1
    | exact ⟨(h _ k.1).1, by rw [(h _ k.1).2.2]; exact k.2⟩
    | exact ⟨⟨(h _ k.1.1).1, k.1.2⟩, by rw [(h _ k.1.1).2.1]; exact k.2⟩
    | exact ⟨(h _ k.1).1, k.2⟩
    | exact ⟨⟨(h _ k.1.1).1, k.1.2⟩, k.2⟩
    | exact ⟨⟨⟨(h _ k.1.1.1).1, k.1.1.2⟩, k.1.2⟩, k.2⟩
    | exact ⟨⟨⟨⟨(h _ k.1.1.1.1).1, k.1.1.1.2⟩, k.1.1.2⟩, k.1.2⟩, k.2⟩
    | exact absurd k (by simp)

/-- The same for a whole port. -/
theorem Keeps.port {s t : State} (h1 : t.params = s.params) (h : Keeps s t) (p : Port)
    (k : portOk s p = true) : portOk t p = true := by
  simp only [portOk, Bool.and_eq_true, h1] at k ⊢
  refine ⟨k.1, ?_⟩
  obtain ⟨_, k⟩ := k
  split
  · rfl
  · rename_i m hm
    rw [hm] at k
    simp only at k
    split
    · rename_i i hi
      rw [hi] at k
      exact h.micro h1 p i m k
    · rename_i e hi
      rw [hi] at k; exact k

theorem keeps_refl {s t : State} (h : t.slaves = s.slaves) : Keeps s t := by
  intro slv hs; rw [State.slave, State.slave, h]; exact ⟨hs, rfl, rfl⟩

/-- What a step does beside its port keeps every configured entry and its lengths. -/
theorem Aside.keeps {s t : State} (h : Aside s t) : Keeps s t := by
  cases h with
  | same => exact keeps_refl rfl
  | transact => exact keeps_refl rfl
  | bmWrite => exact keeps_refl rfl
  | configure slv e hlt hc he hcfg =>
    intro v hv
    by_cases hvs : slv.toNat = v.toNat
    · exfalso
      have hh : slv = v := BitVec.eq_of_toNat_eq hvs
      subst hh
      simp only [slaveReady, Bool.and_eq_true] at hv
      rw [← State.slave, hc] at hv; simp at hv
    · simp only [slaveReady, State.slave, List.getD_eq_getElem?_getD, State.setSlave_slaves,
        List.getElem?_set_ne hvs, List.length_set]; exact ⟨hv, trivial, trivial⟩
  | count slv =>
    intro v hv
    have hv0 := hv
    by_cases hvs : slv.toNat = v.toNat
    · have hh : slv = v := BitVec.eq_of_toNat_eq hvs
      subst hh
      simp only [slaveReady, Bool.and_eq_true, decide_eq_true_eq] at hv
      have h2 := hv.2
      simp [hv.1] at h2
      simp [slaveReady, State.takeCounter, State.slave, hv.1, h2]
    · simp only [slaveReady, State.slave, State.takeCounter, List.getD_eq_getElem?_getD,
        State.setSlave_slaves, List.getElem?_set_ne hvs, List.length_set]; exact ⟨hv0, trivial, trivial⟩

theorem nextCount_ne (n : BitVec 3) (h : n ≠ 0) : nextCount n ≠ 0 := by revert n; decide

/-- What a step does beside its port keeps Slave Table entries legal. -/
theorem Aside.slavesOk {s t : State} (h : Aside s t) (k : s.slaves.all (slaveOk s.params.maxMbxLen) = true)
    : t.slaves.all (slaveOk s.params.maxMbxLen) = true := by
  cases h with
  | same => exact k
  | transact => exact k
  | bmWrite => exact k
  | configure slv e hlt hc he hcfg =>
    simp only [List.all_eq_true] at k ⊢
    intro x hx
    obtain h | h := List.mem_or_eq_of_mem_set hx
    · exact k x h
    · subst h; exact he
  | count slv =>
    simp only [List.all_eq_true] at k ⊢
    intro x hx
    by_cases hl : slv.toNat < s.slaves.length
    · obtain h | h := List.mem_or_eq_of_mem_set hx
      · exact k x h
      · subst h
        have := k (s.slave slv) (List.mem_of_getElem? (slave_getElem? hl))
        simp only [slaveOk, Bool.and_eq_true, decide_eq_true_eq] at this ⊢
        exact ⟨nextCount_ne _ this.1, this.2⟩
    · have : (s.takeCounter slv).slaves = s.slaves := List.set_eq_of_length_le (by omega)
      rw [this] at hx; exact k x hx

theorem Aside.memWf {s t : State} (h : Aside s t) (k : s.bm.wf = true) : t.bm.wf = true := by
  cases h with
  | bmWrite a bs => exact wf_writeRange k a bs
  | _ => exact k

theorem Aside.slen {s t : State} (h : Aside s t) : t.slaves.length = s.slaves.length := by
  cases h <;> simp [State.takeCounter]

/-- A port ends well: `BM` inside `BM_SIZE`, the hidden buffers at their sizes, a micro-state of its
    command. -/
def Good (i : Instr) (t : State) : Prop := Memory.below t.params.bmSize t.bm = true ∧ hiddenOk
    t.params.maxMbxLen t.port.hid = true ∧ ∀ m, t.port.pst = .busy m → microFits t t.port i m = true

/-- A step of a command keeps the invariant if its port ends well. -/
theorem inv_of_shape {s t : State} {i : Instr} (h : s.Inv) (hr : Runnable s) {m0}
    (hb : s.port.pst = .busy m0) (hd : decode s.port.cmd = .ok i) (hs : Shape s t) (hg : Good i t) : t.Inv := by
  have hu := hs.untouched
  obtain ⟨e1,e2,e3,e4,e5,e6,e7,-,e9,-⟩ := hu
  obtain ⟨a,b,c,d,e,f,g⟩ := h
  obtain ⟨u, hau, hut⟩ := hs
  have hs := hut.same
  have hnr : s.inReset = false := by
    by_contra hc
    simp only [Bool.not_eq_false] at hc
    rw [hc] at g
    simp only [Bool.not_true, Bool.false_or, List.all_eq_true] at g
    have := g s.port (List.mem_of_getElem? (getElem?_active hr))
    simp [Port.isBusy, hb] at this
  have hkeep : Keeps s t := by
    intro v hv; have := hau.keeps v hv; rw [State.slave, hs.2.1]; exact this
  refine ⟨?_, by rw [hs.1]; exact hau.memWf b, hg.1, by rw [hs.2.1, e1]; exact hau.slavesOk d, ?_,
    by rw [e3, hnr, e2]; simpa [hnr] using f, by rw [e3, hnr]; rfl⟩
  · have : t.slaves.length = s.slaves.length := by rw [hs.2.1, hau.slen]
    simpa only [paramsOk, e1, e2, e4, this] using a
  · rw [List.all_eq_true] at e ⊢
    intro p hp
    obtain ⟨q, hq⟩ := List.getElem?_of_mem hp
    by_cases hqa : q = s.active
    · have hrt : t.ports[t.active]? = some p := by rw [e9, ← hqa]; exact hq
      have hpp := port_eq_of_getElem? hrt
      subst hpp
      have hst : statOk t.port = true := by
        have h0 : statOk s.port = true := by
          have := e s.port (List.mem_of_getElem? (getElem?_active hr))
          simp only [portOk, Bool.and_eq_true] at this
          exact this.1.1
        obtain ⟨m, hm⟩ | ⟨c, hc⟩ := Shape.ends hr ⟨u, hau, hut⟩
        · simp only [statOk, Port.isBusy, hm.1, hm.2.2] at h0 ⊢
          rw [hb] at h0; exact h0
        · obtain ⟨-, h1, h2⟩ := hc
          simp [statOk, Port.isBusy, h1, h2]
      simp only [portOk, Bool.and_eq_true]
      refine ⟨⟨hst, hg.2.1⟩, ?_⟩
      split
      · rfl
      · rename_i m hm
        rw [e6, hd]
        exact hg.2.2 m hm
    · rw [e5 q hqa] at hq
      exact hkeep.port e1 p (e p (List.mem_of_getElem? hq))

theorem good_complete {u : State} {i : Instr} (hr : Runnable u)
    (hb : Memory.below u.params.bmSize u.bm = true) (c : Completion) : Good i (u.complete c) := by
  refine ⟨hb, ?_, ?_⟩
  · rw [complete_port hr]; simp [hiddenOk, Hidden.free]
  · rw [complete_port hr]; intro m h; cases h

theorem good_goto {u : State} {i : Instr} (hr : Runnable u) (hb : Memory.below u.params.bmSize u.bm = true)
    (hh : hiddenOk u.params.maxMbxLen u.port.hid = true) {m : Micro} (hm : microFits u u.port i m = true) :
    Good i (u.goto m) := by
  refine ⟨hb, ?_, ?_⟩
  · rw [goto_port hr]; exact hh
  · rw [goto_port hr]; intro m' h; cases h; exact hm

/-! ## How a step leaves its port -/

/-- What a command's step may rely on. -/
structure Pre (i : Instr) (s : State) : Prop where
  run : Runnable s
  below : Memory.below s.params.bmSize s.bm = true
  hid : hiddenOk s.params.maxMbxLen s.port.hid = true
  micro : microFits s s.port i s.micro = true
  slaves : s.slaves.all (slaveOk s.params.maxMbxLen) = true
  roms : romsOk s.roms = true

theorem Pre.complete (h : Pre i s) (c : Completion) : Good i (s.complete c) := good_complete h.run h.below c

theorem Pre.bmComplete (h : Pre i s) {a : Nat} {bs : List Byte} (hb : a + bs.length ≤ s.params.bmSize)
    (c : Completion) : Good i ((s.bmWrite a bs).complete c) := good_complete (u := s.bmWrite a bs) h.run
    (below_writeRange h.below a bs hb) c

theorem onBuffer_good (h : Pre i s) {legal ranges : Bool} {need : Nat} {short : Err} {body : Nat → State}
  (hb : legal = true → s.op 0 + s.op 1 ≤ s.params.bmSize → ranges = true → s.op 2 + need ≤ s.op 1 → Good i
      (body (s.op 0 + s.op 2))) :
   Good i (s.onBuffer legal ranges need short body) :=
  onBuffer_cases (h.complete _) (h.complete _) (h.complete _) fun a b c d => hb a (inBm_iff.1 b) c d

theorem hidden_rx {n : Nat} {h : Hidden} (k : hiddenOk n h = true) (rx : List Byte) (hl : rx.length ≤ n) :
   hiddenOk n { h with rxBuf := rx ++ h.rxBuf.drop rx.length } = true := by
  simp [hiddenOk] at k ⊢; omega

/-- A step of the exchange ends its port well if what follows the response does. -/
theorem exch_good (slv : BitVec 8) (idx) {ph : Phase} {k : ExchStep} {acc : State → State} (h : Pre i s)
    (hb : s.port.pst = .busy (.exch ph k))
   (hready : slaveReady s.slaves slv = true)
   (hm : ∀ (t : State) k', t.params = s.params → t.slaves = s.slaves → t.port.op = s.port.op →
       t.port.hid.offset = s.port.hid.offset → microFits t t.port i (.exch ph k') = true)
   (hf : ∀ (t : State) c, t.params = s.params → t.slaves = s.slaves → microFits t t.port i (.finish c) =
       true)
   (ha : ∀ (t : State), Runnable t → Memory.below t.params.bmSize t.bm = true → hiddenOk t.params.maxMbxLen
       t.port.hid = true → t.params = s.params → t.slaves = s.slaves → t.port.op = s.port.op →
       t.port.hid.offset = s.port.hid.offset → t.port.hid.rxBuf.length = s.params.maxMbxLen → Good i
       (acc t)) :
   Good i (s.exchange slv idx ph k acc) := by
  have hg : ∀ op k', Good i ((s.transact op).goto (.exch ph k')) := fun op k' => good_goto
      (u := s.transact op) h.run h.below h.hid (hm _ _ rfl rfl rfl rfl)
  have hfl : ∀ op e, Good i ((s.transact op).failSdo e) := by
    intro op e
    have hr : Runnable (s.transact op) := h.run
    refine good_goto (u := (s.transact op).setXs e.terminal) (by rw [runnable_setXs]; exact hr) h.below ?_
        (hf _ _ rfl rfl)
    rw [setXs_port hr]; exact h.hid
  have hst : ∀ op, Good i (s.transact op) := by
    intro op
    refine ⟨h.below, h.hid, fun m hm' => ?_⟩
    have : (s.transact op).port.pst = s.port.pst := rfl
    rw [this, hb] at hm'; cases hm'
    exact hm _ _ rfl rfl rfl rfl
  have hlen := slave_bounds h.slaves hready
  cases k <;> simp only [State.exchange]
  · exact drainStatus_cases (fun _ => hfl _ _) (hg _ _) (hg _ _)
  · exact readMailbox_cases (fun _ => hfl _ _) fun _ _ => hg _ _
  · exact pollMailbox_cases (h.complete _) (fun _ => hfl _ _) (hg _ _) (hst _)
  · refine transport_cases _ _ _ _ (fun _ _ => hfl _ _) fun _ _ => ?_
    have hr : ∀ op, Runnable (s.transact op) := fun _ => h.run
    refine good_goto (u := (s.transact _).setXs _) (by rw [runnable_setXs]; exact hr _) h.below ?_
        (hm _ _ rfl rfl (by rw [setXs_port (hr _)]; rfl) (by rw [setXs_port (hr _)]; rfl))
    rw [setXs_port (hr _)]; exact h.hid
  · exact pollMailbox_cases (h.complete _) (fun _ => hfl _ _) (hg _ _) (hst _)
  · refine readMailbox_cases (fun _ => hfl _ _) fun rx hrx => ?_
    have hl := answer_length hrx
    simp only [TransportOp.len] at hl
    have hr : ∀ op, Runnable (s.transact op) := fun _ => h.run
    have hh := hidden_rx h.hid rx (by omega)
    have key : ∀ op, ∃ t, (((s.transact op).keepMailbox rx).setXs .responseReceived) = t ∧ Runnable t ∧
        Memory.below t.params.bmSize t.bm = true ∧ hiddenOk t.params.maxMbxLen t.port.hid = true ∧ t.params
        = s.params ∧ t.slaves = s.slaves ∧ t.port.op = s.port.op ∧ t.port.hid.offset = s.port.hid.offset ∧
        t.port.hid.rxBuf.length = s.params.maxMbxLen := by
      intro op
      have hr2 : Runnable ((s.transact op).keepMailbox rx) := by rw [runnable_keepMailbox]; exact hr _
      have hp : (((s.transact op).keepMailbox rx).setXs .responseReceived).port = _ := setXs_port hr2 _
      rw [keepMailbox_port (hr _)] at hp
      refine ⟨_, rfl, by rw [runnable_setXs]; exact hr2, h.below, ?_, rfl, rfl, ?_, ?_, ?_⟩
      · rw [hp]; exact hh
      · rw [hp]; rfl
      · rw [hp]; rfl
      · rw [hp]
        simp only [hiddenOk, Bool.and_eq_true, decide_eq_true_eq] at hh
        exact hh.2
    obtain ⟨t, ht, h1, h2, h3, h4, h5, h6, h7, h8⟩ := key
        (.read (s.slave slv).station (s.slave slv).rAddr (s.slave slv).rLen.toNat)
    simp only [ht]
    split
    · refine good_goto (u := t.setXs _) (by rw [runnable_setXs]; exact h1) h2 ?_ (hf _ _ h4 h5)
      rw [setXs_port h1]
      exact h3
    · exact ha _ h1 h2 h3 h4 h5 h6 h7 h8

theorem micro_start (s : State) (p : Port) (i : Instr) : microFits s p i .start = true := by
  cases i <;> rfl

/-- Every step of a command ends its port well. -/
theorem exec_good {t : State} (h : Pre i s) (hx : exec i s = .next t) : Good i t := by
  have hsl := h.slaves
  have hmi := h.micro
  cases i <;> simp only [exec] at hx
  case fins => cases hx; exact onBuffer_good h fun _ _ _ _ => h.bmComplete (by simp; omega) _
  case fext => cases hx; exact onBuffer_good h fun _ _ _ _ => h.complete _
  case bins => cases hx; exact onBuffer_good h fun _ _ _ _ => h.bmComplete (by simp; omega) _
  case bext => cases hx; exact onBuffer_good h fun _ _ _ _ => h.complete _
  case lest => cases hx; exact onBuffer_good h fun _ _ _ _ => h.bmComplete (by rw [length_leBytes]; omega) _
  case leld => cases hx; exact onBuffer_good h fun _ _ _ _ => h.complete _
  case bapk => cases hx; exact onBuffer_good h fun _ _ _ _ => h.bmComplete (by rw [bmRead_length]; omega) _
  case baup =>
    cases hx
    exact onBuffer_good h fun _ _ h3 _ =>
      h.bmComplete (by rw [bmRead_length]; have := inBm_iff.1 h3; omega) _
  case ence => cases hx; split <;> (try split) <;> exact h.complete _
  case encd => cases hx; split <;> (try split) <;> exact h.complete _
  case pack =>
    cases hx
    split
    · exact h.complete _
    · simp only
      split_ifs with h1 h2 h3
      · exact h.complete _
      · exact h.complete _
      all_goals
        split
        · exact h.complete _
        · simp [inBm_iff] at h1
          refine h.bmComplete ?_ _
          rw [length_packInto]; simp [zeros]; omega
  case unpk lid =>
    cases hx
    split
    · exact h.complete _
    · rename_i l hl
      simp only
      split_ifs with h1 h2
      · exact h.complete _
      · exact h.complete _
      split
      · exact h.complete _
      · rename_i vs hvs
        simp [inBm_iff] at h1
        refine h.bmComplete ?_ _
        unfold layoutEntry at hl
        split at hl
        · rename_i l' hl'
          split at hl
          · cases hl
            have hR := h.roms
            simp only [romsOk, Bool.and_eq_true, List.all_eq_true] at hR
            have := hR.2 l (List.mem_of_getElem? hl')
            rename_i hv
            rw [hv] at this
            rw [length_image s.roms _ _ (by rw [layoutRaw_of_some hl']; simpa using this) _
                (by rw [layoutRaw_of_some hl', bmRead_length]) _ hvs]
            exact h1.2
          · cases hl
        · cases hl
  case scfg =>
    cases hx
    simp only
    split_ifs
    · exact h.complete _
    · exact h.complete _
    · exact good_complete (u := s.setSlave _ _) h.run h.below _
  case cnxt =>
    cases hx
    split_ifs
    · exact good_complete (u := s.takeCounter _) h.run h.below _
    · exact h.complete _
  case mdrn slv =>
    have hg : ∀ op m, microFits s s.port (.mdrn slv) m = true → Good (.mdrn slv) ((s.transact op).goto m)
        := fun op m hm => good_goto (u := s.transact op) h.run h.below h.hid hm
    unfold execMdrn at hx
    split at hx <;> cases hx
    · split_ifs with hc
      · exact good_goto h.run h.below h.hid hc
      · exact h.complete _
    · rename_i hm
      rw [hm] at hmi
      exact drainStatus_cases (fun _ => hg _ _ hmi) (hg _ _ hmi) (hg _ _ hmi)
    · rename_i hm
      rw [hm] at hmi
      exact readMailbox_cases (fun _ => hg _ _ hmi) fun _ _ => hg _ _ hmi
    · exact h.complete _
  case macq slv =>
    have hg : ∀ op m, microFits s s.port (.macq slv) m = true → Good (.macq slv) ((s.transact op).goto m)
        := fun op m hm => good_goto (u := s.transact op) h.run h.below h.hid hm
    unfold execMacq at hx
    split at hx <;> cases hx
    · split_ifs with hc
      · exact good_goto h.run h.below h.hid hc
      · exact h.complete _
    · rename_i hm
      have hb := busy_of_micro hm (by simp)
      rw [hm] at hmi
      have hst : ∀ op, Good (.macq slv) (s.transact op) := fun op => by
        have := hg op .acquire hmi
        rwa [goto_self (s := s.transact op) hb] at this
      exact pollMailbox_cases (h.complete _) (fun _ => hg _ _ hmi) (hg _ _ hmi) (hst _)
    · exact h.complete _
  case msnd slv =>
    have hg : ∀ op m, microFits s s.port (.msnd slv) m = true → Good (.msnd slv) ((s.transact op).goto m)
        := fun op m hm => good_goto (u := s.transact op) h.run h.below h.hid hm
    unfold execMsnd at hx
    split at hx <;> cases hx
    · split_ifs with hc h1 h2
      · exact h.complete _
      · exact h.complete _
      · exact h.complete _
      · refine good_goto h.run h.below h.hid ?_
        simp at hc
        simp only [microFits, Bool.and_eq_true, decide_eq_true_eq]
        exact ⟨hc, by simp [zeros]; omega⟩
    · rename_i hm
      rw [hm] at hmi
      simp only [microFits, Bool.and_eq_true] at hmi
      exact transport_cases _ _ _ _ (fun _ _ => hg _ _ hmi.1) fun _ _ => hg _ _ hmi.1
    · exact h.complete _
  case mawt slv =>
    have hg : ∀ op m, microFits s s.port (.mawt slv) m = true → Good (.mawt slv) ((s.transact op).goto m)
        := fun op m hm => good_goto (u := s.transact op) h.run h.below h.hid hm
    have hf : ∀ m c, microFits s s.port (.mawt slv) m = true → (m = .await ∨ m = .receive ∨ m = .store) →
        microFits s s.port (.mawt slv) (.finish c) = true := by
      rintro m c hm (rfl | rfl | rfl) <;> simp only [microFits, Bool.and_eq_true] at hm ⊢ <;> exact hm.1.1
    unfold execMawt at hx
    split at hx <;> cases hx
    · split_ifs with hc h1 h2
      · exact h.complete _
      · exact h.complete _
      · exact h.complete _
      · refine good_goto h.run h.below h.hid ?_
        simp [inBm_iff] at hc h1
        simp only [microFits, Bool.and_eq_true, decide_eq_true_eq]
        exact ⟨⟨hc, h1⟩, by simp [State.op] at h2; omega⟩
    · rename_i hm
      have hb := busy_of_micro hm (by simp)
      rw [hm] at hmi
      have hst : ∀ op, Good (.mawt slv) (s.transact op) := fun op => by
        have := hg op .await hmi
        rwa [goto_self (s := s.transact op) hb] at this
      exact pollMailbox_cases (h.complete _) (fun _ => hg _ _ (hf _ _ hmi (by simp))) (hg _ _ hmi) (hst _)
    · rename_i hm
      rw [hm] at hmi
      refine readMailbox_cases (fun _ => hg _ _ (hf _ _ hmi (by simp))) fun rx hrx => ?_
      have hl := answer_length hrx
      simp only [TransportOp.len] at hl
      have hready : slaveReady s.slaves slv = true := by
        simp only [microFits, Bool.and_eq_true] at hmi
        exact hmi.1.1
      have hlen := slave_bounds hsl hready
      have hr : ∀ op, Runnable (s.transact op) := fun _ => h.run
      refine good_goto (u := (s.transact (.read (s.slave slv).station (s.slave slv).rAddr
          (s.slave slv).rLen.toNat)).keepMailbox rx) (by rw [runnable_keepMailbox]; exact hr _) h.below ?_ ?_
      · rw [keepMailbox_port (hr _)]; exact hidden_rx h.hid rx (by omega)
      · rw [keepMailbox_port (hr _)]; exact hmi
    · rename_i hm
      rw [hm] at hmi
      have hmi' := hmi
      simp only [microFits, Bool.and_eq_true, decide_eq_true_eq] at hmi'
      refine good_goto (u := s.bmWrite _ _) h.run (below_writeRange h.below _ _ ?_) h.hid
          (hf _ (.ok #v[word (s.slave slv).rLen.toNat, 0, 0, 0]) hmi (by simp))
      have h1 : s.op 0 = (s.port.op[0]).toNat := rfl
      simp; omega
    · exact h.complete _
  case sdwr slv idx =>
    unfold execSdwr at hx
    split at hx <;> cases hx
    · split_ifs with hc h1 h2
      · exact h.complete _
      · exact h.complete _
      · exact h.complete _
      · simp [inBm_iff] at hc h2
        refine good_goto (u := s.setXs .idle) (by rw [runnable_setXs]; exact h.run) h.below ?_ ?_
        · rw [setXs_port h.run]; exact h.hid
        · rw [setXs_port h.run]
          simp only [microFits, Bool.and_eq_true, decide_eq_true_eq]
          have e1 : s.op 1 = (s.port.op[1]).toNat := rfl
          exact ⟨⟨⟨⟨hc, h2⟩, by omega⟩, by omega⟩, by rw [bmRead_length]; rfl⟩
    · rename_i val hm
      rw [hm] at hmi
      have hr : Runnable (s.takeCounter slv) := h.run
      have hmi' := Keeps.micro (s := s) (t := s.takeCounter slv) rfl (Aside.count (s := s) slv).keeps
          s.port _ _ hmi
      refine good_goto (u := (s.takeCounter slv).setHid _) (by rw [runnable_setHid]; exact hr) h.below ?_ ?_
      · rw [setHid_port hr]
        have := h.hid
        simp only [hiddenOk, Bool.and_eq_true, decide_eq_true_eq] at this ⊢
        refine ⟨?_, this.2⟩
        simp [downloadRequest, mailboxHeader, coeHeader, length_leBytes, fitBytes, zeros]
        omega
      · rw [setHid_port hr]
        simp only [microFits, Bool.and_eq_true, decide_eq_true_eq] at hmi' ⊢
        exact hmi'.1
    · rename_i k hm
      have hb := busy_of_micro hm (by simp)
      rw [hm] at hmi
      simp only [microFits, Bool.and_eq_true, decide_eq_true_eq] at hmi
      refine exch_good slv idx h hb hmi.1.1.1 ?_ ?_ ?_
      · intro t k' e1 e2 e3 e4
        simp only [microFits, Bool.and_eq_true, decide_eq_true_eq, e1, e2, e3]; exact hmi
      · intro t c e1 e2
        simp only [microFits, e2]; exact hmi.1.1.1
      · intro t k1 k2 k3 e1 e2 _ _ _
        refine good_goto (u := t.setXs .complete) (by rw [runnable_setXs]; exact k1) k2 ?_ ?_
        · rw [setXs_port k1]; exact k3
        · simp only [microFits, State.setXs_slaves, e2]; exact hmi.1.1.1
    · exact h.complete _
  case sdrd slv idx =>
    have fs : ∀ (t : State) e, Runnable t → Memory.below t.params.bmSize t.bm = true → hiddenOk
        t.params.maxMbxLen t.port.hid = true → slaveReady t.slaves slv = true → Good (.sdrd slv idx)
        (t.failSdo e) := by
      intro t e k1 k2 k3 k4
      refine good_goto (u := t.setXs _) (by rw [runnable_setXs]; exact k1) k2 ?_ ?_
      · rw [setXs_port k1]; exact k3
      · simp only [microFits, State.setXs_slaves]; exact k4
    have fs' : ∀ (t : State) r0 r1 r2 r3, Runnable t → Memory.below t.params.bmSize t.bm = true → hiddenOk
        t.params.maxMbxLen t.port.hid = true → slaveReady t.slaves slv = true → Good (.sdrd slv idx)
        (t.finishSdo r0 r1 r2 r3) := by
      intro t r0 r1 r2 r3 k1 k2 k3 k4
      refine good_goto (u := t.setXs _) (by rw [runnable_setXs]; exact k1) k2 ?_ ?_
      · rw [setXs_port k1]; exact k3
      · simp only [microFits, State.setXs_slaves]; exact k4
    unfold execSdrd at hx
    split at hx <;> cases hx
    · split_ifs with hc h1
      · exact h.complete _
      · exact h.complete _
      · simp [inBm_iff] at hc h1
        refine good_goto (u := s.setXs .idle) (by rw [runnable_setXs]; exact h.run) h.below ?_ ?_
        · rw [setXs_port h.run]; exact h.hid
        · rw [setXs_port h.run]
          simp only [microFits, Bool.and_eq_true, decide_eq_true_eq]
          exact ⟨hc, h1⟩
    · rename_i val hm
      rw [hm] at hmi
      have hr : Runnable (s.takeCounter slv) := h.run
      have hmi' := Keeps.micro (s := s) (t := s.takeCounter slv) rfl (Aside.count (s := s) slv).keeps
          s.port _ _ hmi
      refine good_goto (u := (s.takeCounter slv).setHid _) (by rw [runnable_setHid]; exact hr) h.below ?_ ?_
      · rw [setHid_port hr]
        have := h.hid
        simp only [hiddenOk, Bool.and_eq_true, decide_eq_true_eq] at this ⊢
        refine ⟨?_, this.2⟩
        simp [uploadRequest, mailboxHeader, coeHeader, length_leBytes, zeros]
      · rw [setHid_port hr]
        simp only [microFits, Bool.and_eq_true, decide_eq_true_eq] at hmi' ⊢
        exact hmi'
    · rename_i first val hm
      rw [hm] at hmi
      have hr : Runnable (s.takeCounter slv) := h.run
      have hmi' := Keeps.micro (s := s) (t := s.takeCounter slv) rfl (Aside.count (s := s) slv).keeps
          s.port _ _ hmi
      refine good_goto (u := (s.takeCounter slv).setHid _) (by rw [runnable_setHid]; exact hr) h.below ?_ ?_
      · rw [setHid_port hr]
        have := h.hid
        simp only [hiddenOk, Bool.and_eq_true, decide_eq_true_eq] at this ⊢
        refine ⟨?_, this.2⟩
        simp [segmentRequest, mailboxHeader, coeHeader, length_leBytes, zeros]
      · rw [setHid_port hr]
        simp only [microFits, Bool.and_eq_true, decide_eq_true_eq] at hmi' ⊢
        exact hmi'
    · rename_i k hm
      have hb := busy_of_micro hm (by simp)
      rw [hm] at hmi
      simp only [microFits, Bool.and_eq_true, decide_eq_true_eq] at hmi
      refine exch_good slv idx h hb hmi.1 ?_ ?_ ?_
      · intro t k' e1 e2 e3 e4
        simp only [microFits, Bool.and_eq_true, decide_eq_true_eq, e1, e2, e3]; exact hmi
      · intro t c e1 e2
        simp only [microFits, e2]; exact hmi.1
      · intro t k1 k2 k3 e1 e2 e3 _ _
        have k4 : slaveReady t.slaves slv = true := by rw [e2]; exact hmi.1
        have o1 : t.op 1 = (s.port.op[1]).toNat := by simp [State.op, e3]
        simp only [State.classify]
        split_ifs with c1 c2 c3 c4 c5 c6
        · exact fs _ _ k1 k2 k3 k4
        · refine good_goto k1 k2 k3 ?_
          simp only [microFits, Bool.and_eq_true, decide_eq_true_eq, e3, e1]
          exact ⟨⟨k4, hmi.2⟩, by omega⟩
        · exact fs _ _ k1 k2 k3 k4
        · exact fs _ _ k1 k2 k3 k4
        · exact fs _ _ k1 k2 k3 k4
        · refine good_goto k1 k2 k3 ?_
          simp only [microFits, Bool.and_eq_true, decide_eq_true_eq, e3, e1]
          exact ⟨⟨k4, hmi.2⟩, by omega⟩
        · refine good_goto (u := t.setHid _) (by rw [runnable_setHid]; exact k1) k2 ?_ ?_
          · rw [setHid_port k1]; exact k3
          · rw [setHid_port k1]
            simp only [microFits, Bool.and_eq_true, decide_eq_true_eq, e3, State.setHid_params,
                State.setHid_slaves, e1]
            exact ⟨⟨k4, hmi.2⟩, by simp⟩
    · rename_i first k hm
      have hb := busy_of_micro hm (by simp)
      rw [hm] at hmi
      simp only [microFits, Bool.and_eq_true, decide_eq_true_eq] at hmi
      refine exch_good slv idx h hb hmi.1.1 ?_ ?_ ?_
      · intro t k' e1 e2 e3 e4
        simp only [microFits, Bool.and_eq_true, decide_eq_true_eq, e1, e2, e3, e4]; exact hmi
      · intro t c e1 e2
        simp only [microFits, e2]; exact hmi.1.1
      · intro t k1 k2 k3 e1 e2 e3 e4 _
        have k4 : slaveReady t.slaves slv = true := by rw [e2]; exact hmi.1.1
        have o1 : t.op 1 = (s.port.op[1]).toNat := by simp [State.op, e3]
        simp only [State.segmentArrived]
        split
        · exact fs _ _ k1 k2 k3 k4
        split
        · exact fs _ _ k1 k2 k3 k4
        split_ifs with c1 c2
        · exact fs _ _ k1 k2 k3 k4
        · exact fs _ _ k1 k2 k3 k4
        · refine good_goto k1 k2 k3 ?_
          have e5 : t.hid.offset = t.port.hid.offset := rfl
          simp only [microFits, Bool.and_eq_true, decide_eq_true_eq, e3, e1]
          exact ⟨⟨k4, hmi.1.2⟩, by rw [e5] at c2; omega⟩
    · rename_i kind src n hm
      rw [hm] at hmi
      simp only [microFits, Bool.and_eq_true, decide_eq_true_eq] at hmi
      refine fs' (s.bmWrite _ _) _ _ _ _ h.run (below_writeRange h.below _ _ ?_) h.hid hmi.1.1
      have h1 : s.op 0 = (s.port.op[0]).toNat := rfl
      simp [slice]; omega
    · rename_i first k hm
      rw [hm] at hmi
      simp only [microFits, Bool.and_eq_true, decide_eq_true_eq] at hmi
      have hB : Memory.below (s.bmWrite (s.op 0 + s.hid.offset.toNat)
          (slice s.hid.rxBuf 9 k)).params.bmSize (s.bmWrite (s.op 0 + s.hid.offset.toNat)
          (slice s.hid.rxBuf 9 k)).bm = true := by
        refine below_writeRange h.below _ _ ?_
        have h1 : s.op 0 = (s.port.op[0]).toNat := rfl
        have h2 : s.hid.offset = s.port.hid.offset := rfl
        simp [slice, h2]; omega
      have hr : Runnable (s.bmWrite (s.op 0 + s.hid.offset.toNat) (slice s.hid.rxBuf 9 k)) := h.run
      unfold State.storeChunk
      simp only
      split_ifs
      · refine fs' ((s.bmWrite (s.op 0 + s.hid.offset.toNat) (slice s.hid.rxBuf 9 k)).setHid _) _ _ _ _
          (by rw [runnable_setHid]; exact hr) hB ?_ hmi.1.1
        rw [setHid_port hr]; exact h.hid
      · refine good_goto (u := (s.bmWrite (s.op 0 + s.hid.offset.toNat) (slice s.hid.rxBuf 9 k)).setHid _)
          (by rw [runnable_setHid]; exact hr) hB ?_ ?_
        · rw [setHid_port hr]; exact h.hid
        · rw [setHid_port hr]
          simp only [microFits, Bool.and_eq_true, decide_eq_true_eq]
          refine ⟨⟨hmi.1.1, hmi.1.2⟩, ?_⟩
          have h2 : s.hid.offset = s.port.hid.offset := rfl
          simp only [BitVec.toNat_add, word, BitVec.toNat_ofNat, h2]
          have : (s.port.hid.offset.toNat + k % 2^32) % 2^32 ≤ s.port.hid.offset.toNat + k := by
            omega
          exact le_trans this hmi.2
    · exact h.complete _
  case alrq slv st =>
    have hg : ∀ op m, microFits s s.port (.alrq slv st) m = true → Good (.alrq slv st)
        ((s.transact op).goto m) := fun op m hm => good_goto (u := s.transact op) h.run h.below h.hid hm
    unfold execAlrq at hx
    split at hx <;> cases hx
    · split_ifs with hc
      · simp only [State.alLegal, Bool.and_eq_true] at hc
        exact good_goto h.run h.below h.hid hc.1
      · exact h.complete _
    · rename_i hm
      rw [hm] at hmi
      refine transport_cases _ _ _ _ (fun _ _ => hg _ _ hmi) fun _ _ => ?_
      simp only
      split_ifs <;> exact hg _ _ hmi
    · rename_i hm
      rw [hm] at hmi
      exact transport_cases _ _ _ _ (fun _ _ => hg _ _ hmi) fun _ _ => hg _ _ hmi
    · exact h.complete _
  case alwt slv st =>
    have hg : ∀ op m, microFits s s.port (.alwt slv st) m = true → Good (.alwt slv st)
        ((s.transact op).goto m) := fun op m hm => good_goto (u := s.transact op) h.run h.below h.hid hm
    unfold execAlwt at hx
    split at hx <;> cases hx
    · split_ifs with hc
      · simp only [State.alLegal, Bool.and_eq_true] at hc
        exact good_goto h.run h.below h.hid hc.1
      · exact h.complete _
    · rename_i hm
      have hb := busy_of_micro hm (by simp)
      rw [hm] at hmi
      split_ifs
      · exact h.complete _
      refine transport_cases _ _ _ _ (fun _ _ => hg _ _ hmi) fun _ _ => ?_
      simp only
      split_ifs
      · exact hg _ _ hmi
      · exact hg _ _ hmi
      · have := hg (.read (s.slave slv).station alStatusAddr 2) .alPoll hmi
        rwa [goto_self (s := s.transact _) hb] at this
    · exact h.complete _

/-! ## Host writes -/

theorem paramsOk_congr {s t : State} (h : paramsOk s = true) (h1 : t.params = s.params)
    (h2 : t.ports.length = s.ports.length) (h3 : t.slaves.length = s.slaves.length)
    (h4 : t.roms.layouts.length = s.roms.layouts.length) (h5 : t.roms.enums.length = s.roms.enums.length) :
    paramsOk t = true := by
  rw [paramsOk, h1, h2, h3, h4, h5]; exact h

theorem ports_congr {s t : State} (h : s.ports.all (portOk s) = true) (h1 : t.params = s.params)
    (h2 : t.slaves = s.slaves) (h3 : t.ports = s.ports) : t.ports.all (portOk t) = true := by
  rw [h3, show (portOk t) = portOk s from funext (portOk_congr h1 h2)]; exact h

theorem inv_agenda {s : State} (h : s.Inv) (a : List Event) : ({ s with agenda := a } : State).Inv :=
    inv_congr h rfl rfl rfl rfl rfl rfl

/-- Changing one port by a host write. -/
theorem inv_ports {s : State} (h : s.Inv) (f : Port → Port) (p : Nat) (hr : s.inReset = false)
    (hf : ∀ q, portOk s q = true → portOk s (f q) = true) : (s.mapPort p f).Inv := by
  obtain ⟨a,b,c,d,e,g,k⟩ := h
  refine ⟨?_, b, c, d, ?_, g, by simp [State.mapPort, hr]⟩
  · exact paramsOk_congr a rfl (by simp [State.mapPort]) rfl rfl rfl
  · rw [show portOk (s.mapPort p f) = portOk s from funext (portOk_congr rfl rfl)]
    rw [List.all_eq_true] at e ⊢
    intro x hx
    simp only [State.mapPort] at hx
    obtain ⟨q, hq⟩ := List.getElem?_of_mem hx
    rw [List.getElem?_modify] at hq
    cases hh : s.ports[q]? with
    | none => simp [hh] at hq
    | some y =>
      simp [hh] at hq
      have := e y (List.mem_of_getElem? hh)
      split at hq
      · subst hq; exact hf y this
      · subst hq; exact this

/-- A write of `BM` bytes that lie in `BM`. -/
theorem inv_bm {s : State} (h : s.Inv) (a : Nat) (bs : List Byte) (hb : a + bs.length ≤ s.params.bmSize) :
    (s.bmWrite a bs).Inv := by
  obtain ⟨a1,b,c,d,e,g,k⟩ := h
  exact ⟨a1, wf_writeRange b _ _, below_writeRange c _ _ hb, d, by rw
      [show portOk (s.bmWrite a bs) = portOk s from funext (portOk_congr rfl rfl)]; exact e, g, k⟩

end Sys2Proof.Machine
end

