-- ==== Sys2Proof/Laws/PerInstr.lean ====
section
/-! SUPPORT. Laws with one lemma per command. -/

namespace Sys2Proof.Laws

/-- The opcode and the reserved bits of a command's row (30_encoding.md R91 to R97, R102). -/
def row : Instr → BitVec 8 × Word
  | .fins _ _ => (0x01#8, 0x00F800FF#32)
  | .fext _ _ => (0x02#8, 0x00F800FF#32)
  | .bins _ _ => (0x03#8, 0x00F800FF#32)
  | .bext _ _ => (0x04#8, 0x00F800FF#32)
  | .lest _ => (0x05#8, 0x00FF00FF#32)
  | .leld _ => (0x06#8, 0x00FF00FF#32)
  | .bapk => (0x07#8, 0x00FFFFFF#32)
  | .baup => (0x08#8, 0x00FFFFFF#32)
  | .ence _ => (0x09#8, 0x0000FFFF#32)
  | .encd _ => (0x0A#8, 0x0000FFFF#32)
  | .pack _ _ => (0x0B#8, 0x0000FFFE#32)
  | .unpk _ => (0x0C#8, 0x0000FFFF#32)
  | .scfg _ => (0x10#8, 0x0000FFFF#32)
  | .cnxt _ => (0x11#8, 0x0000FFFF#32)
  | .mdrn _ => (0x20#8, 0x0000FFFF#32)
  | .macq _ => (0x21#8, 0x0000FFFF#32)
  | .msnd _ => (0x22#8, 0x0000FFFF#32)
  | .mawt _ => (0x23#8, 0x0000FFFF#32)
  | .sdwr _ _ => (0x30#8, 0x00000000#32)
  | .sdrd _ _ => (0x31#8, 0x00000000#32)
  | .alrq _ _ => (0x40#8, 0x0000FFF0#32)
  | .alwt _ _ => (0x41#8, 0x0000FFF0#32)

/-- The family Opcode: the word of a command carries the opcode of its row, and its reserved bits are 0
(30_encoding.md R90, R103). -/
def Opcode.Statement (i : Instr) : Prop :=
  opcField (encode i) = (row i).1 ∧ encode i &&& (row i).2 = 0#32

namespace Opcode

theorem fins (off : BitVec 3) (wid : BitVec 8) : Statement (.fins off wid) :=
  ⟨opcField_encF _ _ _, (reservedF _).2 (by rw [encode, encF_toNat]; omega)⟩
theorem fext (off : BitVec 3) (wid : BitVec 8) : Statement (.fext off wid) :=
  ⟨opcField_encF _ _ _, (reservedF _).2 (by rw [encode, encF_toNat]; omega)⟩
theorem bins (off : BitVec 3) (wid : BitVec 8) : Statement (.bins off wid) :=
  ⟨opcField_encF _ _ _, (reservedF _).2 (by rw [encode, encF_toNat]; omega)⟩
theorem bext (off : BitVec 3) (wid : BitVec 8) : Statement (.bext off wid) :=
  ⟨opcField_encF _ _ _, (reservedF _).2 (by rw [encode, encF_toNat]; omega)⟩
theorem lest (nb : BitVec 8) : Statement (.lest nb) :=
  ⟨opcField_encN _ _, (reservedN _).2 (by rw [encode, encN_toNat]; omega)⟩
theorem leld (nb : BitVec 8) : Statement (.leld nb) :=
  ⟨opcField_encN _ _, (reservedN _).2 (by rw [encode, encN_toNat]; omega)⟩
theorem bapk : Statement .bapk :=
  ⟨opcField_encZ _, (reservedZ _).2 (by rw [encode, encZ_toNat]; omega)⟩
theorem baup : Statement .baup :=
  ⟨opcField_encZ _, (reservedZ _).2 (by rw [encode, encZ_toNat]; omega)⟩
theorem ence (eid : BitVec 8) : Statement (.ence eid) :=
  ⟨opcField_encId _ _, (reservedId _).2 (by rw [encode, encId_toNat]; omega)⟩
theorem encd (eid : BitVec 8) : Statement (.encd eid) :=
  ⟨opcField_encId _ _, (reservedId _).2 (by rw [encode, encId_toNat]; omega)⟩
theorem pack (lid : BitVec 8) (clr : BitVec 1) : Statement (.pack lid clr) :=
  ⟨opcField_encL _ _ _, (reservedL _).2 (by rw [encode, encL_toNat]; omega)⟩
theorem unpk (lid : BitVec 8) : Statement (.unpk lid) :=
  ⟨opcField_encId _ _, (reservedId _).2 (by rw [encode, encId_toNat]; omega)⟩
theorem scfg (slv : BitVec 8) : Statement (.scfg slv) :=
  ⟨opcField_encId _ _, (reservedId _).2 (by rw [encode, encId_toNat]; omega)⟩
theorem cnxt (slv : BitVec 8) : Statement (.cnxt slv) :=
  ⟨opcField_encId _ _, (reservedId _).2 (by rw [encode, encId_toNat]; omega)⟩
theorem mdrn (slv : BitVec 8) : Statement (.mdrn slv) :=
  ⟨opcField_encId _ _, (reservedId _).2 (by rw [encode, encId_toNat]; omega)⟩
theorem macq (slv : BitVec 8) : Statement (.macq slv) :=
  ⟨opcField_encId _ _, (reservedId _).2 (by rw [encode, encId_toNat]; omega)⟩
theorem msnd (slv : BitVec 8) : Statement (.msnd slv) :=
  ⟨opcField_encId _ _, (reservedId _).2 (by rw [encode, encId_toNat]; omega)⟩
theorem mawt (slv : BitVec 8) : Statement (.mawt slv) :=
  ⟨opcField_encId _ _, (reservedId _).2 (by rw [encode, encId_toNat]; omega)⟩
theorem sdwr (slv : BitVec 8) (idx : BitVec 16) : Statement (.sdwr slv idx) :=
  ⟨opcField_encS _ _ _, BitVec.and_zero⟩
theorem sdrd (slv : BitVec 8) (idx : BitVec 16) : Statement (.sdrd slv idx) :=
  ⟨opcField_encS _ _ _, BitVec.and_zero⟩
theorem alrq (slv : BitVec 8) (st : BitVec 4) : Statement (.alrq slv st) :=
  ⟨opcField_encA _ _ _, (reservedA _).2 (by rw [encode, encA_toNat]; omega)⟩
theorem alwt (slv : BitVec 8) (st : BitVec 4) : Statement (.alwt slv st) :=
  ⟨opcField_encA _ _ _, (reservedA _).2 (by rw [encode, encA_toNat]; omega)⟩

end Opcode

end Sys2Proof.Laws
end

