-- ==== Sys2Proof/Tests/Slice0.lean ====
section
/-! SUPPORT. Tests of one step each, with words from 30_encoding.md and results from 95_test_vectors.md, and a
witness for the hypotheses of every statement. -/

namespace Sys2Proof.Machine.Test

open Sys2Proof

-- One theorem after another: each `decide +kernel` run in a thread of its own would hold a stack of its own.
set_option Elab.async false

/-! ## Well-formedness: each check refuses a term that fails it (30_encoding.md R103) -/

theorem test_wf_fins_wide : (Instr.fins 0#3 9#8).wf = false := by decide
theorem test_wf_fins_crosses_byte : (Instr.fins 6#3 3#8).wf = false := by decide
theorem test_wf_fext_crosses_byte : (Instr.fext 1#3 8#8).wf = false := by decide
theorem test_wf_bins_wide : (Instr.bins 4#3 2#8).wf = false := by decide
theorem test_wf_bext_wide : (Instr.bext 4#3 0#8).wf = false := by decide
theorem test_wf_lest_three : (Instr.lest 3#8).wf = false := by decide
theorem test_wf_leld_zero : (Instr.leld 0#8).wf = false := by decide
theorem test_wf_alrq_no_state : (Instr.alrq 0#8 5#4).wf = false := by decide
theorem test_wf_alwt_no_state : (Instr.alwt 0#8 0#4).wf = false := by decide
theorem test_wf_accepts : (Instr.fins 0#3 8#8).wf = true ∧ (Instr.bins 7#3 1#8).wf = true ∧
    (Instr.lest 8#8).wf = true ∧ (Instr.alrq 0#8 8#4).wf = true ∧ Instr.bapk.wf = true := by decide

/-! ## Decoding: words written out from the formats and opcodes of 30_encoding.md R90 to R97, R102 -/

theorem test_decode_fins : decode 0x01020300#32 = .ok (.fins 2#3 3#8) := by decide
theorem test_decode_fext : decode 0x02070100#32 = .ok (.fext 7#3 1#8) := by decide
theorem test_decode_bins : decode 0x03040100#32 = .ok (.bins 4#3 1#8) := by decide
theorem test_decode_bext : decode 0x04040100#32 = .ok (.bext 4#3 1#8) := by decide
theorem test_decode_lest : decode 0x05000800#32 = .ok (.lest 8#8) := by decide
theorem test_decode_leld : decode 0x06000400#32 = .ok (.leld 4#8) := by decide
theorem test_decode_bapk : decode 0x07000000#32 = .ok .bapk := by decide
theorem test_decode_baup : decode 0x08000000#32 = .ok .baup := by decide
theorem test_decode_ence : decode 0x09010000#32 = .ok (.ence 1#8) := by decide
theorem test_decode_encd : decode 0x0AFF0000#32 = .ok (.encd 255#8) := by decide
theorem test_decode_pack : decode 0x0B010001#32 = .ok (.pack 1#8 1#1) := by decide
theorem test_decode_unpk : decode 0x0C010000#32 = .ok (.unpk 1#8) := by decide
theorem test_decode_scfg : decode 0x10070000#32 = .ok (.scfg 7#8) := by decide
theorem test_decode_cnxt : decode 0x11020000#32 = .ok (.cnxt 2#8) := by decide
theorem test_decode_mdrn : decode 0x20030000#32 = .ok (.mdrn 3#8) := by decide
theorem test_decode_macq : decode 0x21030000#32 = .ok (.macq 3#8) := by decide
theorem test_decode_msnd : decode 0x22030000#32 = .ok (.msnd 3#8) := by decide
theorem test_decode_mawt : decode 0x23030000#32 = .ok (.mawt 3#8) := by decide
theorem test_decode_sdwr : decode 0x30001C12#32 = .ok (.sdwr 0#8 0x1C12#16) := by decide
theorem test_decode_sdrd : decode 0x31051018#32 = .ok (.sdrd 5#8 0x1018#16) := by decide
theorem test_decode_alrq : decode 0x40000004#32 = .ok (.alrq 0#8 4#4) := by decide
theorem test_decode_alwt : decode 0x41060008#32 = .ok (.alwt 6#8 8#4) := by decide

/-- Reserved bits and unknown opcodes are refused by name (30_encoding.md R103, 95_test_vectors.md V-COD-29,
V-MBX-5a). -/
theorem test_decode_refuses : decode 0x0C000001#32 = .error (.reservedBits 0x0C#8) ∧
    decode 0x11000001#32 = .error (.reservedBits 0x11#8) ∧
    decode 0x01080300#32 = .error (.reservedBits 0x01#8) ∧
    decode 0x00000000#32 = .error (.unknownOpcode 0x00#8) ∧
    decode 0xF0000000#32 = .error (.unknownOpcode 0xF0#8) := by decide

/-- No two rows of the opcode map share a word: their opcodes differ. -/
theorem test_rows_disjoint : opcodeRows.Pairwise fun a b => a.2 &&& 0xFF000000#32 ≠ b.2 &&& 0xFF000000#32 := by
  decide

/-! ## A small state -/

/-- Slave handle 0 as 41_mailbox.md R200 configures it in 95_test_vectors.md. -/
def slave0 (cnt : BitVec 3) : Slave :=
  { cfg := true, station := 0x1001, wAddr := 0x1000, wLen := 128, wSm := 0, rAddr := 0x1080, rLen := 128,
    rSm := 1, cnt := cnt }

/-- The operands `OP[0]` to `OP[4]`. -/
def ops (a b c d e : Word) : Vector Word 8 := #v[a, b, c, d, e, 0, 0, 0]

/-- A draw without a timeout, the answer being these bytes. -/
def gives (bs : List Byte) : Draw := { timeout := false, answer := .ok bs }

/-- A draw in which the timeout fires. -/
def late : Draw := { timeout := true, answer := .ok [] }

/-- A draw with a Transport error. -/
def broken (t : BitVec 32) : Draw := { timeout := false, answer := .err t }

/-- Port 0 is BUSY in micro-state `m` with these operands; slave 0 is configured; the other values are those
of reset. -/
def st (m : Micro) (o : Vector Word 8) (bm : Memory) (d : Draw) : State :=
  { State.reset with
    ports := [{ Port.reset 128 with op := o, stat := Stat.started, pst := .busy m }, Port.reset 128]
    slaves := slave0 1#3 :: List.replicate 7 Slave.reset
    bm := bm
    draw := d }

/-- `st` with the hidden registers of port 0 given. -/
def sth (m : Micro) (o : Vector Word 8) (h : Hidden) (d : Draw) : State := (st m o [] d).setHid h

/-- The next state of a command's step. -/
def after (i : Instr) (s : State) : State :=
  match exec i s with
  | .next t => t
  | .fault _ => s
  | .refused _ => s

/-- The value image of three 8-byte slots. -/
def image3 (a b c : Nat) : List Byte := leBytes 8 a ++ leBytes 8 b ++ leBytes 8 c

/-! ## The codec commands (95_test_vectors.md section 2.1) -/

theorem test_fins_merges : let t := after (.fins 2#3 3#8) (st .start (ops 0 4 0 5 0) [(0, 0xA5)] late)
    (t.bm, t.port.rs[0]) = ([(0, 0xB5#8)], 0xB5#32) := by decide +kernel
theorem test_fins_truncates : (after (.fins 0#3 3#8) (st .start (ops 0 4 0 0xFF 0) [] late)).bm =
    [(0, 0x07#8)] := by decide +kernel
theorem test_fext_extracts : (after (.fext 2#3 3#8) (st .start (ops 0 4 0 0 0) [(0, 0xB5)] late)).port.rs[0] =
    5#32 := by decide +kernel
theorem test_fext_short : (after (.fext 7#3 1#8) (st .start (ops 0 4 4 0 0) [] late)).port.stat.ecode =
    0x02#8 := by decide +kernel
theorem test_bins_nonzero : (after (.bins 4#3 1#8) (st .start (ops 0 4 0 0x80000000 0) [(0, 0x04)] late)).bm =
    [(0, 0x14#8)] := by decide +kernel
theorem test_bins_never_clears : (after (.bins 4#3 1#8) (st .start (ops 0 4 0 0 0) [(0, 0x10)] late)).bm =
    [(0, 0x10#8)] := by decide +kernel
theorem test_bext_reads : (after (.bext 4#3 1#8) (st .start (ops 0 4 0 0 0) [(0, 0x14)] late)).port.rs[0] =
    1#32 := by decide +kernel
theorem test_bext_wide : (after (.bext 4#3 2#8) (st .start (ops 0 4 0 0 0) [] late)).port.stat.ecode =
    0x0E#8 := by decide +kernel
theorem test_lest_order : (after (.lest 2#8) (st .start (ops 0 4 1 0x1234 0) [] late)).bm =
    [(1, 0x34#8), (2, 0x12#8)] := by decide +kernel
theorem test_lest_drops_high : (after (.lest 4#8) (st .start (ops 0 4 0 0 1) [(0, 7), (3, 9)] late)).bm = [] := by
  decide +kernel
theorem test_leld_order : (after (.leld 4#8)
    (st .start (ops 0 4 0 0 0) [(0, 0x78), (1, 0x56), (2, 0x34), (3, 0x12)] late)).port.rs =
    #v[0x12345678, 0, 0, 0] := by decide +kernel
theorem test_leld_unsigned : (after (.leld 8#8) (st .start (ops 0 8 0 0 0)
    ((List.range 8).map fun k => (k, 0xFF)) late)).port.rs = #v[0xFFFFFFFF, 0xFFFFFFFF, 0, 0] := by
  decide +kernel
theorem test_bapk_copies : (after .bapk (st .start (ops 0 4 1 0x80 2) [(0x80, 0xDE), (0x81, 0xAD)] late)).bm =
    [(1, 0xDE#8), (2, 0xAD#8), (0x80, 0xDE#8), (0x81, 0xAD#8)] := by decide +kernel
theorem test_baup_short : (after .baup (st .start (ops 0 4 3 0x80 2) [] late)).port.stat.ecode = 0x02#8 := by
  decide +kernel
theorem test_ence_primary : (after (.ence 1#8) (st .start (ops 0 0 0 0 0) [] late)).port.rs[0] = 0#32 := by
  decide +kernel
theorem test_ence_variant : (after (.ence 0#8) (st .start (ops 0 0 0 3 0) [] late)).port.rs[0] = 4#32 := by
  decide +kernel
theorem test_encd_alternate : let t := after (.encd 1#8) (st .start (ops 0 0 0 0xFF 0) [] late)
    (t.port.rs[0], t.port.stat.ecode) = (0#32, 0#8) := by decide +kernel
theorem test_encd_wide_value : (after (.encd 0#8) (st .start (ops 0 0 0 0x108 0) [] late)).port.stat.ecode =
    0x03#8 := by decide +kernel

/-! ## Layouts (95_test_vectors.md section 2.2) -/

theorem test_pack_merges : (after (.pack 0#8 0#1) ((st .start (ops 0 2 0 0x100 0) [(0, 0x20), (1, 0xAA)]
    late).bmWrite 0x100 (image3 3 1 0))).bmRead 0 2 = [0x34#8, 0xAA#8] := by decide +kernel
theorem test_pack_word : (after (.pack 1#8 1#1) ((st .start (ops 0 4 0 0x100 0) [] late).bmWrite 0x100
    (image3 0x1234 0xA 1 ++ leBytes 8 99 ++ [0x5A]))).bmRead 0 4 = [0x34#8, 0x12#8, 0x1A#8, 0x5A#8] := by
  decide +kernel
theorem test_unpk_word : (after (.unpk 1#8) (st .start (ops 0 4 0 0x100 0)
    [(0, 0x34), (1, 0x12), (2, 0x1A), (3, 0x5A)] late)).bmRead 0x100 33 =
    image3 0x1234 0xA 1 ++ leBytes 8 0 ++ [0x5A] := by decide +kernel
theorem test_unpk_invalid : let t := after (.unpk 0#8) (st .start (ops 0 2 0 0x100 0) [(0, 0x15)] late)
    (t.bm, t.port.stat.ecode) = ([(0, 0x15#8)], 0x03#8) := by decide +kernel

/-! ## Slave Table and mailbox (95_test_vectors.md sections 2.3, 2.4) -/

theorem test_scfg_configures :
    let t := after (.scfg 1#8)
      (st .start (ops 0x1001 0x00801000 0x00801080 0x0100 0) [] late)
    (t.slave 1#8, t.port.rs[0]) = (slave0 1#3, 1#32) := by decide +kernel
theorem test_scfg_short_mailbox : (after (.scfg 1#8)
    (st .start (ops 0x1001 0x000F1000 0x00801080 0x0100 0) [] late)).port.stat.ecode = 0x0E#8 := by
  decide +kernel
theorem test_cnxt_wraps :
    let t := after (.cnxt 0#8)
      { st .start (ops 0 0 0 0 0) [] late with slaves := [slave0 7#3] }
    (t.port.rs[0], (t.slave 0#8).cnt) = (7#32, 1#3) := by decide +kernel
theorem test_cnxt_unconfigured : (after (.cnxt 2#8) (st .start (ops 0 0 0 0 0) [] late)).port.stat.ecode =
    0x0E#8 := by decide +kernel
theorem test_mdrn_status : let t := after (.mdrn 0#8) (st .drainStatus (ops 0 0 0 0 0) [] (gives [0x08]))
    (t.wire, t.port.pst) = ([(.read 0x1001 0x080D 1, .ok [0x08])], .busy .drainRead) := by decide +kernel
theorem test_macq_timeout : let t := after (.macq 0#8) (st .acquire (ops 0 0 0 0 0) [] late)
    (t.wire, t.port.rs[0], t.port.stat.ecode) = ([], 0x1001#32, 0x04#8) := by decide +kernel
theorem test_macq_status : let t := after (.macq 0#8) (st .acquire (ops 0 0 0 0 0) [] (gives [0x08]))
    (t.wire, t.port.pst) = ([(.read 0x1001 0x0805 1, .ok [0x08])], .busy .acquire) := by decide +kernel
theorem test_msnd_pads : (after (.msnd 0#8) (st .start (ops 0x10 16 0 0 0) [(0x10, 0x0A)] late)).port.pst =
    .busy (.send (0x0A#8 :: List.replicate 127 0)) := by decide +kernel
theorem test_mawt_too_small : (after (.mawt 0#8) (st .start (ops 0x100 64 0 0 0) [] late)).port.stat.ecode =
    0x01#8 := by decide +kernel
theorem test_mawt_stores : let t := after (.mawt 0#8) (sth .store (ops 0x100 128 0 0 0)
      { Hidden.reset 128 with rxBuf := 7 :: List.replicate 126 0 ++ [9] } late)
    t.bm = [(0x100, 7), (0x17F, 9)] := by decide +kernel

/-! ## SDO (95_test_vectors.md section 2.5) -/

theorem test_sdwr_request :
    let t := after (.sdwr 0#8 0x1A00#16)
      { st (.counter .download [0xAA, 0xBB]) (ops 0 2 0x103 0 0) [] late with slaves := [slave0 7#3] }
    (t.port.hid.txBuf, (t.slave 0#8).cnt) =
      ([0x0A, 0, 0, 0, 0, 0x73, 0, 0x20, 0x3B, 0x00, 0x1A, 0x03, 0xAA, 0xBB, 0, 0], 1#3) := by decide +kernel
theorem test_sdwr_size : let t := after (.sdwr 0#8 0x1C12#16) (st .start (ops 0 5 0 0 0) [] late)
    (t.port.stat.ecode, t.port.stat.xstate, (t.slave 0#8).cnt) = (0x08#8, 6#4, 1#3) := by decide +kernel
theorem test_sdwr_aborted : (after (.sdwr 0#8 0x1C12#16) (sth (.exch .download .receive) (ops 0 1 0 0 0)
      { Hidden.reset 128 with curCnt := 1 }
      (gives [0x0A, 0, 0, 0, 0, 0x13, 0, 0x30, 0x80, 0x12, 0x1C, 0, 0, 0, 2, 6]))).port.pst =
    .busy (.finish { rs := #v[0x06020000, 0x1C12, 0, 0], ecode := 0x05, xstate := 5 }) := by decide +kernel
theorem test_sdrd_expedited : (after (.sdrd 0#8 0x1018#16) (sth (.exch .initiate .receive) (ops 0 4 1 0 0)
      { Hidden.reset 128 with curCnt := 1 }
      (gives [0x0A, 0, 0, 0, 0, 0x13, 0, 0x30, 0x4F, 0x18, 0x10, 1, 0x9A]))).port.pst =
    .busy (.payload 0 12 1) := by decide +kernel
/-- The segment of E3: `LENGTH = 10` and `SEG_DATA_SIZE = 2` give five bytes (42_sdo.md R256). -/
theorem test_sdrd_seven_quirk : (after (.sdrd 0#8 0x1008#16) (sth (.exch (.segment 1) .receive)
      (ops 0x300 32 0 0 0) { Hidden.reset 128 with curCnt := 3, offset := 10, toggle := 1 }
      (gives [0x0A, 0, 0, 0, 0, 0x33, 0, 0x30, 0x14, 0x4B, 0x4C, 0x4D, 0x4E, 0x4F, 0, 0]))).port.pst =
    .busy (.chunk 1 5) := by decide +kernel

/-! ## State Gate (95_test_vectors.md section 2.6) -/

theorem test_alrq_request : let t := after (.alrq 0#8 4#4) (st .alControl (ops 0 0 0 0 0) [] (gives [0x14, 0]))
    (t.wire, t.port.pst) = ([(.write 0x1001 0x0120 [0x14, 0], .ok [0x14, 0])], .busy .alCode) := by
  decide +kernel
theorem test_alrq_code : (after (.alrq 0#8 4#4) (st .alCode (ops 0 0 0 0 0) [] (gives [0x1B, 0]))).port.pst =
    .busy (.finish { rs := #v[0x1B, 0, 0, 0], ecode := 0x07, xstate := 0 }) := by decide +kernel
theorem test_alwt_error_flag : (after (.alwt 0#8 4#4) (st .alPoll (ops 0 0 0 0 0) [] (gives [0x14, 0]))).port.pst =
    .busy (.finish { rs := #v[0x14, 0, 0, 0], ecode := 0, xstate := 0 }) := by decide +kernel
theorem test_alwt_no_state : (after (.alwt 0#8 2#4) (st .alPoll (ops 0 0 0 0 0) [] (gives [0x0F, 0]))).port.pst =
    .busy (.finish { rs := #v[0, 0, 0, 0], ecode := 0x03, xstate := 0 }) := by decide +kernel

/-- The reset state's memory is in canonical form, and the ROM contents of log 3 are well formed. -/
theorem test_reset_wf : State.reset.bm.wf = true ∧ romsOk State.reset.roms = true := by decide +kernel

/-- A Layout ROM entry survives its ROM encoding (30_encoding.md R98). -/
theorem test_layout_bits : layoutOfBits (layoutHeader Config.lW) (Config.lW.fields.map fieldBits) =
    Config.lW := by decide +kernel

/-- The placement of 40_codec.md R141 gives `L_AL` its positions, the two unused bits being paddings. -/
theorem test_placement : placeFrom 0 [⟨4, 0, 0⟩, ⟨1, 0, 0⟩, ⟨1, 1, 9⟩] = [(0, 0), (0, 4), (0, 6)] ∧
    declaredBits [⟨4, 0, 0⟩, ⟨1, 0, 0⟩, ⟨1, 1, 9⟩] = 16 := by decide

/-! ## Witnesses: states and operands that meet the hypotheses of each statement, clause by clause -/

/-- `s` with this agenda, `CMD` of port 0 being `w`. -/
def withEvents (s : State) (w : Word) (es : List Event) : State :=
  { s with agenda := es, ports := s.ports.modify 0 fun p => { p with cmd := w } }

/-- The draw of nothing in particular. -/
def quiet : Draw := gives []

/-- A buffer at the top of `BM`, the index being its last byte, the second range the last byte of `BM`. -/
def edge : State := st .start (ops 0xFFC 4 3 0xFFF 1) [] quiet

/-- A buffer that ends one byte past `BM`. -/
def far : State := st .start (ops 0xFFD 4 3 0xFFF 1) [] quiet

/-- A buffer whose index is its length. -/
def short : State := st .start (ops 0xFFC 4 4 0xFFF 1) [] quiet

theorem runnable_st (m : Micro) (o : Vector Word 8) (bm : Memory) (d : Draw) : Runnable (st m o bm d) := by
  change 0 < 2
  decide

theorem at_st (m : Micro) (o : Vector Word 8) (bm : Memory) (d : Draw) : At (st m o bm d) m :=
  ⟨runnable_st m o bm d, rfl⟩

/-- EncodeAfterDecodeIsIdentity: a word that decodes. -/
theorem witness_encode_after_decode : decode 0x31FF1018#32 = .ok (.sdrd 255#8 0x1018#16) := by decide

/-- StepRunsTheDecodedCommand, HostWriteOfCmdStartsTheCommand. -/
theorem witness_step_and_command_write :
    (let s := withEvents edge 0x05000100#32 [.port 0 quiet]
     s.agenda = [.port 0 quiet] ∧ (s.ports[0]?.map Port.pst) = some (.busy .start) ∧
      decode 0x05000100#32 = .ok (.lest 1#8)) ∧
    (let s := { State.reset with agenda := [.hostCmd 1 0x05000100#32] }
     s.inReset = false ∧ (s.ports[1]?.map Port.pst) = some .idle) := by decide +kernel

/-- IllegalWordCompletesAtOnce: an unknown opcode, a reserved bit, and each field just out of its range. -/
theorem witness_illegal_words : ∀ w ∈ [0x00000000#32, 0x0D000000#32, 0xF0000000#32, 0x0C000001#32,
      0x01010800#32, 0x01000900#32, 0x02010800#32, 0x03000200#32, 0x04000000#32, 0x05000300#32, 0x06000900#32,
      0x40000005#32, 0x41000000#32],
    ¬((∃ r ∈ opcodeRows, w &&& r.1 = r.2) ∧ legalFields w) := by
  unfold legalFields
  simp only [List.forall_mem_cons]
  refine ⟨?_, ?_, ?_, ?_, ?_, ?_, ?_, ?_, ?_, ?_, ?_, ?_, ?_, fun _ h => (List.not_mem_nil h).elim⟩ <;>
    decide +kernel

/-- HostWritesWhileBusyAreRefused, HostWritesOperandsAndMemory (the last bytes of `BM`),
ResetClearsPortsAndHandles. -/
theorem witness_host_writes :
    (let s := { edge with agenda := [.hostCmd 0 1#32] }
     s.ports[0]?.map Port.pst = some (.busy .start) ∧ { s with agenda := [.hostOp 0 7 1#32] }.agenda ≠ []) ∧
    (let s := { State.reset with agenda := [.hostOp 0 7 1#32] }
     s.inReset = false ∧ s.bm.wf = true ∧ s.ports[0]?.map Port.pst = some .idle) ∧
    (let s := { State.reset with agenda := [.hostBm 0xFFE [1, 2]] }
     s.inReset = false ∧ s.bm.wf = true ∧ 0xFFE + 2 = s.params.bmSize) ∧
    { edge with agenda := [.assertReset] }.agenda = [.assertReset] := by decide +kernel

/-- PortsStartByHostWriteAndStopByCompleting: a start, a completion, a reset. -/
theorem witness_ports_start_and_stop :
    (∃ t, step { State.reset with agenda := [.hostCmd 0 0x07000000#32] } = .next t ∧
      (t.ports[0]?.map Port.pst) = some (.busy .start)) ∧
    (∃ t, step (withEvents edge 0x07000000#32 [.port 0 quiet]) = .next t ∧
      (t.ports[0]?.map Port.pst) = some .idle) ∧
    ∃ t, step { edge with agenda := [.assertReset] } = .next t ∧ (t.ports[0]?.map Port.pst) = some .idle := by
  refine ⟨⟨_, rfl, ?_⟩, ⟨_, rfl, ?_⟩, ⟨_, rfl, ?_⟩⟩ <;> decide +kernel

/-- A layout of two bytes that holds itself. -/
def selfNested : LayoutEntry :=
  { valid := true, n := 2, fields := [{ b := 0, off := 0, w := 16, kind := .struct, ts := 0, ref := 0 }] }

/-- RomsAreLoadedCheckedAndThenFixed: a loader event of each kind and a release while reset is asserted, the words
of `L_W`, an enum that passes its checks and one whose alternate repeats a primary, a layout that passes and one
that reaches itself; and the values the release leaves. -/
theorem witness_roms :
    (let s := { State.reset with inReset := true, agenda := [.loadLayout 1 (layoutHeader Config.lW)
        (Config.lW.fields.map fieldBits), .loadEnum 1 Config.eX, .releaseReset] }
     s.inReset = true ∧ (layoutHeader Config.lW).toNat / 2 ^ 31 = 1 ∧
       (layoutHeader Config.lW).toNat / 2 ^ 16 % 256 = (Config.lW.fields.map fieldBits).length) ∧
    (let s := { State.reset with
        inReset := true
        agenda := [.releaseReset]
        roms := { enums := [Config.eX, { Config.eX with variants := [⟨0, [0]⟩] }],
                  layouts := [selfNested, Config.lW] } }
     s.roms.layouts[0]? = some selfNested ∧ Nests s.roms 0 0 ∧ s.roms.layouts[1]? = some Config.lW ∧
       ∃ t, step s = .next t ∧ t.inReset = false ∧ t.roms.enums.map EnumEntry.valid = [true, false] ∧
         t.roms.layouts.map LayoutEntry.valid = [false, true]) :=
  ⟨by decide +kernel, rfl, ⟨_, _, rfl, List.mem_singleton_self _, rfl, rfl⟩, rfl, _, rfl, by decide +kernel⟩

/-- RomsAreLoadedCheckedAndThenFixed, ConfiguredEntriesChangeOnlyInTheirCounter. -/
theorem witness_steps_of_a_released_block :
    ∃ t, step (withEvents edge 0x11000000#32 [.port 0 quiet]) = .next t ∧ edge.inReset = false ∧
      edge.slaves[0]? = some (slave0 1#3) ∧ (slave0 1#3).cfg = true ∧ (t.slave 0#8).cnt = 2#3 :=
  ⟨_, rfl, rfl, rfl, rfl, by decide +kernel⟩

/-- CommandStepsLeaveOthersAlone, ResultsAppearOnlyAtCompletion: a step that goes on and one that
completes. -/
theorem witness_command_steps :
    (∃ t, exec (.sdrd 0#8 0x1018#16) edge = .next t ∧ t.port.pst = .busy (.counter .initiate [])) ∧
    ∃ t, exec .bapk edge = .next t ∧ t.port.pst = .idle := by
  refine ⟨⟨_, rfl, ?_⟩, ⟨_, rfl, ?_⟩⟩ <;> decide +kernel

/-- StepsKeepTheInvariant, RunsNeverStop: the state right after reset with a command word and a step of its
port to come meets the invariant, and so does a port in the middle of a command. -/
theorem witness_invariant :
    ({ State.reset with agenda := [.hostCmd 0 0x31001018#32, .port 0 quiet] } : State).Inv ∧
    (withEvents (st (.exch .initiate .await) (ops 0xFFC 4 0 0 0) [(0xFFF, 1)] quiet) 0x31001018#32 []).Inv := by
  constructor <;> constructor <;> decide +kernel

/-- EveryCommandStepAnswersNext: the start of a command of each kind, and a later micro-state of each command
that has one. -/
theorem witness_micro_states : ∀ im ∈ ([(.bapk, .start), (.mdrn 0, .drainStatus), (.mdrn 0, .drainRead),
      (.macq 0, .acquire), (.msnd 0, .send (zeros 128)), (.mawt 0, .await), (.mawt 0, .receive), (.mawt 0, .store),
      (.sdwr 0 1, .counter .download [0, 0, 0, 0]), (.sdwr 0 1, .exch .download .send),
      (.sdrd 0 1, .counter .initiate []), (.sdrd 0 1, .counter (.segment 1) []),
      (.sdrd 0 1, .exch .initiate .receive), (.sdrd 0 1, .exch (.segment 1) .receive),
      (.sdrd 0 1, .payload 0 12 4), (.sdrd 0 1, .chunk 1 4), (.alrq 0 4, .alControl), (.alrq 0 4, .alCode),
      (.alwt 0 4, .alPoll), (.alwt 0 4, .finish (okResults #v[0, 0, 0, 0] 0))] : List (Instr × Micro)),
    let s := st im.2 (ops 0xF00 (if im.1 matches .mawt _ then 128 else 4) 0 0 0) [] quiet
    microFits s s.port im.1 s.micro = true := by decide +kernel

/-- StateGateTouchesNoMailboxState. -/
theorem witness_state_gate : ∃ t u, exec (.alrq 0#8 4#4) (st .alControl (ops 0 0 0 0 0) [] (gives [0x14, 0])) = .next t ∧
    t.port.pst = .busy .alCode ∧ exec (.alwt 0#8 4#4) (st .alPoll (ops 0 0 0 0 0) [] (gives [1, 0])) = .next u ∧
    u.port.pst = .busy .alPoll := by
  refine ⟨_, _, rfl, ?_, rfl, ?_⟩ <;> decide +kernel

/-- EarlierHiddenStateIsNeverRead: two steps of MDRN from its start. -/
theorem witness_hidden : At edge .start ∧ edge.slaves.all (slaveOk edge.params.maxMbxLen) = true ∧
    ∃ t t', runCommand (.mdrn 0#8) [quiet, gives [8]] edge = .next t ∧
      runCommand (.mdrn 0#8) [quiet, gives [8]] (edge.setHid { Hidden.reset 128 with curCnt := 5 }) = .next t' :=
  ⟨at_st _ _ _ _, by decide +kernel, _, _, rfl, rfl⟩

/-- The three buffer states: inside `BM` with room for one byte, one byte past `BM`, no room. -/
theorem witness_buffers : Runnable edge ∧ Runnable far ∧ Runnable short ∧
    edge.bm.wf = true ∧ far.bm.wf = true ∧ short.bm.wf = true ∧
    edge.op 0 + edge.op 1 = edge.params.bmSize ∧ edge.op 2 + 1 = edge.op 1 ∧
    edge.op 3 + edge.op 4 = edge.params.bmSize ∧ edge.op 4 = 1 ∧
    far.op 0 + far.op 1 = far.params.bmSize + 1 ∧
    short.op 0 + short.op 1 = short.params.bmSize ∧ short.op 1 = short.op 2 ∧
    short.op 3 + short.op 4 = short.params.bmSize :=
  ⟨runnable_st _ _ _ _, runnable_st _ _ _ _, runnable_st _ _ _ _, by decide +kernel⟩

/-- FinsMergesIntoOneByte, FextExtractsOneField, BinsSetsOneBit, BextReadsOneBit, LestStoresLittleEndian,
LeldLoadsLittleEndian: fields on both sides of the boundary of their ranges. -/
theorem witness_codec_fields :
    ((8#8).toNat ≤ 8 ∧ (0#3).toNat + (8#8).toNat ≤ 8) ∧ ((1#8).toNat ≤ 8 ∧ (7#3).toNat + (1#8).toNat ≤ 8) ∧
    ¬((9#8).toNat ≤ 8 ∧ (0#3).toNat + (9#8).toNat ≤ 8) ∧ ¬((8#8).toNat ≤ 8 ∧ (1#3).toNat + (8#8).toNat ≤ 8) ∧
    (0#8 ≠ 1#8 ∧ 2#8 ≠ 1#8) ∧
    ((1#8).toNat ∈ [1, 2, 4, 8] ∧ (8#8).toNat ∈ [1, 2, 4, 8] ∧ (0#8).toNat ∉ [1, 2, 4, 8] ∧
      (9#8).toNat ∉ [1, 2, 4, 8]) := by decide

/-- BapkCopiesIntoTheBuffer, BaupCopiesOutOfTheBuffer: `edge` is inside with room for the copy, `short` inside
without, and here the second range ends one byte past `BM`. -/
theorem witness_copies : let s := st .start (ops 0xFFC 4 3 0xFFF 2) [] quiet
    s.bm.wf = true ∧ ¬(s.op 0 + s.op 1 ≤ s.params.bmSize ∧ s.op 3 + s.op 4 ≤ s.params.bmSize) ∧
    edge.op 2 + edge.op 4 = edge.op 1 ∧ short.op 1 < short.op 2 + short.op 4 := by decide +kernel

/-- EnceGivesThePrimary, EncdGivesTheVariantNamed, AlternatesDecodeToTheirVariant: an absent entry, the last
variant and the one after it, a primary, an alternate and a value no variant names. -/
theorem witness_enums :
    (¬∃ e, edge.roms.enums[(2#8).toNat]? = some e ∧ e.valid = true) ∧
    edge.roms.enums[(1#8).toNat]? = some Config.eX ∧ Config.eX.valid = true ∧ enumOk Config.eX = true ∧
    Config.eX.variants.length ≤ (st .start (ops 0 0 0 2 0) [] quiet).op 3 ∧
    Config.eX.variants[(st .start (ops 0 0 0 1 0) [] quiet).op 3]? = some ⟨0x01, []⟩ ∧
    (let s := st .start (ops 0 0 0 0xFF 0) [] quiet
     s.op 4 * 2 ^ 32 + s.op 3 ∈ (⟨0x00, [0xFF]⟩ : Variant).alts) ∧
    (let s := st .start (ops 0 0 0 0 1) [] quiet
     ∀ v ∈ Config.eX.variants, s.op 4 * 2 ^ 32 + s.op 3 ≠ v.prim ∧ s.op 4 * 2 ^ 32 + s.op 3 ∉ v.alts) := by
  refine ⟨?_, by decide +kernel⟩
  rintro ⟨e, he, -⟩
  rw [show edge.roms.enums[(2#8).toNat]? = none from rfl] at he
  cases he

/-- PackWritesThePackedBytes, UnpkWritesTheValueImage: no entry; ranges one byte too long; a buffer one byte
too short; an image that is no value, bytes that unpack to none; a value. The image of `L_AL` ends at the last
byte of `BM`. -/
theorem witness_layout_commands :
    (¬∃ l, edge.roms.layouts[(2#8).toNat]? = some l ∧ l.valid = true) ∧
    edge.roms.layouts[(0#8).toNat]? = some Config.lAl ∧ Config.lAl.valid = true ∧
    imgSize edge.roms 2 0 = 24 ∧
    (let s := st .start (ops 0xFFE 2 0 0xFE9 0) [] quiet
     ¬(s.op 0 + s.op 1 ≤ s.params.bmSize ∧ s.op 3 + 24 ≤ s.params.bmSize)) ∧
    (let s := st .start (ops 0xFFF 1 0 0xFE8 0) [] quiet
     s.op 0 + s.op 1 = s.params.bmSize ∧ s.op 3 + 24 = s.params.bmSize ∧ s.op 1 < Config.lAl.n) ∧
    (let s := st .start (ops 0 2 0 0x100 0) [(0x100, 5)] quiet
     s.bm.wf = true ∧ Config.lAl.n ≤ s.op 1 ∧ readImage s.roms 2 0 (bytesAt s 0x100 24) = none ∧
       unpackFrom s.roms 2 0 (bytesAt s 0 2) = none) ∧
    let s := st .start (ops 0 2 0 0x100 0) [(0, 0x14), (0x100, 4)] quiet
    s.bm.wf = true ∧ (readImage s.roms 2 0 (bytesAt s 0x100 24)).isSome = true ∧
      (unpackFrom s.roms 2 0 (bytesAt s 0 2)).isSome = true ∧ layoutOk s.roms 2 Config.lAl = true := by
  refine ⟨?_, by decide +kernel⟩
  rintro ⟨l, hl, -⟩
  rw [show edge.roms.layouts[(2#8).toNat]? = none from rfl] at hl
  cases hl

/-- A value of `L_W` with its fields in valid bit ranges, `b` at the top of its range. -/
def valueW : List Value := [.num 0xFFFF, .num 0xF, .bool true, .unit, .bytes [0x5A]]

/-- UnpackAfterPackGivesTheValueBack, ReadingAnImageGivesTheValueBack, FieldsArePackedAndUnpackedInPlace: the last
field of `L_W`, a boolean beside siblings, a number out of its bit range but in its domain. -/
theorem witness_values : let r := Config.commonRoms
    r.layouts[1]? = some Config.lW ∧ layoutOk r r.layouts.length Config.lW = true ∧
    inRange r r.layouts.length 1 valueW = true ∧ inDomain r r.layouts.length 1 valueW = true ∧
    inDomain r (1 + 1) 1 [.num 0xFFFF, .num 0xFF, .bool true, .unit, .bytes [0x5A]] = true ∧
    layoutOk r (1 + 1) Config.lW = true ∧ (zeros 4).length = Config.lW.n ∧
    (Config.lW.fields[4]?.map FieldDesc.kind) = some .bytes ∧ valueW.length = Config.lW.fields.length ∧
    List.Forall₂ (fun f slot => slot.length = slotLength r 1 f) Config.lW.fields
      [zeros 8, zeros 8, zeros 8, zeros 8, zeros 1] ∧
    ({ b := 2, off := 4, w := 1, kind := .bool, ts := 0, ref := 0 } : FieldDesc) ∈ Config.lW.fields ∧
    valueOk r (fun g => 8 * g.ts) (valuesOkAt r (fun g => 8 * g.ts) 1)
      { b := 2, off := 4, w := 1, kind := .bool, ts := 0, ref := 0 } (.bool true) = true := by decide +kernel

/-- MergePackKeepsPaddingBits: the buffer of V-COD-21 has every occupied bit 0 and a padding bit 1. -/
theorem witness_merge :
    (let r := Config.commonRoms
     r.layouts[0]? = some Config.lAl ∧ layoutOk r r.layouts.length Config.lAl = true ∧
      inDomain r r.layouts.length 0 [.variant 4, .bool true, .bool false] = true) ∧
    occupied Config.lAl 5 = false ∧ bitAt [0x20#8, 0xAA#8] 5 = true ∧
    ∀ k, occupied Config.lAl k = true → bitAt [0x20#8, 0xAA#8] k = false := by
  refine ⟨by decide +kernel, by decide +kernel, by decide +kernel, fun k hk => ?_⟩
  have hlt : k < 7 := by
    simp [occupied, Config.lAl, startBit, endBit] at hk
    omega
  revert hk
  revert k
  decide +kernel

/-- ScfgConfiguresAHandleOnce: the last handle with the shortest and the longest lengths, and a handle out of
range, one configured already, a length of 15 and one of 129. -/
theorem witness_scfg :
    (let s := st .start (ops 0x1001 0x00101000 0x00801080 0x0100 0) [] quiet
     Runnable s ∧ (7#8).toNat < s.slaves.length ∧ (s.slave 7#8).cfg = false ∧
      ((s.port.op[1]).extractLsb' 16 16).toNat = 16 ∧ ((s.port.op[2]).extractLsb' 16 16).toNat = s.params.maxMbxLen ∧
      ¬(8#8).toNat < s.slaves.length ∧ (s.slave 0#8).cfg = true) ∧
    let s := st .start (ops 0x1001 0x000F1000 0x00811080 0x0100 0) [] quiet
    Runnable s ∧ ((s.port.op[1]).extractLsb' 16 16).toNat = 15 ∧
      ((s.port.op[2]).extractLsb' 16 16).toNat = s.params.maxMbxLen + 1 := by
  exact ⟨⟨runnable_st _ _ _ _, by decide +kernel⟩, runnable_st _ _ _ _, by decide +kernel⟩

/-- CnxtReturnsAndAdvancesTheCounter, and the first clauses of every statement on a
command with a slave: a configured handle, one that is not, one out of range; a counter that wraps. -/
theorem witness_handles : Runnable edge ∧ At edge .start ∧ edge.configured 0#8 = true ∧
    edge.configured 1#8 = false ∧ edge.configured 8#8 = false ∧ (edge.slave 0#8).cnt ≠ 0#3 ∧
    ({ edge with slaves := [slave0 7#3] } : State).configured 0#8 = true ∧
    (({ edge with slaves := [slave0 7#3] } : State).slave 0#8).cnt = 7#3 :=
  ⟨runnable_st _ _ _ _, at_st _ _ _ _, by decide +kernel⟩

/-- Port 0 is about to run CNXT, port 1 the counter step of an SDWR; the host starts another CNXT between, and the
counter is at 7. -/
def twoPorts : State :=
  let s := withEvents edge 0x11000000#32
    [.port 0 quiet, .hostCmd 0 0x11000000#32, .port 1 quiet, .hostOp 1 0 0#32, .port 0 quiet]
  { s with
    slaves := [slave0 7#3]
    ports := s.ports.modify 1 fun p =>
      { p with cmd := 0x30001C12#32, op := ops 0 1 0 0 0, stat := Stat.started, pst := .busy (.counter .download [9]) } }

/-- CounterStepsFollowTheCycle: the counter steps of two ports and two kinds take 7, 1 and 2. -/
theorem witness_counter_steps : twoPorts.Inv ∧ twoPorts.configured 0#8 = true ∧
    .assertReset ∉ twoPorts.agenda.take 5 ∧ takenIn 0#8 5 twoPorts = [7, 1, 2] := by
  refine ⟨?_, ?_⟩
  · constructor <;> decide +kernel
  · decide +kernel

/-- Port 0 polls in MACQ, and its next step is an iteration in which the timeout fires. -/
def lastPoll : State := withEvents (st .acquire (ops 0 0 0 0 0) [] quiet) 0x21000000#32 [.port 0 late]

/-- The state after the step of `lastPoll`: MACQ has completed. -/
def polled : State :=
  { lastPoll with agenda := [], active := 0, draw := late }.raise (.mailboxTimeout 0x1001)

/-- BoundedCommandsCompleteAndPollsEnd: a run the block admits, which starts in a poll; and a bounded command at its start. -/
theorem witness_terminates :
    (let σ : Nat → State := fun k => if k = 0 then lastPoll else polled
     AdmittedRun σ ∧ Polls (σ 0) 0 .acquire) ∧ At edge .start ∧ [quiet, quiet, quiet, quiet].length = 4 := by
  have idle : ∀ p m, ¬Polls polled p m := by
    rintro p m ⟨-, pt, hp, hb⟩
    have all : ∀ q ∈ polled.ports, q.pst = .idle := by decide +kernel
    rw [all pt (List.mem_of_getElem? hp)] at hb
    cases hb
  refine ⟨⟨⟨fun k => ⟨polled, [], ?_⟩, fun k p m h => ?_⟩, rfl, _, rfl, rfl⟩, at_st _ _ _ _, rfl⟩
  · cases k <;> exact ⟨rfl, rfl⟩
  · exact absurd (h (k + 1) (Nat.le_succ k)) (idle p m)

/-- MdrnDrainsAFullMailbox, MacqPollsUntilNotFull, MawtDeliversTheMailbox, ExchangeRunsDrainAcquireSendAwait: in
every micro-state, a status answer that shows full, one that shows not full, an error, a timeout, and a
whole mailbox. `At` holds in each by `at_st`. -/
theorem witness_mailbox_answers (m : Micro) (o : Vector Word 8) :
    (let s := st m o [] (gives [0x08])
     s.answer (statusRead (s.slave 0#8) (s.slave 0#8).rSm) = .ok [0x08] ∧ s.draw.timeout = false ∧
      (byteAt [0x08] 0).getLsbD 3 = true) ∧
    (let s := st m o [] (gives [0xF7])
     s.answer (statusRead (s.slave 0#8) (s.slave 0#8).wSm) = .ok [0xF7] ∧ (byteAt [0xF7] 0).getLsbD 3 = false) ∧
    (let s := st m o [] (broken 0x2A)
     s.answer (statusRead (s.slave 0#8) (s.slave 0#8).rSm) = .err 0x2A ∧
       s.answer (.read (s.slave 0#8).station (s.slave 0#8).rAddr (s.slave 0#8).rLen.toNat) = .err 0x2A) ∧
    (st m o [] late).draw.timeout = true ∧
    let s := st m o [] quiet
    s.bm.wf = true ∧ (s.slave 0#8).rLen.toNat = s.port.hid.rxBuf.length ∧
      s.answer (.read (s.slave 0#8).station (s.slave 0#8).rAddr (s.slave 0#8).rLen.toNat) = .ok (zeros 128) :=
  ⟨⟨rfl, rfl, by decide⟩, ⟨rfl, by decide⟩, ⟨rfl, rfl⟩, rfl, rfl, rfl, rfl⟩

/-- MsndWritesTheWholeMailbox, MawtDeliversTheMailbox: a range one byte past `BM`, a length on each side of the
mailbox's. -/
theorem witness_message_lengths :
    (let s := st .start (ops 0xFFF 2 0 0 0) [] quiet
     At s .start ∧ s.configured 0#8 = true ∧ ¬s.op 0 + s.op 1 ≤ s.params.bmSize) ∧
    (let s := st .start (ops 0xF80 128 0 0 0) [] quiet
     At s .start ∧ s.op 0 + s.op 1 = s.params.bmSize ∧ s.op 1 ≤ (s.slave 0#8).wLen.toNat ∧
      (s.slave 0#8).rLen.toNat ≤ s.op 1) ∧
    (let s := st .start (ops 0 129 0 0 0) [] quiet
     At s .start ∧ s.op 0 + s.op 1 ≤ s.params.bmSize ∧ (s.slave 0#8).wLen.toNat < s.op 1) ∧
    let s := st .start (ops 0 127 0 0 0) [] quiet
    At s .start ∧ s.op 0 + s.op 1 ≤ s.params.bmSize ∧ s.op 1 < (s.slave 0#8).rLen.toNat :=
  ⟨⟨at_st _ _ _ _, by decide +kernel⟩, ⟨at_st _ _ _ _, by decide +kernel⟩, ⟨at_st _ _ _ _, by decide +kernel⟩,
    at_st _ _ _ _, by decide +kernel⟩

/-- SdoCommandsCheckBeforeAnyEffect, RequestsTakeACounterAndAreBuiltAsGiven: sizes 0, 1, 4 and 5, a range one byte
past `BM`. -/
theorem witness_sdo_sizes :
    (∀ n : Fin 2, let s := st .start (ops 0x800 (if n = 0 then 1 else 4) 0 0 0) [] quiet
      1 ≤ s.op 1 ∧ s.op 1 ≤ 4 ∧ s.op 0 + s.op 1 ≤ s.params.bmSize ∧ s.configured 0#8 = true) ∧
    (∀ n : Fin 2, let s := st .start (ops 0x800 (if n = 0 then 0 else 5) 0 0 0) [] quiet
      ¬(1 ≤ s.op 1 ∧ s.op 1 ≤ 4)) ∧
    (let s := st .start (ops 0xFFD 4 0 0 0) [] quiet
     1 ≤ s.op 1 ∧ s.op 1 ≤ 4 ∧ ¬s.op 0 + s.op 1 ≤ s.params.bmSize) ∧
    ([1, 2, 3, 4] : List Byte).length = (st (.counter .download [1, 2, 3, 4]) (ops 0 4 0 0 0) [] quiet).op 1 := by
  decide +kernel

/-- ResponsesAreValidatedBeforeUse: for both orders, a response whose counter does not match and one that
matches, each aborted and not. -/
theorem witness_responses (first : Bool) : ∀ b5 ∈ [0x13#8, 0x23#8, 0x14#8], ∀ b8 ∈ [0x80#8, 0x60#8],
    let s := { sth (.exch .download .receive) (ops 0 1 0 0 0) { Hidden.reset 128 with curCnt := 1 }
        (gives [0x0A, 0, 0, 0, 0, b5, 0, 0x30, b8]) with
      params := { Config.resetParams with abortFirst := first } }
    let rx := [0x0A, 0, 0, 0, 0, b5, 0, 0x30, b8] ++ zeros 119
    s.port.pst = .busy (.exch .download .receive) ∧
    s.answer (.read (s.slave 0#8).station (s.slave 0#8).rAddr (s.slave 0#8).rLen.toNat) = .ok rx ∧
    16 ≤ (s.slave 0#8).rLen.toNat ∧
    (((byteAt rx 5).toNat / 16 % 8 = s.port.hid.curCnt.toNat ∧ (byteAt rx 5).toNat % 16 = 3) ↔ b5 = 0x13#8) ∧
    ((byteAt rx 8).toNat / 32 = 4 ↔ b8 = 0x80#8) := by
  revert first
  decide +kernel

/-- A response with these `LENGTH`, counter and type byte, command byte and first size byte, of 128 bytes. -/
def response (len b5 b8 cs : Byte) : List Byte := [len, 0, 0, 0, 0, b5, 0, 0x30, b8, 0x18, 0x10, 0, cs] ++ zeros 115

/-- Port 0 is about to read an initiate response `rx`, its destination being `n` bytes long. -/
def initiating (n : Word) (rx : List Byte) : State :=
  sth (.exch .initiate .receive) (ops 0x800 n 1 0 0) { Hidden.reset 128 with curCnt := 1 } (gives rx)

/-- Port 0 is about to read a segment `rx` at offset 10 with toggle 1 and counter 3, its destination being `n`
bytes long, the toggle being checked or not. -/
def segmenting (check : Bool) (n : Word) (rx : List Byte) : State :=
  { sth (.exch (.segment 1) .receive) (ops 0x800 n 0 0 0) { Hidden.reset 128 with curCnt := 3, offset := 10, toggle := 1 }
      (gives rx) with params := { Config.resetParams with checkToggle := check } }

/-- What every clause of SdrdClassifiesTheInitiateResponse and SdrdMeasuresTheSegment assumes: `rx` is what the read
of the mailbox is answered, and it passes the check of responses. -/
def Accepted (s : State) (rx : List Byte) : Prop :=
  s.answer (.read (s.slave 0#8).station (s.slave 0#8).rAddr (s.slave 0#8).rLen.toNat) = .ok rx ∧
  16 ≤ (s.slave 0#8).rLen.toNat ∧ (byteAt rx 5).toNat / 16 % 8 = s.port.hid.curCnt.toNat ∧
  (byteAt rx 5).toNat % 16 = 3 ∧ (byteAt rx 8).toNat / 32 ≠ 4

theorem accepted_initiating (n : Word) (len cs : Byte) {b8 : Byte} (h : b8.toNat / 32 ≠ 4) :
    At (initiating n (response len 0x13 b8 cs)) (.exch .initiate .receive) ∧
    Accepted (initiating n (response len 0x13 b8 cs)) (response len 0x13 b8 cs) := by
  refine ⟨⟨Nat.zero_lt_two, rfl⟩, rfl, ?_, ?_, ?_, h⟩
  · show 16 ≤ (128#16).toNat; decide
  · show (0x13#8).toNat / 16 % 8 = (1#3).toNat; decide
  · show (0x13#8).toNat % 16 = 3; decide

theorem accepted_segmenting (check : Bool) (n : Word) (len : Byte) {b8 : Byte} (h : b8.toNat / 32 ≠ 4) :
    At (segmenting check n (response len 0x33 b8 0)) (.exch (.segment 1) .receive) ∧
    Accepted (segmenting check n (response len 0x33 b8 0)) (response len 0x33 b8 0) := by
  refine ⟨⟨Nat.zero_lt_two, rfl⟩, rfl, ?_, ?_, ?_, h⟩
  · show 16 ≤ (128#16).toNat; decide
  · show (0x33#8).toNat / 16 % 8 = (3#3).toNat; decide
  · show (0x33#8).toNat % 16 = 3; decide

/-- SdrdClassifiesTheInitiateResponse: for each clause a response at a state, at the boundary of the clause:
expedited and one byte too long or just fitting; no payload; a payload one byte past the mailbox, one byte past
the destination, one that just fits; one byte more than the declared payload. -/
theorem witness_classify :
    let len (rx : List Byte) := (byteAt rx 0).toNat + 256 * (byteAt rx 1).toNat
    let cs (rx : List Byte) :=
      (byteAt rx 15 ++ byteAt rx 14 ++ byteAt rx 13 ++ byteAt rx 12 : BitVec (8 + 8 + 8 + 8)).toNat
    let b8 (rx : List Byte) := (byteAt rx 8).toNat
    (∀ n l c, ∀ b ∈ [0x43#8, 0x41#8], Accepted (initiating n (response l 0x13 b c)) (response l 0x13 b c)) ∧
    (let rx := response 10 0x13 0x43 0
     b8 rx / 2 % 2 = 1 ∧ (initiating 3 rx).op 1 < 4 - b8 rx / 4 % 4 ∧ 4 - b8 rx / 4 % 4 = (initiating 4 rx).op 1) ∧
    (let rx := response 9 0x13 0x41 0
     b8 rx / 2 % 2 = 0 ∧ len rx = 9) ∧
    (let rx := response 123 0x13 0x41 113
     b8 rx / 2 % 2 = 0 ∧ 10 ≤ len rx ∧ cs rx = len rx - 10 ∧ 128 + 1 = 16 + cs rx) ∧
    (let rx := response 122 0x13 0x41 112
     b8 rx / 2 % 2 = 0 ∧ 10 ≤ len rx ∧ cs rx = len rx - 10 ∧ 16 + cs rx = 128 ∧
       (initiating 111 rx).op 1 < cs rx ∧ cs rx = (initiating 112 rx).op 1) ∧
    (let rx := response 14 0x13 0x41 5
     b8 rx / 2 % 2 = 0 ∧ 10 ≤ len rx ∧ len rx - 10 + 1 = cs rx) :=
  ⟨fun n l c b hb => (accepted_initiating n l c ((by decide : ∀ b ∈ [0x43#8, 0x41#8], b.toNat / 32 ≠ 4) b hb)).2,
    by decide +kernel⟩

/-- SdrdMeasuresTheSegment: for each clause a response at a state, at the boundary of the clause: the other
toggle; a length of 2; a chunk one byte past the mailbox, one byte past the destination, one that just fits both;
the correction at 7. -/
theorem witness_measure (check : Bool) :
    let len (rx : List Byte) := (byteAt rx 0).toNat + 256 * (byteAt rx 1).toNat
    let b8 (rx : List Byte) := (byteAt rx 8).toNat
    (∀ n l, ∀ b ∈ [0x10#8, 0x04#8, 0x14#8],
      Accepted (segmenting check n (response l 0x33 b 0)) (response l 0x33 b 0)) ∧
    (segmenting true 12 []).params.checkToggle = true ∧ (segmenting true 12 []).port.hid.toggle = 1#1 ∧
    (segmenting true 12 []).port.hid.offset = 10#32 ∧ b8 (response 5 0x33 0x04 0) / 16 % 2 = 0 ∧
    b8 (response 2 0x33 0x10 0) / 16 % 2 = 1 ∧ len (response 2 0x33 0x10 0) = 2 ∧
    128 + 1 = 9 + (len (response 123 0x33 0x10 0) - 3) ∧
    (let rx := response 122 0x33 0x10 0
     9 + (len rx - 3) = 128 ∧ (segmenting check 128 rx).op 1 + 1 = 10 + (len rx - 3) ∧
       10 + (len rx - 3) = (segmenting check 129 rx).op 1) ∧
    (let rx := response 10 0x33 0x14 0
     len rx - 3 = 7 ∧ 7 - b8 rx / 2 % 8 = 5 ∧ 10 + 5 = (segmenting check 15 rx).op 1) := by
  refine ⟨fun n l b hb => (accepted_segmenting check n l
    ((by decide : ∀ b ∈ [0x10#8, 0x04#8, 0x14#8], b.toNat / 32 ≠ 4) b hb)).2, ?_⟩
  cases check <;> decide +kernel

/-- SdrdCopiesPayloadsAndChunks: copies that end at the last byte of `RXBUF`. -/
theorem witness_sdrd_copies :
    (let s := st (.payload 1 16 112) (ops 0xF00 112 0 0 0) [] quiet
     s.bm.wf = true ∧ s.port.pst = .busy (.payload 1 16 112) ∧ 16 + 112 = s.port.hid.rxBuf.length) ∧
    (let s := st (.chunk 1 119) (ops 0xF00 119 0 0 0) [] quiet
     s.bm.wf = true ∧ s.port.pst = .busy (.chunk 1 119) ∧ 9 + 119 = s.port.hid.rxBuf.length ∧
      s.port.hid.offset.toNat + 119 < 2 ^ 32 ∧ (byteAt s.port.hid.rxBuf 8).toNat % 2 = 0) ∧
    let s := sth (.chunk 1 1) (ops 0xF00 119 0 0 0) { Hidden.reset 128 with rxBuf := List.replicate 128 1 } quiet
    s.bm.wf = true ∧ s.port.pst = .busy (.chunk 1 1) ∧ 9 + 1 ≤ s.port.hid.rxBuf.length ∧
      (byteAt s.port.hid.rxBuf 8).toNat % 2 = 1 := by decide +kernel

/-- The draws of an exchange with the standard answers of 95_test_vectors.md. -/
def standard (response : List Byte) : List Draw := [gives [0], gives [0], gives [], gives [8], gives response]

theorem exchanges_standard (c : BitVec 3) (response : List Byte) :
    Exchanges (slave0 c) (standard response) (fitBytes 128 response) :=
  ⟨[gives [0]], [], gives [0], gives [], [], gives [8], gives response, rfl, by decide,
    fun _ h => (List.not_mem_nil h).elim, by decide, rfl, fun _ h => (List.not_mem_nil h).elim, by decide, rfl⟩

/-- SdwrDownloadsAndCompletes: V-SDO-1, the value being the last byte of `BM`. -/
theorem witness_sdwr : let s := st .start (ops 0xFFF 1 0 0 0) [] quiet
    let rx := fitBytes 128 [0x0A, 0, 0, 0, 0, 0x13, 0, 0x30, 0x60, 0x12, 0x1C]
    At s .start ∧ Exchanges (s.slave 0#8) (standard [0x0A, 0, 0, 0, 0, 0x13, 0, 0x30, 0x60, 0x12, 0x1C]) rx ∧
    s.configured 0#8 = true ∧ 1 ≤ s.op 1 ∧ s.op 1 ≤ 4 ∧ s.op 0 + s.op 1 = s.params.bmSize ∧
    16 ≤ (s.slave 0#8).rLen.toNat ∧ (byteAt rx 5).toNat / 16 % 8 = (s.slave 0#8).cnt.toNat ∧
    (byteAt rx 5).toNat % 16 = 3 ∧ (byteAt rx 8).toNat / 32 ≠ 4 :=
  ⟨at_st _ _ _ _, exchanges_standard _ _, by decide +kernel⟩

/-- SdrdExpeditedUploadDelivers: V-SDO-5, the destination being the last bytes of `BM`. -/
theorem witness_sdrd_expedited : let s := st .start (ops 0xFFC 4 1 0 0) [] quiet
    let rx := fitBytes 128 [0x0A, 0, 0, 0, 0, 0x13, 0, 0x30, 0x43, 0x18, 0x10, 1, 0x9A]
    At s .start ∧ Exchanges (s.slave 0#8) (standard [0x0A, 0, 0, 0, 0, 0x13, 0, 0x30, 0x43, 0x18, 0x10, 1, 0x9A]) rx ∧
    s.configured 0#8 = true ∧ s.bm.wf = true ∧ s.op 0 + s.op 1 = s.params.bmSize ∧
    16 ≤ (s.slave 0#8).rLen.toNat ∧ (byteAt rx 5).toNat / 16 % 8 = (s.slave 0#8).cnt.toNat ∧
    (byteAt rx 5).toNat % 16 = 3 ∧ (byteAt rx 8).toNat / 32 ≠ 4 ∧ (byteAt rx 8).toNat / 2 % 2 = 1 ∧
    4 - (byteAt rx 8).toNat / 4 % 4 = s.op 1 :=
  ⟨at_st _ _ _ _, exchanges_standard _ _, by decide +kernel⟩

/-- The responses of P3: the initiate response, then two segments of its three. -/
def initiateP3 : List Byte := [0x0A, 0, 0, 0, 0, 0x13, 0, 0x30, 0x41, 8, 0x10, 0, 0x14]
def firstP3 : List Byte := [0x0A, 0, 0, 0, 0, 0x23, 0, 0x30, 0x04, 0x4B, 0x4C, 0x4D, 0x4E, 0x4F]
def lastP3 : List Byte := [8, 0, 0, 0, 0, 0x33, 0, 0x30, 0x11, 0x50, 0x51, 0x52, 0x53, 0x54]

/-- The draws and responses of two segments. -/
def segmentsP3 : List (Draw × List Draw × Draw × List Byte) :=
  [(quiet, standard firstP3, quiet, fitBytes 128 firstP3), (quiet, standard lastP3, quiet, fitBytes 128 lastP3)]

/-- SdrdSegmentedUploadDelivers, the toggle being checked or not: two segments of five bytes each, the first
with the correction at 7, which just fit the destination. -/
theorem witness_sdrd_segmented (check : Bool) : let s := st .start (ops 0xFF6 10 0 0 0) [] quiet
    let rx := fitBytes 128 initiateP3
    let len := (byteAt rx 0).toNat + 256 * (byteAt rx 1).toNat
    At s .start ∧ Exchanges (s.slave 0#8) (standard initiateP3) rx ∧
    SegmentRun (s.slave 0#8) check (succCount (s.slave 0#8).cnt) 0#1 segmentsP3 ∧
    (segmentBytes segmentsP3).length = s.op 1 ∧ s.configured 0#8 = true ∧ s.bm.wf = true ∧
    s.op 0 + s.op 1 = s.params.bmSize ∧ 16 ≤ (s.slave 0#8).rLen.toNat ∧
    (byteAt rx 5).toNat / 16 % 8 = (s.slave 0#8).cnt.toNat ∧ (byteAt rx 5).toNat % 16 = 3 ∧
    (byteAt rx 8).toNat / 32 ≠ 4 ∧ (byteAt rx 8).toNat / 2 % 2 = 0 ∧ 10 ≤ len ∧
    len - 10 < (byteAt rx 15 ++ byteAt rx 14 ++ byteAt rx 13 ++ byteAt rx 12 : BitVec (8 + 8 + 8 + 8)).toNat := by
  refine ⟨at_st _ _ _ _, exchanges_standard _ _, ?_, by decide +kernel⟩
  simp only [segmentsP3, SegmentRun]
  exact ⟨exchanges_standard _ _, by decide +kernel, by decide +kernel, by decide +kernel,
    fun _ => by decide +kernel, by decide +kernel, by decide +kernel, by decide +kernel,
    exchanges_standard _ _, by decide +kernel, by decide +kernel, by decide +kernel,
    fun _ => by decide +kernel, by decide +kernel, by decide +kernel, by decide +kernel⟩

/-- AlrqRequestsTheState, AlwtWaitsForTheState: the legal states at their boundary and the illegal ones beside
them, answers of every kind. -/
theorem witness_state_gate_answers :
    (∀ n ∈ [1#4, 4#4, 8#4], n.toNat ∈ [1, 2, 3, 4, 8]) ∧ (∀ n ∈ [0#4, 5#4, 7#4, 9#4], n.toNat ∉ [1, 2, 3, 4, 8]) ∧
    (let s := st .alControl (ops 0 0 0 0 0) [] (gives [0x14, 0])
     s.answer (.write (s.slave 0#8).station 0x0120#16 [BitVec.ofNat 8 (0x10 + (4#4).toNat), 0x00]) =
       .ok [0x14, 0]) ∧
    ((0x14 + 256 * 0) % 16 ∈ [1, 2, 3, 4, 8] ∧ (0x14 + 256 * 0) / 16 % 2 = 1 ∧ (0x08 + 256 * 0) / 16 % 2 = 0 ∧
      (0x0F + 256 * 0) % 16 ∉ [1, 2, 3, 4, 8]) ∧
    (let s := st .alCode (ops 0 0 0 0 0) [] (gives [0x1B, 0])
     s.answer (.read (s.slave 0#8).station 0x0134#16 2) = .ok [0x1B, 0]) ∧
    (let s := st .alPoll (ops 0 0 0 0 0) [] (gives [0x01, 0])
     s.draw.timeout = false ∧ s.answer (.read (s.slave 0#8).station 0x0130#16 2) = .ok [0x01, 0] ∧
       (0x01 + 256 * 0) % 16 ≠ (2#4).toNat) ∧
    (st .alPoll (ops 0 0 0 0 0) [] late).draw.timeout = true ∧
    (st .alPoll (ops 0 0 0 0 0) [] (broken 7)).answer (.read 0x1001 0x0130#16 2) = .err 7 := by decide +kernel

end Sys2Proof.Machine.Test
end

/-! # Every step keeps the invariant -/

namespace Sys2Proof.Machine

variable {s t : State}

/-! ## What a step of the machine can be -/

/-- A step waits, or the event at the front of the agenda happens. -/
theorem step_cases (h : step s = .next t) : (s.agenda = [] ∧ t = s) ∨
    ∃ e rest, s.agenda = e :: rest ∧ happen { s with agenda := rest } e = .next t := by
  unfold step at h
  split at h
  · cases h
    exact .inl ⟨‹_›, rfl⟩
  · exact .inr ⟨_, _, ‹_›, h⟩

theorem step_cons {e : Event} {rest : List Event} (h : s.agenda = e :: rest) :
    step s = happen { s with agenda := rest } e := by
  simp only [step, h]

/-! ## Events that keep the invariant -/

theorem inv_hostOp (h : s.Inv) (p : Nat) (i : Fin 8) (v : Word) : (s.hostOp p i v).Inv := by
  unfold State.hostOp
  split
  · exact h
  · refine inv_ports h _ p (Bool.eq_false_iff.2 ‹_›) fun q hq => ?_
    split
    · exact hq
    · rename_i hb
      cases hp : q.pst <;> simp_all [portOk, statOk, Port.isBusy]

theorem inv_hostCmd (h : s.Inv) (p : Nat) (w : Word) : (s.hostCmd p w).Inv := by
  unfold State.hostCmd
  split
  · exact h
  · refine inv_ports h _ p (Bool.eq_false_iff.2 ‹_›) fun q hq => ?_
    split
    · exact hq
    · simp only [portOk, Bool.and_eq_true] at hq ⊢
      refine ⟨⟨rfl, hq.1.2⟩, ?_⟩
      split
      · exact micro_start _ _ _
      · rfl

theorem inv_hostBm (h : s.Inv) (a : Nat) (bs : List Byte) : (s.hostBm a bs).Inv := by
  unfold State.hostBm
  split
  · exact h
  · rename_i hc
    simp only [Bool.or_eq_true, Bool.not_eq_true', not_or, Bool.not_eq_false] at hc
    exact inv_bm h a bs (inBm_iff.1 hc.2)

/-- A port right after a reset is IDLE and meets what is asked of a port. -/
theorem portOk_afterReset (s : State) (k : Nat) : portOk s (Port.afterReset s.params.maxMbxLen k) = true := by
  simp [portOk, statOk, hiddenOk, Port.afterReset, Port.reset, Port.isBusy, Stat.reset, Hidden.free]

theorem inv_assertReset (h : s.Inv) : s.assertReset.Inv where
  params := paramsOk_congr h.params rfl (by simp [State.assertReset]) (by simp [State.assertReset]) rfl rfl
  memWf := h.memWf
  memBelow := h.memBelow
  slaves := by
    simp only [State.assertReset, List.all_eq_true, List.mem_mapIdx]
    rintro _ ⟨k, _, rfl⟩
    rfl
  ports := by
    simp only [State.assertReset, List.all_eq_true, List.mem_mapIdx]
    rintro _ ⟨k, _, rfl⟩
    exact portOk_afterReset s.assertReset _
  roms := rfl
  quiet := by
    simp only [State.assertReset, Bool.not_true, Bool.false_or, List.all_eq_true, List.mem_mapIdx]
    rintro _ ⟨k, _, rfl⟩
    rfl

theorem inv_releaseReset (h : s.Inv) : s.releaseReset.Inv := by
  unfold State.releaseReset
  split
  · exact
      { params := paramsOk_congr h.params rfl rfl rfl (by simp [validateRoms]) (by simp [validateRoms])
        memWf := h.memWf
        memBelow := h.memBelow
        slaves := h.slaves
        ports := ports_congr h.ports rfl rfl rfl
        roms := romsOk_validate _
        quiet := rfl }
  · exact h

/-- While reset is asserted the loader may write any ROM contents of the same size. -/
theorem inv_loadRoms (h : s.Inv) (hr : s.inReset = true) {r : Roms}
    (hl : r.layouts.length = s.roms.layouts.length) (he : r.enums.length = s.roms.enums.length) :
    ({ s with roms := r } : State).Inv where
  params := paramsOk_congr h.params rfl rfl rfl hl he
  memWf := h.memWf
  memBelow := h.memBelow
  slaves := h.slaves
  ports := ports_congr h.ports rfl rfl rfl
  roms := by simp [hr]
  quiet := h.quiet

theorem inv_loadLayout (h : s.Inv) (lid : Nat) (hdr : Word) (descs : List (BitVec 64)) :
    (s.loadLayout lid hdr descs).Inv := by
  unfold State.loadLayout
  split
  · exact inv_loadRoms h ‹_› List.length_set rfl
  · exact h

theorem inv_loadEnum (h : s.Inv) (eid : Nat) (e : EnumEntry) : (s.loadEnum eid e).Inv := by
  unfold State.loadEnum
  split
  · exact inv_loadRoms h ‹_› rfl List.length_set
  · exact h

/-! ## A port's step keeps the invariant -/

theorem runnable_select {p : Nat} {d : Draw} {pt : Port} (hp : s.ports[p]? = some pt) :
    Runnable (s.select p d) := (List.getElem?_eq_some_iff.1 hp).1

theorem select_port {p : Nat} {d : Draw} {pt : Port} (hp : s.ports[p]? = some pt) :
    (s.select p d).port = pt := port_eq_of_getElem? (s := s.select p d) hp

/-- The invariant holds of the running port. -/
theorem State.Inv.port (h : s.Inv) (hr : Runnable s) : portOk s s.port = true :=
  List.all_eq_true.1 h.ports _ (List.mem_of_getElem? (getElem?_active hr))

/-- While a port is BUSY reset is released. -/
theorem State.Inv.released (h : s.Inv) (hr : Runnable s) {m : Micro} (hb : s.port.pst = .busy m) :
    s.inReset = false := by
  have hq := h.quiet
  simp only [Bool.or_eq_true, Bool.not_eq_true', List.all_eq_true] at hq
  refine hq.resolve_right fun hall => ?_
  have := hall _ (List.mem_of_getElem? (getElem?_active hr))
  simp [Port.isBusy, hb] at this

/-- Where the running port's `CMD` encodes a command, the invariant is what that command's step relies on. -/
theorem State.Inv.pre (h : s.Inv) (hr : Runnable s) {m : Micro} (hb : s.port.pst = .busy m) {i : Instr}
    (hd : decode s.port.cmd = .ok i) : Pre i s := by
  have hp := h.port hr
  simp only [portOk, Bool.and_eq_true, hb, hd] at hp
  obtain ⟨⟨-, hhid⟩, hmicro⟩ := hp
  refine ⟨hr, h.memBelow, hhid, by rwa [micro_of_busy hb], h.slaves, ?_⟩
  simpa [h.released hr hb] using h.roms

/-- A completion keeps the invariant, whatever the port's `CMD` holds. -/
theorem inv_complete (h : s.Inv) (hr : Runnable s) {m : Micro} (hb : s.port.pst = .busy m) (c : Completion) :
    (s.complete c).Inv := by
  have hm := inv_ports h (fun q => { q with
      rs := c.rs, stat := c.stat, pst := .idle, hid := Hidden.free s.params.maxMbxLen s.freeCtr }) s.active
    (h.released hr hb) fun q _ => by simp [portOk, statOk, hiddenOk, Port.isBusy, Completion.stat, Hidden.free]
  refine inv_congr hm rfl rfl rfl rfl ?_ rfl
  simp only [State.complete, State.setPort, State.mapPort]
  rw [List.modify_eq_set_getElem?, getElem?_active hr]
  rfl

theorem inv_portStep (h : s.Inv) {p : Nat} {d : Draw} (hx : portStep s p d = .next t) : t.Inv := by
  have hs : (s.select p d).Inv := inv_congr h rfl rfl rfl rfl rfl rfl
  unfold portStep at hx
  split at hx
  · cases hx; exact h
  · rename_i pt hp
    have hr : Runnable (s.select p d) := runnable_select hp
    have hpt := select_port (d := d) hp
    split at hx
    · cases hx; exact h
    · rename_i m hm
      have hb : (s.select p d).port.pst = .busy m := hpt ▸ hm
      split at hx
      · cases hx; exact inv_complete hs hr hb _
      · rename_i i hi
        have hd : decode (s.select p d).port.cmd = .ok i := hpt ▸ hi
        exact inv_of_shape hs hr hb hd (exec_shape hx) (exec_good (hs.pre hr hb hd) hx)

theorem inv_happen (h : s.Inv) {e : Event} (hx : happen s e = .next t) : t.Inv := by
  cases e <;> simp only [happen, Host.Outcome.next.injEq] at hx
  case hostOp p i v => exact hx ▸ inv_hostOp h p i v
  case hostCmd p w => exact hx ▸ inv_hostCmd h p w
  case hostBm a bs => exact hx ▸ inv_hostBm h a bs
  case assertReset => exact hx ▸ inv_assertReset h
  case releaseReset => exact hx ▸ inv_releaseReset h
  case loadLayout lid hdr descs => exact hx ▸ inv_loadLayout h lid hdr descs
  case loadEnum eid e => exact hx ▸ inv_loadEnum h eid e
  case port p d => exact inv_portStep h hx

/-- Settles O18: each event keeps the invariant; a port's step does because `exec_good` says how every command
leaves its port and `inv_of_shape` that nothing else of the invariant is touched. -/
theorem stepsKeepTheInvariant : Obligations.StepsKeepTheInvariant := by
  intro s t h hx
  obtain ⟨-, rfl⟩ | ⟨e, rest, -, hx⟩ := step_cases hx
  · exact h
  · exact inv_happen (inv_agenda h rest) hx

end Sys2Proof.Machine

/-! # No run stops -/

namespace Sys2Proof.Machine

variable {s t : State}

/-! ## No command step stops the machine -/

/-- A command answers a next state at each micro-state of its own: the one arm of a command of several steps
that stops the machine is the last, for the micro-states that `microFits` refuses. -/
theorem exec_answers {i : Instr} {p : Port} (h : microFits s p i s.micro = true) : ∃ t, exec i s = .next t := by
  cases i <;> simp only [exec]
  case mdrn slv =>
    unfold execMdrn
    split
    case h_5 => simp_all [microFits]
    all_goals exact ⟨_, rfl⟩
  case macq slv =>
    unfold execMacq
    split
    case h_4 => simp_all [microFits]
    all_goals exact ⟨_, rfl⟩
  case msnd slv =>
    unfold execMsnd
    split
    case h_4 => simp_all [microFits]
    all_goals exact ⟨_, rfl⟩
  case mawt slv =>
    unfold execMawt
    split
    case h_6 => simp_all [microFits]
    all_goals exact ⟨_, rfl⟩
  case sdwr slv idx =>
    unfold execSdwr
    split
    case h_5 => simp_all [microFits]
    all_goals exact ⟨_, rfl⟩
  case sdrd slv idx =>
    unfold execSdrd
    split
    case h_9 => simp_all [microFits]
    all_goals exact ⟨_, rfl⟩
  case alrq slv st =>
    unfold execAlrq
    split
    case h_5 => simp_all [microFits]
    all_goals exact ⟨_, rfl⟩
  case alwt slv st =>
    unfold execAlwt
    split
    case h_4 => simp_all [microFits]
    all_goals exact ⟨_, rfl⟩
  all_goals exact ⟨_, rfl⟩

/-- Settles O20: it is `exec_answers` at the running port. -/
theorem everyCommandStepAnswersNext : Obligations.EveryCommandStepAnswersNext := fun _ _ h => exec_answers h

theorem portStep_answers (h : s.Inv) (p : Nat) (d : Draw) : ∃ t, portStep s p d = .next t := by
  have hs : (s.select p d).Inv := inv_congr h rfl rfl rfl rfl rfl rfl
  unfold portStep
  split
  · exact ⟨_, rfl⟩
  · rename_i pt hp
    have hpt := select_port (d := d) hp
    split
    · exact ⟨_, rfl⟩
    · rename_i m hm
      split
      · exact ⟨_, rfl⟩
      · rename_i i hi
        exact exec_answers (hs.pre (runnable_select hp) (hpt ▸ hm) (hpt ▸ hi)).micro

theorem happen_answers (h : s.Inv) (e : Event) : ∃ t, happen s e = .next t := by
  cases e
  case port p d => exact portStep_answers h p d
  all_goals exact ⟨_, rfl⟩

theorem step_answers (h : s.Inv) : ∃ t, step s = .next t := by
  cases ha : s.agenda with
  | nil => exact ⟨s, by simp only [step, ha]⟩
  | cons e rest => exact step_cons ha ▸ happen_answers (inv_agenda h rest) e

/-- A run goes on from the state its first step answers. -/
theorem run_succ {M : Host.Core} {s t : M.State} (h : M.step s = .next t) (n : Nat) :
    M.run (n + 1) s = M.run n t := by
  rw [Host.Core.run, h]

/-- Settles O19, by induction on the number of steps: under the invariant a step answers, and it keeps the
invariant. -/
theorem runsNeverStop : Obligations.RunsNeverStop := by
  intro s h n
  induction n generalizing s with
  | zero => exact ⟨s, rfl⟩
  | succ n ih =>
    obtain ⟨t, ht⟩ := step_answers h
    obtain ⟨u, hu⟩ := ih t (stepsKeepTheInvariant s t h ht)
    exact ⟨u, (run_succ (M := Sys2Proof.core) ht n).trans hu⟩

end Sys2Proof.Machine

/-! # The reset state, host writes, and what a step of the machine changes -/

namespace Sys2Proof.Machine

variable {s t : State}

/-! ## The reset state -/

/-- Settles O11: every port and entry of the reset state is `Port.reset` or `Slave.reset`. -/
theorem resetStateHoldsTheSpecValues : Obligations.ResetStateHoldsTheSpecValues := by
  refine ⟨fun p hp => ?_, fun sl hsl => ?_, rfl, rfl⟩
  · obtain rfl := List.eq_of_mem_replicate hp
    exact ⟨rfl, by decide, by decide, rfl, rfl⟩
  · obtain rfl := List.eq_of_mem_replicate hsl
    exact ⟨rfl, rfl⟩

/-- Settles O17: each clause is a check that evaluates on the reset state. -/
theorem resetStateMeetsTheInvariant : Obligations.ResetStateMeetsTheInvariant :=
  { params := by decide
    memWf := wf_reset
    memBelow := rfl
    slaves := by decide
    ports := by decide
    roms := by decide
    quiet := by decide }

/-! ## Steps and host writes -/

/-- Settles O5, by following the event to the port's step. -/
theorem stepRunsTheDecodedCommand : Obligations.StepRunsTheDecodedCommand := by
  intro s p d rest pt m i ha hp hm hd
  rw [step_cons ha]
  simp only [happen, portStep, hp, hm, hd]
  rfl

/-- Changing port `p` where there is one. -/
theorem mapPort_eq {p : Nat} {pt : Port} (hp : s.ports[p]? = some pt) (f : Port → Port) :
    s.mapPort p f = { s with ports := s.ports.set p (f pt) } := by
  rw [State.mapPort, List.modify_eq_set_getElem?, hp]
  rfl

theorem isBusy_of_idle {p : Port} (h : p.pst = .idle) : p.isBusy = false := by
  simp [Port.isBusy, h]

/-- Settles O7: the write is neither refused by reset nor by a BUSY port. -/
theorem hostWriteOfCmdStartsTheCommand : Obligations.HostWriteOfCmdStartsTheCommand := by
  intro s p w rest pt ha hr hp hi
  rw [step_cons ha, happen, State.hostCmd, if_neg (by simp [hr]),
    mapPort_eq (s := { s with agenda := rest }) hp, isBusy_of_idle hi]
  rfl

/-- Settles O9: the written bytes read back by `wrote_bmWrite`. -/
theorem hostWritesOperandsAndMemory : Obligations.HostWritesOperandsAndMemory := by
  intro s rest hr hw
  refine ⟨fun p i v pt ha hp hi => ⟨pt.op.set i v, by simp, fun j hj => ?_, ?_⟩, fun a bs ha hb => ?_⟩
  · exact Vector.getElem_set_ne _ _ fun h => hj (Fin.ext h.symm)
  · rw [step_cons ha, happen, State.hostOp, if_neg (by simp [hr]),
      mapPort_eq (s := { s with agenda := rest }) hp, isBusy_of_idle hi]
    rfl
  · refine ⟨s.bm.writeRange a bs, ?_, wrote_bmWrite hw a bs⟩
    have hin : ({ s with agenda := rest } : State).inBm a bs.length = true := inBm_iff.2 hb
    rw [step_cons ha, happen, State.hostBm, hin, if_neg (by simp [hr])]
    rfl

/-! ## Frames of command steps -/

/-- Settles O15: every command step has the shape that touches nothing else. -/
theorem commandStepsLeaveOthersAlone : Obligations.CommandStepsLeaveOthersAlone :=
  fun _ _ _ _ hx => (exec_shape hx).untouched

/-- Settles O16: by its shape a step goes on or completes. -/
theorem resultsAppearOnlyAtCompletion : Obligations.ResultsAppearOnlyAtCompletion := by
  intro i s t hr hx
  obtain hgoes | ⟨c, -, hpst, hstat⟩ := (exec_shape hx).ends hr
  · exact .inl hgoes
  · exact .inr ⟨hpst, by rw [hstat], by rw [hstat], by rw [hstat]⟩

/-! ## What an event can do -/

/-- What an event can do: nothing, one host write, a reset or its release, a write of the ROMs while reset is
asserted, or the step of a BUSY port, of the shape every command step has. -/
inductive Happens (s : State) : Event → State → Prop where
  | nothing (e : Event) : Happens s e s
  | operand (p : Nat) (i : Fin 8) (v : Word) : Happens s (.hostOp p i v)
      (s.mapPort p fun pt => if pt.isBusy then pt else { pt with op := pt.op.set i v })
  | command (p : Nat) (w : Word) : Happens s (.hostCmd p w) (s.mapPort p fun pt =>
      if pt.isBusy then pt else { pt with cmd := w, stat := Stat.started, pst := .busy .start })
  | memory (a : Nat) (bs : List Byte) : Happens s (.hostBm a bs) (s.bmWrite a bs)
  | reset : Happens s .assertReset s.assertReset
  | release (hr : s.inReset = true) :
      Happens s .releaseReset { s with inReset := false, roms := validateRoms s.roms }
  | load (e : Event) (hr : s.inReset = true) (r : Roms) : Happens s e { s with roms := r }
  | port (p : Nat) (d : Draw) {pt : Port} {m : Micro} {t : State} (hp : s.ports[p]? = some pt)
      (hm : pt.pst = .busy m) (h : Shape (s.select p d) t) : Happens s (.port p d) t

theorem happens_of_happen {e : Event} (hx : happen s e = .next t) : Happens s e t := by
  cases e <;> simp only [happen, Host.Outcome.next.injEq] at hx
  case hostOp p i v =>
    rw [← hx, State.hostOp]
    split_ifs
    exacts [.nothing _, .operand p i v]
  case hostCmd p w =>
    rw [← hx, State.hostCmd]
    split_ifs
    exacts [.nothing _, .command p w]
  case hostBm a bs =>
    rw [← hx, State.hostBm]
    split_ifs
    exacts [.nothing _, .memory a bs]
  case assertReset => exact hx ▸ .reset
  case releaseReset =>
    rw [← hx, State.releaseReset]
    split_ifs with hr
    exacts [.release hr, .nothing _]
  case loadLayout lid hdr descs =>
    rw [← hx, State.loadLayout]
    split_ifs with hr
    exacts [.load _ hr _, .nothing _]
  case loadEnum eid e =>
    rw [← hx, State.loadEnum]
    split_ifs with hr
    exacts [.load _ hr _, .nothing _]
  case port p d =>
    obtain rfl | ⟨⟨pt, m, hp, hm⟩, hshape⟩ := portStep_shape hx
    exacts [.nothing _, .port p d hp hm hshape]

/-- A step leaves the state as it is, or does what an event can do. -/
theorem step_happens (h : step s = .next t) :
    t = s ∨ ∃ e rest, s.agenda = e :: rest ∧ Happens { s with agenda := rest } e t := by
  obtain ⟨-, ht⟩ | ⟨e, rest, ha, hx⟩ := step_cases h
  · exact .inl ht
  · exact .inr ⟨e, rest, ha, happens_of_happen hx⟩

/-! ## How an event changes a port -/

/-- What a change of port `p` makes of port `q`. -/
theorem mapPort_getElem? {p q : Nat} {f : Port → Port} {pt pt' : Port} (hp : s.ports[q]? = some pt)
    (hp' : (s.mapPort p f).ports[q]? = some pt') : pt' = if p = q then f pt else pt := by
  simp only [State.mapPort, List.getElem?_modify, hp] at hp'
  split_ifs at hp' ⊢ <;> simpa using hp'.symm

/-- The step of a BUSY port leaves it BUSY, or the port has completed. -/
theorem Shape.ends_port {q : Nat} {d : Draw} {pt pt' : Port} (h : Shape (s.select q d) t)
    (hp : s.ports[q]? = some pt) (hp' : t.ports[q]? = some pt') :
    pt'.pst ≠ .idle ∨ pt'.stat.busy = false ∧ pt'.stat.done = true := by
  obtain ⟨-, -, -, -, -, -, -, -, hact, -⟩ := h.untouched
  have hpt' : t.port = pt' := port_eq_of_getElem? (by rw [hact]; exact hp')
  obtain ⟨n, hbusy, -⟩ | ⟨c, -, -, hstat⟩ := h.ends (runnable_select hp)
  · exact .inl (by simp [← hpt', hbusy])
  · exact .inr (by simp [← hpt', hstat])

/-- What an event does to the FSM state of port `q` (10_state.md R23). -/
theorem Happens.pst {e : Event} {q : Nat} {pt pt' : Port} (h : Happens s e t)
    (hp : s.ports[q]? = some pt) (hp' : t.ports[q]? = some pt') :
    pt'.pst = pt.pst ∨ (∃ w, e = .hostCmd q w ∧ pt'.cmd = w ∧ pt'.pst = .busy .start) ∨
    (e = .assertReset ∧ pt'.pst = .idle) ∨
    ∃ d, e = .port q d ∧ pt.pst ≠ .idle ∧
      (pt'.pst ≠ .idle ∨ pt'.stat.busy = false ∧ pt'.stat.done = true) := by
  have same : some pt' = some pt → pt'.pst = pt.pst := fun h => by rw [Option.some.inj h]
  cases h with
  | nothing | memory | release | load => exact .inl (same (hp'.symm.trans hp))
  | operand p i v =>
    rw [mapPort_getElem? hp hp']
    split_ifs <;> exact .inl rfl
  | command p w =>
    rw [mapPort_getElem? hp hp']
    split_ifs with hq hb
    · exact .inl rfl
    · exact .inr (.inl ⟨w, hq ▸ rfl, rfl, rfl⟩)
    · exact .inl rfl
  | reset =>
    simp only [State.assertReset, List.getElem?_mapIdx, hp, Option.map_some, Option.some.injEq] at hp'
    exact .inr (.inr (.inl ⟨rfl, hp' ▸ rfl⟩))
  | port p d hb hm hshape =>
    by_cases hq : q = p
    · subst hq
      obtain rfl := Option.some.inj (hb.symm.trans hp)
      exact .inr (.inr (.inr ⟨d, rfl, by simp [hm], hshape.ends_port hp hp'⟩))
    · obtain ⟨-, -, -, -, hothers, -⟩ := hshape.untouched
      exact .inl (same (hp'.symm.trans ((hothers q hq).trans hp)))

/-- Settles O12, event by event (`Happens.pst`). -/
theorem portsStartByHostWriteAndStopByCompleting : Obligations.PortsStartByHostWriteAndStopByCompleting := by
  intro s t q pt pt' hx hp hp'
  obtain rfl | ⟨e, rest, ha, h⟩ := step_happens hx
  · obtain rfl : pt' = pt := Option.some.inj (hp'.symm.trans hp)
    exact ⟨fun hi hb => absurd hi hb, fun hb hi => absurd hi hb⟩
  obtain hsame | ⟨w, rfl, hcmd, hstart⟩ | ⟨rfl, hidle⟩ | ⟨d, rfl, hwas, hnow⟩ := h.pst hp hp'
  · exact ⟨fun hi hb => absurd (hsame.trans hi) hb, fun hb hi => absurd (hsame.symm.trans hi) hb⟩
  · exact ⟨fun _ _ => ⟨w, rest, ha, hcmd, hstart⟩, fun _ hi => by simp [hstart] at hi⟩
  · exact ⟨fun _ hb => absurd hidle hb, fun _ _ => .inl ⟨rest, ha⟩⟩
  · exact ⟨fun hi _ => absurd hi hwas, fun _ hi => .inr ⟨⟨d, rest, ha⟩, hnow.resolve_left (absurd hi)⟩⟩

/-! ## How a step changes the Slave Table -/

/-- What a command does beside its port leaves a configured entry as it is, or takes its counter. -/
theorem Aside.slaves_getElem? {u : State} (h : Aside s u) {k : Nat} {sl : Slave} (hk : s.slaves[k]? = some sl)
    (hc : sl.cfg = true) :
    u.slaves[k]? = some sl ∨ u.slaves[k]? = some { sl with cnt := succCount sl.cnt } := by
  have at_slave : ∀ slv : BitVec 8, slv.toNat = k → s.slave slv = sl := fun slv hs => by
    simp [State.slave, hs, hk]
  cases h with
  | same => exact .inl hk
  | transact op => exact .inl hk
  | bmWrite a bs => exact .inl hk
  | configure slv e hlt hf =>
    left
    have hne : slv.toNat ≠ k := fun hs => by simp [at_slave slv hs, hc] at hf
    rw [State.setSlave_slaves, List.getElem?_set_ne hne, hk]
  | count slv =>
    rw [State.takeCounter, State.setSlave_slaves]
    by_cases hs : slv.toNat = k
    · right
      rw [hs, List.getElem?_set_self (List.getElem?_eq_some_iff.1 hk).1, at_slave slv hs, nextCount_eq]
    · left
      rw [List.getElem?_set_ne hs, hk]

/-- Settles O14: only a reset and a port's step write the Slave Table, and of a command's effects beside its
port only SCFG and the counter step do. -/
theorem configuredEntriesChangeOnlyInTheirCounter : Obligations.ConfiguredEntriesChangeOnlyInTheirCounter := by
  intro s t k sl hx hreset hk hc
  obtain rfl | ⟨e, rest, ha, h⟩ := step_happens hx
  · exact .inl hk
  cases h with
  | nothing | operand | command | memory | release | load => exact .inl hk
  | reset => exact absurd ha (hreset rest)
  | port p d hp hm hshape =>
    obtain ⟨u, haside, hmoves⟩ := hshape
    obtain ⟨-, hslaves, -⟩ := hmoves.same
    rw [hslaves]
    exact haside.slaves_getElem? hk hc

end Sys2Proof.Machine

/-! # Loading and checking the ROMs -/

namespace Sys2Proof.Machine

variable {s t : State}

/-! ## The words of the Layout ROM as numbers (30_encoding.md R98, R99) -/

theorem extractLsb'_toNat_div {n : Nat} (x : BitVec n) (lo len : Nat) :
    (x.extractLsb' lo len).toNat = x.toNat / 2 ^ lo % 2 ^ len := by
  rw [BitVec.extractLsb'_toNat, Nat.shiftRight_eq_div_pow]

/-- Bits `lo ..` of a word as a number compared with a number, both being below `2^len`. -/
theorem extractLsb'_beq {n : Nat} (x : BitVec n) (lo len v : Nat) (hv : v < 2 ^ len) :
    (x.extractLsb' lo len == BitVec.ofNat len v) = decide (x.toNat / 2 ^ lo % 2 ^ len = v) := by
  rw [Bool.eq_iff_iff, beq_iff_eq, decide_eq_true_eq, ← BitVec.toNat_inj, extractLsb'_toNat_div,
    BitVec.toNat_ofNat, Nat.mod_eq_of_lt hv]

/-- The kinds in the order of their codes (R99). -/
theorem kindOfCode_eq (c : Nat) : kindOfCode c =
    [Kind.uint, .bool, .enum, .struct, .bytes, .skip, .zst].getD c (.reserved c) := by
  match c with
  | 0 | 1 | 2 | 3 | 4 | 5 | 6 => rfl
  | c + 7 => rfl

theorem layoutOfBits_valid (hdr : Word) (descs : List (BitVec 64)) :
    (layoutOfBits hdr descs).valid = true ↔ hdr.toNat / 2 ^ 31 = 1 ∧ hdr.toNat / 2 ^ 24 % 128 = 0 ∧
      hdr.toNat / 2 ^ 16 % 256 ≤ descs.length ∧
      ∀ d ∈ descs.take (hdr.toNat / 2 ^ 16 % 256), d.toNat / 2 ^ 51 = 0 := by
  have hk : (hdr.extractLsb' 16 8).toNat = hdr.toNat / 2 ^ 16 % 256 := extractLsb'_toNat_div hdr 16 8
  have hlt := hdr.isLt
  have hd : ∀ d : BitVec 64, d.toNat / 2 ^ 51 % 2 ^ 13 = d.toNat / 2 ^ 51 := fun d => by
    have := d.isLt
    omega
  simp only [layoutOfBits, hk, extractLsb'_beq _ 31 1 1 (by decide), extractLsb'_beq _ 24 7 0 (by decide),
    extractLsb'_beq _ 51 13 0 (by decide), hd, Bool.and_eq_true, decide_eq_true_eq, List.all_eq_true,
    List.length_take, min_eq_left_iff, and_assoc]
  rw [Nat.mod_eq_of_lt (by omega : hdr.toNat / 2 ^ 31 < 2 ^ 1)]
  rfl

theorem layoutOfBits_getElem? {hdr : Word} {descs : List (BitVec 64)} {i : Nat} {f : FieldDesc} {d : BitVec 64}
    (hf : (layoutOfBits hdr descs).fields[i]? = some f) (hd : descs[i]? = some d) : f = fieldOfBits d := by
  simp only [layoutOfBits, List.getElem?_map, List.getElem?_take, hd] at hf
  split_ifs at hf <;> simp at hf
  exact hf.symm

/-! ## The ROM checks as propositions (40_codec.md R142, R143) -/

theorem enumOk_iff (e : EnumEntry) : enumOk e = true ↔ e.valid = true ∧ EnumChecks e := by
  have hvalues : (∀ x ∈ enumValues e, x < 2 ^ (8 * e.u)) ↔
      ∀ v ∈ e.variants, v.prim < 2 ^ (8 * e.u) ∧ ∀ a ∈ v.alts, a < 2 ^ (8 * e.u) := by
    simp only [enumValues, List.mem_flatMap, List.mem_cons]
    refine ⟨fun h v hv => ⟨h _ ⟨v, hv, .inl rfl⟩, fun a ha => h a ⟨v, hv, .inr ha⟩⟩, ?_⟩
    rintro h _ ⟨v, hv, rfl | ha⟩
    exacts [(h v hv).1, (h v hv).2 _ ha]
  simp only [enumOk, EnumChecks, Bool.and_eq_true, decide_eq_true_eq, List.contains_iff_mem,
    List.all_eq_true, and_assoc, hvalues]
  rfl

/-- The own check of an ENUM field, in a ROM whose valid enum entries are well formed. -/
theorem wfOfKind_enum {r : Roms} {nestedOk : Nat → Bool} {f : FieldDesc} (hk : f.kind = .enum)
    (hvalid : ∀ e ∈ r.enums, e.valid = true → enumOk e = true) :
    wfOfKind r nestedOk f = true ↔ ∃ e, r.enums[f.ref]? = some e ∧ e.valid = true ∧ 1 ≤ f.w ∧ f.w ≤ 8 * e.u ∧
      (8 < f.w → f.w = 8 * e.u) ∧ ∀ v ∈ e.variants, v.prim < 2 ^ f.w := by
  by_cases hex : ∃ e, r.enums[f.ref]? = some e ∧ e.valid = true
  · obtain ⟨e, he, hv⟩ := hex
    have hok : enumOk e = true := hvalid e (List.mem_of_getElem? he) hv
    have hwidth : f.w ≤ 8 ∨ f.w = 8 * e.u ↔ (8 < f.w → f.w = 8 * e.u) := by omega
    simp [wfOfKind, hk, enumEntry_some he hv, he, hv, hok, hwidth, and_assoc]
  · simp only [wfOfKind, hk, enumEntry_none hex, Bool.false_eq_true, false_iff]
    rintro ⟨e, he, hv, -⟩
    exact hex ⟨e, he, hv⟩

/-- The own check of a STRUCT field. -/
theorem wfOfKind_struct {r r' : Roms} {nestedOk : Nat → Bool} {f : FieldDesc} (hk : f.kind = .struct)
    (hnested : ∀ ref, nestedOk ref = true ↔ ∃ g, r'.layouts[ref]? = some g ∧ g.valid = true)
    (hraw : ∀ ref g, r'.layouts[ref]? = some g →
      (layoutRaw r ref).n = g.n ∧ (layoutRaw r ref).fields = g.fields) :
    wfOfKind r nestedOk f = true ↔ ∃ g, r'.layouts[f.ref]? = some g ∧ g.valid = true ∧
      (8 < f.w ∧ f.w = 8 * g.n ∨
        1 ≤ f.w ∧ f.w ≤ 8 ∧ g.n = 1 ∧ ∀ h ∈ g.fields, 8 * h.b + h.off + h.w ≤ f.w) := by
  by_cases hex : ∃ g, r'.layouts[f.ref]? = some g ∧ g.valid = true
  · have hn := (hnested f.ref).2 hex
    obtain ⟨g, hg, hv⟩ := hex
    obtain ⟨hsize, hfields⟩ := hraw f.ref g hg
    have hend : ∀ h : FieldDesc, endBit h ≤ f.w ↔ 8 * h.b + h.off + h.w ≤ f.w := fun _ => Iff.rfl
    simp [wfOfKind, hk, hn, hg, hv, hsize, hfields, hend, and_assoc]
  · have hn : nestedOk f.ref = false := Bool.eq_false_iff.2 fun h => hex ((hnested f.ref).1 h)
    simp only [wfOfKind, hk, hn, Bool.false_and, Bool.false_eq_true, false_iff]
    rintro ⟨g, hg, hv, -⟩
    exact hex ⟨g, hg, hv⟩

/-- The checks of a field in the terms of `FieldChecks`, `r'` being `r` with other `VALID` bits in its layouts,
1 exactly where `nestedOk`. -/
theorem fieldOk_iff {r r' : Roms} {nestedOk : Nat → Bool} (n : Nat) (f : FieldDesc)
    (henums : r'.enums = r.enums) (hvalid : ∀ e ∈ r.enums, e.valid = true → enumOk e = true)
    (hnested : ∀ ref, nestedOk ref = true ↔ ∃ g, r'.layouts[ref]? = some g ∧ g.valid = true)
    (hraw : ∀ ref g, r'.layouts[ref]? = some g →
      (layoutRaw r ref).n = g.n ∧ (layoutRaw r ref).fields = g.fields) :
    fieldOk r nestedOk n f = true ↔ FieldChecks r' n f := by
  have hsize : wfSize n f = true ↔ 8 * f.b + f.off + f.w ≤ 8 * n := decide_eq_true_iff
  have hwide : ∀ p : Prop, f.w ≤ 8 ∨ p ↔ (8 < f.w → p) := fun p => by rw [← Nat.not_lt, ← imp_iff_not_or]
  have hnarrow : ∀ p : Prop, 8 < f.w ∨ p ↔ (f.w ≤ 8 → p) := fun p => by rw [← Nat.not_le, ← imp_iff_not_or]
  unfold fieldOk FieldChecks wfKind wfNarrow
  cases hk : f.kind <;> simp only [fieldFits, wfWide, Bool.and_eq_true, Bool.or_eq_true, decide_eq_true_eq,
    hsize, hwide, hnarrow, and_assoc, and_true]
  case enum => rw [wfOfKind_enum hk hvalid, henums]
  case struct => rw [wfOfKind_struct hk hnested hraw]
  case reserved => simp [wfOfKind, hk]
  all_goals simp only [wfOfKind, hk, Bool.and_eq_true, Bool.or_eq_true, decide_eq_true_eq, hwide,
    List.contains_iff_mem, and_assoc]

/-! ## What the release leaves valid (70_reset_and_hazards.md R355) -/

/-- The ROMs with the Enum ROM checked: what the release checks the layouts against. -/
def checkedEnums (r : Roms) : Roms := { r with enums := r.enums.map fun e => { e with valid := enumOk e } }

theorem validateRoms_enums (r : Roms) : (validateRoms r).enums = (checkedEnums r).enums := rfl

theorem validateRoms_layouts (r : Roms) (lid : Nat) : (validateRoms r).layouts[lid]? =
    r.layouts[lid]?.map fun l => { l with valid := layoutOk (checkedEnums r) (romDepth r) l } :=
  List.getElem?_map

theorem checkedEnums_ok (r : Roms) : ∀ e ∈ (checkedEnums r).enums, e.valid = true → enumOk e = true := by
  have h := romsOk_validate r
  simp only [romsOk, Bool.and_eq_true, List.all_eq_true, Bool.or_eq_true, Bool.not_eq_true'] at h
  intro e he hv
  exact (h.1 e he).resolve_left (by simp [hv])

/-- A nested layout is valid after the release exactly where it exists and passes its checks. -/
theorem nested_iff (r : Roms) (ref : Nat) :
    (decide (ref < (checkedEnums r).layouts.length)
        && layoutOk (checkedEnums r) (romDepth r) (layoutRaw (checkedEnums r) ref)) = true ↔
      ∃ g, (validateRoms r).layouts[ref]? = some g ∧ g.valid = true := by
  rw [validateRoms_layouts]
  by_cases h : ref < r.layouts.length <;> simp [checkedEnums, layoutRaw, h]

theorem layoutRaw_validateRoms {r : Roms} (ref : Nat) (g : LayoutEntry)
    (hg : (validateRoms r).layouts[ref]? = some g) :
    (layoutRaw (checkedEnums r) ref).n = g.n ∧ (layoutRaw (checkedEnums r) ref).fields = g.fields := by
  rw [validateRoms_layouts, Option.map_eq_some_iff] at hg
  obtain ⟨l, hl, rfl⟩ := hg
  simp [layoutRaw, checkedEnums, hl]

/-- The release does not change which layouts nest. -/
theorem nests_validateRoms (r : Roms) : Nests (validateRoms r) = Nests (checkedEnums r) := by
  funext a b
  simp only [Nests, validateRoms_layouts, checkedEnums]
  cases r.layouts[a]? <;> simp

/-- One level more than the number of layouts is no less strict. -/
theorem layoutOk_succ_iff {r : Roms} {lid : Nat} {l : LayoutEntry} (hl : r.layouts[lid]? = some l) :
    layoutOk r (romDepth r) l = true ↔ layoutOk r (romDepth r + 1) l = true := by
  refine ⟨layoutOk_mono, fun h => ?_⟩
  rw [← layoutRaw_of_some hl] at h ⊢
  have hlid : lid < r.layouts.length := (List.getElem?_eq_some_iff.1 hl).1
  have hcard := layoutOk_card (S := Finset.range (romDepth r)) hlid (fun b hb => ?_) h
  · rwa [Finset.card_range] at hcard
  · obtain rfl | hb := Relation.reflTransGen_iff_eq_or_transGen.1 hb
    · exact Finset.mem_range.2 hlid
    · obtain ⟨-, -, hlt, -⟩ := layoutOk_below hb h
      exact Finset.mem_range.2 hlt

/-- The release keeps `VALID = 1` exactly where every check of 40_codec.md R142 holds. -/
theorem layoutOk_iff {r : Roms} {lid : Nat} {l : LayoutEntry} (hl : r.layouts[lid]? = some l) :
    layoutOk (checkedEnums r) (romDepth r) l = true ↔ l.valid = true ∧ LayoutChecks (validateRoms r) lid l := by
  have hl' : (checkedEnums r).layouts[lid]? = some l := hl
  have hfield : ∀ f, fieldOk (checkedEnums r) _ l.n f = true ↔ FieldChecks (validateRoms r) l.n f := fun f =>
    fieldOk_iff l.n f (validateRoms_enums r) (checkedEnums_ok r) (nested_iff r) layoutRaw_validateRoms
  have horder : wfOrderFrom 0 l.fields = true ↔ (l.fields.filter fun f => 0 < f.w).IsChain fun f g =>
      8 * f.b + f.off + f.w ≤ 8 * g.b + g.off := by
    simp only [wfOrderFrom_iff, Nat.zero_le, implies_true, and_true]
    rfl
  constructor
  · intro h
    have hacyclic := not_nests_self (r := checkedEnums r) (a := lid) (by rwa [layoutRaw_of_some hl'])
    have h' := (layoutOk_succ_iff hl').1 h
    simp only [layoutOk, Bool.and_eq_true, decide_eq_true_eq, List.all_eq_true] at h'
    obtain ⟨⟨⟨⟨hv, hn⟩, hlen⟩, ho⟩, hf⟩ := h'
    exact ⟨hv, hn, hlen, fun f hm => (hfield f).1 (hf f hm), horder.1 ho, nests_validateRoms r ▸ hacyclic⟩
  · rintro ⟨hv, hn, hlen, hf, ho, -⟩
    refine (layoutOk_succ_iff hl').2 ?_
    simp only [layoutOk, Bool.and_eq_true, decide_eq_true_eq, List.all_eq_true]
    exact ⟨⟨⟨⟨hv, hn⟩, hlen⟩, horder.2 ho⟩, fun f hm => (hfield f).2 (hf f hm)⟩

/-! ## The ROMs over a step -/

/-- While reset is released no step writes a ROM or a parameter (10_state.md R32, 20_memory.md R80). -/
theorem step_roms (hx : step s = .next t) (hr : s.inReset = false) : t.roms = s.roms ∧ t.params = s.params := by
  obtain rfl | ⟨e, rest, -, h⟩ := step_happens hx
  · exact ⟨rfl, rfl⟩
  cases h with
  | nothing | operand | command | memory | reset => exact ⟨rfl, rfl⟩
  | release hr' | load _ hr' => exact absurd hr' (by simp [hr])
  | port p d hp hm hshape =>
    obtain ⟨hparams, hroms, -⟩ := hshape.untouched
    exact ⟨hroms, hparams⟩

/-- Settles O13: `layoutOfBits` read as numbers, and the checks of the release as `EnumChecks` and
`LayoutChecks`. -/
theorem romsAreLoadedCheckedAndThenFixed : Obligations.RomsAreLoadedCheckedAndThenFixed := by
  refine ⟨fun s t => step_roms, fun s rest hr => ⟨fun lid hdr descs ha => ?_, fun eid e ha => ?_, fun ha => ?_⟩⟩
  · refine ⟨layoutOfBits hdr descs, ?_, layoutOfBits_valid hdr descs, ?_, ?_, fun i f d hf hd => ?_⟩
    · rw [step_cons ha, happen, State.loadLayout, if_pos hr]
    · exact extractLsb'_toNat_div hdr 0 16 |>.trans (by rw [Nat.pow_zero, Nat.div_one])
    · simp only [layoutOfBits, extractLsb'_toNat_div, List.length_map, List.length_take]
      rfl
    · obtain rfl := layoutOfBits_getElem? hf hd
      simp only [fieldOfBits, extractLsb'_toNat_div, kindOfCode_eq, Nat.pow_zero, Nat.div_one]
      exact ⟨rfl, trivial, trivial, rfl, rfl, rfl⟩
  · rw [step_cons ha, happen, State.loadEnum, if_pos hr]
  · refine ⟨validateRoms s.roms, ?_, by simp [validateRoms], by simp [validateRoms], fun eid e he => ?_,
      fun lid l hl => ?_⟩
    · rw [step_cons ha, happen, State.releaseReset, if_pos hr]
    · refine ⟨enumOk e, ?_, enumOk_iff e⟩
      rw [validateRoms_enums, checkedEnums, List.getElem?_map, he]
      rfl
    · refine ⟨layoutOk (checkedEnums s.roms) (romDepth s.roms) l, ?_, layoutOk_iff hl⟩
      rw [validateRoms_layouts, hl]
      rfl

end Sys2Proof.Machine

/-! # Earlier hidden state is never read -/

namespace Sys2Proof.Machine

variable {s t t' : State} {i : Instr} {h k k' : Hidden} {slv : BitVec 8} {idx : BitVec 16}

/-! ## The hidden registers a command still reads (10_state.md R26, R27) -/

/-- The request in flight is the same: `CUR_CNT` and `TXBUF`. -/
def SameRequest (h k : Hidden) : Prop := k.curCnt = h.curCnt ∧ k.txBuf = h.txBuf

/-- The segmented upload stands at the same place: `TOGGLE`, `OFFSET` and `SEGCNT`. -/
def SameProgress (h k : Hidden) : Prop := k.toggle = h.toggle ∧ k.offset = h.offset ∧ k.segCnt = h.segCnt

/-- The hidden registers `h` and `k` agree where command `i` at micro-state `m` may still read them. An SDO
command that has passed its checks has a configured slave, whose response fills the bytes the engine looks at. -/
def LiveAgree (i : Instr) (s : State) (m : Micro) (h k : Hidden) : Prop :=
  match i, m with
  | .mawt slv, .store => k.rxBuf.take (s.slave slv).rLen.toNat = h.rxBuf.take (s.slave slv).rLen.toNat
  | .sdwr slv _, .counter ph _ | .sdrd slv _, .counter ph _ =>
    s.configured slv = true ∧ ∀ f, ph = .segment f → SameProgress h k
  | .sdwr slv _, .exch ph _ | .sdrd slv _, .exch ph _ =>
    s.configured slv = true ∧ SameRequest h k ∧ ∀ f, ph = .segment f → SameProgress h k
  | .sdrd _ _, .payload _ src n => k.curCnt = h.curCnt ∧ slice k.rxBuf src n = slice h.rxBuf src n
  | .sdrd slv _, .chunk _ n => s.configured slv = true ∧ SameProgress h k ∧ rxLast k.rxBuf = rxLast h.rxBuf ∧
      slice k.rxBuf 9 n = slice h.rxBuf 9 n
  | _, _ => True

/-- `t'` is `t` but for hidden registers that command `i` does not read from there on. -/
def Twin (i : Instr) (t t' : State) : Prop := ∃ k, t' = t.setHid k ∧ LiveAgree i t t.micro t.hid k

/-! ## What does not read the hidden registers -/

@[simp] theorem setHid_slave (s : State) (h : Hidden) (slv : BitVec 8) : (s.setHid h).slave slv = s.slave slv := rfl
@[simp] theorem setHid_configured (s : State) (h : Hidden) (slv : BitVec 8) :
    (s.setHid h).configured slv = s.configured slv := rfl
@[simp] theorem setHid_inBm (s : State) (h : Hidden) (a n : Nat) : (s.setHid h).inBm a n = s.inBm a n := rfl
@[simp] theorem setHid_bmRead (s : State) (h : Hidden) (a n : Nat) : (s.setHid h).bmRead a n = s.bmRead a n := rfl
theorem setHid_bmWrite (s : State) (h : Hidden) (a : Nat) (bs : List Byte) :
    (s.setHid h).bmWrite a bs = (s.bmWrite a bs).setHid h := rfl
theorem setHid_setSlave (s : State) (h : Hidden) (slv : BitVec 8) (e : Slave) :
    (s.setHid h).setSlave slv e = (s.setSlave slv e).setHid h := rfl
theorem setHid_takeCounter (s : State) (h : Hidden) (slv : BitVec 8) :
    (s.setHid h).takeCounter slv = (s.takeCounter slv).setHid h := rfl
theorem setHid_transact (s : State) (h : Hidden) (op : TransportOp) :
    (s.setHid h).transact op = (s.transact op).setHid h := rfl
@[simp] theorem setHid_raise (s : State) (h : Hidden) (e : Err) : (s.setHid h).raise e = s.raise e :=
  setHid_complete s h _
@[simp] theorem setHid_raiseSdo (s : State) (h : Hidden) (e : Err) : (s.setHid h).raiseSdo e = s.raiseSdo e :=
  setHid_complete s h _
@[simp] theorem setHid_succeed (s : State) (h : Hidden) (a b c d : Word) :
    (s.setHid h).succeed a b c d = s.succeed a b c d := setHid_complete s h _

theorem setHid_port_eq (s : State) (h : Hidden) :
    (s.setHid h).port.op = s.port.op ∧ (s.setHid h).port.pst = s.port.pst := by
  by_cases hr : Runnable s
  · simp [setHid_port hr]
  · simp only [Runnable, Nat.not_lt] at hr
    simp [State.setHid, State.setPort, State.port, List.set_eq_of_length_le hr]

@[simp] theorem setHid_micro (s : State) (h : Hidden) : (s.setHid h).micro = s.micro := by
  rw [State.micro, (setHid_port_eq s h).2, State.micro]
@[simp] theorem setHid_op (s : State) (h : Hidden) (j : Fin 8) : (s.setHid h).op j = s.op j := by
  rw [State.op, (setHid_port_eq s h).1, State.op]
@[simp] theorem setHid_op64 (s : State) (h : Hidden) : (s.setHid h).op64 = s.op64 := by
  simp only [State.op64, setHid_op]
@[simp] theorem setHid_opLow (s : State) (h : Hidden) (j : Fin 8) : (s.setHid h).opLow j = s.opLow j := by
  rw [State.opLow, (setHid_port_eq s h).1, State.opLow]
@[simp] theorem setHid_opHigh (s : State) (h : Hidden) (j : Fin 8) : (s.setHid h).opHigh j = s.opHigh j := by
  rw [State.opHigh, (setHid_port_eq s h).1, State.opHigh]
@[simp] theorem setHid_opWSm (s : State) (h : Hidden) : (s.setHid h).opWSm = s.opWSm := by
  rw [State.opWSm, (setHid_port_eq s h).1, State.opWSm]
@[simp] theorem setHid_opRSm (s : State) (h : Hidden) : (s.setHid h).opRSm = s.opRSm := by
  rw [State.opRSm, (setHid_port_eq s h).1, State.opRSm]
@[simp] theorem setHid_opSub (s : State) (h : Hidden) : (s.setHid h).opSub = s.opSub := by
  rw [State.opSub, (setHid_port_eq s h).1, State.opSub]
@[simp] theorem setHid_opCa (s : State) (h : Hidden) : (s.setHid h).opCa = s.opCa := by
  rw [State.opCa, (setHid_port_eq s h).1, State.opCa]

@[simp] theorem setHid_bmWrite_succeed (s : State) (h : Hidden) (a : Nat) (bs : List Byte) (r0 r1 r2 r3 : Word) :
    ((s.setHid h).bmWrite a bs).succeed r0 r1 r2 r3 = (s.bmWrite a bs).succeed r0 r1 r2 r3 := by
  rw [setHid_bmWrite, setHid_succeed]

theorem setHid_onBuffer (s : State) (h : Hidden) {legal ranges : Bool} {need : Nat} {short : Err}
    {body : Nat → State} :
    (s.setHid h).onBuffer legal ranges need short body = s.onBuffer legal ranges need short body := by
  simp only [State.onBuffer, setHid_raise, setHid_inBm, setHid_op]

/-- The commands that complete in one step (70_reset_and_hazards.md R367). -/
def oneStep : Instr → Bool
  | .fins _ _ | .fext _ _ | .bins _ _ | .bext _ _ | .lest _ | .leld _ | .bapk | .baup | .ence _ | .encd _
  | .pack _ _ | .unpk _ | .scfg _ | .cnxt _ => true
  | .mdrn _ | .macq _ | .msnd _ | .mawt _ | .sdwr _ _ | .sdrd _ _ | .alrq _ _ | .alwt _ _ => false

/-- A command that completes in one step reads no hidden register. -/
theorem exec_setHid_of_oneStep (hi : oneStep i = true) (s : State) (h : Hidden) :
    exec i (s.setHid h) = exec i s := by
  cases i <;> simp only [exec]
  case fins => simp [execFins, setHid_onBuffer]
  case fext => simp [execFext, setHid_onBuffer]
  case bins => simp [execBins, setHid_onBuffer]
  case bext => simp [execBext, setHid_onBuffer]
  case lest => simp [execLest, setHid_onBuffer]
  case leld => simp [execLeld, setHid_onBuffer]
  case bapk => simp [execBapk, setHid_onBuffer]
  case baup => simp [execBaup, setHid_onBuffer]
  case ence => simp [execEnce]
  case encd => simp [execEncd]
  case pack => simp [execPack]
  case unpk => simp [execUnpk]
  case scfg =>
    simp only [execScfg, setHid_raise, setHid_succeed, setHid_setSlave, setHid_opLow, setHid_opHigh, setHid_opWSm,
      setHid_opRSm, setHid_slave, State.setHid_slaves, State.setHid_params]
    rfl
  case cnxt => simp [execCnxt, setHid_takeCounter]
  all_goals exact absurd hi Bool.false_ne_true

/-! ## Twins -/

theorem setHid_hid_eq (hr : Runnable s) (h : Hidden) : (s.setHid h).hid = h := by
  rw [State.hid, setHid_port hr]

theorem liveAgree_congr (hs : t.slaves = s.slaves) {m : Micro} : LiveAgree i t m h k = LiveAgree i s m h k := by
  simp only [LiveAgree, State.configured, State.slave, hs]

theorem liveAgree_start : LiveAgree i s .start h k := by cases i <;> trivial

theorem liveAgree_finish {c : Completion} : LiveAgree i s (.finish c) h k := by cases i <;> trivial

theorem liveAgree_exch {ph : Phase} {st : ExchStep} (hi : Exchanging i slv idx ph) :
    LiveAgree i s (.exch ph st) h k ↔
      s.configured slv = true ∧ SameRequest h k ∧ ∀ f, ph = .segment f → SameProgress h k := by
  obtain ⟨rfl, -⟩ | ⟨rfl, -⟩ := hi <;> exact Iff.rfl

theorem twin_complete (hr : Runnable s) (c : Completion) : Twin i (s.complete c) (s.complete c) := by
  refine ⟨(s.complete c).hid, (setHid_hid _).symm, ?_⟩
  rw [micro_of_idle (by rw [complete_port hr])]
  exact liveAgree_start

/-- Twins that write their hidden registers and go on. -/
theorem twin_setHid_goto (hr : Runnable s) {m : Micro} (hl : LiveAgree i s m k k') :
    Twin i ((s.setHid k).goto m) (((s.setHid h).setHid k').goto m) := by
  have hk : Runnable (s.setHid k) := (runnable_setHid s k).2 hr
  refine ⟨k', ?_, ?_⟩
  · simp only [State.goto, State.setHid, setPort_port hr, setPort_setPort]
  · have hport : ((s.setHid k).goto m).port = { s.port with pst := .busy m, hid := k } := by
      rw [goto_port hk, setHid_port hr]
    rw [micro_of_busy (m := m) (by rw [hport]), State.hid, hport]
    exact (liveAgree_congr rfl).mpr hl

theorem twin_goto (hr : Runnable s) {m : Micro} (hl : LiveAgree i s m s.hid h) :
    Twin i (s.goto m) ((s.setHid h).goto m) := by
  have := twin_setHid_goto (h := h) hr hl
  rwa [setHid_hid, setHid_setHid] at this

theorem twin_setXs_goto (hr : Runnable s) {x : XState} {m : Micro}
    (hl : LiveAgree i s m { s.hid with xs := x } { h with xs := x }) :
    Twin i ((s.setXs x).goto m) (((s.setHid h).setXs x).goto m) := by
  have := twin_setHid_goto (h := h) hr hl
  rwa [State.setXs, State.setXs, setHid_hid_eq hr]

theorem twin_finish (hr : Runnable s) (c : Completion) : Twin i (s.finish c) ((s.setHid h).finish c) :=
  twin_goto hr liveAgree_finish

theorem twin_fail (hr : Runnable s) (e : Err) : Twin i (s.fail e) ((s.setHid h).fail e) := twin_finish hr _

theorem twin_failSdo (hr : Runnable s) (e : Err) : Twin i (s.failSdo e) ((s.setHid h).failSdo e) :=
  twin_setXs_goto hr liveAgree_finish

theorem twin_finishSdo (hr : Runnable s) (r0 r1 r2 r3 : Word) :
    Twin i (s.finishSdo r0 r1 r2 r3) ((s.setHid h).finishSdo r0 r1 r2 r3) := twin_setXs_goto hr liveAgree_finish

/-! ## Shared steps of twins -/

/-- Twins that take the same branch. -/
theorem twin_ite {a b a' b' : State} {p p' : Prop} [Decidable p] [Decidable p'] (hp : p' ↔ p)
    (ha : p → Twin i a a') (hb : ¬p → Twin i b b') : Twin i (if p then a else b) (if p' then a' else b') := by
  by_cases h : p
  · rw [if_pos h, if_pos (hp.2 h)]
    exact ha h
  · rw [if_neg h, if_neg (mt hp.1 h)]
    exact hb h

theorem twin_transport {op : TransportOp} {f f' : State → Err → State} {g g' : State → List Byte → State}
    (hf : ∀ e, Twin i (f (s.transact op) e) (f' ((s.transact op).setHid h) e))
    (hg : ∀ b, s.answer op = .ok b → Twin i (g (s.transact op) b) (g' ((s.transact op).setHid h) b)) :
    Twin i (s.transport op f g) ((s.setHid h).transport op f' g') := by
  cases ha : s.answer op with
  | err e =>
    rw [transport_err ha, transport_err (s := s.setHid h) ha]
    exact hf _
  | ok b =>
    rw [transport_ok ha, transport_ok (s := s.setHid h) ha]
    exact hg b ha

theorem twin_drainStatus {sl : Slave} {f : State → Err → State} {full empty : State → State}
    (hf : ∀ op e, Twin i (f (s.transact op) e) (f ((s.transact op).setHid h) e))
    (hfull : ∀ op, Twin i (full (s.transact op)) (full ((s.transact op).setHid h)))
    (hempty : ∀ op, Twin i (empty (s.transact op)) (empty ((s.transact op).setHid h))) :
    Twin i (s.drainStatus sl f full empty) ((s.setHid h).drainStatus sl f full empty) := by
  refine twin_transport (hf _) fun b _ => ?_
  split
  exacts [hfull _, hempty _]

theorem twin_pollMailbox {sl : Slave} {sm : BitVec 8} {want : Bool} {onTimeout f : State → Err → State}
    {done : State → State} (ht : ∀ e, Twin i (onTimeout s e) (onTimeout (s.setHid h) e))
    (hf : ∀ op e, Twin i (f (s.transact op) e) (f ((s.transact op).setHid h) e))
    (hd : ∀ op, Twin i (done (s.transact op)) (done ((s.transact op).setHid h)))
    (hs : LiveAgree i s s.micro s.hid h) :
    Twin i (s.pollMailbox sl sm want onTimeout f done) ((s.setHid h).pollMailbox sl sm want onTimeout f done) := by
  by_cases hto : s.draw.timeout = true
  · rw [pollMailbox_timeout hto, pollMailbox_timeout (s := s.setHid h) hto]
    exact ht _
  · rw [State.pollMailbox, if_neg hto, State.pollMailbox, if_neg (show ¬(s.setHid h).draw.timeout = true from hto)]
    refine twin_transport (hf _) fun b _ => ?_
    split
    · exact hd _
    · exact ⟨h, rfl, (liveAgree_congr (s := s) (t := s.transact _) rfl).mpr hs⟩

/-! ## What is read of a response (30_encoding.md R117) -/

theorem byteAt_of_take {n j : Nat} {xs ys : List Byte} (h : ys.take n = xs.take n) (hj : j < n) :
    byteAt ys j = byteAt xs j := by
  have := congrArg (·[j]?) h
  simp only [List.getElem?_take_of_lt hj] at this
  simp only [byteAt, List.getD_eq_getElem?_getD, this]

theorem slice_of_take {n off k : Nat} {xs ys : List Byte} (h : ys.take n = xs.take n) (hk : off + k ≤ n) :
    slice ys off k = slice xs off k := by
  have hcut : ∀ zs : List Byte, slice zs off k = slice (zs.take n) off k := fun zs => by
    rw [slice, slice, List.drop_take, List.take_take, Nat.min_eq_left (by omega)]
  rw [hcut ys, hcut xs, h]

/-- Two mailbox contents that agree in their first 16 bytes have the same fields. -/
theorem fields_of_take {n : Nat} (hn : 16 ≤ n) {xs ys : List Byte} (h : ys.take n = xs.take n) :
    rxLength ys = rxLength xs ∧ rxCmd ys = rxCmd xs ∧ rxData4 ys = rxData4 xs := by
  refine ⟨?_, byteAt_of_take h (by omega), ?_⟩
  · rw [rxLength, rxLength, slice_of_take h (by omega)]
  · rw [rxData4, rxData4, slice_of_take h (by omega)]

/-! ## The SDO engine's steps of twins -/

/-- What the response step leaves for `accept`: an exchange's registers, and the response at the head of
`RXBUF`. -/
structure Accepts (s : State) (slv : BitVec 8) (ph : Phase) (k : Hidden) : Prop where
  run : Runnable s
  ready : s.configured slv = true
  long : 16 ≤ (s.slave slv).rLen.toNat
  request : SameRequest s.hid k
  progress : ∀ f, ph = .segment f → SameProgress s.hid k
  response : k.rxBuf.take (s.slave slv).rLen.toNat = s.hid.rxBuf.take (s.slave slv).rLen.toNat

theorem received_eq (hr : Runnable s) (op : TransportOp) (rx : List Byte) : s.received op rx =
    (s.transact op).setHid
      { s.hid with rxBuf := rx ++ s.hid.rxBuf.drop rx.length, xs := .responseReceived } := by
  have hrt : Runnable (s.transact op) := hr
  rw [State.received, State.keepMailbox, State.setXs, setHid_hid_eq hrt, setHid_setHid]
  rfl

theorem setHid_received (hr : Runnable s) (op : TransportOp) (rx : List Byte) : (s.setHid h).received op rx =
    (s.received op rx).setHid { h with rxBuf := rx ++ h.rxBuf.drop rx.length, xs := .responseReceived } := by
  rw [received_eq ((runnable_setHid s h).2 hr), received_eq hr, setHid_transact, setHid_setHid, setHid_setHid,
    setHid_hid_eq hr]

/-- The response step of twins. -/
theorem twin_receive {ph : Phase} {acc acc' : State → State} (hr : Runnable s)
    (hsl : s.slaves.all (slaveOk s.params.maxMbxLen) = true) (hready : s.configured slv = true)
    (hreq : SameRequest s.hid h) (hprog : ∀ f, ph = .segment f → SameProgress s.hid h)
    (hacc : ∀ u k, Accepts u slv ph k → Twin i (acc u) (acc' (u.setHid k))) :
    Twin i (s.exchange slv idx ph .receive acc) ((s.setHid h).exchange slv idx ph .receive acc') := by
  cases ha : s.answer (.read (s.slave slv).station (s.slave slv).rAddr (s.slave slv).rLen.toNat) with
  | err e =>
    simp only [State.exchange, setHid_slave]
    rw [readMailbox_err ha, readMailbox_err (s := s.setHid h) ha]
    exact twin_failSdo (s := s.transact _) hr _
  | ok rx =>
    have hcnt : (s.setHid h).port.hid.curCnt = s.port.hid.curCnt := by
      rw [setHid_port hr]
      exact hreq.1
    rw [exchange_receive hr ha, exchange_receive (s := s.setHid h) ((runnable_setHid s h).2 hr) ha, hcnt,
      setHid_opSub, State.setHid_params, setHid_slave, setHid_received hr]
    have hrec := runnable_received hr (.read (s.slave slv).station (s.slave slv).rAddr (s.slave slv).rLen.toNat) rx
    generalize checkResponse _ rx _ idx _ = verdict
    cases verdict with
    | some e => exact twin_failSdo hrec e
    | none =>
      obtain ⟨-, -, hlong, -⟩ := slave_bounds hsl hready
      have hlen : rx.length = (s.slave slv).rLen.toNat := answer_length ha
      exact hacc _ _
        { run := hrec
          ready := hready
          long := hlong
          request := by rw [received_hid hr]; exact hreq
          progress := by rw [received_hid hr]; exact hprog
          response := by rw [received_slave, ← hlen, received_hid hr, List.take_left, List.take_left] }

/-- A step of the exchange of twins, `accept` keeping twins. -/
theorem twin_exchange {ph : Phase} {st : ExchStep} {acc acc' : State → State} (hr : Runnable s)
    (hi : Exchanging i slv idx ph) (hsl : s.slaves.all (slaveOk s.params.maxMbxLen) = true)
    (hm : s.micro = .exch ph st) (hl : LiveAgree i s s.micro s.hid h)
    (hacc : ∀ u k, Accepts u slv ph k → Twin i (acc u) (acc' (u.setHid k))) :
    Twin i (s.exchange slv idx ph st acc) ((s.setHid h).exchange slv idx ph st acc') := by
  have hrt : ∀ op, Runnable (s.transact op) := fun _ => hr
  obtain ⟨hready, hreq, hprog⟩ := (liveAgree_exch hi).1 (hm ▸ hl)
  have hnext : ∀ op st', LiveAgree i (s.transact op) (.exch ph st') (s.transact op).hid h := fun op st' =>
    (liveAgree_exch hi).2 ⟨hready, hreq, hprog⟩
  cases st <;> simp only [State.exchange, setHid_slave]
  case drainStatus =>
    exact twin_drainStatus (fun op => twin_failSdo (hrt op)) (fun op => twin_goto (hrt op) (hnext op _))
      (fun op => twin_goto (hrt op) (hnext op _))
  case drainRead =>
    exact twin_transport (twin_failSdo (hrt _)) fun _ _ => twin_goto (hrt _) (hnext _ _)
  case acquire =>
    refine twin_pollMailbox (fun e => ?_) (fun op => twin_failSdo (hrt op))
      (fun op => twin_goto (hrt op) (hnext op _)) hl
    rw [setHid_raiseSdo]
    exact twin_complete hr _
  case send =>
    rw [setHid_hid_eq hr, hreq.2]
    exact twin_transport (twin_failSdo (hrt _)) fun _ _ =>
      twin_setXs_goto (hrt _) ((liveAgree_exch hi).2 ⟨hready, hreq, hprog⟩)
  case await =>
    refine twin_pollMailbox (fun e => ?_) (fun op => twin_failSdo (hrt op))
      (fun op => twin_goto (hrt op) (hnext op _)) hl
    rw [setHid_raiseSdo]
    exact twin_complete hr _
  case receive => exact twin_receive hr hsl hready hreq hprog hacc

/-- The classification reads the first 16 bytes of the response and the payload it checked to lie in it. -/
theorem twin_classify (ha : Accepts s slv .initiate h) :
    Twin (.sdrd slv idx) (s.classify slv) ((s.setHid h).classify slv) := by
  obtain ⟨hr, hready, hlong, hreq, -, hresp⟩ := ha
  obtain ⟨hlen, hcmd, hdata⟩ := fields_of_take hlong hresp
  have hexp : rxExpedited h.rxBuf = rxExpedited s.hid.rxBuf := by simp only [rxExpedited, hcmd]
  have hsize : rxSizeCode h.rxBuf = rxSizeCode s.hid.rxBuf := by simp only [rxSizeCode, hcmd]
  simp only [State.classify, setHid_hid_eq hr]
  refine twin_ite (by rw [hexp]) (fun _ => ?_) fun _ => twin_ite (by rw [hlen]) (fun _ => twin_failSdo hr _)
    fun _ => twin_ite (by rw [hlen, hdata]) (fun _ => ?_) fun _ => ?_
  · refine twin_ite (by rw [hsize, setHid_op]) (fun _ => twin_failSdo hr _) fun _ => ?_
    rw [hsize]
    exact twin_goto hr ⟨hreq.1, slice_of_take hresp (by omega)⟩
  · refine twin_ite (by rw [hdata, setHid_slave]) (fun _ => twin_failSdo hr _) fun hfits =>
      twin_ite (by rw [hdata, setHid_op]) (fun _ => twin_failSdo hr _) fun _ => ?_
    rw [hdata]
    exact twin_goto hr ⟨hreq.1, slice_of_take hresp (by omega)⟩
  · rw [hreq.1]
    exact twin_setHid_goto hr ⟨hready, fun _ _ => ⟨rfl, rfl, rfl⟩⟩

/-- A segment's chunk was checked to lie in the response. -/
theorem twin_segmentArrived {first : BitVec 3} (ha : Accepts s slv (.segment first) h) :
    Twin (.sdrd slv idx) (s.segmentArrived slv idx first) ((s.setHid h).segmentArrived slv idx first) := by
  obtain ⟨hr, hready, hlong, -, hprog, hresp⟩ := ha
  have hprog := hprog first rfl
  obtain ⟨htog, hoff, -⟩ := id hprog
  obtain ⟨hlen, hcmd, -⟩ := fields_of_take hlong hresp
  have hrxtog : rxToggle h.rxBuf = rxToggle s.hid.rxBuf := by simp only [rxToggle, hcmd]
  have hlast : rxLast h.rxBuf = rxLast s.hid.rxBuf := by simp only [rxLast, hcmd]
  have hchunk : chunkLen h.rxBuf = chunkLen s.hid.rxBuf := by simp only [chunkLen, hlen, rxSegDataSize, hcmd]
  simp only [State.segmentArrived, setHid_hid_eq hr, hchunk, setHid_opSub]
  refine twin_ite (by rw [hrxtog, htog]; rfl) (fun _ => twin_failSdo hr _) fun _ => ?_
  cases chunkLen s.hid.rxBuf with
  | none => exact twin_failSdo hr _
  | some n =>
    exact twin_ite Iff.rfl (fun _ => twin_failSdo hr _) fun _ =>
      twin_ite (by rw [hoff, setHid_op]) (fun _ => twin_failSdo hr _) fun _ =>
        twin_goto hr ⟨hready, hprog, hlast, slice_of_take hresp (by omega)⟩

/-- A completion to come reads nothing more, whatever was written before it. -/
theorem twin_setHid_finishSdo (hr : Runnable s) (k k' : Hidden) (r0 r1 r2 r3 : Word) :
    Twin i ((s.setHid k).finishSdo r0 r1 r2 r3) (((s.setHid h).setHid k').finishSdo r0 r1 r2 r3) := by
  have := twin_finishSdo (i := i) (h := k') ((runnable_setHid s k).2 hr) r0 r1 r2 r3
  rwa [setHid_setHid, ← setHid_setHid s h k'] at this

theorem twin_storeChunk (hr : Runnable s) {first : BitVec 3} {n : Nat}
    (hl : LiveAgree (.sdrd slv idx) s (.chunk first n) s.hid h) :
    Twin (.sdrd slv idx) (s.storeChunk first n) ((s.setHid h).storeChunk first n) := by
  obtain ⟨hready, ⟨htog, hoff, hcnt⟩, hlast, hslice⟩ := hl
  have hrw : ∀ a bs, Runnable (s.bmWrite a bs) := fun _ _ => hr
  simp only [State.storeChunk, setHid_hid_eq hr, setHid_op, setHid_bmWrite, htog, hoff, hcnt, hslice]
  exact twin_ite (by rw [hlast]) (fun _ => twin_setHid_finishSdo (hrw _ _) _ _ _ _ _ _) fun _ =>
    twin_setHid_goto (hrw _ _) ⟨hready, fun _ _ => ⟨rfl, rfl, rfl⟩⟩

/-- The counter step before a request. -/
theorem twin_takeAndBuild (hr : Runnable s) {ph : Phase} {b b' : BitVec 3 → List Byte}
    (hi : Exchanging i slv idx ph) (hready : s.configured slv = true) (hb : b' = b)
    (hprog : ∀ f, ph = .segment f → SameProgress s.hid h) :
    Twin i (s.takeAndBuild slv ph b) ((s.setHid h).takeAndBuild slv ph b') := by
  have hrt : Runnable (s.takeCounter slv) := hr
  have hready' := (Aside.count (s := s) slv).keeps slv hready
  simp only [State.takeAndBuild, setHid_takeCounter, setHid_slave, hb, setHid_hid_eq hrt]
  exact twin_setHid_goto hrt ((liveAgree_exch hi).2 ⟨hready'.1, ⟨rfl, rfl⟩, hprog⟩)

/-! ## A step of twins -/

/-- What a step of twins may rely on. -/
structure TwinPre (i : Instr) (s : State) (h : Hidden) : Prop where
  run : Runnable s
  slaves : s.slaves.all (slaveOk s.params.maxMbxLen) = true
  live : LiveAgree i s s.micro s.hid h

theorem TwinPre.raise (hp : TwinPre i s h) (e : Err) : Twin i (s.raise e) ((s.setHid h).raise e) := by
  rw [setHid_raise]
  exact twin_complete hp.run _

theorem TwinPre.raiseSdo (hp : TwinPre i s h) (e : Err) : Twin i (s.raiseSdo e) ((s.setHid h).raiseSdo e) := by
  rw [setHid_raiseSdo]
  exact twin_complete hp.run _

theorem TwinPre.complete (hp : TwinPre i s h) (c : Completion) :
    Twin i (s.complete c) ((s.setHid h).complete c) := by
  rw [setHid_complete]
  exact twin_complete hp.run _

/-- Where both results are next states, these are twins. -/
def TwinResult (i : Instr) (r r' : Result) : Prop := ∀ t t', r = .next t → r' = .next t' → Twin i t t'

theorem twinResult_next (ht : Twin i t t') : TwinResult i (.next t) (.next t') := by
  rintro _ _ ⟨⟩ ⟨⟩
  exact ht

theorem twinResult_fault {e : Fault} {r' : Result} : TwinResult i (.fault e) r' := nofun

theorem twin_execMdrn (hp : TwinPre (.mdrn slv) s h) :
    TwinResult (.mdrn slv) (execMdrn slv s) (execMdrn slv (s.setHid h)) := by
  have hrt : ∀ op, Runnable (s.transact op) := fun _ => hp.run
  simp only [execMdrn, setHid_micro]
  generalize hm : s.micro = m
  split
  · exact twinResult_next <| twin_ite Iff.rfl (fun _ => twin_goto hp.run trivial) fun _ => hp.raise _
  · exact twinResult_next <| twin_drainStatus (fun op => twin_fail (hrt op)) (fun op => twin_goto (hrt op) trivial)
      fun op => twin_finish (hrt op) _
  · exact twinResult_next <| twin_transport (twin_fail (hrt _)) fun _ _ => twin_finish (hrt _) _
  · exact twinResult_next <| hp.complete _
  · exact twinResult_fault

theorem twin_execMacq (hp : TwinPre (.macq slv) s h) :
    TwinResult (.macq slv) (execMacq slv s) (execMacq slv (s.setHid h)) := by
  have hrt : ∀ op, Runnable (s.transact op) := fun _ => hp.run
  simp only [execMacq, setHid_micro]
  generalize hm : s.micro = m
  split
  · exact twinResult_next <| twin_ite Iff.rfl (fun _ => twin_goto hp.run trivial) fun _ => hp.raise _
  · exact twinResult_next <| twin_pollMailbox hp.raise (fun op => twin_fail (hrt op)) (fun op => twin_finish (hrt op) _) hp.live
  · exact twinResult_next <| hp.complete _
  · exact twinResult_fault

theorem twin_execMsnd (hp : TwinPre (.msnd slv) s h) :
    TwinResult (.msnd slv) (execMsnd slv s) (execMsnd slv (s.setHid h)) := by
  have hrt : ∀ op, Runnable (s.transact op) := fun _ => hp.run
  simp only [execMsnd, setHid_micro, setHid_op, setHid_bmRead, setHid_slave]
  generalize hm : s.micro = m
  split
  · exact twinResult_next <| twin_ite Iff.rfl (fun _ => hp.raise _) fun _ => twin_ite Iff.rfl (fun _ => hp.raise _) fun _ =>
      twin_ite Iff.rfl (fun _ => hp.raise _) fun _ => twin_goto hp.run trivial
  · refine twinResult_next <| twin_transport (twin_fail (hrt _)) fun _ _ => ?_
    rw [setHid_op]
    exact twin_finish (hrt _) _
  · exact twinResult_next <| hp.complete _
  · exact twinResult_fault

theorem twin_execMawt (hp : TwinPre (.mawt slv) s h) :
    TwinResult (.mawt slv) (execMawt slv s) (execMawt slv (s.setHid h)) := by
  have hrt : ∀ op, Runnable (s.transact op) := fun _ => hp.run
  simp only [execMawt, setHid_micro, setHid_op, setHid_slave]
  generalize hm : s.micro = m
  split
  · exact twinResult_next <| twin_ite Iff.rfl (fun _ => hp.raise _) fun _ => twin_ite Iff.rfl (fun _ => hp.raise _) fun _ =>
      twin_ite Iff.rfl (fun _ => hp.raise _) fun _ => twin_goto hp.run trivial
  · exact twinResult_next <| twin_pollMailbox hp.raise (fun op => twin_fail (hrt op)) (fun op => twin_goto (hrt op) trivial) hp.live
  · refine twinResult_next <| twin_transport (twin_fail (hrt _)) fun rx hrx => ?_
    have hlen : rx.length = (s.slave slv).rLen.toNat := answer_length hrx
    simp only [State.keepMailbox, setHid_hid_eq (hrt _)]
    refine twin_setHid_goto (hrt _) ?_
    show List.take (s.slave slv).rLen.toNat _ = List.take (s.slave slv).rLen.toNat _
    rw [← hlen, List.take_left, List.take_left]
  · refine twinResult_next ?_
    have hlive : h.rxBuf.take (s.slave slv).rLen.toNat = s.hid.rxBuf.take (s.slave slv).rLen.toNat := by
      have := hp.live
      rwa [hm] at this
    rw [setHid_hid_eq hp.run, hlive, setHid_bmWrite]
    exact twin_finish (s := s.bmWrite _ _) hp.run _
  · exact twinResult_next <| hp.complete _
  · exact twinResult_fault

theorem twin_execSdwr (hp : TwinPre (.sdwr slv idx) s h) :
    TwinResult (.sdwr slv idx) (execSdwr slv idx s) (execSdwr slv idx (s.setHid h)) := by
  have hlive := hp.live
  simp only [execSdwr, setHid_micro, setHid_op, setHid_opCa, setHid_opSub, setHid_bmRead]
  generalize hm : s.micro = m
  split
  · exact twinResult_next <| twin_ite Iff.rfl (fun _ => hp.raiseSdo _) fun hready => twin_ite Iff.rfl (fun _ => hp.raiseSdo _) fun _ =>
      twin_ite Iff.rfl (fun _ => hp.raiseSdo _) fun _ =>
        twin_setXs_goto hp.run ⟨by simpa using hready, fun _ hph => nomatch hph⟩
  · refine twinResult_next ?_
    rw [hm] at hlive
    exact twin_takeAndBuild hp.run (.inl ⟨rfl, rfl⟩) hlive.1 rfl hlive.2
  · refine twinResult_next <| twin_exchange hp.run (.inl ⟨rfl, rfl⟩) hp.slaves hm hlive fun u k hu => ?_
    rw [setHid_op, setHid_hid_eq hu.run, hu.request.1]
    exact twin_finishSdo hu.run _ _ _ _
  · exact twinResult_next <| hp.complete _
  · exact twinResult_fault

theorem twin_execSdrd (hp : TwinPre (.sdrd slv idx) s h) :
    TwinResult (.sdrd slv idx) (execSdrd slv idx s) (execSdrd slv idx (s.setHid h)) := by
  have hlive := hp.live
  simp only [execSdrd, setHid_micro, setHid_op, setHid_opCa, setHid_opSub]
  generalize hm : s.micro = m
  split
  · exact twinResult_next <| twin_ite Iff.rfl (fun _ => hp.raiseSdo _) fun hready => twin_ite Iff.rfl (fun _ => hp.raiseSdo _) fun _ =>
      twin_setXs_goto hp.run ⟨by simpa using hready, fun _ hph => nomatch hph⟩
  · refine twinResult_next ?_
    rw [hm] at hlive
    exact twin_takeAndBuild hp.run (.inr ⟨rfl, nofun⟩) hlive.1 rfl hlive.2
  · refine twinResult_next ?_
    rw [hm] at hlive
    obtain ⟨htog, -, -⟩ := hlive.2 _ rfl
    exact twin_takeAndBuild hp.run (.inr ⟨rfl, nofun⟩) hlive.1 (by rw [setHid_hid_eq hp.run, htog]) hlive.2
  · exact twinResult_next <| twin_exchange hp.run (.inr ⟨rfl, nofun⟩) hp.slaves hm hlive fun _ _ => twin_classify
  · exact twinResult_next <| twin_exchange hp.run (.inr ⟨rfl, nofun⟩) hp.slaves hm hlive fun _ _ => twin_segmentArrived
  · refine twinResult_next ?_
    rw [hm] at hlive
    obtain ⟨hcnt, hslice⟩ := hlive
    rw [setHid_hid_eq hp.run, hcnt, hslice, setHid_bmWrite]
    exact twin_finishSdo (s := s.bmWrite _ _) hp.run _ _ _ _
  · refine twinResult_next ?_
    rw [hm] at hlive
    exact twin_storeChunk hp.run hlive
  · exact twinResult_next <| hp.complete _
  · exact twinResult_fault

theorem twin_execAlrq {st : BitVec 4} (hp : TwinPre (.alrq slv st) s h) :
    TwinResult (.alrq slv st) (execAlrq slv st s) (execAlrq slv st (s.setHid h)) := by
  have hrt : ∀ op, Runnable (s.transact op) := fun _ => hp.run
  simp only [execAlrq, setHid_micro]
  generalize hm : s.micro = m
  split
  · exact twinResult_next <| twin_ite Iff.rfl (fun _ => twin_goto hp.run trivial) fun _ => hp.raise _
  · exact twinResult_next <| twin_transport (twin_fail (hrt _)) fun _ _ => twin_ite Iff.rfl (fun _ => twin_fail (hrt _) _) fun _ =>
      twin_ite Iff.rfl (fun _ => twin_goto (hrt _) trivial) fun _ => twin_finish (hrt _) _
  · exact twinResult_next <| twin_transport (twin_fail (hrt _)) fun _ _ => twin_fail (hrt _) _
  · exact twinResult_next <| hp.complete _
  · exact twinResult_fault

theorem twin_execAlwt {st : BitVec 4} (hp : TwinPre (.alwt slv st) s h) :
    TwinResult (.alwt slv st) (execAlwt slv st s) (execAlwt slv st (s.setHid h)) := by
  have hrt : ∀ op, Runnable (s.transact op) := fun _ => hp.run
  simp only [execAlwt, setHid_micro]
  generalize hm : s.micro = m
  split
  · exact twinResult_next <| twin_ite Iff.rfl (fun _ => twin_goto hp.run trivial) fun _ => hp.raise _
  · refine twinResult_next <| twin_ite Iff.rfl (fun _ => hp.raise _) fun _ => twin_transport (twin_fail (hrt _)) fun _ _ =>
      twin_ite Iff.rfl (fun _ => twin_fail (hrt _) _) fun _ => twin_ite Iff.rfl (fun _ => twin_finish (hrt _) _)
        fun _ => ⟨h, rfl, (liveAgree_congr (s := s) (t := s.transact _) rfl).mpr hp.live⟩
  · exact twinResult_next <| hp.complete _
  · exact twinResult_fault

/-- A step of every command is a step of twins. -/
theorem twin_exec (hp : TwinPre i s h) : TwinResult i (exec i s) (exec i (s.setHid h)) := by
  cases i
  case mdrn => exact twin_execMdrn hp
  case macq => exact twin_execMacq hp
  case msnd => exact twin_execMsnd hp
  case mawt => exact twin_execMawt hp
  case sdwr => exact twin_execSdwr hp
  case sdrd => exact twin_execSdrd hp
  case alrq => exact twin_execAlrq hp
  case alwt => exact twin_execAlwt hp
  all_goals
    rw [exec_setHid_of_oneStep rfl]
    intro t t' ht ht'
    obtain rfl : t = t' := by simpa using ht.symm.trans ht'
    exact ⟨t.hid, (setHid_hid t).symm, by cases t.micro <;> trivial⟩

/-! ## Runs of twins -/

/-- After a step twins are again what a step of twins may rely on. -/
theorem TwinPre.step (hp : TwinPre i s h) (hx : exec i s = .next t) (hl : LiveAgree i t t.micro t.hid k) :
    TwinPre i t k := by
  obtain ⟨hparams, -, -, hports, -, -, -, -, hactive, -⟩ := (exec_shape hx).untouched
  refine ⟨?_, ?_, hl⟩
  · rw [Runnable, hports, hactive]
    exact hp.run
  · obtain ⟨u, haside, hmoves⟩ := exec_shape hx
    obtain ⟨-, hslaves, -⟩ := hmoves.same
    rw [hparams, hslaves]
    exact haside.slavesOk hp.slaves

theorem TwinPre.draw (hp : TwinPre i s h) (d : Draw) : TwinPre i { s with draw := d } h :=
  ⟨hp.run, hp.slaves, (liveAgree_congr rfl).mpr hp.live⟩

/-- The step of a run that goes on. -/
theorem runCommand_cons_next {d : Draw} {ds : List Draw} {u : State} (hx : runCommand i (d :: ds) s = .next u) :
    ∃ t, exec i { s with draw := d } = .next t ∧ runCommand i ds t = .next u := by
  simp only [runCommand] at hx
  split at hx
  · exact ⟨_, ‹_›, hx⟩
  · cases hx
  · cases hx

theorem runCommand_twin {ds : List Draw} (hp : TwinPre i s h) {t' : State} (hx : runCommand i ds s = .next t)
    (hx' : runCommand i ds (s.setHid h) = .next t') : ∃ k, t' = t.setHid k ∧ Runnable t := by
  induction ds generalizing s h with
  | nil =>
    cases hx
    cases hx'
    exact ⟨h, rfl, hp.run⟩
  | cons d ds ih =>
    obtain ⟨u, hu, hrun⟩ := runCommand_cons_next hx
    obtain ⟨u', hu', hrun'⟩ := runCommand_cons_next hx'
    obtain ⟨k, rfl, hlive⟩ := twin_exec (hp.draw d) u u' hu hu'
    exact ih ((hp.draw d).step hu hlive) hrun hrun'

/-- Settles O23, by induction on the draws: the two runs stay twins, that is, they differ only in hidden registers
that the command does not read from there on (`LiveAgree`), and at its start that is every one of them. -/
theorem earlierHiddenStateIsNeverRead : Obligations.EarlierHiddenStateIsNeverRead := by
  intro i s h ds t t' hat hsl hx hx'
  have hp : TwinPre i s h := ⟨hat.1, hsl, by rw [micro_of_at hat]; exact liveAgree_start⟩
  obtain ⟨k, rfl, hr⟩ := runCommand_twin hp hx hx'
  rw [setHid_port hr]
  exact ⟨rfl, rfl, rfl, rfl, rfl, rfl⟩

end Sys2Proof.Machine

/-! # Encoding and decoding -/

namespace Sys2Proof

open Laws (row)

/-! ## The row of a command -/

/-- The command of `i`'s row of the opcode map whose fields are those of the word `w` (30_encoding.md R91 to R97). -/
def Instr.withFieldsOf (w : Word) : Instr → Instr
  | .fins _ _ => .fins (offField w) (byteField w)
  | .fext _ _ => .fext (offField w) (byteField w)
  | .bins _ _ => .bins (offField w) (byteField w)
  | .bext _ _ => .bext (offField w) (byteField w)
  | .lest _ => .lest (byteField w)
  | .leld _ => .leld (byteField w)
  | .bapk => .bapk
  | .baup => .baup
  | .ence _ => .ence (idField w)
  | .encd _ => .encd (idField w)
  | .pack _ _ => .pack (idField w) (clrField w)
  | .unpk _ => .unpk (idField w)
  | .scfg _ => .scfg (idField w)
  | .cnxt _ => .cnxt (idField w)
  | .mdrn _ => .mdrn (idField w)
  | .macq _ => .macq (idField w)
  | .msnd _ => .msnd (idField w)
  | .mawt _ => .mawt (idField w)
  | .sdwr _ _ => .sdwr (idField w) (idxField w)
  | .sdrd _ _ => .sdrd (idField w) (idxField w)
  | .alrq _ _ => .alrq (idField w) (stField w)
  | .alwt _ _ => .alwt (idField w) (stField w)

theorem row_withFieldsOf (w : Word) (i : Instr) : row (i.withFieldsOf w) = row i := by
  cases i <;> rfl

theorem withFieldsOf_withFieldsOf (w : Word) (i : Instr) :
    (i.withFieldsOf w).withFieldsOf w = i.withFieldsOf w := by
  cases i <;> rfl

/-! ## The decoder, by rows -/

theorem checked_eq_ok_iff {w resv : Word} {i j : Instr} :
    checked w resv j = .ok i ↔ w &&& resv = 0#32 ∧ j = i := by
  unfold checked
  split <;> simp [*]

/-- The decoder tells the row from `OPC` alone (30_encoding.md R90). -/
theorem decode_of_opcField {w : Word} {i : Instr} (h : opcField w = (row i).1) :
    decode w = checked w (row i).2 (i.withFieldsOf w) := by
  unfold decode
  rw [h]
  cases i <;> rfl

/-- A word decodes only by the row of its opcode. -/
theorem opcField_of_decode {w : Word} {i : Instr} (h : decode w = .ok i) : opcField w = (row i).1 := by
  unfold decode at h
  split at h
  case h_23 => cases h
  all_goals
    obtain ⟨-, rfl⟩ := checked_eq_ok_iff.1 h
    assumption

/-- What a word that decodes to `i` is: `OPC` and the reserved bits are as in the row of `i`, and the fields hold
the operands of `i` (30_encoding.md R90, R103). -/
theorem decode_eq_ok_iff {w : Word} {i : Instr} :
    decode w = .ok i ↔ opcField w = (row i).1 ∧ w &&& (row i).2 = 0#32 ∧ i.withFieldsOf w = i := by
  constructor
  · intro h
    have ho := opcField_of_decode h
    rw [decode_of_opcField ho] at h
    exact ⟨ho, checked_eq_ok_iff.1 h⟩
  · rintro ⟨ho, h⟩
    rw [decode_of_opcField ho]
    exact checked_eq_ok_iff.2 h

/-- A word decodes exactly where it has the opcode and the reserved bits of some command's row. -/
theorem exists_decode_iff {w : Word} :
    (∃ i, decode w = .ok i) ↔ ∃ i, opcField w = (row i).1 ∧ w &&& (row i).2 = 0#32 := by
  constructor
  · rintro ⟨i, h⟩
    obtain ⟨ho, hr, -⟩ := decode_eq_ok_iff.1 h
    exact ⟨i, ho, hr⟩
  · rintro ⟨i, ho, hr⟩
    refine ⟨i.withFieldsOf w, decode_eq_ok_iff.2 ?_⟩
    rw [row_withFieldsOf]
    exact ⟨ho, hr, withFieldsOf_withFieldsOf w i⟩

/-! ## The fields of each format's word -/

section Fields

variable (opc id nb wid : BitVec 8) (off : BitVec 3) (clr : BitVec 1) (idx : BitVec 16) (st : BitVec 4)

theorem offField_encF : offField (encF opc off wid) = off := by
  apply BitVec.eq_of_toNat_eq; rw [offField_toNat, encF_toNat]; omega
theorem byteField_encF : byteField (encF opc off wid) = wid := by
  apply BitVec.eq_of_toNat_eq; rw [byteField_toNat, encF_toNat]; omega
theorem byteField_encN : byteField (encN opc nb) = nb := by
  apply BitVec.eq_of_toNat_eq; rw [byteField_toNat, encN_toNat]; omega
theorem idField_encId : idField (encId opc id) = id := by
  apply BitVec.eq_of_toNat_eq; rw [idField_toNat, encId_toNat]; omega
theorem idField_encL : idField (encL opc id clr) = id := by
  apply BitVec.eq_of_toNat_eq; rw [idField_toNat, encL_toNat]; omega
theorem clrField_encL : clrField (encL opc id clr) = clr := by
  apply BitVec.eq_of_toNat_eq; rw [clrField_toNat, encL_toNat]; omega
theorem idField_encS : idField (encS opc id idx) = id := by
  apply BitVec.eq_of_toNat_eq; rw [idField_toNat, encS_toNat]; omega
theorem idxField_encS : idxField (encS opc id idx) = idx := by
  apply BitVec.eq_of_toNat_eq; rw [idxField_toNat, encS_toNat]; omega
theorem idField_encA : idField (encA opc id st) = id := by
  apply BitVec.eq_of_toNat_eq; rw [idField_toNat, encA_toNat]; omega
theorem stField_encA : stField (encA opc id st) = st := by
  apply BitVec.eq_of_toNat_eq; rw [stField_toNat, encA_toNat]; omega

end Fields

/-- The word of a command holds its operands. -/
theorem withFieldsOf_encode (i : Instr) : i.withFieldsOf (encode i) = i := by
  cases i <;> simp only [Instr.withFieldsOf, encode, offField_encF, byteField_encF, byteField_encN, idField_encId,
    idField_encL, clrField_encL, idField_encS, idxField_encS, idField_encA, stField_encA]

/-- The word of every command has the opcode and the reserved bits of its row: the family `Laws.Opcode`. -/
theorem opcode_statement : ∀ i : Instr, Laws.Opcode.Statement i
  | .fins _ _ => Laws.Opcode.fins _ _
  | .fext _ _ => Laws.Opcode.fext _ _
  | .bins _ _ => Laws.Opcode.bins _ _
  | .bext _ _ => Laws.Opcode.bext _ _
  | .lest _ => Laws.Opcode.lest _
  | .leld _ => Laws.Opcode.leld _
  | .bapk => Laws.Opcode.bapk
  | .baup => Laws.Opcode.baup
  | .ence _ => Laws.Opcode.ence _
  | .encd _ => Laws.Opcode.encd _
  | .pack _ _ => Laws.Opcode.pack _ _
  | .unpk _ => Laws.Opcode.unpk _
  | .scfg _ => Laws.Opcode.scfg _
  | .cnxt _ => Laws.Opcode.cnxt _
  | .mdrn _ => Laws.Opcode.mdrn _
  | .macq _ => Laws.Opcode.macq _
  | .msnd _ => Laws.Opcode.msnd _
  | .mawt _ => Laws.Opcode.mawt _
  | .sdwr _ _ => Laws.Opcode.sdwr _ _
  | .sdrd _ _ => Laws.Opcode.sdrd _ _
  | .alrq _ _ => Laws.Opcode.alrq _ _
  | .alwt _ _ => Laws.Opcode.alwt _ _

/-- Settles O1: the word of a command has the opcode and the reserved bits of its row (the family `Laws.Opcode`)
and holds its operands, which is what the decoder asks of a word of that command. -/
theorem decodeAfterEncodeIsIdentity : Obligations.DecodeAfterEncodeIsIdentity := fun i =>
  have ⟨hopc, hresv⟩ := opcode_statement i
  decode_eq_ok_iff.2 ⟨hopc, hresv, withFieldsOf_encode i⟩

/-! ## A word put together again from its fields -/

section Rebuild

variable {w : Word} {opc : BitVec 8}

theorem encF_fields (ho : opcField w = opc) (hr : w &&& 0x00F800FF#32 = 0#32) :
    encF opc (offField w) (byteField w) = w := by
  subst ho
  rw [reservedF] at hr
  apply BitVec.eq_of_toNat_eq
  rw [encF_toNat, opcField_toNat, offField_toNat, byteField_toNat]
  omega
theorem encN_fields (ho : opcField w = opc) (hr : w &&& 0x00FF00FF#32 = 0#32) :
    encN opc (byteField w) = w := by
  subst ho
  rw [reservedN] at hr
  apply BitVec.eq_of_toNat_eq
  rw [encN_toNat, opcField_toNat, byteField_toNat]
  omega
theorem encZ_fields (ho : opcField w = opc) (hr : w &&& 0x00FFFFFF#32 = 0#32) :
    encZ opc = w := by
  subst ho
  rw [reservedZ] at hr
  apply BitVec.eq_of_toNat_eq
  rw [encZ_toNat, opcField_toNat]
  omega
theorem encId_fields (ho : opcField w = opc) (hr : w &&& 0x0000FFFF#32 = 0#32) :
    encId opc (idField w) = w := by
  subst ho
  rw [reservedId] at hr
  apply BitVec.eq_of_toNat_eq
  rw [encId_toNat, opcField_toNat, idField_toNat]
  omega
theorem encL_fields (ho : opcField w = opc) (hr : w &&& 0x0000FFFE#32 = 0#32) :
    encL opc (idField w) (clrField w) = w := by
  subst ho
  rw [reservedL] at hr
  apply BitVec.eq_of_toNat_eq
  rw [encL_toNat, opcField_toNat, idField_toNat, clrField_toNat]
  omega
theorem encS_fields (ho : opcField w = opc) : encS opc (idField w) (idxField w) = w := by
  subst ho
  apply BitVec.eq_of_toNat_eq
  rw [encS_toNat, opcField_toNat, idField_toNat, idxField_toNat]
  omega
theorem encA_fields (ho : opcField w = opc) (hr : w &&& 0x0000FFF0#32 = 0#32) :
    encA opc (idField w) (stField w) = w := by
  subst ho
  rw [reservedA] at hr
  apply BitVec.eq_of_toNat_eq
  rw [encA_toNat, opcField_toNat, idField_toNat, stField_toNat]
  omega

/-- A word with the opcode and the reserved bits of a row is the word of that row's command with its fields. -/
theorem encode_withFieldsOf {i : Instr} (ho : opcField w = (row i).1) (hr : w &&& (row i).2 = 0#32) :
    encode (i.withFieldsOf w) = w := by
  cases i
  case fins | fext | bins | bext => exact encF_fields ho hr
  case lest | leld => exact encN_fields ho hr
  case bapk | baup => exact encZ_fields ho hr
  case ence | encd | unpk | scfg | cnxt | mdrn | macq | msnd | mawt => exact encId_fields ho hr
  case pack => exact encL_fields ho hr
  case sdwr | sdrd => exact encS_fields ho
  case alrq | alwt => exact encA_fields ho hr

end Rebuild

/-- Settles O2: a word that decodes to `i` has the opcode and the reserved bits of the row of `i` and fields that
hold the operands of `i`, and nothing else is in a word. -/
theorem encodeAfterDecodeIsIdentity : Obligations.EncodeAfterDecodeIsIdentity := by
  intro w i h
  obtain ⟨hopc, hresv, hfields⟩ := decode_eq_ok_iff.1 h
  rw [← hfields]
  exact encode_withFieldsOf hopc hresv


/-! ## The opcode map -/

/-- A command of each row of the opcode map, in the order of 30_encoding.md R102. -/
def rowCommands : List Instr :=
  [.fins 0 0, .fext 0 0, .bins 0 0, .bext 0 0, .lest 0, .leld 0, .bapk, .baup, .ence 0, .encd 0, .pack 0 0, .unpk 0,
    .scfg 0, .cnxt 0, .mdrn 0, .macq 0, .msnd 0, .mawt 0, .sdwr 0 0, .sdrd 0 0, .alrq 0 0, .alwt 0 0]

/-- Every command has the row of one of them. -/
theorem exists_rowCommands (i : Instr) : ∃ j ∈ rowCommands, row j = row i := by
  rw [← List.mem_map]
  cases i <;> exact of_decide_eq_true rfl

/-- The rows of the opcode map are those of the commands: the mask fixes `OPC` and the reserved bits, and the value
is the opcode over zeros. -/
theorem opcodeRows_eq :
    opcodeRows = rowCommands.map fun i => (0xFF000000#32 ||| (row i).2, encZ (row i).1) := by
  decide

/-- The mask of `OPC` keeps the opcode over zeros. -/
theorem and_opcMask (w : Word) : w &&& 0xFF000000#32 = encZ (opcField w) := by
  have hw : (opcField w ++ w.extractLsb' 0 24 : BitVec (8 + 24)) = w := BitVec.extractLsb'_append_extractLsb'
  calc w &&& 0xFF000000#32
      = (opcField w ++ w.extractLsb' 0 24 : BitVec (8 + 24)) &&& (BitVec.allOnes 8 ++ 0#24) := by rw [hw]; rfl
    _ = encZ (opcField w) := by rw [BitVec.and_append, BitVec.and_allOnes, BitVec.and_zero]; rfl

/-- Bits below an opcode change the word unless they are 0. -/
theorem encZ_or_eq_encZ_iff {a b : BitVec 8} {x : Word} (h : opcField x = 0#8) :
    encZ a ||| x = encZ b ↔ a = b ∧ x = 0#32 := by
  have hx : x.toNat < 2 ^ 24 := by
    have := opcField_toNat x
    rw [h, BitVec.toNat_ofNat] at this
    omega
  simp only [← BitVec.toNat_inj, BitVec.toNat_or, encZ_toNat, BitVec.toNat_ofNat]
  rw [← Nat.shiftLeft_eq, ← Nat.shiftLeft_add_eq_or_of_lt hx, Nat.shiftLeft_eq]
  omega

/-- A word matches a row of the opcode map where it has its opcode and its reserved bits are 0. -/
theorem and_rowMask_eq_iff {w resv : Word} {opc : BitVec 8} (h : opcField resv = 0#8) :
    w &&& (0xFF000000#32 ||| resv) = encZ opc ↔ opcField w = opc ∧ w &&& resv = 0#32 := by
  have hlow : opcField (w &&& resv) = 0#8 := by
    rw [opcField, BitVec.extractLsb'_and, ← opcField, ← opcField, h, BitVec.and_zero]
  rw [BitVec.and_or_distrib_left, and_opcMask, encZ_or_eq_encZ_iff hlow]

theorem opcField_row_snd (i : Instr) : opcField (row i).2 = 0#8 := by
  cases i <;> simp only [row] <;> decide

/-- A word matches a row of the opcode map exactly where it has the opcode and the reserved bits of some command's
row. -/
theorem exists_opcodeRows_iff {w : Word} :
    (∃ r ∈ opcodeRows, w &&& r.1 = r.2) ↔ ∃ i, opcField w = (row i).1 ∧ w &&& (row i).2 = 0#32 := by
  simp only [opcodeRows_eq, List.mem_map, exists_exists_and_eq_and, and_rowMask_eq_iff (opcField_row_snd _)]
  constructor
  · rintro ⟨i, -, h⟩
    exact ⟨i, h⟩
  · rintro ⟨i, h⟩
    obtain ⟨j, hj, hrow⟩ := exists_rowCommands i
    exact ⟨j, hj, hrow ▸ h⟩

/-- Settles O3: both sides say that the word has the opcode and the reserved bits of some command's row. -/
theorem decodesExactlyTheOpcodeMap : Obligations.DecodesExactlyTheOpcodeMap := fun _ =>
  exists_decode_iff.trans exists_opcodeRows_iff.symm

/-- Settles O4: each word evaluates. -/
theorem writtenWordsDecode : Obligations.WrittenWordsDecode := by
  unfold Obligations.WrittenWordsDecode
  decide

end Sys2Proof

/-! # Illegal words, and the requests of the SDO commands -/

namespace Sys2Proof.Machine

open Laws (row)

/-! ## Words with a field out of its range -/

theorem mem_byteCounts_iff {nb : BitVec 8} : nb ∈ byteCounts ↔ nb.toNat ∈ [1, 2, 4, 8] := by
  simp [byteCounts, ← BitVec.toNat_inj]

theorem mem_stateCodes_iff {st : BitVec 4} : st ∈ stateCodes ↔ st.toNat ∈ [1, 2, 3, 4, 8] := by
  simp [stateCodes, ← BitVec.toNat_inj]

theorem countLegal_eq_contains (nb : BitVec 8) : countLegal nb = byteCounts.contains nb := by
  rw [Bool.eq_iff_iff, countLegal_iff, List.contains_iff_mem, mem_byteCounts_iff]

theorem alLegal_of_not_stateCode {st : BitVec 4} (h : stateCodes.contains st = false) (s : State) (slv : BitVec 8) :
    s.alLegal slv st = false := by
  simp_all [State.alLegal, isStateCode, stateCodes]

/-- The fields of a word are in their ranges exactly where the command it decodes to is well formed. -/
theorem legalFields_iff_wf {w : Word} {i : Instr} (h : decode w = .ok i) : legalFields w ↔ i.wf = true := by
  obtain ⟨hopc, -, hfields⟩ := decode_eq_ok_iff.1 h
  have hnum : w.toNat / 2 ^ 24 = (row i).1.toNat := by rw [← opcField_toNat, hopc]
  rw [← hfields, legalFields, hnum]
  cases i
  case fins | fext =>
    simp [row, Instr.withFieldsOf, Instr.wf, narrowOk, offField_toNat, byteField_toNat]
  case bins | bext =>
    simp [row, Instr.withFieldsOf, Instr.wf, ← BitVec.toNat_inj, byteField_toNat]
  case lest | leld =>
    simp [row, Instr.withFieldsOf, Instr.wf, mem_byteCounts_iff, byteField_toNat]
  case alrq | alwt =>
    simp [row, Instr.withFieldsOf, Instr.wf, mem_stateCodes_iff, stField_toNat]
  all_goals simp [row, Instr.withFieldsOf, Instr.wf]

/-- A command that is not well formed raises IllegalCommand in its first step (30_encoding.md R103). -/
theorem exec_of_not_wf {i : Instr} {s : State} (h : i.wf = false) (hm : s.micro = .start) :
    exec i s = .next (s.raise .illegalCommand) := by
  cases i
  case fins | fext | bins | bext => exact congrArg _ (onBuffer_illegal h)
  case lest nb | leld nb => exact congrArg _ (onBuffer_illegal ((countLegal_eq_contains nb).trans h))
  case alrq slv st => simp [exec, execAlrq, hm, alLegal_of_not_stateCode h]
  case alwt slv st => simp [exec, execAlwt, hm, alLegal_of_not_stateCode h]
  all_goals cases h

/-- An illegal word at the start of a port's command: the step raises IllegalCommand. -/
theorem portStep_of_illegal {s : State} {p : Nat} {d : Draw} {pt : Port} (hp : s.ports[p]? = some pt)
    (hb : pt.pst = .busy .start) (h : ¬((∃ r ∈ opcodeRows, pt.cmd &&& r.1 = r.2) ∧ legalFields pt.cmd)) :
    portStep s p d = .next ((s.select p d).raise .illegalCommand) := by
  have hm : (s.select p d).micro = .start := micro_of_busy (by rw [select_port hp, hb])
  simp only [portStep, hp, hb]
  split
  · rfl
  · rename_i i hd
    refine exec_of_not_wf (Bool.eq_false_iff.2 fun hw => h ⟨?_, (legalFields_iff_wf hd).2 hw⟩) hm
    exact (decodesExactlyTheOpcodeMap pt.cmd).1 ⟨i, hd⟩

/-- Settles O6: the port's step is one `raise` (`portStep_of_illegal`), by the decoder for a word that matches no row
and by the command's own rule for a field out of its range. -/
theorem illegalWordCompletesAtOnce : Obligations.IllegalWordCompletesAtOnce := by
  intro s p d rest pt ha hp hb h
  have hr : Runnable ({ s with agenda := rest }.select p d) := runnable_select (s := { s with agenda := rest }) hp
  refine ⟨_, ?_, untouched_raise _ _, fun _ => rfl, ⟨rfl, rfl⟩, done_raise hr .illegalCommand⟩
  rw [step_cons ha]
  exact portStep_of_illegal (s := { s with agenda := rest }) hp hb h

/-! ## Requests -/

theorem opCa_toNat (s : State) : s.opCa.toNat = (s.port.op[2]).toNat / 256 % 2 := by
  rw [State.opCa, BitVec.extractLsb'_toNat, Nat.shiftRight_eq_div_pow]

theorem initiateByte_eq (cs : BitVec 3) (ca : BitVec 1) (size : BitVec 2) (expedited sizeInd : BitVec 1) :
    initiateByte cs ca size expedited sizeInd = BitVec.ofNat 8
      (cs.toNat * 32 + ca.toNat * 16 + size.toNat * 4 + expedited.toNat * 2 + sizeInd.toNat) := by
  apply BitVec.eq_of_toNat_eq
  simp only [initiateByte, Sys2Proof.toNat_append, BitVec.toNat_ofNat]
  omega

theorem segmentByte_eq (cs : BitVec 3) (toggle : BitVec 1) (size : BitVec 3) (last : BitVec 1) :
    segmentByte cs toggle size last = BitVec.ofNat 8
      (cs.toNat * 32 + toggle.toNat * 16 + size.toNat * 2 + last.toNat) := by
  apply BitVec.eq_of_toNat_eq
  simp only [segmentByte, Sys2Proof.toNat_append, BitVec.toNat_ofNat]
  omega

/-- Bytes that fit are padded, never cut. -/
theorem fitBytes_of_length_le {n : Nat} {bs : List Byte} (h : bs.length ≤ n) :
    fitBytes n bs = bs ++ List.replicate (n - bs.length) 0 :=
  List.take_of_length_le (by simp [zeros]; omega)

/-- Every request starts with the mailbox and CoE headers and its SDO command byte (30_encoding.md R116). -/
def requestStart (c : BitVec 3) (b8 : Nat) : List Byte :=
  [0x0A, 0x00, 0x00, 0x00, 0x00, BitVec.ofNat 8 (0x03 + c.toNat * 16), 0x00, 0x20, BitVec.ofNat 8 b8]

theorem header_append_eq_requestStart (c : BitVec 3) (b8 : Nat) :
    mailboxHeader 10 c ++ coeHeader ++ [BitVec.ofNat 8 b8] = requestStart c b8 := by
  rw [request_head]
  rfl

theorem downloadRequest_eq {n : Nat} (h1 : 1 ≤ n) (h4 : n ≤ 4) {val : List Byte} (hv : val.length = n)
    (c : BitVec 3) (ca : BitVec 1) (idx : BitVec 16) (sub : Byte) : downloadRequest c ca n idx sub val =
      requestStart c (0x20 + ca.toNat * 16 + (4 - n) * 4 + 0x03) ++ [idx.extractLsb' 0 8, idx.extractLsb' 8 8, sub] ++
        val ++ List.replicate (4 - n) 0 := by
  have hb : initiateByte 1#3 ca (BitVec.ofNat 2 (4 - n)) 1#1 1#1 =
      BitVec.ofNat 8 (0x20 + ca.toNat * 16 + (4 - n) * 4 + 0x03) := by
    have hsize : (BitVec.ofNat 2 (4 - n)).toNat = 4 - n := Nat.mod_eq_of_lt (by omega)
    rw [initiateByte_eq, hsize]
    rfl
  rw [downloadRequest, hb, header_append_eq_requestStart, leBytes_two, fitBytes_of_length_le (hv ▸ h4), hv]
  simp

theorem uploadRequest_eq (c : BitVec 3) (ca : BitVec 1) (idx : BitVec 16) (sub : Byte) : uploadRequest c ca idx sub =
    requestStart c (0x40 + ca.toNat * 16) ++ [idx.extractLsb' 0 8, idx.extractLsb' 8 8, sub] ++
      [0x00, 0x00, 0x00, 0x00] := by
  rw [uploadRequest, initiateByte_eq, header_append_eq_requestStart, leBytes_two]
  simp [zeros]

theorem segmentRequest_eq (c : BitVec 3) (toggle : BitVec 1) :
    segmentRequest c toggle = requestStart c (0x60 + toggle.toNat * 16) ++ List.replicate 7 0 := by
  rw [segmentRequest, segmentByte_eq, header_append_eq_requestStart]
  rfl

/-- The step of command `i` is the counter step on `slv`, whose value the request `req` in `TXBUF` carries; the
exchange of phase `ph` comes next (41_mailbox.md R206). -/
def Builds (i : Instr) (s : State) (slv : BitVec 8) (ph : Phase) (req : List Byte) : Prop :=
  ∃ t, exec i s = .next t ∧ Untouched s t ∧ SameMemory s t ∧ t.wire = s.wire ∧
    t.slaves = countedSlaves s slv ∧ Goes s t (.exch ph .drainStatus) ∧
    t.port.hid = { s.port.hid with curCnt := (s.slave slv).cnt, txBuf := req }

theorem builds_of {i : Instr} {s : State} {slv : BitVec 8} {ph : Phase} {build : BitVec 3 → List Byte}
    (h : Runnable s) (hx : exec i s = .next (s.takeAndBuild slv ph build)) :
    Builds i s slv ph (build (s.slave slv).cnt) := by
  refine ⟨_, hx, untouched_takeAndBuild _ _ _ _, fun _ => rfl, rfl, takeAndBuild_slaves _ _ _ _, ?_, ?_⟩
  · rw [Goes, takeAndBuild_port h]
    exact ⟨rfl, rfl, rfl⟩
  · rw [takeAndBuild_port h]

/-- Settles O50: each counter step is `takeAndBuild`, with the request of its phase. -/
theorem requestsTakeACounterAndAreBuiltAsGiven : Obligations.RequestsTakeACounterAndAreBuiltAsGiven := by
  intro slv idx s c ca sub head lo hi built
  refine ⟨fun val hat hv h1 h4 => ?_, fun val hat => ?_, fun first val hat => ?_⟩
  · have hx : exec (.sdwr slv idx) s = .next (s.takeAndBuild slv .download fun c =>
        downloadRequest c s.opCa (s.op 1) idx s.opSub val) := by
      simp only [exec, execSdwr, micro_of_at hat]
    have hb := builds_of hat.1 hx
    rwa [downloadRequest_eq h1 h4 hv, opCa_toNat] at hb
  · have hx : exec (.sdrd slv idx) s = .next (s.takeAndBuild slv .initiate fun c =>
        uploadRequest c s.opCa idx s.opSub) := by
      simp only [exec, execSdrd, micro_of_at hat]
    have hb := builds_of hat.1 hx
    rwa [uploadRequest_eq, opCa_toNat] at hb
  · have hx : exec (.sdrd slv idx) s = .next (s.takeAndBuild slv (.segment first) fun c =>
        segmentRequest c s.hid.toggle) := by
      simp only [exec, execSdrd, micro_of_at hat]
    have hb := builds_of hat.1 hx
    rwa [segmentRequest_eq] at hb

end Sys2Proof.Machine

/-! # The bits of a packed buffer -/

namespace Sys2Proof.Machine

/-! ## Bits of byte sequences (40_codec.md R140) -/

theorem bitAt_nil (k : Nat) : bitAt [] k = false := by simp [bitAt, byteAt]

theorem bitAt_cons (b : Byte) (bs : List Byte) (k : Nat) :
    bitAt (b :: bs) k = if k < 8 then b.getLsbD k else bitAt bs (k - 8) := by
  unfold bitAt byteAt
  split_ifs with hk
  · rw [Nat.div_eq_of_lt hk, Nat.mod_eq_of_lt hk, List.getD_cons_zero]
  · obtain ⟨i, rfl⟩ : ∃ i, k = i + 8 := ⟨k - 8, by omega⟩
    rw [Nat.add_div_right _ (by decide), Nat.add_mod_right, Nat.add_sub_cancel, List.getD_cons_succ]

@[simp] theorem bitAt_zeros (n k : Nat) : bitAt (zeros n) k = false := by
  simp only [bitAt, byteAt, zeros, List.getD_eq_getElem?_getD, List.getElem?_replicate]
  split_ifs <;> simp

/-- Byte sequences of one length with the same bits are the same. -/
theorem eq_of_bitAt {xs ys : List Byte} (hlen : xs.length = ys.length)
    (h : ∀ k, k < 8 * xs.length → bitAt xs k = bitAt ys k) : xs = ys := by
  refine List.ext_getElem hlen fun i hx hy => BitVec.eq_of_getLsbD_eq fun j hj => ?_
  have hbit := h (8 * i + j) (by omega)
  have hi : (8 * i + j) / 8 = i := by omega
  have hj' : (8 * i + j) % 8 = j := by omega
  simpa [bitAt, byteAt, hi, hj', hx, hy] using hbit

theorem length_slice {bs : List Byte} {off n : Nat} (h : off + n ≤ bs.length) : (slice bs off n).length = n := by
  simp only [slice, List.length_take, List.length_drop]
  omega

theorem bitAt_slice (bs : List Byte) (off n k : Nat) :
    bitAt (slice bs off n) k = (decide (k < 8 * n) && bitAt bs (8 * off + k)) := by
  have hdiv : (8 * off + k) / 8 = off + k / 8 := by omega
  have hmod : (8 * off + k) % 8 = k % 8 := by omega
  have hlt : k / 8 < n ↔ k < 8 * n := by omega
  simp only [bitAt, byteAt, slice, hdiv, hmod, List.getD_eq_getElem?_getD, List.getElem?_take, List.getElem?_drop, hlt]
  split_ifs with hk <;> simp [hk]

/-- Bytes written over a buffer give it their bits and leave every other bit. -/
theorem bitAt_splice {buf xs : List Byte} {off : Nat} (h : off + xs.length ≤ buf.length) (k : Nat) :
    bitAt (splice buf off xs) k =
      if 8 * off ≤ k ∧ k < 8 * (off + xs.length) then bitAt xs (k - 8 * off) else bitAt buf k := by
  fun_induction splice generalizing k with
  | case1 off xs =>
    have h0 : off + xs.length = 0 := by simpa using h
    rw [if_neg (by omega)]
  | case2 b buf => rw [if_neg (by simp)]
  | case3 b buf x xs ih =>
    simp only [List.length_cons] at h ⊢
    rw [bitAt_cons, bitAt_cons, bitAt_cons, ih (by omega)]
    grind
  | case4 b buf n xs ih =>
    simp only [List.length_cons] at h
    rw [bitAt_cons, bitAt_cons, ih (by omega)]
    grind

/-! ## Numbers as bits -/

/-- The bits of a little-endian number are those of its bytes. -/
theorem testBit_fromLE (bs : List Byte) (k : Nat) : (fromLE bs).testBit k = bitAt bs k := by
  induction bs generalizing k with
  | nil => rw [bitAt_nil]; exact Nat.zero_testBit k
  | cons b bs ih =>
    rw [fromLE, Nat.add_comm, show (256 : Nat) = 2 ^ 8 from rfl, Nat.testBit_two_pow_mul_add _ b.isLt, bitAt_cons, ih]
    rfl

theorem bitAt_leBytes (n v k : Nat) : bitAt (leBytes n v) k = (decide (k < 8 * n) && v.testBit k) := by
  rw [← testBit_fromLE, fromLE_leBytes, show (256 : Nat) = 2 ^ 8 from rfl, ← Nat.pow_mul, Nat.testBit_mod_two_pow]

/-- A number is the sum of its bits. -/
theorem sum_bits_eq {w n : Nat} {bit : Nat → Bool} (h : ∀ j, n.testBit j = (decide (j < w) && bit j)) :
    ∑ j ∈ Finset.range w, (bit j).toNat * 2 ^ j = n := by
  induction w generalizing n bit with
  | zero => exact (Nat.eq_of_testBit_eq fun j => by simp [h]).symm
  | succ w ih =>
    have htail := ih (n := n / 2) (bit := fun j => bit (j + 1)) fun j => by
      rw [Nat.testBit_div_two, h]
      simp
    have hhead : (bit 0).toNat = n % 2 := by
      have h0 := h 0
      simp only [Nat.zero_lt_succ, decide_true, Bool.true_and] at h0
      rw [← h0, Nat.toNat_testBit, Nat.pow_zero, Nat.div_one]
    have hdouble : ∑ j ∈ Finset.range w, (bit (j + 1)).toNat * 2 ^ (j + 1) = n / 2 * 2 := by
      rw [← htail, Finset.sum_mul]
      exact Finset.sum_congr rfl fun j _ => by ring
    rw [Finset.sum_range_succ', hdouble, hhead]
    omega

/-! ## The narrow merge and extract (40_codec.md R144 to R146) -/

theorem testBit_fieldMask (off wid k : Nat) :
    (fieldMask off wid).testBit k = (decide (off ≤ k) && decide (k - off < wid)) := by
  rw [fieldMask, Nat.testBit_shiftLeft, Nat.one_shiftLeft, Nat.testBit_two_pow_sub_one]

theorem getLsbD_mergeByte (old : Byte) (off wid v : Nat) {k : Nat} (hk : k < 8) : (mergeByte old off wid v).getLsbD k =
    (old.getLsbD k || (decide (off ≤ k ∧ k < off + wid) && v.testBit (k - off))) := by
  simp only [mergeByte, BitVec.getLsbD_ofNat, Nat.testBit_or, Nat.testBit_and, Nat.testBit_shiftLeft,
    testBit_fieldMask, hk, decide_true, Bool.true_and]
  congr 1
  by_cases h1 : off ≤ k <;> by_cases h2 : k < off + wid <;> simp [h1, h2] <;> omega

theorem testBit_extractByte (b : Byte) (off wid k : Nat) :
    (extractByte b off wid).testBit k = (decide (k < wid) && b.getLsbD (off + k)) := by
  simp [extractByte, testBit_fieldMask, BitVec.getLsbD, Bool.and_comm]

end Sys2Proof.Machine

/-! # Fields are packed and unpacked in place -/

namespace Sys2Proof.Machine

variable {r : Roms} {nestedOk : Nat → Bool} {n depth : Nat} {f : FieldDesc} {x : Value} {buf buf' : List Byte}

/-! ## Enum decoding (40_codec.md R171) -/

theorem variantNames_iff {v : Variant} {raw : Nat} : variantNames v raw = true ↔ raw = v.prim ∨ raw ∈ v.alts := by
  simp [variantNames, eq_comm (a := v.prim)]

theorem enumDecode_eq_some_iff {e : EnumEntry} (he : enumOk e = true) {raw j : Nat} :
    enumDecode e raw = some j ↔ ∃ v, e.variants[j]? = some v ∧ (raw = v.prim ∨ raw ∈ v.alts) := by
  constructor
  · intro h
    obtain ⟨hj, hname, -⟩ := List.findIdx?_eq_some_iff_getElem.1 h
    exact ⟨_, List.getElem?_eq_getElem hj, variantNames_iff.1 hname⟩
  · rintro ⟨v, hv, hname⟩
    have hname' := variantNames_iff.2 hname
    cases hd : enumDecode e raw with
    | none =>
      have hno := List.findIdx?_eq_none_iff.1 hd v (List.mem_of_getElem? hv)
      simp [hname'] at hno
    | some i =>
      obtain ⟨hi, hi', -⟩ := List.findIdx?_eq_some_iff_getElem.1 hd
      rw [enumOk_distinct he (List.getElem?_eq_getElem hi) hv hi' hname']

theorem enumDecode_eq_none_iff {e : EnumEntry} {raw : Nat} :
    enumDecode e raw = none ↔ ∀ v ∈ e.variants, raw ≠ v.prim ∧ raw ∉ v.alts := by
  simp only [enumDecode, List.findIdx?_eq_none_iff, ← Bool.not_eq_true, variantNames_iff, not_or]

/-- Settles O41: `enumDecode` finds the variant that names the value, which is the only one. -/
theorem alternatesDecodeToTheirVariant : Obligations.AlternatesDecodeToTheirVariant := by
  refine fun e he => ⟨fun j v hv => ⟨?_, fun a ha => ?_⟩, fun raw h => enumDecode_eq_none_iff.2 h⟩
  · exact (enumDecode_eq_some_iff he).2 ⟨v, hv, .inl rfl⟩
  · exact (enumDecode_eq_some_iff he).2 ⟨v, hv, .inr ha⟩

theorem getElem?_of_enumEntry {eid : Nat} {e : EnumEntry} (h : enumEntry r eid = some e) : r.enums[eid]? = some e := by
  unfold enumEntry at h
  split at h
  · split_ifs at h
    rename_i he _
    rwa [← h]
  · cases h

/-! ## What the checks of a layout say of its fields (40_codec.md R142) -/

/-- The fields of a valid layout, each checked, in the order of their bits. -/
theorem fields_of_layoutOk {l : LayoutEntry} (h : layoutOk r (depth + 1) l = true) :
    wfOrderFrom 0 l.fields = true ∧ ∀ f ∈ l.fields, fieldOk r
      (fun ref => decide (ref < r.layouts.length) && layoutOk r depth (layoutRaw r ref)) l.n f = true := by
  simp only [layoutOk, Bool.and_eq_true, List.all_eq_true] at h
  obtain ⟨⟨-, horder⟩, hfields⟩ := h
  exact ⟨horder, hfields⟩

theorem endBit_le (h : fieldOk r nestedOk n f = true) : endBit f ≤ 8 * n := by
  simp only [fieldOk, wfSize, Bool.and_eq_true, decide_eq_true_eq] at h
  obtain ⟨⟨⟨⟨-, hsize⟩, -⟩, -⟩, -⟩ := h
  exact hsize

/-- A wide field is whole bytes (WF-WIDE). -/
theorem wide_aligned (h : fieldOk r nestedOk n f = true) (hw : 8 < f.w) : f.off = 0 ∧ f.w % 8 = 0 := by
  simp only [fieldOk, wfWide, Bool.and_eq_true, Bool.or_eq_true, decide_eq_true_eq] at h
  omega

theorem wfOfKind_of_fieldOk (h : fieldOk r nestedOk n f = true) : wfOfKind r nestedOk f = true := by
  simp only [fieldOk, Bool.and_eq_true] at h
  exact h.2

theorem kind_ne_reserved (h : fieldOk r nestedOk n f = true) (c : Nat) : f.kind ≠ .reserved c := by
  intro hk
  have h' := wfOfKind_of_fieldOk h
  simp [wfOfKind, hk] at h'

theorem width_zero (h : fieldOk r nestedOk n f = true) (hk : f.kind = .skip ∨ f.kind = .zst) : f.w = 0 := by
  have h' := wfOfKind_of_fieldOk h
  obtain hk | hk := hk <;> simpa [wfOfKind, hk] using h'

theorem uint_of_fieldOk (h : fieldOk r nestedOk n f = true) (hk : f.kind = .uint) : 0 < f.w ∧ f.ts ≤ 8 := by
  have h' := wfOfKind_of_fieldOk h
  simp only [wfOfKind, hk, Bool.and_eq_true, decide_eq_true_eq, List.contains_iff_mem, List.mem_cons,
    List.not_mem_nil, or_false] at h'
  omega

theorem bool_width (h : fieldOk r nestedOk n f = true) (hk : f.kind = .bool) : f.w = 1 := by
  have h' := wfOfKind_of_fieldOk h
  simpa [wfOfKind, hk] using h'

theorem bytes_of_fieldOk (h : fieldOk r nestedOk n f = true) (hk : f.kind = .bytes) :
    0 < f.w ∧ f.off = 0 ∧ f.w % 8 = 0 := by
  have h' := wfOfKind_of_fieldOk h
  simp only [wfOfKind, hk, Bool.and_eq_true, decide_eq_true_eq] at h'
  omega

/-- A narrow field lies in one byte (WF-NARROW). -/
theorem narrow_fits (h : fieldOk r nestedOk n f = true) (hbytes : f.kind ≠ .bytes) (hpos : 0 < f.w) (hw : f.w ≤ 8) :
    f.off + f.w ≤ 8 := by
  have hn : wfNarrow f = true := by
    simp only [fieldOk, Bool.and_eq_true] at h
    obtain ⟨⟨-, hnarrow⟩, -⟩ := h
    exact hnarrow
  unfold wfNarrow at hn
  cases hk : f.kind <;> simp only [hk, Bool.or_eq_true, decide_eq_true_eq] at hn
  case uint | bool | enum | struct => omega
  case bytes => exact absurd hk hbytes
  case skip => exact absurd (width_zero h (.inl hk)) (Nat.ne_of_gt hpos)
  case zst => exact absurd (width_zero h (.inr hk)) (Nat.ne_of_gt hpos)
  case reserved c => exact absurd hk (kind_ne_reserved h c)

/-- The enum entry an ENUM field names is valid, and its primaries fit the field (WF-ENUM). -/
theorem enum_of_fieldOk (h : fieldOk r nestedOk n f = true) (hk : f.kind = .enum) :
    0 < f.w ∧ ∃ e, enumEntry r f.ref = some e ∧ enumOk e = true ∧ ∀ v ∈ e.variants, v.prim < 2 ^ f.w := by
  have h' := wfOfKind_of_fieldOk h
  simp only [wfOfKind, hk] at h'
  split at h'
  · cases h'
  · rename_i e he
    simp only [Bool.and_eq_true, List.all_eq_true, decide_eq_true_eq] at h'
    obtain ⟨⟨⟨⟨hok, hpos⟩, -⟩, -⟩, hprim⟩ := h'
    exact ⟨hpos, e, he, hok, hprim⟩

/-- The layout a STRUCT field names is valid; it fills a wide field, and it is one byte whose fields fit a narrow
one (WF-STRUCT). -/
theorem struct_of_fieldOk (h : fieldOk r nestedOk n f = true) (hk : f.kind = .struct) : nestedOk f.ref = true ∧
    0 < f.w ∧ (8 < f.w → f.w = 8 * (layoutRaw r f.ref).n) ∧
    (f.w ≤ 8 → (layoutRaw r f.ref).n = 1 ∧ ∀ g ∈ (layoutRaw r f.ref).fields, endBit g ≤ f.w) := by
  have h' := wfOfKind_of_fieldOk h
  simp only [wfOfKind, hk, Bool.and_eq_true, Bool.or_eq_true, decide_eq_true_eq, List.all_eq_true] at h'
  obtain ⟨hn, ⟨hw, heq⟩ | ⟨⟨⟨hpos, hw⟩, h1⟩, hends⟩⟩ := h'
  · exact ⟨hn, Nat.zero_lt_of_lt hw, fun _ => heq, fun hw' => absurd hw (Nat.not_lt.2 hw')⟩
  · exact ⟨hn, hpos, fun hw' => absurd hw (Nat.not_le.2 hw'), fun _ => ⟨h1, hends⟩⟩

theorem width_pos (h : fieldOk r nestedOk n f = true) (hskip : f.kind ≠ .skip) (hzst : f.kind ≠ .zst) : 0 < f.w := by
  cases hk : f.kind with
  | uint => exact (uint_of_fieldOk h hk).1
  | bool => exact (bool_width h hk).symm ▸ Nat.one_pos
  | enum => exact (enum_of_fieldOk h hk).1
  | struct => exact (struct_of_fieldOk h hk).2.1
  | bytes => exact (bytes_of_fieldOk h hk).1
  | skip => exact absurd hk hskip
  | zst => exact absurd hk hzst
  | reserved c => exact absurd hk (kind_ne_reserved h c)

/-- In a field list in order no field with `W > 0` starts before the bound. -/
theorem le_startBit_of_wfOrderFrom {k : Nat} {fs : List FieldDesc} (h : wfOrderFrom k fs = true) :
    ∀ g ∈ fs, 0 < g.w → k ≤ startBit g := by
  induction fs generalizing k with
  | nil => simp
  | cons f fs ih =>
    rw [wfOrderFrom] at h
    rw [List.forall_mem_cons]
    split_ifs at h with hf
    · exact ⟨fun hw => absurd hf (Nat.ne_of_gt hw), ih h⟩
    · simp only [Bool.and_eq_true, decide_eq_true_eq] at h
      refine ⟨fun _ => h.1, fun g hg hw => h.1.trans ?_⟩
      exact (Nat.le_add_right _ _).trans (ih h.2 g hg hw)

/-- No two fields of a list in order share a bit (WF-ORDER). -/
theorem pairwise_of_wfOrderFrom {k : Nat} {fs : List FieldDesc} (h : wfOrderFrom k fs = true) :
    fs.Pairwise fun f g => 0 < f.w → 0 < g.w → endBit f ≤ startBit g := by
  induction fs generalizing k with
  | nil => exact .nil
  | cons f fs ih =>
    rw [wfOrderFrom] at h
    split_ifs at h with hf
    · exact .cons (fun g _ hw => absurd hf (Nat.ne_of_gt hw)) (ih h)
    · simp only [Bool.and_eq_true, decide_eq_true_eq] at h
      exact .cons (fun g hg _ => le_startBit_of_wfOrderFrom h.2 g hg) (ih h.2)

/-! ## Packing one field (40_codec.md R163) -/

/-- The narrow step of pack is the OR of the number into the bits of the field. -/
theorem bitAt_packNarrow (hfit : f.off + f.w ≤ 8) (hb : f.b < buf.length) (raw k : Nat) :
    bitAt (packNarrow f raw buf) k =
      if startBit f ≤ k ∧ k < endBit f then bitAt buf k || raw.testBit (k - startBit f) else bitAt buf k := by
  have hin : (startBit f ≤ k ∧ k < endBit f) ↔ k / 8 = f.b ∧ f.off ≤ k % 8 ∧ k % 8 < f.off + f.w := by
    unfold endBit startBit
    omega
  by_cases hk : k / 8 = f.b
  · have hbyte : byteAt (packNarrow f raw buf) f.b = mergeByte (byteAt buf f.b) f.off f.w raw := by
      simp [byteAt, packNarrow, hb]
    rw [bitAt, bitAt, hk, hbyte, getLsbD_mergeByte _ _ _ _ (Nat.mod_lt _ (by decide))]
    have hsub : k - startBit f = k % 8 - f.off := by unfold startBit; omega
    simp only [hsub, hin, hk, true_and]
    split_ifs with h <;> simp [h]
  · rw [if_neg fun h => hk (hin.1 h).1]
    simp [bitAt, byteAt, packNarrow, Ne.symm hk]

/-- Bytes written over a field of whole bytes are its bits. -/
theorem bitAt_splice_field {xs : List Byte} (halign : f.off = 0 ∧ f.w % 8 = 0) (hlen : xs.length = f.w / 8)
    (hend : endBit f ≤ 8 * buf.length) (k : Nat) : bitAt (splice buf f.b xs) k =
      if startBit f ≤ k ∧ k < endBit f then bitAt xs (k - startBit f) else bitAt buf k := by
  unfold endBit startBit at *
  have hstart : 8 * f.b + f.off = 8 * f.b := by omega
  have hstop : 8 * (f.b + xs.length) = 8 * f.b + f.w := by omega
  rw [bitAt_splice (by omega), hstart, hstop]

/-- A number is packed as its bits, merged into a narrow field and written over a wide one. -/
theorem bitAt_packNumber (hf : fieldOk r nestedOk n f = true) (hbytes : f.kind ≠ .bytes) (hpos : 0 < f.w)
    (hbuf : buf.length = n) (raw k : Nat) :
    bitAt (if f.w ≤ 8 then packNarrow f raw buf else splice buf f.b (leBytes (f.w / 8) raw)) k =
      if startBit f ≤ k ∧ k < endBit f then
        (decide (f.w ≤ 8) && bitAt buf (startBit f + (k - startBit f))) || raw.testBit (k - startBit f)
      else bitAt buf k := by
  have hend : endBit f ≤ 8 * buf.length := hbuf ▸ endBit_le hf
  by_cases hw : f.w ≤ 8
  · have hb : f.b < buf.length := by unfold endBit startBit at hend; omega
    rw [if_pos hw, bitAt_packNarrow (narrow_fits hf hbytes hpos hw) hb]
    refine if_ctx_congr Iff.rfl (fun hk => ?_) fun _ => rfl
    rw [Nat.add_sub_cancel' hk.1, decide_eq_true hw, Bool.true_and]
  · have halign := wide_aligned hf (Nat.lt_of_not_le hw)
    rw [if_neg hw, bitAt_splice_field halign (length_leBytes _ _) hend]
    refine if_ctx_congr Iff.rfl (fun hk => ?_) fun _ => rfl
    have hlt : k - startBit f < 8 * (f.w / 8) := by unfold endBit at hk; omega
    rw [bitAt_leBytes, decide_eq_true hlt, decide_eq_false hw, Bool.true_and, Bool.false_and, Bool.false_or]

/-- What a component of a valid value is, kind by kind (40_codec.md R161). -/
inductive Component (r : Roms) (bits : FieldDesc → Nat) (nestOk : Nat → List Value → Bool) (f : FieldDesc) :
    Value → Prop
  | uint {v : Nat} (hk : f.kind = .uint) (hv : v < 2 ^ bits f) : Component r bits nestOk f (.num v)
  | bool {b : Bool} (hk : f.kind = .bool) : Component r bits nestOk f (.bool b)
  | enum {j : Nat} {e : EnumEntry} (hk : f.kind = .enum) (he : enumEntry r f.ref = some e)
      (hj : j < e.variants.length) : Component r bits nestOk f (.variant j)
  | struct {vs : List Value} (hk : f.kind = .struct) (hvs : nestOk f.ref vs = true) :
      Component r bits nestOk f (.struct vs)
  | bytes {bs : List Byte} (hk : f.kind = .bytes) (hlen : bs.length = f.w / 8) : Component r bits nestOk f (.bytes bs)
  | unit (hk : f.kind = .skip ∨ f.kind = .zst) : Component r bits nestOk f .unit

variable {bits : FieldDesc → Nat} {nestOk : Nat → List Value → Bool}

theorem component_of_valueOk (h : valueOk r bits nestOk f x = true) : Component r bits nestOk f x := by
  unfold valueOk at h
  split at h
  case h_1 hk => exact .uint hk (of_decide_eq_true h)
  case h_2 hk => exact .bool hk
  case h_3 hk =>
    split at h
    · exact .enum hk ‹_› (of_decide_eq_true h)
    · cases h
  case h_4 hk => exact .struct hk h
  case h_5 hk => exact .bytes hk (of_decide_eq_true h)
  case h_6 hk => exact .unit (.inl hk)
  case h_7 hk => exact .unit (.inr hk)
  case h_8 => cases h

theorem forall₂_of_valuesOk {fs : List FieldDesc} {xs : List Value} (h : valuesOk r bits nestOk fs xs = true) :
    List.Forall₂ (Component r bits nestOk) fs xs := by
  fun_induction valuesOk with
  | case1 => exact .nil
  | case2 f fs x xs ih =>
    simp only [Bool.and_eq_true] at h
    exact .cons (component_of_valueOk h.1) (ih h.2)
  | case3 => cases h

/-- The raw value of a component that is packed as a number has the bits `packedBit` names. -/
theorem bitAt_packField_number {raw : Nat} (hf : fieldOk r nestedOk n f = true) (hbytes : f.kind ≠ .bytes)
    (hpos : 0 < f.w) (hbuf : buf.length = n)
    (hpack : packField r (packInto r depth) f x buf =
      if f.w ≤ 8 then packNarrow f raw buf else splice buf f.b (leBytes (f.w / 8) raw))
    (hbit : ∀ j, j < f.w → packedBit r depth f x buf j =
      ((decide (f.w ≤ 8) && bitAt buf (startBit f + j)) || raw.testBit j)) (k : Nat) :
    bitAt (packField r (packInto r depth) f x buf) k =
      if startBit f ≤ k ∧ k < endBit f then packedBit r depth f x buf (k - startBit f) else bitAt buf k := by
  rw [hpack, bitAt_packNumber hf hbytes hpos hbuf]
  refine if_ctx_congr Iff.rfl (fun hk => (hbit _ ?_).symm) fun _ => rfl
  unfold endBit at hk
  omega

/-- Packing one field gives it the bits of its component and leaves every other bit. -/
theorem bitAt_packField (hf : fieldOk r nestedOk n f = true) (hx : Component r bits nestOk f x)
    (hbuf : buf.length = n) (k : Nat) : bitAt (packField r (packInto r depth) f x buf) k =
      if startBit f ≤ k ∧ k < endBit f then packedBit r depth f x buf (k - startBit f) else bitAt buf k := by
  have hend : endBit f ≤ 8 * buf.length := hbuf ▸ endBit_le hf
  cases hx with
  | @uint v hk =>
    refine bitAt_packField_number (raw := v) hf (by simp [hk]) (width_pos hf (by simp [hk]) (by simp [hk])) hbuf ?_ ?_ k
    · simp only [packField, rawValue, hk]
    · simp only [packedBit, hk, implies_true]
  | @bool b hk =>
    have hw : f.w = 1 := bool_width hf hk
    refine bitAt_packField_number (raw := b.toNat) hf (by simp [hk]) (by omega) hbuf ?_ ?_ k
    · simp only [packField, rawValue, hk]
    · intro j hj
      obtain rfl : j = 0 := by omega
      cases b <;> simp [packedBit, hk]
  | @enum j e hk he hj =>
    refine bitAt_packField_number (raw := enumPrim e j) hf (by simp [hk])
      (width_pos hf (by simp [hk]) (by simp [hk])) hbuf ?_ ?_ k
    · simp only [packField, rawValue, hk, he]
    · simp [packedBit, hk, getElem?_of_enumEntry he, enumPrim, hj]
  | @struct vs hk =>
    obtain ⟨-, -, hwide, -⟩ := struct_of_fieldOk hf hk
    by_cases hw : f.w ≤ 8
    · refine bitAt_packField_number (raw := (byteAt (packInto r depth f.ref vs (zeros 1)) 0).toNat) hf (by simp [hk])
        (width_pos hf (by simp [hk]) (by simp [hk])) hbuf ?_ ?_ k
      · simp only [packField, rawValue, hk]
        rw [if_pos hw, if_pos hw]
      · intro j hj
        have hdiv : j / 8 = 0 := by omega
        have hmod : j % 8 = j := by omega
        simp only [packedBit, hk, hw, decide_true, Bool.true_and, if_true, BitVec.testBit_toNat]
        rw [bitAt, bitAt, hdiv, hmod]
        rfl
    · have hn : (layoutRaw r f.ref).n = f.w / 8 := by omega
      have halign := wide_aligned hf (Nat.lt_of_not_le hw)
      simp only [packField, packedBit, hk, if_neg hw, hn]
      refine bitAt_splice_field halign ?_ hend k
      rw [length_packInto, length_slice]
      unfold endBit startBit at hend
      omega
  | bytes hk hlen =>
    simp only [packField, packedBit, hk]
    exact bitAt_splice_field (bytes_of_fieldOk hf hk).2 hlen hend k
  | unit hk =>
    have hw := width_zero hf hk
    have hsame : packField r (packInto r depth) f .unit buf = buf := by
      obtain hk | hk := hk <;> simp only [packField, hk]
    rw [hsame, if_neg (by unfold endBit; omega)]

/-- The bytes of a field of whole bytes hold its bits. -/
theorem bitAt_slice_field (halign : f.off = 0 ∧ f.w % 8 = 0) (buf : List Byte) (j : Nat) :
    bitAt (slice buf f.b (f.w / 8)) j = (decide (j < f.w) && bitAt buf (startBit f + j)) := by
  have hstart : 8 * f.b = startBit f := by unfold startBit; omega
  have hwidth : 8 * (f.w / 8) = f.w := by omega
  rw [bitAt_slice, hstart, hwidth]

theorem length_slice_field (halign : f.off = 0 ∧ f.w % 8 = 0) (hend : endBit f ≤ 8 * buf.length) :
    (slice buf f.b (f.w / 8)).length = f.w / 8 := by
  unfold endBit startBit at hend
  exact length_slice (by omega)

/-- What pack leaves in a field depends on the old bits of that field alone. -/
theorem packedBit_congr (hf : fieldOk r nestedOk n f = true) (hbuf : buf.length = n) (hbuf' : buf'.length = n)
    (h : ∀ j, j < f.w → bitAt buf (startBit f + j) = bitAt buf' (startBit f + j)) {j : Nat} (hj : j < f.w) :
    packedBit r depth f x buf j = packedBit r depth f x buf' j := by
  by_cases hw : f.w ≤ 8
  · simp only [packedBit, h j hj, if_pos hw]
  · have halign := wide_aligned hf (Nat.lt_of_not_le hw)
    have hlen := length_slice_field halign (hbuf ▸ endBit_le hf)
    have hlen' := length_slice_field halign (hbuf' ▸ endBit_le hf)
    have hbytes : (buf.drop f.b).take (f.w / 8) = (buf'.drop f.b).take (f.w / 8) := by
      refine eq_of_bitAt (hlen.trans hlen'.symm) fun k _ => ?_
      refine (bitAt_slice_field halign buf k).trans (.trans ?_ (bitAt_slice_field halign buf' k).symm)
      by_cases hk : k < f.w <;> simp [hk, h]
    simp only [packedBit, hw, decide_false, Bool.false_and, hbytes]

/-! ## All fields of a layout (40_codec.md R163, R181) -/

variable {l : LayoutEntry} {lid : Nat} {fs : List FieldDesc} {xs vs : List Value}

/-- Pack leaves every bit that no field occupies. -/
theorem bitAt_packFields_of_not_occupied (hf : ∀ f ∈ fs, fieldOk r nestedOk n f = true)
    (hx : List.Forall₂ (Component r bits nestOk) fs xs) (hbuf : buf.length = n) {k : Nat}
    (hk : ∀ f ∈ fs, ¬(startBit f ≤ k ∧ k < endBit f)) :
    bitAt (packFields r (packInto r depth) fs xs buf) k = bitAt buf k := by
  induction hx generalizing buf with
  | nil => rfl
  | @cons f x fs xs hfx _ ih =>
    rw [List.forall_mem_cons] at hf hk
    rw [packFields, ih hf.2 (by rw [length_packField, hbuf]) hk.2, bitAt_packField hf.1 hfx hbuf, if_neg hk.1]

/-- Pack gives each field the bits of its component, whatever its siblings hold: no two of them share a bit. -/
theorem bitAt_packFields (hf : ∀ f ∈ fs, fieldOk r nestedOk n f = true)
    (horder : fs.Pairwise fun f g => 0 < f.w → 0 < g.w → endBit f ≤ startBit g)
    (hx : List.Forall₂ (Component r bits nestOk) fs xs) (hbuf : buf.length = n) {i : Nat}
    (hfi : fs[i]? = some f) (hxi : xs[i]? = some x) {j : Nat} (hj : j < f.w) :
    bitAt (packFields r (packInto r depth) fs xs buf) (startBit f + j) = packedBit r depth f x buf j := by
  induction hx generalizing buf i with
  | nil => cases hfi
  | @cons g y fs xs hgy hrest ih =>
    rw [List.forall_mem_cons] at hf
    rw [List.pairwise_cons] at horder
    have hlen : (packField r (packInto r depth) g y buf).length = n := by rw [length_packField, hbuf]
    have hin : ∀ {j}, j < f.w → startBit f ≤ startBit f + j ∧ startBit f + j < endBit f := fun hj =>
      ⟨Nat.le_add_right _ _, Nat.add_lt_add_left hj _⟩
    rw [packFields]
    cases i with
    | zero =>
      simp only [List.getElem?_cons_zero, Option.some.injEq] at hfi hxi
      subst hfi hxi
      have hout : ∀ h ∈ fs, ¬(startBit h ≤ startBit g + j ∧ startBit g + j < endBit h) := by
        rintro h hh ⟨h1, h2⟩
        have hord := horder.1 h hh (by omega) (by unfold endBit at h2; omega)
        have hend := (hin hj).2
        omega
      rw [bitAt_packFields_of_not_occupied hf.2 hrest hlen hout, bitAt_packField hf.1 hgy hbuf, if_pos (hin hj),
        Nat.add_sub_cancel_left]
    | succ i =>
      simp only [List.getElem?_cons_succ] at hfi hxi
      have hfm := List.mem_of_getElem? hfi
      rw [ih hf.2 horder.2 hlen hfi hxi]
      refine packedBit_congr (hf.2 f hfm) hlen hbuf (fun j hj => ?_) hj
      rw [bitAt_packField hf.1 hgy hbuf, if_neg]
      rintro ⟨h1, h2⟩
      have hord := horder.1 f hfm (by unfold endBit at h2; omega) (by omega)
      omega

theorem components_of_valuesOkAt (hl : r.layouts[lid]? = some l) (h : valuesOkAt r bits (depth + 1) lid vs = true) :
    List.Forall₂ (Component r bits (valuesOkAt r bits depth)) l.fields vs := by
  rw [valuesOkAt, layoutRaw_of_some hl] at h
  exact forall₂_of_valuesOk h

/-- A ROM that holds a layout has a depth of one or more. -/
theorem exists_layouts_length_eq_succ (hl : r.layouts[lid]? = some l) : ∃ depth, r.layouts.length = depth + 1 :=
  Nat.exists_eq_succ_of_ne_zero (Nat.ne_of_gt (Nat.zero_lt_of_lt (List.getElem?_eq_some_iff.1 hl).1))

theorem packInto_succ (hl : r.layouts[lid]? = some l) :
    packInto r (depth + 1) lid vs buf = packFields r (packInto r depth) l.fields vs buf := by
  rw [packInto, layoutRaw_of_some hl]

theorem not_occupied_iff {k : Nat} : occupied l k = false ↔ ∀ f ∈ l.fields, ¬(startBit f ≤ k ∧ k < endBit f) := by
  simp [occupied]

theorem occupied_iff {k : Nat} : occupied l k = true ↔ ∃ f ∈ l.fields, startBit f ≤ k ∧ k < endBit f := by
  simp [occupied]

/-- Packing a value leaves padding as it was. -/
theorem bitAt_packInto_of_not_occupied (hl : r.layouts[lid]? = some l) (hok : layoutOk r depth l = true)
    (hvs : valuesOkAt r bits depth lid vs = true) (hbuf : buf.length = l.n) {k : Nat} (hk : occupied l k = false) :
    bitAt (packInto r depth lid vs buf) k = bitAt buf k := by
  cases depth with
  | zero => cases hok
  | succ depth =>
    rw [packInto_succ hl]
    exact bitAt_packFields_of_not_occupied (fields_of_layoutOk hok).2 (components_of_valuesOkAt hl hvs) hbuf
      (not_occupied_iff.1 hk)

/-- Packing a value gives each field the bits of its component. -/
theorem bitAt_packInto (hl : r.layouts[lid]? = some l) (hok : layoutOk r (depth + 1) l = true)
    (hvs : valuesOkAt r bits (depth + 1) lid vs = true) (hbuf : buf.length = l.n) {i : Nat}
    (hfi : l.fields[i]? = some f) (hxi : vs[i]? = some x) {j : Nat} (hj : j < f.w) :
    bitAt (packInto r (depth + 1) lid vs buf) (startBit f + j) = packedBit r depth f x buf j := by
  obtain ⟨horder, hf⟩ := fields_of_layoutOk hok
  rw [packInto_succ hl]
  exact bitAt_packFields hf (pairwise_of_wfOrderFrom horder) (components_of_valuesOkAt hl hvs) hbuf hfi hxi hj

/-! ## Unpacking (40_codec.md R168) -/

/-- The number unpack reads from a field's bits (40_codec.md R168). -/
def rawBits (f : FieldDesc) (buf : List Byte) : Nat :=
  if f.w ≤ 8 then extractByte (byteAt buf f.b) f.off f.w else fromLE (slice buf f.b (f.w / 8))

theorem testBit_rawBits (hf : fieldOk r nestedOk n f = true) (hbytes : f.kind ≠ .bytes) (hpos : 0 < f.w) (j : Nat) :
    (rawBits f buf).testBit j = (decide (j < f.w) && bitAt buf (startBit f + j)) := by
  unfold rawBits
  split_ifs with hw
  · have hfit := narrow_fits hf hbytes hpos hw
    rw [testBit_extractByte]
    by_cases hj : j < f.w
    · have hdiv : (startBit f + j) / 8 = f.b := by unfold startBit; omega
      have hmod : (startBit f + j) % 8 = f.off + j := by unfold startBit; omega
      rw [bitAt, hdiv, hmod]
    · simp [hj]
  · rw [testBit_fromLE, bitAt_slice_field (wide_aligned hf (Nat.lt_of_not_le hw))]

/-- The number unpack reads from a field is the sum of its bits. -/
theorem rawBits_eq_sum (hf : fieldOk r nestedOk n f = true) (hbytes : f.kind ≠ .bytes) (hpos : 0 < f.w) :
    rawBits f buf = ∑ j ∈ Finset.range f.w, (bitAt buf (startBit f + j)).toNat * 2 ^ j :=
  (sum_bits_eq (testBit_rawBits hf hbytes hpos)).symm

/-- Unpacking one field gives what its bits are, or nothing where they are nothing. -/
theorem unpackField_eq_some_iff (hf : fieldOk r nestedOk n f = true) :
    unpackField r (unpackFrom r depth) f buf = some x ↔ unpacksAs r depth f buf x := by
  have hsum := rawBits_eq_sum (buf := buf) hf
  have hpos := width_pos hf
  rw [rawBits] at hsum
  cases hk : f.kind with
  | uint | bool =>
    have hsum := hsum (by simp [hk]) (hpos (by simp [hk]) (by simp [hk]))
    simp only [unpackField, unpacksAs, hk, hsum]
    cases x <;> simp [eq_comm, bne, beq_eq_decide]
  | enum =>
    obtain ⟨-, e, he, hok, -⟩ := enum_of_fieldOk hf hk
    have hsum := hsum (by simp [hk]) (hpos (by simp [hk]) (by simp [hk]))
    simp only [unpackField, unpacksAs, hk, hsum, he, getElem?_of_enumEntry he]
    cases x <;> simp [enumDecode_eq_some_iff hok]
  | struct =>
    obtain ⟨-, -, hwide, -⟩ := struct_of_fieldOk hf hk
    have hsum := hsum (by simp [hk]) (hpos (by simp [hk]) (by simp [hk]))
    simp only [unpackField, unpacksAs, hk, hsum]
    split_ifs with hw
    · cases x <;> simp
    · rw [slice, show (layoutRaw r f.ref).n = f.w / 8 by omega]
      cases x <;> simp
  | bytes => cases x <;> simp [unpackField, unpacksAs, hk, slice, eq_comm]
  | skip | zst => cases x <;> simp [unpackField, unpacksAs, hk]
  | reserved c => exact absurd hk (kind_ne_reserved hf c)

theorem forall₂_iff_getElem? {α β : Type} {R : α → β → Prop} {xs : List α} {ys : List β} : List.Forall₂ R xs ys ↔
    ys.length = xs.length ∧ ∀ (i : Nat) x y, xs[i]? = some x → ys[i]? = some y → R x y := by
  rw [List.forall₂_iff_get, eq_comm]
  refine and_congr_right fun hlen => ⟨fun h i x y hx hy => ?_, fun h i hx hy => ?_⟩
  · obtain ⟨hx', rfl⟩ := List.getElem?_eq_some_iff.1 hx
    obtain ⟨hy', rfl⟩ := List.getElem?_eq_some_iff.1 hy
    exact h i hx' hy'
  · exact h i _ _ (List.getElem?_eq_getElem hx) (List.getElem?_eq_getElem hy)

theorem unpackFields_eq_some_iff {nestUnpack : Nat → List Byte → Option (List Value)} :
    unpackFields r nestUnpack fs buf = some vs ↔
      List.Forall₂ (fun f x => unpackField r nestUnpack f buf = some x) fs vs := by
  induction fs generalizing vs with
  | nil => simp [unpackFields, eq_comm]
  | cons f fs ih =>
    simp only [unpackFields, List.forall₂_cons_left_iff, ← ih]
    cases unpackField r nestUnpack f buf <;> cases unpackFields r nestUnpack fs buf <;> simp [eq_comm]

/-- A buffer unpacks to what its fields' bits are, field by field. -/
theorem unpackFrom_eq_some_iff (hl : r.layouts[lid]? = some l) (hok : layoutOk r (depth + 1) l = true) :
    unpackFrom r (depth + 1) lid buf = some vs ↔ vs.length = l.fields.length ∧
      ∀ (i : Nat) f x, l.fields[i]? = some f → vs[i]? = some x → unpacksAs r depth f buf x := by
  rw [unpackFrom, layoutRaw_of_some hl, unpackFields_eq_some_iff, forall₂_iff_getElem?]
  refine and_congr_right fun _ => forall₃_congr fun i f x => forall_congr' fun hf => imp_congr_right fun _ => ?_
  exact unpackField_eq_some_iff ((fields_of_layoutOk hok).2 f (List.mem_of_getElem? hf))

/-- Settles O39: packing one field is `bitAt_packField`, packing all is `bitAt_packInto`, and unpacking is
`unpackFrom_eq_some_iff`. -/
theorem fieldsArePackedAndUnpackedInPlace : Obligations.FieldsArePackedAndUnpackedInPlace := by
  intro r depth l buf hok hbuf
  refine ⟨fun f x hf hx => ⟨(length_packField _ _ _ _ _).trans hbuf, fun k hk => ?_⟩, fun lid hl =>
    ⟨fun vs i f x hvs hfi hxi j hj => bitAt_packInto hl hok hvs hbuf hfi hxi hj,
      fun vs => unpackFrom_eq_some_iff hl hok⟩⟩
  rw [bitAt_packField ((fields_of_layoutOk hok).2 f hf) (component_of_valueOk hx) hbuf, if_neg hk]

/-! ## Merging into a buffer (40_codec.md R184) -/

/-- Settles O40: padding is no field's bit, and `packedBit` reads only bits of its own field, which both buffers
hold as 0. -/
theorem mergePackKeepsPaddingBits : Obligations.MergePackKeepsPaddingBits := by
  intro r lid l vs buf hl hok hvs hbuf merged cleared
  have hzeros : (zeros l.n).length = l.n := List.length_replicate
  obtain ⟨depth, hdepth⟩ := exists_layouts_length_eq_succ hl
  rw [hdepth] at hok hvs
  subst merged cleared
  rw [hdepth]
  refine ⟨fun k hk => ⟨bitAt_packInto_of_not_occupied hl hok hvs hbuf hk, ?_⟩, fun hclear k hk => ?_⟩
  · exact (bitAt_packInto_of_not_occupied hl hok hvs hzeros hk).trans (bitAt_zeros _ _)
  · obtain ⟨f, hf, hstart, hend⟩ := occupied_iff.1 hk
    obtain ⟨i, hfi⟩ := List.mem_iff_getElem?.1 hf
    obtain ⟨j, rfl⟩ := Nat.exists_eq_add_of_le hstart
    have hj : j < f.w := Nat.lt_of_add_lt_add_left hend
    have hlen := (components_of_valuesOkAt hl hvs).length_eq
    obtain ⟨x, hxi⟩ : ∃ x, vs[i]? = some x :=
      ⟨_, List.getElem?_eq_getElem (hlen ▸ (List.getElem?_eq_some_iff.1 hfi).1)⟩
    rw [bitAt_packInto hl hok hvs hbuf hfi hxi hj]
    refine .trans ?_ (bitAt_packInto hl hok hvs hzeros hfi hxi hj).symm
    refine packedBit_congr ((fields_of_layoutOk hok).2 f hf) hbuf hzeros (fun j hj => ?_) hj
    rw [bitAt_zeros]
    exact hclear _ (occupied_iff.2 ⟨f, hf, Nat.le_add_right _ _, Nat.add_lt_add_left hj _⟩)

/-! ## The round trip (40_codec.md R180) -/

/-- Bits that agree with a number below `2^w` on the low `w` bits sum to it. -/
theorem sum_field_bits_eq {w m : Nat} {bit : Nat → Bool} (hm : m < 2 ^ w) (h : ∀ j, j < w → bit j = m.testBit j) :
    ∑ j ∈ Finset.range w, (bit j).toNat * 2 ^ j = m := by
  refine sum_bits_eq fun j => ?_
  by_cases hj : j < w
  · simp [hj, h j hj]
  · simp [hj, Nat.testBit_lt_two_pow (hm.trans_le (Nat.pow_le_pow_right (by decide) (Nat.le_of_not_lt hj)))]

theorem ofNat_fromLE_singleton {bs : List Byte} (h : bs.length = 1) : [BitVec.ofNat 8 (fromLE bs)] = bs := by
  obtain ⟨b, rfl⟩ := List.length_eq_one_iff.1 h
  simp [fromLE]

theorem slice_zeros {off k : Nat} (h : off + k ≤ n) : slice (zeros n) off k = zeros k := by
  simp only [slice, zeros, List.drop_replicate, List.take_replicate]
  rw [Nat.min_eq_left (by omega)]

/-- A value packed into zeros is a number below `2^W` where every field ends at bit `W` or before. -/
theorem fromLE_packInto_lt {w : Nat} (hl : r.layouts[lid]? = some l) (hok : layoutOk r depth l = true)
    (hvs : valuesOkAt r bits depth lid vs = true) (hends : ∀ g ∈ l.fields, endBit g ≤ w) :
    fromLE (packInto r depth lid vs (zeros l.n)) < 2 ^ w := by
  refine Nat.lt_pow_two_of_testBit _ fun k hk => ?_
  rw [testBit_fromLE, bitAt_packInto_of_not_occupied hl hok hvs (by simp [zeros]), bitAt_zeros]
  exact not_occupied_iff.2 fun g hg hin => absurd (hends g hg) (by omega)

/-- What one layout's round trip asks of the nested ones. -/
def RoundTrips (r : Roms) (depth : Nat) : Prop := ∀ (lid : Nat) (l : LayoutEntry) (vs : List Value),
  r.layouts[lid]? = some l → layoutOk r depth l = true → inRange r depth lid vs = true →
    unpackFrom r depth lid (packInto r depth lid vs (zeros l.n)) = some vs

/-- A STRUCT field that holds a nested value packed into zeros unpacks to it: a narrow one through the byte its bits
are, a wide one through its own bytes. -/
theorem unpacksAs_struct_of_packedBit (hf : fieldOk r
      (fun ref => decide (ref < r.layouts.length) && layoutOk r depth (layoutRaw r ref)) n f = true)
    (hk : f.kind = .struct) (hvs : inRange r depth f.ref vs = true) (hrt : RoundTrips r depth)
    (hbuf : buf.length = n)
    (hbits : ∀ j, j < f.w → bitAt buf (startBit f + j) = packedBit r depth f (.struct vs) (zeros n) j) :
    unpacksAs r depth f buf (.struct vs) := by
  have hend : endBit f ≤ 8 * buf.length := hbuf ▸ endBit_le hf
  obtain ⟨hnest, -, hwide, hnarrow⟩ := struct_of_fieldOk hf hk
  simp only [Bool.and_eq_true, decide_eq_true_eq] at hnest
  obtain ⟨href, hok⟩ := hnest
  have hl : r.layouts[f.ref]? = some (layoutRaw r f.ref) := by simp [layoutRaw, href]
  have hback := hrt f.ref _ vs hl hok hvs
  by_cases hw : f.w ≤ 8
  · obtain ⟨h1, hends⟩ := hnarrow hw
    rw [h1] at hback
    have hlen : (packInto r depth f.ref vs (zeros 1)).length = 1 := by rw [length_packInto]; rfl
    have hsum := sum_field_bits_eq (h1 ▸ fromLE_packInto_lt hl hok hvs hends) fun j hj => (hbits j hj).trans (by
      rw [testBit_fromLE]
      simp [packedBit, hk, hw, show zeros 1 = [0#8] from rfl])
    simp only [unpacksAs, hk, hsum, if_pos hw, ofNat_fromLE_singleton hlen]
    exact hback
  · have hn : (layoutRaw r f.ref).n = f.w / 8 := by omega
    have halign := wide_aligned hf (Nat.lt_of_not_le hw)
    have hzeros : ((zeros n).drop f.b).take (f.w / 8) = zeros (f.w / 8) :=
      slice_zeros (by unfold endBit startBit at hend; omega)
    have hslice : slice buf f.b (f.w / 8) = packInto r depth f.ref vs (zeros (f.w / 8)) := by
      have hlen := length_slice_field halign hend
      refine eq_of_bitAt (by rw [hlen, length_packInto]; exact List.length_replicate.symm) fun j hj => ?_
      have hjw : j < f.w := by omega
      rw [bitAt_slice_field halign, decide_eq_true hjw, Bool.true_and, hbits j hjw]
      simp only [packedBit, hk, if_neg hw, hzeros]
    rw [hn, ← hslice] at hback
    simp only [unpacksAs, hk, if_neg hw]
    exact hback

/-- A field that holds what was packed into zeros unpacks to its component. -/
theorem unpacksAs_of_packedBit (hf : fieldOk r
      (fun ref => decide (ref < r.layouts.length) && layoutOk r depth (layoutRaw r ref)) n f = true)
    (hx : Component r (fun g => g.w) (valuesOkAt r (fun g => g.w) depth) f x) (hrt : RoundTrips r depth)
    (hbuf : buf.length = n)
    (hbits : ∀ j, j < f.w → bitAt buf (startBit f + j) = packedBit r depth f x (zeros n) j) :
    unpacksAs r depth f buf x := by
  have hend : endBit f ≤ 8 * buf.length := hbuf ▸ endBit_le hf
  cases hx with
  | @uint v hk hv =>
    have hsum := sum_field_bits_eq hv fun j hj => (hbits j hj).trans (by simp [packedBit, hk])
    simp only [unpacksAs, hk, hsum]
  | @bool b hk =>
    have hw := bool_width hf hk
    have hb : b.toNat < 2 ^ f.w := by rw [hw]; exact b.toNat_lt
    have hsum := sum_field_bits_eq hb fun j hj => (hbits j hj).trans (by
      obtain rfl : j = 0 := by omega
      cases b <;> simp [packedBit, hk])
    simp only [unpacksAs, hk, hsum]
    cases b <;> rfl
  | @enum j e hk he hj =>
    obtain ⟨-, e', he', -, hprim⟩ := enum_of_fieldOk hf hk
    obtain rfl : e = e' := Option.some.inj (he.symm.trans he')
    have hr := getElem?_of_enumEntry he
    have hsum := sum_field_bits_eq (hprim _ (List.getElem_mem hj)) fun k hk' =>
      (hbits k hk').trans (by simp [packedBit, hk, hr, hj])
    simp only [unpacksAs, hk, hsum]
    exact ⟨e, _, hr, List.getElem?_eq_getElem hj, .inl rfl⟩
  | struct hk hvs => exact unpacksAs_struct_of_packedBit hf hk hvs hrt hbuf hbits
  | @bytes bs hk hlen =>
    have halign := (bytes_of_fieldOk hf hk).2
    simp only [unpacksAs, hk]
    refine eq_of_bitAt (hlen.trans (length_slice_field halign hend).symm) fun j hj => ?_
    have hjw : j < f.w := by omega
    refine .trans ?_ (bitAt_slice_field halign buf j).symm
    rw [decide_eq_true hjw, Bool.true_and, hbits j hjw]
    simp only [packedBit, hk]
  | unit hk => obtain hk | hk := hk <;> simp only [unpacksAs, hk]

/-- Every depth of nesting gives its values back, by induction on the depth. -/
theorem roundTrips (r : Roms) (depth : Nat) : RoundTrips r depth := by
  induction depth with
  | zero => intro lid l vs _ hok; cases hok
  | succ depth ih =>
    intro lid l vs hl hok hvs
    have hzeros : (zeros l.n).length = l.n := List.length_replicate
    have hcomp := components_of_valuesOkAt hl hvs
    rw [unpackFrom_eq_some_iff hl hok]
    refine ⟨hcomp.length_eq.symm, fun i f x hfi hxi => ?_⟩
    refine unpacksAs_of_packedBit ((fields_of_layoutOk hok).2 f (List.mem_of_getElem? hfi))
      ((forall₂_iff_getElem?.1 hcomp).2 i f x hfi hxi) ih (by rw [length_packInto, hzeros]) fun j hj => ?_
    exact bitAt_packInto hl hok hvs hzeros hfi hxi hj

/-- Settles O37: `roundTrips` at the depth of the ROM. -/
theorem unpackAfterPackGivesTheValueBack : Obligations.UnpackAfterPackGivesTheValueBack :=
  fun r lid l vs hl hok hvs => roundTrips r _ lid l vs hl hok hvs

end Sys2Proof.Machine

/-! # Value images -/

namespace Sys2Proof.Machine

variable {r : Roms} {nestedOk : Nat → Bool} {n depth lid : Nat} {f : FieldDesc} {l : LayoutEntry} {x : Value}
  {fs : List FieldDesc} {vs : List Value} {slot : List Byte} {slots : List (List Byte)}

/-! ## Slots (40_codec.md R160, R161) -/

theorem slotSize_eq (r : Roms) (depth : Nat) : slotSize (imgSize r depth) = slotLength r depth := by
  funext f
  unfold slotSize slotLength
  cases f.kind <;> rfl

theorem slotBytes_eq (r : Roms) (depth : Nat) : slotBytes (image r depth) = slotOf r depth := by
  funext f x
  have hbool : ∀ b : Bool, b.toNat = if b then 1 else 0 := by decide
  unfold slotBytes slotOf
  cases f.kind <;> cases x <;> simp only [leBytes_eq, hbool]

theorem imageFields_eq (nestImage : Nat → List Value → List Byte) (fs : List FieldDesc) (vs : List Value) :
    imageFields nestImage fs vs = (List.zipWith (slotBytes nestImage) fs vs).flatten := by
  induction fs generalizing vs with
  | nil => rfl
  | cons f fs ih =>
    cases vs with
    | nil => rfl
    | cons x vs => rw [imageFields, ih, List.zipWith_cons_cons, List.flatten_cons]

theorem imgSize_succ (hl : r.layouts[lid]? = some l) :
    imgSize r (depth + 1) lid = (l.fields.map (slotLength r depth)).sum := by
  rw [imgSize, fieldsSize, slotSize_eq, layoutRaw_of_some hl]

theorem image_succ (hl : r.layouts[lid]? = some l) :
    image r (depth + 1) lid vs = (List.zipWith (slotOf r depth) l.fields vs).flatten := by
  rw [image, imageFields_eq, slotBytes_eq, layoutRaw_of_some hl]

theorem fromLE_eq_sum (bs : List Byte) :
    fromLE bs = ∑ k ∈ Finset.range bs.length, (byteAt bs k).toNat * 256 ^ k := by
  have hmap : bs = (List.range bs.length).map (byteAt bs) := by
    refine List.ext_getElem (by simp) fun i h _ => ?_
    simp [byteAt, h]
  conv_lhs => rw [hmap]
  exact fromLE_map _ _

/-- Reading a slot of a checked field. -/
theorem readSlot_eq_some_iff (hf : fieldOk r nestedOk n f = true) :
    readSlot r (readImage r depth) f slot = some x ↔ slotReadsAs r depth f slot x := by
  unfold readSlot slotReadsAs
  rw [← fromLE_eq_sum]
  cases hk : f.kind with
  | uint | bool | struct | bytes => cases x <;> simp [eq_comm, bne, beq_eq_decide]
  | enum =>
    obtain ⟨-, e, he, -⟩ := enum_of_fieldOk hf hk
    simp only [he, getElem?_of_enumEntry he]
    split_ifs with hlt <;> cases x <;> simp [eq_comm, hlt]
  | skip | zst => cases x <;> simp
  | reserved c => exact absurd hk (kind_ne_reserved hf c)

/-! ## Reading an image -/

/-- Reading an image reads its slots one after another. -/
theorem readFields_flatten_eq_some_iff {nestSize : Nat → Nat} {nestRead : Nat → List Byte → Option (List Value)}
    (h : List.Forall₂ (fun f slot => slot.length = slotSize nestSize f) fs slots) :
    readFields r nestSize nestRead fs slots.flatten = some vs ↔
      List.Forall₂ (fun p x => readSlot r nestRead p.1 p.2 = some x) (fs.zip slots) vs := by
  induction h generalizing vs with
  | nil => simp [readFields, eq_comm]
  | @cons f slot fs slots hlen _ ih =>
    rw [readFields, List.flatten_cons, List.take_left' hlen, List.drop_left' hlen, List.zip_cons_cons,
      List.forall₂_cons_left_iff]
    simp only [← ih]
    cases readSlot r nestRead f slot <;> cases readFields r nestSize nestRead fs slots.flatten <;> simp [eq_comm]

theorem readImage_flatten_eq_some_iff (hl : r.layouts[lid]? = some l) (hok : layoutOk r (depth + 1) l = true)
    (h : List.Forall₂ (fun f slot => slot.length = slotLength r depth f) l.fields slots) :
    readImage r (depth + 1) lid slots.flatten = some vs ↔ vs.length = l.fields.length ∧
      ∀ (i : Nat) f slot x, l.fields[i]? = some f → slots[i]? = some slot → vs[i]? = some x →
        slotReadsAs r depth f slot x := by
  rw [readImage, layoutRaw_of_some hl, readFields_flatten_eq_some_iff (by rwa [slotSize_eq]), forall₂_iff_getElem?,
    List.length_zip, ← h.length_eq, Nat.min_self]
  refine and_congr_right fun _ => ⟨fun hall i f slot x hf hs hx => ?_, fun hall i p x hp hx => ?_⟩
  · have hfield := (fields_of_layoutOk hok).2 f (List.mem_of_getElem? hf)
    exact (readSlot_eq_some_iff hfield).1 (hall i (f, slot) x (List.getElem?_zip_eq_some.2 ⟨hf, hs⟩) hx)
  · obtain ⟨hf, hs⟩ := List.getElem?_zip_eq_some.1 hp
    have hfield := (fields_of_layoutOk hok).2 p.1 (List.mem_of_getElem? hf)
    exact (readSlot_eq_some_iff hfield).2 (hall i p.1 p.2 x hf hs hx)

/-! ## The image of a value -/

/-- What the image of one layout asks of the nested ones. -/
def ImageReadsBack (r : Roms) (depth : Nat) : Prop := ∀ (lid : Nat) (l : LayoutEntry) (vs : List Value),
  r.layouts[lid]? = some l → layoutOk r depth l = true → inDomain r depth lid vs = true →
    (image r depth lid vs).length = imgSize r depth lid ∧ readImage r depth lid (image r depth lid vs) = some vs

/-- The slot of a component has its field's size, and reads as the component. -/
theorem slotOf_reads_back (hf : fieldOk r
      (fun ref => decide (ref < r.layouts.length) && layoutOk r depth (layoutRaw r ref)) n f = true)
    (hx : Component r (fun g => 8 * g.ts) (valuesOkAt r (fun g => 8 * g.ts) depth) f x)
    (hback : ImageReadsBack r depth) :
    (slotOf r depth f x).length = slotLength r depth f ∧ slotReadsAs r depth f (slotOf r depth f x) x := by
  rw [← slotBytes_eq]
  unfold slotReadsAs slotBytes slotLength
  rw [← fromLE_eq_sum]
  cases hx with
  | @uint v hk hv =>
    have hmono : 2 ^ (8 * f.ts) ≤ 2 ^ 64 := Nat.pow_le_pow_right (by decide) (by have := uint_of_fieldOk hf hk; omega)
    have height : v % 256 ^ 8 = v := Nat.mod_eq_of_lt (hv.trans_le hmono)
    simp only [hk, length_leBytes, fromLE_leBytes, height, Nat.mod_eq_of_lt hv, and_self]
  | @bool b hk => cases b <;> simp [hk, fromLE_leBytes]
  | @enum j e hk he hj =>
    obtain ⟨-, e', he', hok, -⟩ := enum_of_fieldOk hf hk
    obtain rfl : e = e' := Option.some.inj (he.symm.trans he')
    have height : j % 256 ^ 8 = j := by
      simp only [enumOk, Bool.and_eq_true, decide_eq_true_eq] at hok
      exact Nat.mod_eq_of_lt (by omega)
    simp only [hk, length_leBytes, fromLE_leBytes, height, true_and]
    exact ⟨e, getElem?_of_enumEntry he, hj⟩
  | @struct vs hk hvs =>
    obtain ⟨hnest, -⟩ := struct_of_fieldOk hf hk
    simp only [Bool.and_eq_true, decide_eq_true_eq] at hnest
    obtain ⟨href, hok⟩ := hnest
    simp only [hk]
    exact hback f.ref _ vs (by simp [layoutRaw, href]) hok hvs
  | bytes hk hlen => simp only [hk, hlen, and_self]
  | unit hk => obtain hk | hk := hk <;> simp [hk]

/-- The slots of a value have the sizes of their fields. -/
theorem forall₂_slotOf {R : FieldDesc → Value → Prop} (h : List.Forall₂ R fs vs)
    (hlen : ∀ f ∈ fs, ∀ x, R f x → (slotOf r depth f x).length = slotLength r depth f) :
    List.Forall₂ (fun f slot => slot.length = slotLength r depth f) fs (List.zipWith (slotOf r depth) fs vs) := by
  induction h with
  | nil => exact .nil
  | cons hx _ ih =>
    rw [List.forall_mem_cons] at hlen
    exact .cons (hlen.1 _ hx) (ih hlen.2)

theorem length_flatten_slots (h : List.Forall₂ (fun f slot => slot.length = slotLength r depth f) fs slots) :
    slots.flatten.length = (fs.map (slotLength r depth)).sum := by
  induction h with
  | nil => rfl
  | cons hlen _ ih => rw [List.flatten_cons, List.length_append, hlen, ih, List.map_cons, List.sum_cons]

/-- Every depth of nesting gives its values back, by induction on the depth. -/
theorem imageReadsBack (r : Roms) (depth : Nat) : ImageReadsBack r depth := by
  induction depth with
  | zero => intro lid l vs _ hok; cases hok
  | succ depth ih =>
    intro lid l vs hl hok hvs
    have hcomp := components_of_valuesOkAt hl hvs
    have hslot : ∀ f ∈ l.fields, ∀ x, Component r _ _ f x → _ ∧ _ := fun f hf x hx =>
      slotOf_reads_back ((fields_of_layoutOk hok).2 f hf) hx ih
    have hlens := forall₂_slotOf hcomp fun f hf x hx => (hslot f hf x hx).1
    obtain ⟨hlen, hat⟩ := forall₂_iff_getElem?.1 hcomp
    rw [image_succ hl]
    refine ⟨(length_flatten_slots hlens).trans (imgSize_succ hl).symm,
      (readImage_flatten_eq_some_iff hl hok hlens).2 ⟨hlen, fun i f slot x hfi hsi hxi => ?_⟩⟩
    obtain rfl : slotOf r depth f x = slot := by simpa [List.getElem?_zipWith, hfi, hxi] using hsi
    exact (hslot f (List.mem_of_getElem? hfi) x (hat i f x hfi hxi)).2

/-- Settles O38: an image is its slots (`image_succ`, `imgSize_succ`), reading it reads them
(`readImage_flatten_eq_some_iff`), and what was written reads back (`imageReadsBack`). -/
theorem readingAnImageGivesTheValueBack : Obligations.ReadingAnImageGivesTheValueBack :=
  ⟨fun r _ l vs hl hok hvs => imageReadsBack r _ _ l vs hl hok hvs, fun _ _ _ _ hl hok =>
    ⟨imgSize_succ hl, fun _ => image_succ hl, fun _ _ h => readImage_flatten_eq_some_iff hl hok h⟩⟩

end Sys2Proof.Machine

/-! # The commands of the Codec Unit -/

namespace Sys2Proof.Machine

variable {s : State} {i : Instr} {legal ranges : Bool} {need : Nat} {short : Err} {body : Nat → State}

/-! ## The checks on a buffer (40_codec.md, head of section 2) -/

/-- A command that is `onBuffer` raises the error of the first check that fails, and else does its body. -/
theorem onBuffer_command (h : Runnable s) (hx : exec i s = .next (s.onBuffer legal ranges need short body)) :
    (legal = false → Raises i s .illegalCommand 0) ∧
    (legal = true → ranges = false ∨ s.params.bmSize < s.op 0 + s.op 1 → Raises i s .illegalAddress 0) ∧
    (legal = true → ranges = true → s.op 0 + s.op 1 ≤ s.params.bmSize → s.op 1 < s.op 2 + need → Raises i s short 0) ∧
    (legal = true → ranges = true → s.op 0 + s.op 1 ≤ s.params.bmSize → s.op 2 + need ≤ s.op 1 →
      exec i s = .next (body (s.op 0 + s.op 2))) :=
  ⟨fun hl => raises_of h (hx.trans (congrArg _ (onBuffer_illegal hl))),
    fun hl hr => raises_of h (hx.trans (congrArg _ (onBuffer_range hl hr))),
    fun hl hr hin hs => raises_of h (hx.trans (congrArg _ (onBuffer_short hl hr hin hs))),
    fun hl hr hin hok => hx.trans (congrArg _ (onBuffer_ok hl hr hin hok))⟩

/-! ## Narrow fields (40_codec.md R145 to R148) -/

theorem narrow_legal_iff (off : BitVec 3) (wid : BitVec 8) :
    (decide (wid.toNat ≤ 8) && decide (off.toNat + wid.toNat ≤ 8)) = true ↔
      wid.toNat ≤ 8 ∧ off.toNat + wid.toNat ≤ 8 := by
  rw [Bool.and_eq_true, decide_eq_true_eq, decide_eq_true_eq]

/-- Settles O25: the checks of `onBuffer_command`, then `mergeByte`. -/
theorem finsMergesIntoOneByte : Obligations.FinsMergesIntoOneByte := by
  intro off wid s h hw legal a mask b
  obtain ⟨hillegal, hrange, hshort, hok⟩ := onBuffer_command h (rfl : exec (.fins off wid) s = _)
  have hlegal := narrow_legal_iff off wid
  refine ⟨fun hl => hillegal (Bool.eq_false_iff.2 (hlegal.not.2 hl)), fun hl hr => hrange (hlegal.2 hl) (.inr hr),
    fun hl hin hs => hshort (hlegal.2 hl) rfl hin (Nat.lt_succ_of_le hs), fun hl hin hlt => ?_⟩
  have hx := succeeds_of h hw (hok (hlegal.2 hl) rfl hin hlt)
  rwa [word_byte] at hx

/-- Settles O26: the checks of `onBuffer_command`, then `extractByte`. -/
theorem fextExtractsOneField : Obligations.FextExtractsOneField := by
  intro off wid s h legal mask v
  obtain ⟨hillegal, hrange, hshort, hok⟩ := onBuffer_command h (rfl : exec (.fext off wid) s = _)
  have hlegal := narrow_legal_iff off wid
  exact ⟨rfl, fun hl => hillegal (Bool.eq_false_iff.2 (hlegal.not.2 hl)), fun hl hr => hrange (hlegal.2 hl) (.inr hr),
    fun hl hin hs => hshort (hlegal.2 hl) rfl hin (Nat.lt_succ_of_le hs),
    fun hl hin hlt => succeeds_quietly_of h (hok (hlegal.2 hl) rfl hin hlt)⟩

/-- The byte BINS writes: one bit set or kept, every other bit kept (R147). -/
theorem getLsbD_or_bit (b : Byte) (off : Nat) (set : Prop) [Decidable set] {k : Nat} (hk : k < 8) :
    (b ||| BitVec.ofNat 8 ((if set then 1 else 0) <<< off)).getLsbD k =
      (b.getLsbD k || (decide (k = off) && decide set)) := by
  have hbit : Nat.testBit ((if set then 1 else 0) <<< off) k = (decide (k = off) && decide set) := by
    split_ifs with hs
    · rw [Nat.one_shiftLeft, Nat.testBit_two_pow]
      simp [hs, eq_comm]
    · simp [hs]
  rw [BitVec.getLsbD_or, BitVec.getLsbD_ofNat, hbit, decide_eq_true hk, Bool.true_and]

/-- Settles O27: the checks of `onBuffer_command`, then one bit of the byte (`getLsbD_or_bit`). -/
theorem binsSetsOneBit : Obligations.BinsSetsOneBit := by
  intro off wid s h hw a
  obtain ⟨hillegal, hrange, hshort, hok⟩ := onBuffer_command h (rfl : exec (.bins off wid) s = _)
  refine ⟨fun hl => hillegal (beq_false_of_ne hl), fun hl hr => hrange (beq_iff_eq.2 hl) (.inr hr),
    fun hl hin hs => hshort (beq_iff_eq.2 hl) rfl hin (Nat.lt_succ_of_le hs), fun hl hin hlt => ?_⟩
  have hx := succeeds_of h hw (hok (beq_iff_eq.2 hl) rfl hin hlt)
  rw [word_byte] at hx
  exact ⟨_, hx, fun k hk => getLsbD_or_bit _ _ _ hk⟩

/-- Settles O28: the checks of `onBuffer_command`, then one bit of the byte. -/
theorem bextReadsOneBit : Obligations.BextReadsOneBit := by
  intro off wid s h
  obtain ⟨hillegal, hrange, hshort, hok⟩ := onBuffer_command h (rfl : exec (.bext off wid) s = _)
  refine ⟨rfl, fun hl => hillegal (beq_false_of_ne hl), fun hl hr => hrange (beq_iff_eq.2 hl) (.inr hr),
    fun hl hin hs => hshort (beq_iff_eq.2 hl) rfl hin (Nat.lt_succ_of_le hs), fun hl hin hlt => ?_⟩
  have hbit : ∀ b : Byte, word ((b.toNat >>> off.toNat) &&& 1) = if b.getLsbD off.toNat then 1 else 0 := fun b => by
    rw [BitVec.getLsbD, Nat.and_one_is_mod, Nat.shiftRight_eq_div_pow, ← Nat.toNat_testBit]
    cases b.toNat.testBit off.toNat <;> rfl
  have hx := succeeds_quietly_of h (hok (beq_iff_eq.2 hl) rfl hin hlt)
  rwa [hbit] at hx

/-! ## Little-endian numbers (40_codec.md R149, R150) -/

/-- Settles O29: the checks of `onBuffer_command`, then `leBytes`. -/
theorem lestStoresLittleEndian : Obligations.LestStoresLittleEndian := by
  intro nb s h hw legal v
  obtain ⟨hillegal, hrange, hshort, hok⟩ := onBuffer_command h (rfl : exec (.lest nb) s = _)
  have hlegal := countLegal_iff nb
  refine ⟨rfl, fun hl => hillegal (Bool.eq_false_iff.2 (hlegal.not.2 hl)), fun hl hr => hrange (hlegal.2 hl) (.inr hr),
    fun hl hin hs => hshort (hlegal.2 hl) rfl hin hs, fun hl hin hlt => ?_⟩
  have hx := succeeds_of h hw (hok (hlegal.2 hl) rfl hin hlt)
  rwa [word_byte, leBytes_eq] at hx

/-- Settles O30: the checks of `onBuffer_command`, then `fromLE`. -/
theorem leldLoadsLittleEndian : Obligations.LeldLoadsLittleEndian := by
  intro nb s h legal v
  obtain ⟨hillegal, hrange, hshort, hok⟩ := onBuffer_command h (rfl : exec (.leld nb) s = _)
  have hlegal := countLegal_iff nb
  refine ⟨rfl, fun hl => hillegal (Bool.eq_false_iff.2 (hlegal.not.2 hl)), fun hl hr => hrange (hlegal.2 hl) (.inr hr),
    fun hl hin hs => hshort (hlegal.2 hl) rfl hin hs, fun hl hin hlt => ?_⟩
  have hv : fromLE (s.bmRead (s.op 0 + s.op 2) nb.toNat) = v := by
    rw [bmRead_eq, bytesAt, fromLE_map]
  have hx := succeeds_quietly_of h (hok (hlegal.2 hl) rfl hin hlt)
  rwa [hv] at hx

/-! ## Raw copies (40_codec.md R151, R152) -/

/-- Settles O31: the checks of `onBuffer_command`, then the write of the bytes read. -/
theorem bapkCopiesIntoTheBuffer : Obligations.BapkCopiesIntoTheBuffer := by
  intro s h hw inside
  obtain ⟨-, hrange, hshort, hok⟩ := onBuffer_command h (rfl : exec .bapk s = _)
  refine ⟨fun hi => hrange rfl ?_, fun hi hs => hshort rfl (inBm_iff.2 hi.2) hi.1 hs, fun hi hlt => ?_⟩
  · rw [← Bool.not_eq_true, inBm_iff]
    omega
  · have hx := succeeds_of h hw (hok rfl (inBm_iff.2 hi.2) hi.1 hlt)
    rwa [word_op, bmRead_eq] at hx

/-- Settles O32: the checks of `onBuffer_command`, then the write of the bytes read. -/
theorem baupCopiesOutOfTheBuffer : Obligations.BaupCopiesOutOfTheBuffer := by
  intro s h hw inside
  obtain ⟨-, hrange, hshort, hok⟩ := onBuffer_command h (rfl : exec .baup s = _)
  refine ⟨rfl, fun hi => hrange rfl ?_, fun hi hs => hshort rfl (inBm_iff.2 hi.2) hi.1 hs, fun hi hlt => ?_⟩
  · rw [← Bool.not_eq_true, inBm_iff]
    omega
  · have hx := succeeds_of h hw (hok rfl (inBm_iff.2 hi.2) hi.1 hlt)
    rwa [word_op, bmRead_eq] at hx

/-! ## Enums (40_codec.md R153, R154) -/

/-- Settles O33: `execEnce` at each outcome of the entry and of the variant. -/
theorem enceGivesThePrimary : Obligations.EnceGivesThePrimary := by
  intro eid s h
  refine ⟨fun hno => raises_of h ?_, fun e he hv => ⟨fun hj => raises_of h ?_, fun v hjv => ?_⟩⟩
  · simp only [exec, execEnce, enumEntry_none hno]
  · simp only [exec, execEnce, enumEntry_some he hv, ge_iff_le, if_pos hj]
  · have hj := (List.getElem?_eq_some_iff.1 hjv).1
    refine succeeds_quietly_of h ?_
    simp only [exec, execEnce, enumEntry_some he hv, ge_iff_le, if_neg (Nat.not_le.2 hj), enumPrim, hjv]
    rfl

/-- Settles O34: `execEncd` at each outcome of the entry and of `enumDecode`. -/
theorem encdGivesTheVariantNamed : Obligations.EncdGivesTheVariantNamed := by
  intro eid s h
  refine ⟨rfl, fun hno => raises_of h ?_, fun e he hok => ?_⟩
  · simp only [exec, execEncd, enumEntry_none hno]
  · have hentry := enumEntry_some he ((enumOk_iff e).1 hok).1
    intro raw
    refine ⟨fun j v hjv hname => succeeds_quietly_of h ?_, fun hnone => raises_of h ?_⟩
    · have hd := (enumDecode_eq_some_iff hok).2 ⟨v, hjv, hname⟩
      simp only [exec, execEncd, hentry, State.op64, raw, hd]
      rfl
    · have hd := enumDecode_eq_none_iff.2 hnone
      simp only [exec, execEncd, hentry, State.op64, raw, hd]

/-! ## Layouts (40_codec.md R165, R170) -/

/-- A command with the checks of PACK and UNPK raises the error of the first that fails, and else does its body. -/
theorem layout_command {size need : Nat} {done : State} (h : Runnable s) (hx : exec i s = .next (
      if !(s.inBm (s.op 0) (s.op 1) && s.inBm (s.op 3) size) then s.raise .illegalAddress
      else if s.op 1 < need then s.raise short else done)) :
    let inside := s.op 0 + s.op 1 ≤ s.params.bmSize ∧ s.op 3 + size ≤ s.params.bmSize
    (¬inside → Raises i s .illegalAddress 0) ∧ (inside → s.op 1 < need → Raises i s short 0) ∧
      (inside → need ≤ s.op 1 → exec i s = .next done) := by
  intro inside
  have hinside : (s.inBm (s.op 0) (s.op 1) && s.inBm (s.op 3) size) = decide inside := by simp [State.inBm, inside]
  rw [hinside] at hx
  refine ⟨fun hi => raises_of h ?_, fun hi hs => raises_of h ?_, fun hi hs => ?_⟩
  · simp only [hx, decide_eq_false hi, Bool.not_false, if_true]
  · simp only [hx, decide_eq_true hi, Bool.not_true, Bool.false_eq_true, if_false, if_pos hs]
  · simp only [hx, decide_eq_true hi, Bool.not_true, Bool.false_eq_true, if_false, if_neg (Nat.not_lt.2 hs)]

/-- Settles O35: the checks of `layout_command`, then the outcome of `readImage`. -/
theorem packWritesThePackedBytes : Obligations.PackWritesThePackedBytes := by
  intro lid clr s h hw
  refine ⟨fun hno => raises_of h ?_, fun l hl hv => ?_⟩
  · simp only [exec, execPack, layoutEntry_none hno]
  dsimp only
  obtain ⟨hrange, hshort, hok⟩ := layout_command h (i := .pack lid clr)
    (by simp only [exec, execPack, layoutEntry_some hl hv, romDepth, bmRead_eq]; rfl)
  refine ⟨hrange, hshort, fun hi hs hread => raises_of h ?_, fun vs hi hs hread => ⟨?_, succeeds_of h hw ?_⟩⟩
  · rw [hok hi hs, hread]
  · rw [length_packInto]
    split_ifs <;> simp
  · rw [hok hi hs, hread]
    rfl

/-- Settles O36: the checks of `layout_command`, then the outcome of `unpackFrom`; the size of the image is
`length_image`. -/
theorem unpkWritesTheValueImage : Obligations.UnpkWritesTheValueImage := by
  intro lid s h hw
  refine ⟨fun hno => raises_of h ?_, fun l hl hv => ?_⟩
  · simp only [exec, execUnpk, layoutEntry_none hno]
  dsimp only
  obtain ⟨hrange, hshort, hok⟩ := layout_command h (i := .unpk lid)
    (by simp only [exec, execUnpk, layoutEntry_some hl hv, romDepth, bmRead_eq]; rfl)
  refine ⟨hrange, hshort, fun hi hs hfound => raises_of h ?_, fun vs hi hs hfound =>
    ⟨succeeds_of h hw ?_, fun hvalid => ?_⟩⟩
  · rw [hok hi hs, hfound]
  · rw [hok hi hs, hfound]
    rfl
  · have hraw := layoutRaw_of_some hl
    exact length_image _ _ _ (by rwa [hraw]) _ (by rw [bytesAt_length, hraw]) vs hfound

end Sys2Proof.Machine

/-! # The Slave Table and the mailbox commands -/

namespace Sys2Proof.Machine

variable {s : State} {i : Instr} {slv : BitVec 8} {m m' : Micro} {sl : Slave}

/-! ## The Slave Table (41_mailbox.md R200, R205) -/

/-- A step that replaces one Slave Table entry and completes with success. -/
theorem succeeds_setSlave {e : Slave} {r0 r1 r2 r3 : Word} (h : Runnable s)
    (hx : exec i s = .next ((s.setSlave slv e).succeed r0 r1 r2 r3)) :
    ∃ t, exec i s = .next t ∧ Untouched s t ∧ SameMemory s t ∧ t.wire = s.wire ∧
      t.slaves = s.slaves.set slv.toNat e ∧ Done t #v[r0, r1, r2, r3] 0 0 :=
  ⟨_, hx, (untouched_setSlave s slv e).trans (untouched_succeed _ _ _ _ _), fun _ => rfl, rfl, rfl,
    done_succeed (s := s.setSlave slv e) h _ _ _ _⟩

/-- SCFG's two checks as one proposition (R200). -/
theorem exec_scfg (slv : BitVec 8) (s : State) : exec (.scfg slv) s = .next (
    if slv.toNat < s.slaves.length ∧ (s.slave slv).cfg = false ∧
        16 ≤ (s.opHigh 1).toNat ∧ (s.opHigh 1).toNat ≤ s.params.maxMbxLen ∧
        16 ≤ (s.opHigh 2).toNat ∧ (s.opHigh 2).toNat ≤ s.params.maxMbxLen then
      (s.setSlave slv
        { cfg := true, station := s.opLow 0, wAddr := s.opLow 1, wLen := s.opHigh 1, wSm := s.opWSm,
          rAddr := s.opLow 2, rLen := s.opHigh 2, rSm := s.opRSm, cnt := 1 }).succeed 1 0 0 0
    else s.raise .illegalCommand) := by
  have hhandle : (!decide (slv.toNat < s.slaves.length) || (s.slave slv).cfg) = true ↔
      ¬(slv.toNat < s.slaves.length ∧ (s.slave slv).cfg = false) := by
    simp [imp_iff_not_or]
  have hlengths : ∀ max wl rl : Nat, (wl < 16 ∨ max < wl ∨ rl < 16 ∨ max < rl) ↔
      ¬(16 ≤ wl ∧ wl ≤ max ∧ 16 ≤ rl ∧ rl ≤ max) := by
    omega
  simp only [exec, execScfg, hhandle, hlengths, ite_not, ← ite_and, and_assoc]

/-- Settles O42: `exec_scfg` where the operands are legal, and where they are not. -/
theorem scfgConfiguresAHandleOnce : Obligations.ScfgConfiguresAHandleOnce := by
  intro slv s h wl rl legal
  exact ⟨fun hl => raises_of h ((exec_scfg slv s).trans (congrArg _ (if_neg hl))),
    fun hl => succeeds_setSlave h ((exec_scfg slv s).trans (congrArg _ (if_pos hl)))⟩

theorem exec_cnxt (slv : BitVec 8) (s : State) : exec (.cnxt slv) s = .next (
    if s.configured slv then (s.takeCounter slv).succeed ((s.slave slv).cnt.setWidth 32) 0 0 0
    else s.raise .illegalCommand) := rfl

theorem takeCounter_eq (s : State) (slv : BitVec 8) :
    s.takeCounter slv = s.setSlave slv { s.slave slv with cnt := succCount (s.slave slv).cnt } := by
  rw [State.takeCounter, nextCount_eq]

/-- Settles O43: of a configured handle the counter is taken (`takeCounter_eq`), else the step is one `raise`. -/
theorem cnxtReturnsAndAdvancesTheCounter : Obligations.CnxtReturnsAndAdvancesTheCounter := by
  intro slv s h
  have hx := exec_cnxt slv s
  refine ⟨fun hc => raises_of h ?_, fun hc => succeeds_setSlave h ?_⟩
  · rw [hx, hc]
    rfl
  · rw [hx, hc, ← takeCounter_eq]
    rfl

/-! ## The checks of a mailbox command, in order -/

/-- A command that checks its handle alone. -/
theorem handle_checked
    (hx : At s .start → exec i s = .next (if s.configured slv then s.goto m else s.raise .illegalCommand)) :
    (At s .start → s.configured slv = false → Raises i s .illegalCommand 0) ∧
    (At s .start → s.configured slv = true → Advances i s m) := by
  refine ⟨fun hat hc => raises_of hat.1 ?_, fun hat hc => advances_of hat.1 ?_⟩ <;> rw [hx hat, hc] <;> rfl

/-- A command that checks its handle, its range in `BM` and a length. -/
theorem handle_range_length_checked {short : Prop} [Decidable short]
    (hx : At s .start → exec i s = .next (
      if !s.configured slv then s.raise .illegalCommand
      else if !s.inBm (s.op 0) (s.op 1) then s.raise .illegalAddress
      else if short then s.raise .bufferTooShort
      else s.goto m)) :
    let inside := s.op 0 + s.op 1 ≤ s.params.bmSize
    (At s .start → s.configured slv = false → Raises i s .illegalCommand 0) ∧
    (At s .start → s.configured slv = true → ¬inside → Raises i s .illegalAddress 0) ∧
    (At s .start → s.configured slv = true → inside → short → Raises i s .bufferTooShort 0) ∧
    (At s .start → s.configured slv = true → inside → ¬short → Advances i s m) := by
  intro inside
  have hinside : s.inBm (s.op 0) (s.op 1) = decide inside := rfl
  refine ⟨fun hat hc => raises_of hat.1 ?_, fun hat hc hi => raises_of hat.1 ?_,
    fun hat hc hi hs => raises_of hat.1 ?_, fun hat hc hi hs => advances_of hat.1 ?_⟩
  · simp [hx hat, hc]
  · simp [hx hat, hc, hinside, hi]
  · simp [hx hat, hc, hinside, hi, hs]
  · simp [hx hat, hc, hinside, hi, hs]

/-! ## Transport steps that go on (R210, R212, R213) -/

/-- A step that is one Transport operation and then an error. -/
theorem transacts_fail {op : TransportOp} {e : Err} (h : Runnable s)
    (hx : exec i s = .next ((s.transact op).fail e)) : Transacts i s op (.finish (errResults e 0)) :=
  transacts_finish h hx

section Steps

variable {onTimeout onErr : State → Err → State}

/-- A command's status read of the drain, by what the read answers. -/
theorem drainStatus_command (h : Runnable s)
    (hx : exec i s = .next (s.drainStatus sl onErr (·.goto m) (·.goto m'))) :
    let status := statusRead sl sl.rSm
    (∀ b, s.answer status = .ok b → (byteAt b 0).getLsbD 3 = true → Transacts i s status m) ∧
    (∀ b, s.answer status = .ok b → (byteAt b 0).getLsbD 3 = false → Transacts i s status m') ∧
    (∀ t, s.answer status = .err t → exec i s = .next (onErr (s.transact status) (.transport t))) :=
  ⟨fun _ ha hb => transacts_goto h (hx.trans (congrArg _ (drainStatus_full ha hb))),
    fun _ ha hb => transacts_goto h (hx.trans (congrArg _ (drainStatus_empty ha hb))),
    fun _ ha => hx.trans (congrArg _ (drainStatus_err ha))⟩

/-- A command's poll iteration in which the timeout does not fire, by what the read answers. -/
theorem pollMailbox_command {sm : BitVec 8} {want : Bool} (h : At s m)
    (hx : exec i s = .next (s.pollMailbox sl sm want onTimeout onErr (·.goto m')))
    (ht : s.draw.timeout = false) :
    let status := statusRead sl sm
    (∀ b, s.answer status = .ok b → (byteAt b 0).getLsbD 3 = want → Transacts i s status m') ∧
    (∀ b, s.answer status = .ok b → (byteAt b 0).getLsbD 3 = !want → Transacts i s status m) ∧
    (∀ t, s.answer status = .err t → exec i s = .next (onErr (s.transact status) (.transport t))) :=
  ⟨fun _ ha hb => transacts_goto h.1 (hx.trans (congrArg _ (pollMailbox_done ht ha hb))),
    fun _ ha hb => transacts_stay h.2 (hx.trans (congrArg _ (pollMailbox_again ht ha (hb ▸ Bool.not_ne_self want)))),
    fun _ ha => hx.trans (congrArg _ (pollMailbox_err ht ha))⟩

/-- A command's poll iteration in which the timeout fires. -/
theorem pollMailbox_command_timeout {sm : BitVec 8} {want : Bool} {done : State → State}
    (hx : exec i s = .next (s.pollMailbox sl sm want onTimeout onErr done)) (ht : s.draw.timeout = true) :
    exec i s = .next (onTimeout s (.mailboxTimeout sl.station)) :=
  hx.trans (congrArg _ (pollMailbox_timeout ht))

end Steps

/-! ## MDRN (R212) -/

/-- Settles O45, micro-state by micro-state. -/
theorem mdrnDrainsAFullMailbox : Obligations.MdrnDrainsAFullMailbox := by
  intro slv s sl status whole
  obtain ⟨hhandle, hgoes⟩ := handle_checked (s := s) (i := .mdrn slv) (slv := slv) (m := .drainStatus) fun hat => by
    simp only [exec, execMdrn, micro_of_at hat]
  refine ⟨hhandle, hgoes, fun hat => ?_, fun hat => ?_, fun c hat => ?_⟩
  · have hx : exec (.mdrn slv) s = .next (s.drainStatus sl State.fail (·.goto .drainRead)
        (·.finish (.ok #v[0, 0, 0, 0]))) := by
      simp only [exec, execMdrn, micro_of_at hat, sl]
    obtain ⟨hfull, hempty, herr⟩ := drainStatus_command hat.1 hx
    exact ⟨hfull, hempty, fun t ha => transacts_fail hat.1 (herr t ha)⟩
  · have hx : exec (.mdrn slv) s = .next (s.readMailbox sl State.fail fun u _ =>
        u.finish (.ok #v[1, 0, 0, 0])) := by
      simp only [exec, execMdrn, micro_of_at hat, sl]
    exact ⟨fun b ha => transacts_finish hat.1 (hx.trans (congrArg _ (readMailbox_ok ha))),
      fun t ha => transacts_fail hat.1 (hx.trans (congrArg _ (readMailbox_err ha)))⟩
  · exact completes_of hat.1 (by simp only [exec, execMdrn, micro_of_at hat])

/-! ## MACQ (R211) -/

/-- Settles O46, micro-state by micro-state. -/
theorem macqPollsUntilNotFull : Obligations.MacqPollsUntilNotFull := by
  intro slv s sl status
  obtain ⟨hhandle, hgoes⟩ := handle_checked (s := s) (i := .macq slv) (slv := slv) (m := .acquire) fun hat => by
    simp only [exec, execMacq, micro_of_at hat]
  have hpoll : At s .acquire → exec (.macq slv) s = .next (s.pollMailbox sl sl.wSm false State.raise State.fail
      (·.finish (.ok #v[0, 0, 0, 0]))) := fun hat => by
    simp only [exec, execMacq, micro_of_at hat, sl]
  refine ⟨hhandle, hgoes, fun hat ht => raises_of hat.1 (pollMailbox_command_timeout (hpoll hat) ht),
    fun hat ht => ?_, fun c hat => ?_⟩
  · obtain ⟨hdone, hagain, herr⟩ := pollMailbox_command hat (hpoll hat) ht
    exact ⟨hagain, hdone, fun t ha => transacts_fail hat.1 (herr t ha)⟩
  · exact completes_of hat.1 (by simp only [exec, execMacq, micro_of_at hat])

/-! ## MSND (R214) -/

/-- Settles O47: the checks of `handle_range_length_checked`, then one write of the padded message. -/
theorem msndWritesTheWholeMailbox : Obligations.MsndWritesTheWholeMailbox := by
  intro slv s sl msg inside
  obtain ⟨hhandle, hrange, hshort, hgoes⟩ := handle_range_length_checked (s := s) (i := .msnd slv) (slv := slv)
    (m := .send msg) (short := sl.wLen.toNat < s.op 1) fun hat => by
      simp only [exec, execMsnd, micro_of_at hat, bmRead_eq]
      rfl
  have hlength : s.op 1 ≤ sl.wLen.toNat → msg.length = sl.wLen.toNat := fun hle => by
    simp only [msg, List.length_append, bytesAt_length, List.length_replicate]
    omega
  refine ⟨hhandle, hrange, hshort, fun hat hc hi hle => ⟨hgoes hat hc hi (Nat.not_lt.2 hle), hlength hle⟩,
    fun m hat => ?_, fun c hat => ?_⟩
  · intro put
    have hx : exec (.msnd slv) s = .next (s.transport put State.fail fun u _ =>
        u.finish (.ok #v[word (s.op 1), 0, 0, 0])) := by
      simp only [exec, execMsnd, micro_of_at hat]
      rfl
    rw [word_op] at hx
    exact ⟨fun b ha => transacts_finish hat.1 (hx.trans (congrArg _ (transport_ok ha _ _))),
      fun t ha => transacts_fail hat.1 (hx.trans (congrArg _ (transport_err ha _ _)))⟩
  · exact completes_of hat.1 (by simp only [exec, execMsnd, micro_of_at hat])

/-! ## MAWT (R213) -/

/-- Settles O48: the checks of `handle_range_length_checked`, the poll, the read into `RXBUF` and the copy. -/
theorem mawtDeliversTheMailbox : Obligations.MawtDeliversTheMailbox := by
  intro slv s sl status whole inside
  obtain ⟨hhandle, hrange, hshort, hgoes⟩ := handle_range_length_checked (s := s) (i := .mawt slv) (slv := slv)
    (m := .await) (short := s.op 1 < sl.rLen.toNat) fun hat => by
      simp only [exec, execMawt, micro_of_at hat]
      rfl
  have hpoll : At s .await → exec (.mawt slv) s = .next (s.pollMailbox sl sl.rSm true State.raise State.fail
      (·.goto .receive)) := fun hat => by
    simp only [exec, execMawt, micro_of_at hat, sl]
  refine ⟨hhandle, hrange, hshort, fun hat hc hi hle => hgoes hat hc hi (Nat.not_lt.2 hle),
    fun hat ht => raises_of hat.1 (pollMailbox_command_timeout (hpoll hat) ht), fun hat ht => ?_, fun hat => ?_,
    fun hat hw _ => ?_, fun c hat => ?_⟩
  · obtain ⟨hdone, hagain, herr⟩ := pollMailbox_command hat (hpoll hat) ht
    exact ⟨hdone, hagain, fun t ha => transacts_fail hat.1 (herr t ha)⟩
  · have hx : exec (.mawt slv) s = .next (s.readMailbox sl State.fail fun u rx =>
        (u.keepMailbox rx).goto .store) := by
      simp only [exec, execMawt, micro_of_at hat, sl]
    exact ⟨fun b ha => ⟨receives_keep hat.1 (hx.trans (congrArg _ (readMailbox_ok ha))), answer_length ha⟩,
      fun t ha => transacts_fail hat.1 (hx.trans (congrArg _ (readMailbox_err ha)))⟩
  · have hx : exec (.mawt slv) s = .next ((s.bmWrite (s.op 0) (s.hid.rxBuf.take sl.rLen.toNat)).finish
        (.ok #v[word sl.rLen.toNat, 0, 0, 0])) := by
      simp only [exec, execMawt, micro_of_at hat, sl]
    rw [word_halfword] at hx
    exact ⟨_, hx, (untouched_bmWrite _ _ _).trans (untouched_finish _ _), ⟨rfl, rfl⟩, wrote_bmWrite hw _ _,
      goes_finish (s := s.bmWrite _ _) hat.1 _⟩
  · exact completes_of hat.1 (by simp only [exec, execMawt, micro_of_at hat])

end Sys2Proof.Machine

/-! # The exchange and the check of its response -/

namespace Sys2Proof.Machine

variable {s : State} {i : Instr} {slv : BitVec 8} {idx : BitVec 16} {ph : Phase} {rx : List Byte}

/-! ## The exchange up to the response (41_mailbox.md R220) -/

/-- The completion step of an SDO command. -/
theorem exec_exchanging_finish (hi : Exchanging i slv idx ph) {c : Completion} (hat : At s (.finish c)) :
    exec i s = .next (s.complete c) := by
  obtain ⟨rfl, -⟩ | ⟨rfl, -⟩ := hi
  · simp only [exec, execSdwr, micro_of_at hat]
  · simp only [exec, execSdrd, micro_of_at hat]

/-- Settles O51: each step of the exchange is a mailbox step, which `exec_exchange` finds. -/
theorem exchangeRunsDrainAcquireSendAwait : Obligations.ExchangeRunsDrainAcquireSendAwait := by
  intro slv idx i ph s hi sl wStatus rStatus whole put fails
  have hacquire : At s (.exch ph .acquire) → exec i s = .next (s.pollMailbox sl sl.wSm false State.raiseSdo
      State.failSdo (·.goto (.exch ph .send))) := fun hat => (exec_exchange hi hat).choose_spec
  have hawait : At s (.exch ph .await) → exec i s = .next (s.pollMailbox sl sl.rSm true State.raiseSdo
      State.failSdo (·.goto (.exch ph .receive))) := fun hat => (exec_exchange hi hat).choose_spec
  refine ⟨fun hat => ?_, fun hat => ?_, fun hat ht => ?_, fun hat ht => ?_, fun hat => ?_, fun hat ht => ?_,
    fun hat ht => ?_, fun hat t ha => ?_, fun c hat => ?_⟩
  · obtain ⟨acc, hx⟩ := exec_exchange hi hat
    obtain ⟨hfull, hempty, herr⟩ := drainStatus_command hat.1 hx
    exact ⟨hfull, hempty, fun t ha => transacts_failSdo hat.1 (herr t ha)⟩
  · obtain ⟨acc, hx⟩ := exec_exchange hi hat
    exact ⟨fun b ha => transacts_goto hat.1 (hx.trans (congrArg _ (readMailbox_ok ha))),
      fun t ha => transacts_failSdo hat.1 (hx.trans (congrArg _ (readMailbox_err ha)))⟩
  · exact raises_sdo_of hat.1 (pollMailbox_command_timeout (hacquire hat) ht)
  · obtain ⟨hdone, hagain, herr⟩ := pollMailbox_command hat (hacquire hat) ht
    exact ⟨hagain, hdone, fun t ha => transacts_failSdo hat.1 (herr t ha)⟩
  · have hx : exec i s = .next (s.transport put State.failSdo fun u _ =>
        (u.setXs .requestSent).goto (.exch ph .await)) := (exec_exchange hi hat).choose_spec
    exact ⟨fun b ha => transacts_setXs hat.1 (hx.trans (congrArg _ (transport_ok ha _ _))),
      fun t ha => transacts_failSdo hat.1 (hx.trans (congrArg _ (transport_err ha _ _)))⟩
  · exact raises_sdo_of hat.1 (pollMailbox_command_timeout (hawait hat) ht)
  · obtain ⟨hdone, hagain, herr⟩ := pollMailbox_command hat (hawait hat) ht
    exact ⟨hdone, hagain, fun t ha => transacts_failSdo hat.1 (herr t ha)⟩
  · obtain ⟨acc, hx⟩ := exec_exchange hi hat
    exact transacts_failSdo hat.1 (hx.trans (congrArg _ (readMailbox_err ha)))
  · exact completes_of hat.1 (exec_exchanging_finish hi hat)

/-! ## The check of a response (R221, R222) -/

/-- A response the check refuses ends the command with the error it raises. -/
theorem receives_refused (hi : Exchanging i slv idx ph) (hat : At s (.exch ph .receive))
    (ha : s.answer (.read (s.slave slv).station (s.slave slv).rAddr (s.slave slv).rLen.toNat) = .ok rx) {e : Err}
    (he : checkResponse s.params.abortFirst rx s.port.hid.curCnt idx s.opSub = some e) :
    ReceivesXs i s (.read (s.slave slv).station (s.slave slv).rAddr (s.slave slv).rLen.toNat) rx
      (.finish (errResults e (xstateCode e.terminal))) e.terminal := by
  obtain ⟨acc, hx⟩ := exec_exchange hi hat
  rw [exchange_receive hat.1 ha, he] at hx
  exact receives_failSdo hat.1 hx

/-- A response that passes the check ends an SDWR with success (42_sdo.md R242). -/
theorem receives_accepted_sdwr (hat : At s (.exch .download .receive))
    (ha : s.answer (.read (s.slave slv).station (s.slave slv).rAddr (s.slave slv).rLen.toNat) = .ok rx)
    (he : checkResponse s.params.abortFirst rx s.port.hid.curCnt idx s.opSub = none) :
    ReceivesXs (.sdwr slv idx) s (.read (s.slave slv).station (s.slave slv).rAddr (s.slave slv).rLen.toNat) rx
      (.finish (okResults #v[s.port.op[1], s.port.hid.curCnt.setWidth 32, 0, 0] 4)) .complete := by
  have hx : exec (.sdwr slv idx) s = .next (s.exchange slv idx .download .receive fun u =>
      u.finishSdo (word (u.op 1)) (u.hid.curCnt.setWidth 32) 0 0) := by
    simp only [exec, execSdwr, micro_of_at hat]
  rw [exchange_receive hat.1 ha, he] at hx
  simp only [received_op hat.1, received_hid hat.1, word_op] at hx
  exact receives_setXs hat.1 hx

/-- Settles O52: `checkResponse_eq` gives the error in each order of the two checks, and `checkResponse_none` that
there is none. -/
theorem responsesAreValidatedBeforeUse : Obligations.ResponsesAreValidatedBeforeUse := by
  intro slv idx i ph s rx hi hat sl whole sub valid aborted code invalidEnd abortEnd ha hlen
  have hrx : 16 ≤ rx.length := by
    rw [answer_length ha]
    exact hlen
  have hcode : BitVec.ofNat 32 (rxData4 rx) = code := ofNat_rxData4 hrx
  have hcheck : checkResponse s.params.abortFirst rx s.port.hid.curCnt idx sub = _ := checkResponse_eq _ _ _ _ _
  rw [hcode] at hcheck
  refine ⟨fun hfirst => ⟨fun hv => ?_, fun hv hab => ?_⟩, fun hfirst => ⟨fun hab => ?_, fun hab hv => ?_⟩, ?_⟩
  · exact receives_refused hi hat ha (hcheck.trans (by rw [hfirst, if_neg (by decide), if_neg hv]))
  · exact receives_refused hi hat ha (hcheck.trans (by rw [hfirst, if_neg (by decide), if_pos hv, if_pos hab]))
  · exact receives_refused hi hat ha (hcheck.trans (by rw [hfirst, if_pos rfl, if_pos hab]))
  · exact receives_refused hi hat ha (hcheck.trans (by rw [hfirst, if_pos rfl, if_neg hab, if_neg hv]))
  · rintro ⟨hcounter, htype⟩ hab rfl
    obtain ⟨-, rfl⟩ | ⟨hne, -⟩ := hi
    · exact receives_accepted_sdwr hat ha (checkResponse_none hcounter htype hab)
    · cases hne

end Sys2Proof.Machine

/-! # The counter sequence -/

namespace Sys2Proof.Machine

variable {s t : State} {i : Instr} {slv : BitVec 8}

/-! ## The cycle 1 to 7 (41_mailbox.md R204) -/

theorem counterAfter_toNat (c : BitVec 3) (k : Nat) : (counterAfter c k).toNat = (c.toNat - 1 + k) % 7 + 1 := by
  rw [counterAfter, BitVec.toNat_ofNat]
  omega

theorem counterAfter_zero {c : BitVec 3} (h : c ≠ 0) : counterAfter c 0 = c := by
  revert c
  decide

theorem counterAfter_one {c : BitVec 3} (h : c ≠ 0) : counterAfter c 1 = succCount c := by
  revert c
  decide

theorem counterAfter_add (c : BitVec 3) (n k : Nat) : counterAfter c (n + k) = counterAfter (counterAfter c n) k := by
  apply BitVec.eq_of_toNat_eq
  simp only [counterAfter_toNat]
  omega

/-! ## Which steps are counter steps (R205, R206) -/

/-- The step of command `i` at micro-state `m` takes the counter of the handle `slv`. -/
inductive CountsOn (slv : BitVec 8) : Instr → Micro → Prop where
  | cnxt (m : Micro) : CountsOn slv (.cnxt slv) m
  | sdwr (idx : BitVec 16) (ph : Phase) (val : List Byte) : CountsOn slv (.sdwr slv idx) (.counter ph val)
  | sdrd (idx : BitVec 16) (ph : Phase) (val : List Byte) : CountsOn slv (.sdrd slv idx) (.counter ph val)

/-- The number that command `i` shows as the counter value it has taken: CNXT in `RS[0]`, an SDO command in
`CUR_CNT`. -/
def counterShown (i : Instr) (pt : Port) : Nat :=
  match i with
  | .cnxt _ => (pt.rs[0]).toNat
  | _ => pt.hid.curCnt.toNat

section Taken

variable {p : Nat} {d : Draw} {rest : List Event} {pt pt' : Port} {m : Micro}

theorem takenBy_of_countsOn (ha : s.agenda = .port p d :: rest) (hp : s.ports[p]? = some pt)
    (hp' : t.ports[p]? = some pt') (hm : pt.pst = .busy m) (hd : decode pt.cmd = .ok i) (h : CountsOn slv i m) :
    takenBy slv s t = [counterShown i pt'] := by
  cases h <;> simp [takenBy, ha, hp, hp', hm, hd, counterShown]

theorem takenBy_of_not_countsOn (ha : s.agenda = .port p d :: rest) (hp : s.ports[p]? = some pt)
    (hp' : t.ports[p]? = some pt') (hm : pt.pst = .busy m) (hd : decode pt.cmd = .ok i) (h : ¬CountsOn slv i m) :
    takenBy slv s t = [] := by
  simp only [takenBy, ha, hp, hp', hm, hd]
  split
  case h_4 => rfl
  all_goals
    refine if_neg ?_
    rintro rfl
    simp_all [CountsOn.cnxt, CountsOn.sdwr, CountsOn.sdrd]

theorem takenBy_of_idle (ha : s.agenda = .port p d :: rest) (hidle : ∀ pt, s.ports[p]? = some pt → pt.pst = .idle) :
    takenBy slv s t = [] := by
  simp only [takenBy, ha]
  cases hp : s.ports[p]? with
  | none => rfl
  | some pt => cases t.ports[p]? <;> simp [hidle pt hp]

theorem takenBy_of_illegal {e : DecodeError} (ha : s.agenda = .port p d :: rest) (hp : s.ports[p]? = some pt)
    (hd : decode pt.cmd = .error e) : takenBy slv s t = [] := by
  simp only [takenBy, ha, hp]
  cases t.ports[p]? <;> simp [hd]

end Taken

/-- The Slave Table entry of `slv` is the same in `t` as in `s`. -/
def KeepsEntry (slv : BitVec 8) (s t : State) : Prop := t.slaves[slv.toNat]? = s.slaves[slv.toNat]?

theorem exchange_keepsEntry {v : BitVec 8} {idx : BitVec 16} {ph : Phase} {k : ExchStep} {acc : State → State}
    (h : ∀ u, (acc u).slaves = u.slaves) : KeepsEntry slv s (s.exchange v idx ph k acc) := by
  cases k <;> simp only [State.exchange]
  case drainStatus => exact drainStatus_cases (fun _ => rfl) rfl rfl
  case drainRead => exact readMailbox_cases (fun _ => rfl) fun _ _ => rfl
  case acquire | await => exact pollMailbox_cases rfl (fun _ => rfl) rfl rfl
  case send => exact transport_cases _ _ _ _ (fun _ _ => rfl) fun _ _ => rfl
  case receive =>
    refine readMailbox_cases (fun _ => rfl) fun rx _ => ?_
    split
    · rfl
    · rw [KeepsEntry, h]
      rfl

theorem execScfg_keepsEntry {v : BitVec 8} (hc : s.configured slv = true) (hx : exec (.scfg v) s = .next t) :
    KeepsEntry slv s t := by
  rw [exec_scfg] at hx
  split_ifs at hx with h <;> cases hx
  · have hne : v.toNat ≠ slv.toNat := fun he => by
      obtain rfl := BitVec.eq_of_toNat_eq he
      simp [State.configured, h.2.1] at hc
    exact List.getElem?_set_ne hne
  · rfl

/-- A counter step on another handle. -/
theorem takeCounter_keepsEntry {v : BitVec 8} (hne : v ≠ slv) : KeepsEntry slv s (s.takeCounter v) :=
  List.getElem?_set_ne fun he => hne (BitVec.eq_of_toNat_eq he)

theorem classify_slaves (u : State) (v : BitVec 8) : (u.classify v).slaves = u.slaves := by
  obtain ⟨-, hslaves, -⟩ := (moves_classify u v).same
  exact hslaves

theorem segmentArrived_slaves (u : State) (v : BitVec 8) (idx : BitVec 16) (first : BitVec 3) :
    (u.segmentArrived v idx first).slaves = u.slaves := by
  obtain ⟨-, hslaves, -⟩ := (moves_segmentArrived u v idx first).same
  exact hslaves

theorem execSdwr_keepsEntry {v : BitVec 8} {idx : BitVec 16} (hn : ¬CountsOn slv (.sdwr v idx) s.micro)
    (hx : exec (.sdwr v idx) s = .next t) : KeepsEntry slv s t := by
  simp only [exec, execSdwr] at hx
  split at hx <;> cases hx
  · split_ifs <;> rfl
  · rename_i hm
    exact takeCounter_keepsEntry fun he => hn (hm ▸ he ▸ .sdwr ..)
  · exact exchange_keepsEntry fun _ => rfl
  · rfl

theorem execSdrd_keepsEntry {v : BitVec 8} {idx : BitVec 16} (hn : ¬CountsOn slv (.sdrd v idx) s.micro)
    (hx : exec (.sdrd v idx) s = .next t) : KeepsEntry slv s t := by
  simp only [exec, execSdrd] at hx
  split at hx <;> cases hx
  · split_ifs <;> rfl
  · rename_i hm
    exact takeCounter_keepsEntry fun he => hn (hm ▸ he ▸ .sdrd ..)
  · rename_i hm
    exact takeCounter_keepsEntry fun he => hn (hm ▸ he ▸ .sdrd ..)
  · exact exchange_keepsEntry fun u => classify_slaves u v
  · exact exchange_keepsEntry fun u => segmentArrived_slaves u v idx _
  · rfl
  · rw [State.storeChunk]
    dsimp only
    split_ifs <;> rfl
  · rfl

/-- A step that does not take the counter of a configured handle leaves its entry as it is. -/
theorem exec_keepsEntry (hn : ¬CountsOn slv i s.micro) (hc : s.configured slv = true)
    (hx : exec i s = .next t) : KeepsEntry slv s t := by
  cases i
  case fins | fext | bins | bext | lest | leld | bapk | baup =>
    cases hx
    exact onBuffer_cases (P := KeepsEntry slv s) rfl rfl rfl fun _ _ _ _ => rfl
  case ence | encd =>
    cases hx
    split
    · rfl
    · split <;> rfl
  case pack | unpk =>
    cases hx
    split
    · rfl
    · dsimp only
      split_ifs
      · rfl
      · rfl
      all_goals split <;> rfl
  case scfg v => exact execScfg_keepsEntry hc hx
  case cnxt v =>
    rw [exec_cnxt] at hx
    split_ifs at hx <;> cases hx
    · exact takeCounter_keepsEntry fun he => hn (he ▸ .cnxt _)
    · rfl
  case mdrn v =>
    simp only [exec, execMdrn] at hx
    split at hx <;> cases hx
    · split_ifs <;> rfl
    · exact drainStatus_cases (fun _ => rfl) rfl rfl
    · exact readMailbox_cases (fun _ => rfl) fun _ _ => rfl
    · rfl
  case macq v =>
    simp only [exec, execMacq] at hx
    split at hx <;> cases hx
    · split_ifs <;> rfl
    · exact pollMailbox_cases rfl (fun _ => rfl) rfl rfl
    · rfl
  case msnd v =>
    simp only [exec, execMsnd] at hx
    split at hx <;> cases hx
    · split_ifs <;> rfl
    · exact transport_cases _ _ _ _ (fun _ _ => rfl) fun _ _ => rfl
    · rfl
  case mawt v =>
    simp only [exec, execMawt] at hx
    split at hx <;> cases hx
    · split_ifs <;> rfl
    · exact pollMailbox_cases rfl (fun _ => rfl) rfl rfl
    · exact readMailbox_cases (fun _ => rfl) fun _ _ => rfl
    · rfl
    · rfl
  case sdwr v idx => exact execSdwr_keepsEntry hn hx
  case sdrd v idx => exact execSdrd_keepsEntry hn hx
  case alrq v st =>
    simp only [exec, execAlrq] at hx
    split at hx <;> cases hx
    · split_ifs <;> rfl
    · refine transport_cases _ _ _ _ (fun _ _ => rfl) fun _ _ => ?_
      split_ifs <;> rfl
    · exact transport_cases _ _ _ _ (fun _ _ => rfl) fun _ _ => rfl
    · rfl
  case alwt v st =>
    simp only [exec, execAlwt] at hx
    split at hx <;> cases hx
    · split_ifs <;> rfl
    · split_ifs
      · rfl
      · refine transport_cases _ _ _ _ (fun _ _ => rfl) fun _ _ => ?_
        split_ifs <;> rfl
    · rfl

/-- The counter step of an SDO command takes the counter and holds it in `CUR_CNT` (R206). -/
theorem takeAndBuild_slaves_curCnt (hr : Runnable s) (ph : Phase) (build : BitVec 3 → List Byte) :
    (s.takeAndBuild slv ph build).slaves = countedSlaves s slv ∧
      (s.takeAndBuild slv ph build).port.hid.curCnt.toNat = (s.slave slv).cnt.toNat :=
  ⟨takeAndBuild_slaves s slv ph build, by rw [takeAndBuild_port hr]⟩

/-- A counter step on a configured handle takes its counter and shows the value taken. -/
theorem exec_counts (hn : CountsOn slv i s.micro) (hc : s.configured slv = true) (hr : Runnable s)
    (hx : exec i s = .next t) : t.slaves = countedSlaves s slv ∧ counterShown i t.port = (s.slave slv).cnt.toNat := by
  generalize hm : s.micro = m at hn
  cases hn with
  | cnxt =>
    obtain ⟨u, hu, -, -, -, hslaves, hrs, -⟩ := (cnxtReturnsAndAdvancesTheCounter slv s hr).2 hc
    cases hx.symm.trans hu
    refine ⟨hslaves, ?_⟩
    have hshown : counterShown (.cnxt slv) t.port = ((s.slave slv).cnt.setWidth 32).toNat :=
      congrArg (fun rs : Vector Word 4 => (rs[0]).toNat) hrs
    rw [hshown, BitVec.toNat_setWidth]
    omega
  | sdwr idx ph val =>
    cases ph <;> simp only [exec, execSdwr, hm] at hx <;> cases hx
    exact takeAndBuild_slaves_curCnt hr _ _
  | sdrd idx ph val =>
    cases ph <;> simp only [exec, execSdrd, hm] at hx <;> cases hx
    all_goals exact takeAndBuild_slaves_curCnt hr _ _

/-! ## Counter values along a run (R207) -/

/-- From `s` to `t` the values `vs` are taken of the counter of `slv`, along the cycle. -/
structure Counts (slv : BitVec 8) (s t : State) (vs : List Nat) : Prop where
  configured : t.configured slv = true
  values : vs = (List.range vs.length).map fun k => (counterAfter (s.slave slv).cnt k).toNat
  counter : (t.slave slv).cnt = counterAfter (s.slave slv).cnt vs.length

theorem Counts.trans {u : State} {vs ws : List Nat} (h : Counts slv s t vs) (k : Counts slv t u ws) :
    Counts slv s u (vs ++ ws) where
  configured := k.configured
  values := by
    have hw := k.values
    simp only [h.counter, ← counterAfter_add] at hw
    rw [List.length_append, List.range_add, List.map_append, ← h.values, List.map_map]
    exact congrArg _ hw
  counter := by rw [k.counter, h.counter, List.length_append, counterAfter_add]

theorem configured_of_getElem? {sl : Slave} (h : s.slaves[slv.toNat]? = some sl) (hc : sl.cfg = true) :
    s.configured slv = true ∧ s.slave slv = sl := by
  have hslave : s.slave slv = sl := by simp [State.slave, h]
  exact ⟨by simp [State.configured, hslave, hc, (List.getElem?_eq_some_iff.1 h).1], hslave⟩

theorem getElem?_of_configured (h : s.configured slv = true) :
    s.slaves[slv.toNat]? = some (s.slave slv) ∧ (s.slave slv).cfg = true := by
  simp only [State.configured, Bool.and_eq_true, decide_eq_true_eq] at h
  exact ⟨slave_getElem? h.1, h.2⟩

theorem State.Inv.counter_ne_zero (h : s.Inv) (hc : s.configured slv = true) : (s.slave slv).cnt ≠ 0 := by
  obtain ⟨-, -, -, -, hcnt⟩ := slave_bounds h.slaves hc
  exact hcnt

/-- A step that takes no counter value and keeps the entry. -/
theorem counts_nil (h : s.Inv) (hc : s.configured slv = true) (hk : KeepsEntry slv s t) : Counts slv s t [] := by
  obtain ⟨hget, hcfg⟩ := getElem?_of_configured hc
  obtain ⟨hconf, hslave⟩ := configured_of_getElem? (hk.trans hget) hcfg
  exact ⟨hconf, rfl, by rw [hslave]; exact (counterAfter_zero (h.counter_ne_zero hc)).symm⟩

/-- A step that takes one counter value. -/
theorem counts_one (h : s.Inv) (hc : s.configured slv = true) (ht : t.slaves = countedSlaves s slv) :
    Counts slv s t [(s.slave slv).cnt.toNat] := by
  have hne := h.counter_ne_zero hc
  obtain ⟨hget, hcfg⟩ := getElem?_of_configured hc
  have hlt := (List.getElem?_eq_some_iff.1 hget).1
  obtain ⟨hconf, hslave⟩ := configured_of_getElem? (s := t)
    (sl := { s.slave slv with cnt := succCount (s.slave slv).cnt })
    (by rw [ht, countedSlaves, List.getElem?_set_self hlt]) hcfg
  refine ⟨hconf, ?_, ?_⟩
  · exact congrArg (fun c : BitVec 3 => [c.toNat]) (counterAfter_zero hne).symm
  · rw [hslave]
    exact (counterAfter_one hne).symm

/-- An event that is no reset and no step of a port leaves the Slave Table. -/
theorem Happens.slaves_eq {e : Event} (h : Happens s e t) (hreset : e ≠ .assertReset) (hport : ∀ p d, e ≠ .port p d) :
    t.slaves = s.slaves := by
  cases h with
  | nothing | operand | command | memory | release | load => rfl
  | reset => exact absurd rfl hreset
  | port p d => exact absurd rfl (hport p d)

theorem Happens.agenda_eq {e : Event} (h : Happens s e t) : t.agenda = s.agenda := by
  cases h with
  | nothing | operand | command | memory | reset | release | load => rfl
  | port p d hp hm hshape =>
    obtain ⟨-, -, -, -, -, -, -, hagenda, -⟩ := hshape.untouched
    exact hagenda

theorem step_agenda (hx : step s = .next t) : t.agenda = s.agenda.tail := by
  obtain ⟨ha, rfl⟩ | ⟨e, rest, ha, hx⟩ := step_cases hx
  · rw [ha]
    rfl
  · rw [(happens_of_happen hx).agenda_eq, ha]
    rfl

/-- A port's step does nothing, raises IllegalCommand or runs the command its `CMD` encodes. -/
theorem portStep_cases {p : Nat} {d : Draw} (hx : portStep s p d = .next t) :
    (t = s ∧ ∀ pt, s.ports[p]? = some pt → pt.pst = .idle) ∨
    ∃ pt m, s.ports[p]? = some pt ∧ pt.pst = .busy m ∧
      ((∃ e, decode pt.cmd = .error e) ∧ t = (s.select p d).raise .illegalCommand ∨
        ∃ i, decode pt.cmd = .ok i ∧ exec i (s.select p d) = .next t) := by
  unfold portStep at hx
  split at hx
  · cases hx
    exact .inl ⟨rfl, by simp_all⟩
  · split at hx
    · cases hx
      exact .inl ⟨rfl, by simp_all⟩
    · refine .inr ⟨_, _, ‹_›, ‹_›, ?_⟩
      split at hx
      · cases hx
        exact .inl ⟨⟨_, ‹_›⟩, rfl⟩
      · exact .inr ⟨_, ‹_›, hx⟩

/-- The port whose step has run is the running port of the state after it. -/
theorem exec_active_port (hr : Runnable s) (hx : exec i s = .next t) : t.ports[s.active]? = some t.port := by
  obtain ⟨-, -, -, hlen, -, -, -, -, hact, -⟩ := (exec_shape hx).untouched
  have hrun : Runnable t := by rwa [Runnable, hlen, hact]
  rw [← hact, getElem?_active hrun]

/-- What a port's step takes of the counter of `slv` is the next value, or nothing. -/
theorem portStep_counts {p : Nat} {d : Draw} {rest : List Event} (h : s.Inv) (hc : s.configured slv = true)
    (ha : s.agenda = .port p d :: rest) (hx : portStep { s with agenda := rest } p d = .next t) :
    Counts slv s t (takenBy slv s t) := by
  obtain ⟨rfl, hidle⟩ | ⟨pt, m, hp, hm, ⟨⟨e, hd⟩, rfl⟩ | ⟨i, hd, hx⟩⟩ := portStep_cases hx
  · rw [takenBy_of_idle ha hidle]
    exact counts_nil h hc rfl
  · rw [takenBy_of_illegal ha hp hd]
    exact counts_nil h hc rfl
  · have hr : Runnable (State.select { s with agenda := rest } p d) := runnable_select hp
    have hmicro : (State.select { s with agenda := rest } p d).micro = m :=
      micro_of_busy (by rw [select_port hp, hm])
    have hp' := exec_active_port hr hx
    by_cases hn : CountsOn slv i m
    · obtain ⟨hslaves, hshown⟩ :=
        exec_counts (s := State.select { s with agenda := rest } p d) (hmicro ▸ hn) hc hr hx
      rw [takenBy_of_countsOn ha hp hp' hm hd hn, hshown]
      exact counts_one h hc hslaves
    · rw [takenBy_of_not_countsOn ha hp hp' hm hd hn]
      exact counts_nil h hc
        (exec_keepsEntry (s := State.select { s with agenda := rest } p d) (hmicro ▸ hn) hc hx)

theorem takenBy_of_not_port (h : ∀ p d rest, s.agenda ≠ .port p d :: rest) : takenBy slv s t = [] := by
  unfold takenBy
  split
  · exact absurd ‹_› (h _ _ _)
  · rfl

/-- Every step but a reset takes no counter value of `slv`, or the next one. -/
theorem step_counts (h : s.Inv) (hc : s.configured slv = true) (hreset : ∀ rest, s.agenda ≠ .assertReset :: rest)
    (hx : step s = .next t) : Counts slv s t (takenBy slv s t) := by
  obtain ⟨ha, rfl⟩ | ⟨e, rest, ha, hx⟩ := step_cases hx
  · rw [takenBy_of_not_port (by simp [ha])]
    exact counts_nil h hc rfl
  by_cases hport : ∃ p d, e = .port p d
  · obtain ⟨p, d, rfl⟩ := hport
    exact portStep_counts h hc ha hx
  · push Not at hport
    have hslaves : t.slaves = s.slaves := (happens_of_happen hx).slaves_eq (fun he => hreset rest (he ▸ ha)) hport
    rw [takenBy_of_not_port fun p d rest' he => hport p d (List.cons.inj (ha.symm.trans he)).1]
    exact counts_nil h hc (congrArg (·[slv.toNat]?) hslaves)

/-- A run without a reset takes the values of the cycle, by induction on its length. -/
theorem run_counts (slv : BitVec 8) (n : Nat) {s : State} (h : s.Inv) (hc : s.configured slv = true)
    (hreset : .assertReset ∉ s.agenda.take n) :
    ∃ t, Sys2Proof.core.run n s = .next t ∧ Counts slv s t (takenIn slv n s) := by
  induction n generalizing s with
  | zero => exact ⟨s, rfl, counts_nil h hc rfl⟩
  | succ n ih =>
    obtain ⟨t, ht⟩ := step_answers h
    have hfirst := step_counts h hc (fun rest ha => hreset (by simp [ha])) ht
    have htail : .assertReset ∉ t.agenda.take n := fun hmem => hreset (by
      rw [step_agenda ht] at hmem
      cases ha : s.agenda with
      | nil => simp [ha] at hmem
      | cons e rest => rw [ha] at hmem; exact List.mem_cons_of_mem _ hmem)
    obtain ⟨u, hu, hrest⟩ := ih (stepsKeepTheInvariant s t h ht) hfirst.configured htail
    refine ⟨u, (run_succ (M := Sys2Proof.core) ht n).trans hu, ?_⟩
    rw [takenIn, ht]
    exact hfirst.trans hrest

/-- Settles O44: the values of `run_counts` are those of the cycle, which `counterAfter_toNat` bounds. -/
theorem counterStepsFollowTheCycle : Obligations.CounterStepsFollowTheCycle := by
  intro slv s n h hc hreset c vs
  obtain ⟨t, ht, hcounts⟩ := run_counts slv n h hc hreset
  have hvs : vs = (List.range vs.length).map fun k => (counterAfter c k).toNat := hcounts.values
  refine ⟨hvs, fun v hv => ?_, t, ht, hcounts.configured, hcounts.counter⟩
  rw [hvs, List.mem_map] at hv
  obtain ⟨k, -, rfl⟩ := hv
  have := counterAfter_toNat c k
  omega

end Sys2Proof.Machine

/-! # SDO commands: their checks, what SDRD does with a response, and its copies -/

namespace Sys2Proof.Machine

variable {s : State} {slv : BitVec 8} {idx : BitVec 16} {rx : List Byte} {first : BitVec 3}

/-! ## The checks (42_sdo.md R241, R250) -/

/-- The checks of SDWR, in order. -/
theorem exec_sdwr_start (hat : At s .start) : exec (.sdwr slv idx) s = .next (
    if !s.configured slv then s.raiseSdo .illegalCommand
    else if s.op 1 = 0 ∨ 4 < s.op 1 then s.raiseSdo .notSupported
    else if !s.inBm (s.op 0) (s.op 1) then s.raiseSdo .illegalAddress
    else (s.setXs .idle).goto (.counter .download (bytesAt s (s.op 0) (s.op 1)))) := by
  simp only [exec, execSdwr, micro_of_at hat, bmRead_eq]

/-- The checks of SDRD, in order. -/
theorem exec_sdrd_start (hat : At s .start) : exec (.sdrd slv idx) s = .next (
    if !s.configured slv then s.raiseSdo .illegalCommand
    else if !s.inBm (s.op 0) (s.op 1) then s.raiseSdo .illegalAddress
    else (s.setXs .idle).goto (.counter .initiate [])) := by
  simp only [exec, execSdrd, micro_of_at hat]

/-- Settles O49: each clause picks one branch of the checks. -/
theorem sdoCommandsCheckBeforeAnyEffect : Obligations.SdoCommandsCheckBeforeAnyEffect := by
  intro slv idx s hat inside short
  have hinside : s.inBm (s.op 0) (s.op 1) = decide inside := rfl
  have hshort : (s.op 1 = 0 ∨ 4 < s.op 1) ↔ ¬short := by omega
  have hwrite := exec_sdwr_start (slv := slv) (idx := idx) hat
  have hread := exec_sdrd_start (slv := slv) (idx := idx) hat
  rw [hinside] at hwrite hread
  simp only [hshort] at hwrite
  refine ⟨fun hc => ⟨raises_sdo_of hat.1 ?_, raises_sdo_of hat.1 ?_⟩, fun hc hs => raises_sdo_of hat.1 ?_,
    fun hc hs hi => raises_sdo_of hat.1 ?_, fun hc hi => raises_sdo_of hat.1 ?_,
    fun hc hs hi => advances_setXs hat.1 ?_, fun hc hi => advances_setXs hat.1 ?_⟩
  · simp [hwrite, hc]
  · simp [hread, hc]
  · simp [hwrite, hc, hs]
  · simp [hwrite, hc, hs, hi]
  · simp [hread, hc, hi]
  · simp [hwrite, hc, hs, hi]
  · simp [hread, hc, hi]

/-! ## A response that passes the check (R221) -/

/-- The read of the whole read mailbox of an entry (41_mailbox.md R213). -/
abbrev wholeRead (sl : Slave) : TransportOp := .read sl.station sl.rAddr sl.rLen.toNat

/-- The check of 41_mailbox.md R221 passes `rx` for the counter `c`. -/
structure Accepted (rx : List Byte) (c : BitVec 3) : Prop where
  counter : (byteAt rx 5).toNat / 16 % 8 = c.toNat
  type : (byteAt rx 5).toNat % 16 = 3
  notAborted : (byteAt rx 8).toNat / 32 ≠ 4

theorem Accepted.check {c : BitVec 3} (h : Accepted rx c) (abortFirst : Bool) (idx : BitVec 16) (sub : Byte) :
    checkResponse abortFirst rx c idx sub = none := checkResponse_none h.counter h.type h.notAborted

/-- An accepted initiate response is classified (42_sdo.md R250). -/
theorem exec_initiate_accepted (hat : At s (.exch .initiate .receive))
    (ha : s.answer (wholeRead (s.slave slv)) = .ok rx) (hrx : Accepted rx s.port.hid.curCnt) :
    exec (.sdrd slv idx) s = .next ((s.received (wholeRead (s.slave slv)) rx).classify slv) := by
  simp only [exec, execSdrd, micro_of_at hat]
  rw [exchange_receive hat.1 ha, hrx.check]

/-- An accepted segment response is measured (42_sdo.md R255). -/
theorem exec_segment_accepted (hat : At s (.exch (.segment first) .receive))
    (ha : s.answer (wholeRead (s.slave slv)) = .ok rx) (hrx : Accepted rx s.port.hid.curCnt) :
    exec (.sdrd slv idx) s =
      .next ((s.received (wholeRead (s.slave slv)) rx).segmentArrived slv idx first) := by
  simp only [exec, execSdrd, micro_of_at hat]
  rw [exchange_receive hat.1 ha, hrx.check]

/-! ## The initiate response (R250 to R255) -/

/-- `LENGTH` of a response as a number (30_encoding.md R117). -/
abbrev lengthOf (rx : List Byte) : Nat := (byteAt rx 0).toNat + 256 * (byteAt rx 1).toNat

/-- The complete size a normal upload's initiate response names (R115). -/
abbrev completeSize (rx : List Byte) : Nat :=
  (byteAt rx 15 ++ byteAt rx 14 ++ byteAt rx 13 ++ byteAt rx 12 : BitVec (8 + 8 + 8 + 8)).toNat

/-- `classify` with the fields of the response as numbers. -/
theorem classify_received (h : Runnable s) (hlen : 16 ≤ rx.length) (op : TransportOp) :
    (s.received op rx).classify slv =
      let t := s.received op rx
      let b8 := (byteAt rx 8).toNat
      let n := 4 - b8 / 4 % 4
      if b8 / 2 % 2 = 1 then
        if s.op 1 < n then t.failSdo .bufferTooShort else t.goto (.payload 0 12 n)
      else if lengthOf rx < 10 then t.failSdo (.unspecified 1)
      else if completeSize rx ≤ lengthOf rx - 10 then
        if (s.slave slv).rLen.toNat < 16 + completeSize rx then t.failSdo (.unspecified 2)
        else if s.op 1 < completeSize rx then t.failSdo .bufferTooShort
        else t.goto (.payload 1 16 (completeSize rx))
      else (t.setHid { t.hid with offset := 0, toggle := 0, segCnt := 0, xs := .segmentedContinue }).goto
        (.counter (.segment s.port.hid.curCnt) []) := by
  rw [State.classify, received_op h, received_slave]
  simp only [received_hid h, rxExpedited_eq, rxSizeCode_eq, rxLength_app hlen, rxData4_app hlen,
    rxData4_toNat hlen, byteAt_app (show 8 < rx.length by omega), decide_eq_true_eq]

/-- A step that reads a response, sets the hidden registers and then goes on. -/
theorem receives_setHid_goto {i : Instr} {op : TransportOp} {m : Micro} {h : Hidden} (hr : Runnable s)
    (hx : exec i s = .next (((s.received op rx).setHid h).goto m)) :
    ∃ t, exec i s = .next t ∧ Transacted s t op m ∧ t.port.hid = h := by
  have hr1 := runnable_received hr op rx
  have hr2 : Runnable ((s.received op rx).setHid h) := by rwa [runnable_setHid]
  refine ⟨_, hx, ⟨(untouched_received _ _ _).trans ((untouched_setHid _ _).trans (untouched_goto _ _)),
    fun _ => rfl, rfl, rfl, ?_⟩, ?_⟩
  · rw [Goes, goto_port hr2, setHid_port hr1, received_port hr]
    exact ⟨rfl, rfl, rfl⟩
  · rw [goto_port hr2, setHid_port hr1]

/-- Settles O54: the response is accepted, and each clause picks one branch of `classify_received`. -/
theorem sdrdClassifiesTheInitiateResponse : Obligations.SdrdClassifiesTheInitiateResponse := by
  intro slv idx s rx hat sl whole i b8 len cs n ends ha hlen hcounter htype haborted
  have hx : exec i s = .next ((s.received whole rx).classify slv) :=
    exec_initiate_accepted hat ha ⟨hcounter, htype, haborted⟩
  rw [classify_received hat.1 (by rw [answer_length ha]; exact hlen)] at hx
  have hnormal : b8 / 2 % 2 = 0 → ¬b8 / 2 % 2 = 1 := by omega
  refine ⟨fun he hn => receives_failSdo hat.1 (hx.trans ?_), fun he hn => receives_goto hat.1 (hx.trans ?_),
    fun he hl => receives_failSdo hat.1 (hx.trans ?_), fun he hl hc hr => receives_failSdo hat.1 (hx.trans ?_),
    fun he hl hc hr hn => receives_failSdo hat.1 (hx.trans ?_),
    fun he hl hc hr hn => receives_goto hat.1 (hx.trans ?_),
    fun he hl hc => receives_setHid_goto (rx := rx) hat.1 (hx.trans ?_)⟩
  · rw [if_pos he, if_pos hn]
  · rw [if_pos he, if_neg (Nat.not_lt.2 hn)]
  · rw [if_neg (hnormal he), if_pos hl]
  · rw [if_neg (hnormal he), if_neg (Nat.not_lt.2 hl), if_pos hc, if_pos hr]
  · rw [if_neg (hnormal he), if_neg (Nat.not_lt.2 hl), if_pos hc, if_neg (Nat.not_lt.2 hr), if_pos hn]
  · rw [if_neg (hnormal he), if_neg (Nat.not_lt.2 hl), if_pos hc, if_neg (Nat.not_lt.2 hr),
      if_neg (Nat.not_lt.2 hn)]
  · rw [if_neg (hnormal he), if_neg (Nat.not_lt.2 hl), if_neg (Nat.not_le.2 hc), received_hid hat.1]
    rfl

/-! ## A segment response (R255 to R257) -/

/-- The bytes of a segment's chunk (42_sdo.md R256) where `LENGTH` is at least 3. -/
abbrev chunkSize (rx : List Byte) : Nat :=
  if lengthOf rx - 3 = 7 then 7 - (byteAt rx 8).toNat / 2 % 8 else lengthOf rx - 3

theorem chunkLen_app {tl : List Byte} (hlen : 16 ≤ rx.length) :
    chunkLen (rx ++ tl) = if lengthOf rx < 3 then none else some (chunkSize rx) := by
  rw [chunkLen, rxLength_app hlen, rxSegDataSize_eq, byteAt_app (by omega), apply_ite some]

/-- The toggle check of R259 asked for by `CHECK_RESPONSE_TOGGLE`. -/
abbrev ToggleOk (s : State) (rx : List Byte) : Prop :=
  s.params.checkToggle = true → (byteAt rx 8).toNat / 16 % 2 = s.port.hid.toggle.toNat

/-- `segmentArrived` with the fields of the response as numbers. -/
theorem segmentArrived_received (h : Runnable s) (hlen : 16 ≤ rx.length) (op : TransportOp) :
    (s.received op rx).segmentArrived slv idx first =
      let t := s.received op rx
      if ToggleOk s rx then
        if lengthOf rx < 3 then t.failSdo (.unspecified 3)
        else if (s.slave slv).rLen.toNat < 9 + chunkSize rx then t.failSdo (.unspecified 4)
        else if s.op 1 < s.port.hid.offset.toNat + chunkSize rx then t.failSdo .bufferTooShort
        else t.goto (.chunk first (chunkSize rx))
      else t.failSdo (.sdoResponseInvalid idx s.opSub) := by
  have htoggle : ∀ tl, (s.params.checkToggle && rxToggle (rx ++ tl) != s.port.hid.toggle) = true ↔
      ¬ToggleOk s rx := by
    intro tl
    simp [← BitVec.toNat_inj, rxToggle_toNat, byteAt_app (show 8 < rx.length by omega)]
  have hsub : (s.received op rx).opSub = s.opSub := by
    rw [State.opSub, received_port h]
    rfl
  rw [State.segmentArrived, received_op h, received_slave, received_params, hsub]
  simp only [received_hid h, htoggle, chunkLen_app hlen, ite_not]
  by_cases hl : lengthOf rx < 3
  · simp only [if_pos hl]
  · simp only [if_neg hl]

/-- Settles O55: the response is accepted, and each clause picks one branch of `segmentArrived_received`. -/
theorem sdrdMeasuresTheSegment : Obligations.SdrdMeasuresTheSegment := by
  intro slv idx first s rx hat sl whole i b8 len k off toggleOk sub ends ha hlen hcounter htype haborted
  have hx : exec i s = .next ((s.received whole rx).segmentArrived slv idx first) :=
    exec_segment_accepted hat ha ⟨hcounter, htype, haborted⟩
  rw [segmentArrived_received hat.1 (by rw [answer_length ha]; exact hlen)] at hx
  refine ⟨fun ht => receives_failSdo hat.1 (hx.trans ?_), fun ht hl => receives_failSdo hat.1 (hx.trans ?_),
    fun ht hl hr => receives_failSdo hat.1 (hx.trans ?_), fun ht hl hr hn => receives_failSdo hat.1 (hx.trans ?_),
    fun ht hl hr hn => receives_goto hat.1 (hx.trans ?_)⟩
  · rw [if_neg ht]
    rfl
  · rw [if_pos ht, if_pos hl]
  · rw [if_pos ht, if_neg (Nat.not_lt.2 hl), if_pos hr]
  · rw [if_pos ht, if_neg (Nat.not_lt.2 hl), if_neg (Nat.not_lt.2 hr), if_pos hn]
  · rw [if_pos ht, if_neg (Nat.not_lt.2 hl), if_neg (Nat.not_lt.2 hr), if_neg (Nat.not_lt.2 hn)]

/-! ## The copies (R253 to R257) -/

/-- A step that writes `BM`, sets the hidden registers and then goes on. -/
theorem writes_setHid_goto {i : Instr} {a : Nat} {bs : List Byte} {h : Hidden} {m : Micro} (hr : Runnable s)
    (hw : s.bm.wf = true) (hx : exec i s = .next (((s.bmWrite a bs).setHid h).goto m)) :
    ∃ t, exec i s = .next t ∧ Untouched s t ∧ NoSlaveNoWire s t ∧ Wrote s t a bs ∧ Goes s t m ∧ t.port.hid = h := by
  have hr1 : Runnable (s.bmWrite a bs) := hr
  have hr2 : Runnable ((s.bmWrite a bs).setHid h) := by rwa [runnable_setHid]
  refine ⟨_, hx, (untouched_bmWrite _ _ _).trans ((untouched_setHid _ _).trans (untouched_goto _ _)), ⟨rfl, rfl⟩,
    wrote_bmWrite hw a bs, ?_, ?_⟩
  · rw [Goes, goto_port hr2, setHid_port hr1]
    exact ⟨rfl, rfl, rfl⟩
  · rw [goto_port hr2, setHid_port hr1]

theorem setHid_setXs (h : Runnable s) (k : Hidden) (x : XState) :
    (s.setHid k).setXs x = s.setHid { k with xs := x } := by
  rw [State.setXs, setHid_setHid, State.hid, setHid_port h]

/-- The copy of a chunk with the last flag as a number: it ends the upload or asks for the next segment. -/
theorem exec_chunk {k : Nat} (hat : At s (.chunk first k)) : exec (.sdrd slv idx) s = .next (
    let off := s.port.hid.offset.toNat
    let t := s.bmWrite (s.op 0 + off) (slice s.port.hid.rxBuf 9 k)
    let h : Hidden := { s.port.hid with offset := BitVec.ofNat 32 (off + k), segCnt := s.port.hid.segCnt + 1#32 }
    if (byteAt s.port.hid.rxBuf 8).toNat % 2 = 1 then
      (t.setHid { h with xs := .complete }).goto
        (.finish (okResults #v[BitVec.ofNat 32 (off + k), 2, s.port.hid.segCnt + 1#32, first.setWidth 32] 4))
    else (t.setHid { h with toggle := s.port.hid.toggle + 1#1, xs := .segmentedContinue }).goto
      (.counter (.segment first) [])) := by
  have hoff : s.port.hid.offset + word k = BitVec.ofNat 32 (s.port.hid.offset.toNat + k) := by
    rw [word, BitVec.ofNat_add, BitVec.ofNat_toNat, BitVec.setWidth_eq]
  have htoggle : 1 - s.port.hid.toggle = s.port.hid.toggle + 1#1 := by
    generalize s.port.hid.toggle = b
    revert b
    decide
  simp only [exec, execSdrd, micro_of_at hat, State.storeChunk, State.hid, hoff, htoggle, rxLast_eq,
    decide_eq_true_eq, State.finishSdo]
  rw [setHid_setXs (s := s.bmWrite _ _) hat.1]
  rfl

/-- Settles O56: each copy is `writes_setHid_goto`. -/
theorem sdrdCopiesPayloadsAndChunks : Obligations.SdrdCopiesPayloadsAndChunks := by
  intro slv idx s hw rx i off
  refine ⟨fun kind src n hat hn => ?_, fun first k hat hk hoff => ?_⟩
  · have hx : exec i s = .next (((s.bmWrite (s.op 0) (slice rx src n)).setXs .complete).goto
        (.finish (okResults #v[word n, kind, 0, s.port.hid.curCnt.setWidth 32] 4))) := by
      simp only [exec, execSdrd, micro_of_at hat, i]
      rfl
    rw [slice_eq_map hn] at hx
    exact writes_setHid_goto hat.1 hw hx
  · have hx := exec_chunk (slv := slv) (idx := idx) hat
    rw [slice_eq_map hk] at hx
    by_cases hlast : (byteAt rx 8).toNat % 2 = 1
    · rw [if_pos hlast] at hx
      obtain ⟨t, ht, hu, hn, hwrote, hg, hhid⟩ := writes_setHid_goto hat.1 hw hx
      exact ⟨t, ht, hu, hn, hwrote, fun _ => ⟨hg, hhid⟩, fun hmore => absurd hmore (by omega)⟩
    · rw [if_neg hlast] at hx
      obtain ⟨t, ht, hu, hn, hwrote, hg, hhid⟩ := writes_setHid_goto hat.1 hw hx
      exact ⟨t, ht, hu, hn, hwrote, fun h => absurd h hlast, fun _ => ⟨hg, hhid⟩⟩

end Sys2Proof.Machine

/-! # Whole SDO commands -/

namespace Sys2Proof.Machine

variable {s t u : State} {i : Instr} {slv : BitVec 8} {idx : BitVec 16} {ph : Phase} {val rx tl : List Byte}
  {ex : List Draw} {first : BitVec 3}

/-! ## What every run of a command keeps -/

/-- What no step of any command changes, of what a whole command relies on: the parameters, the operands, and that
`BM` is in canonical form. -/
structure RunFrame (s t : State) : Prop where
  params : t.params = s.params
  op : t.port.op = s.port.op
  wf : s.bm.wf = true → t.bm.wf = true

theorem RunFrame.trans (h : RunFrame s t) (k : RunFrame t u) : RunFrame s u :=
  ⟨k.params.trans h.params, k.op.trans h.op, fun hw => k.wf (h.wf hw)⟩

theorem RunFrame.of_draw {d : Draw} (h : RunFrame { s with draw := d } t) : RunFrame s t := ⟨h.params, h.op, h.wf⟩

theorem RunFrame.op_eq (h : RunFrame s t) (k : Fin 8) : t.op k = s.op k := by
  rw [State.op, h.op, State.op]

theorem Aside.wf (h : Aside s u) (hw : s.bm.wf = true) : u.bm.wf = true := by
  cases h with
  | same => exact hw
  | transact op => exact hw
  | bmWrite a bs => exact wf_writeRange hw a bs
  | configure slv e => exact hw
  | count slv => exact hw

theorem exec_frame (hx : exec i s = .next t) : RunFrame s t := by
  have hshape := exec_shape hx
  obtain ⟨hparams, -, -, -, -, -, hop, -⟩ := hshape.untouched
  obtain ⟨u, haside, hmoves⟩ := hshape
  obtain ⟨hbm, -⟩ := hmoves.same
  exact ⟨hparams, hop, fun hw => hbm ▸ haside.wf hw⟩

theorem runCommand_frame {ds : List Draw} (h : runCommand i ds s = .next t) : RunFrame s t := by
  induction ds generalizing s with
  | nil =>
    cases h
    exact ⟨rfl, rfl, id⟩
  | cons d ds ih =>
    rw [runCommand] at h
    split at h
    · rename_i u hu
      exact (exec_frame hu).of_draw.trans (ih h)
    · cases h
    · cases h

/-! ## Chaining steps -/

theorem at_of_goes {m : Micro} (hr : Runnable s) (hu : Untouched s t) (hg : Goes s t m) : At t m := by
  obtain ⟨-, -, -, hlength, -, -, -, -, hactive, -⟩ := hu
  refine ⟨?_, hg.1⟩
  rw [Runnable, hlength, hactive]
  exact hr

theorem SameMemory.trans (h : SameMemory s t) (k : SameMemory t u) : SameMemory s u := fun a => (k a).trans (h a)

theorem SameMemory.trans_wrote {a : Nat} {bs : List Byte} (h : SameMemory s t) (k : Wrote t u a bs) :
    Wrote s u a bs := ⟨k.1, fun x hx => (k.2 x hx).trans (h x)⟩

theorem Wrote.trans_same {a : Nat} {bs : List Byte} (h : Wrote s t a bs) (k : SameMemory t u) : Wrote s u a bs :=
  ⟨fun j hj => (k _).trans (h.1 j hj), fun x hx => (k x).trans (h.2 x hx)⟩

/-- Two writes, the second right behind the first. -/
theorem Wrote.append {a : Nat} {bs cs : List Byte} (h : Wrote s t a bs) (k : Wrote t u (a + bs.length) cs) :
    Wrote s u a (bs ++ cs) := by
  obtain ⟨hin, hout⟩ := h
  obtain ⟨kin, kout⟩ := k
  refine ⟨fun j hj => ?_, fun x hx => ?_⟩
  · rw [List.length_append] at hj
    by_cases hb : j < bs.length
    · rw [kout _ (by omega), hin j hb, byteAt_app hb]
    · have hc := kin (j - bs.length) (by omega)
      rw [show a + bs.length + (j - bs.length) = a + j by omega] at hc
      rw [hc, byteAt, byteAt, List.getD_append_right _ _ _ _ (by omega)]
  · rw [List.length_append] at hx
    rw [kout x (by omega), hout x (by omega)]

/-- The completion step of an SDO command. -/
theorem finish_run (hi : Exchanging i slv idx ph) {c : Completion} (hat : At s (.finish c)) (d : Draw) :
    ∃ t, runCommand i [d] s = .next t ∧ SameMemory s t ∧ NoSlaveNoWire s t ∧ Done t c.rs c.ecode c.xstate := by
  obtain ⟨t, ht, -, hmem, hquiet, hdone⟩ := completes_of (s := { s with draw := d }) hat.1
    (exec_exchanging_finish hi (at_draw hat d))
  exact ⟨t, runCommand_cons ht, hmem, hquiet, hdone⟩

/-! ## A request and its response (41_mailbox.md R206, R220) -/

/-- The request the counter step of a phase builds (30_encoding.md R116). -/
def requestOf (s : State) (idx : BitVec 16) (val : List Byte) : Phase → BitVec 3 → List Byte
  | .download, c => downloadRequest c s.opCa (s.op 1) idx s.opSub val
  | .initiate, c => uploadRequest c s.opCa idx s.opSub
  | .segment _, c => segmentRequest c s.port.hid.toggle

theorem requestOf_congr (hop : t.port.op = s.port.op) (htoggle : t.port.hid.toggle = s.port.hid.toggle) :
    requestOf t idx val ph = requestOf s idx val ph := by
  funext c
  cases ph <;> simp only [requestOf, State.opCa, State.opSub, State.op, hop, htoggle]

theorem builds_request (hi : Exchanging i slv idx ph) (hat : At s (.counter ph val)) :
    Builds i s slv ph (requestOf s idx val ph (s.slave slv).cnt) := by
  refine builds_of (build := requestOf s idx val ph) hat.1 ?_
  obtain ⟨rfl, rfl⟩ | ⟨rfl, hne⟩ := hi
  · simp only [exec, execSdwr, micro_of_at hat]
    rfl
  · cases ph with
    | download => exact absurd rfl hne
    | initiate =>
      simp only [exec, execSdrd, micro_of_at hat]
      rfl
    | segment first =>
      simp only [exec, execSdrd, micro_of_at hat]
      rfl

theorem slave_of_counted (hc : s.configured slv = true) (h : t.slaves = countedSlaves s slv) :
    t.slave slv = { s.slave slv with cnt := succCount (s.slave slv).cnt } := by
  simp only [State.configured, Bool.and_eq_true, decide_eq_true_eq] at hc
  simp [State.slave, h, countedSlaves, hc.1]

theorem configured_of_counted (hc : s.configured slv = true) (h : t.slaves = countedSlaves s slv) :
    t.configured slv = true := by
  rw [State.configured, slave_of_counted hc h, h, countedSlaves, List.length_set]
  exact hc

/-- The request `req` has been sent from `s` on with the counter taken, by the operations `ops`, newest first; what is
left of the exchange is the step that reads the response `rx`. -/
structure Requested (s u : State) (slv : BitVec 8) (ph : Phase) (req rx : List Byte)
    (ops : List (TransportOp × Answer)) : Prop where
  at_receive : At u (.exch ph .receive)
  answer : u.answer (wholeRead (u.slave slv)) = .ok rx
  frame : RunFrame s u
  memory : SameMemory s u
  slaves : u.slaves = countedSlaves s slv
  hid : ∃ x, u.port.hid = { s.port.hid with curCnt := (s.slave slv).cnt, txBuf := req, xs := x }
  wire : u.wire = ops ++ s.wire
  writes : (ops.map Prod.fst).filter isWrite = [.write (s.slave slv).station (s.slave slv).wAddr
    (req ++ List.replicate ((s.slave slv).wLen.toNat - 16) 0#8)]

/-- The counter step and the exchange up to its last step (41_mailbox.md R220). -/
theorem request_run (hi : Exchanging i slv idx ph) (hc : s.configured slv = true) (hat : At s (.counter ph val))
    (hex : Exchanges (s.slave slv) ex rx) (d : Draw) :
    ∃ u ops, Requested s u slv ph (requestOf s idx val ph (s.slave slv).cnt) rx ops ∧ ops.length + 1 = ex.length ∧
      ∀ t, exec i u = .next t → runCommand i (d :: ex) s = .next t := by
  obtain ⟨v, hv, huntouched, hmem, hwire, hslaves, hgoes, hhid⟩ := builds_request hi (at_draw hat d)
  have hslave : v.slave slv = { s.slave slv with cnt := succCount (s.slave slv).cnt } := slave_of_counted hc hslaves
  have hatv : At v (.exch ph .drainStatus) := at_of_goes (s := { s with draw := d }) hat.1 huntouched hgoes
  obtain ⟨pre, e, u, ops, rfl, hrun, hatu, hfollows, hlength, hwrites, hanswer⟩ :=
    exchange_run hi hatv (show Exchanges (v.slave slv) ex rx by rw [hslave]; exact hex)
  obtain ⟨x, m, hport⟩ := hfollows.port
  refine ⟨{ u with draw := e }, ops, ⟨hatu, hanswer, ?_, ?_, ?_, ⟨x, ?_⟩, ?_, ?_⟩, hlength, fun t ht => ?_⟩
  · obtain ⟨hparams, hop, hwf⟩ := (exec_frame hv).of_draw.trans (runCommand_frame hrun)
    exact ⟨hparams, hop, hwf⟩
  · intro a
    exact (congrArg (Memory.read · a) hfollows.bm).trans (hmem a)
  · exact hfollows.slaves.trans hslaves
  · show u.port.hid = _
    rw [hport, hhid]
    rfl
  · exact hfollows.wire.trans (congrArg (ops ++ ·) hwire)
  · rw [hwrites, hslave, hhid]
    rfl
  · rw [runCommand_cons hv, runCommand_append hrun, runCommand_cons ht]
    rfl

/-- The same from the start of a command whose checks pass. -/
theorem start_run (hi : Exchanging i slv idx ph) (hc : s.configured slv = true) (hat : At s .start)
    {d₀ : Draw} (hstart : AdvancesXs i { s with draw := d₀ } (.counter ph val) .idle)
    (hex : Exchanges (s.slave slv) ex rx) (d₁ : Draw) :
    ∃ u ops, Requested s u slv ph (requestOf s idx val ph (s.slave slv).cnt) rx ops ∧ ops.length + 1 = ex.length ∧
      ∀ t, exec i u = .next t → runCommand i (d₀ :: d₁ :: ex) s = .next t := by
  obtain ⟨v, hv, huntouched, hmem, ⟨hslaves, hwire⟩, hgoes, hhid⟩ := hstart
  have hatv := at_of_goes (s := { s with draw := d₀ }) hat.1 huntouched hgoes
  have hframe : RunFrame s v := (exec_frame hv).of_draw
  have hslave : v.slave slv = s.slave slv := by
    rw [State.slave, hslaves]
    rfl
  have htoggle : v.port.hid.toggle = s.port.hid.toggle := by
    rw [hhid]
    rfl
  obtain ⟨u, ops, hreq, hlength, hrun⟩ := request_run hi (by rw [configured_eq, hslaves]; exact hc) hatv
    (by rw [hslave]; exact hex) d₁
  obtain ⟨x, hu⟩ := hreq.hid
  rw [requestOf_congr hframe.op htoggle, hslave] at hreq
  refine ⟨u, ops, ⟨hreq.at_receive, hreq.answer, hframe.trans hreq.frame, ?_, ?_, ⟨x, ?_⟩, ?_,
    hslave ▸ hreq.writes⟩, hlength, fun t ht => ?_⟩
  · exact fun a => (hreq.memory a).trans (hmem a)
  · rw [hreq.slaves, countedSlaves, hslaves, hslave]
    rfl
  · rw [hu, hhid, requestOf_congr hframe.op htoggle, hslave]
    rfl
  · rw [hreq.wire, hwire]
  · rw [runCommand_cons hv, hrun t ht]

section Requested

variable {req : List Byte} {ops : List (TransportOp × Answer)}

/-- The request carries the counter taken. -/
theorem Requested.curCnt (h : Requested s u slv ph req rx ops) : u.port.hid.curCnt = (s.slave slv).cnt := by
  obtain ⟨x, hx⟩ := h.hid
  rw [hx]

theorem Requested.rLen (h : Requested s u slv ph req rx ops) (hc : s.configured slv = true) :
    (u.slave slv).rLen = (s.slave slv).rLen := by
  rw [slave_of_counted hc h.slaves]

theorem Requested.length_rx (h : Requested s u slv ph req rx ops) (hc : s.configured slv = true) :
    rx.length = (s.slave slv).rLen.toNat := by
  rw [answer_length h.answer, ← h.rLen hc]
  rfl

/-- The response `rx` to the request `req` of `s` has been read; micro-state `m` comes next and `XS` is `x`. -/
structure Responded (s t : State) (slv : BitVec 8) (req rx : List Byte) (ops : List (TransportOp × Answer)) (m : Micro)
    (x : XState) : Prop where
  at_next : At t m
  frame : RunFrame s t
  memory : SameMemory s t
  slaves : t.slaves = countedSlaves s slv
  hid : ∃ tl, t.port.hid =
    { s.port.hid with curCnt := (s.slave slv).cnt, txBuf := req, rxBuf := rx ++ tl, xs := x }
  wire : t.wire = (wholeRead (s.slave slv), .ok rx) :: (ops ++ s.wire)

/-- The last step of the exchange, where it goes on to `m`. -/
theorem Requested.responded {m : Micro} {x : XState} (h : Requested s u slv ph req rx ops)
    (hc : s.configured slv = true) (hrecv : ReceivesXs i u (wholeRead (u.slave slv)) rx m x) :
    ∃ t, exec i u = .next t ∧ Responded s t slv req rx ops m x := by
  obtain ⟨t, ht, ⟨huntouched, hmem, hslaves, hwire, hgoes⟩, hhid⟩ := hrecv
  obtain ⟨y, hu⟩ := h.hid
  refine ⟨t, ht, at_of_goes h.at_receive.1 huntouched hgoes, h.frame.trans (exec_frame ht), h.memory.trans hmem,
    hslaves.trans h.slaves, ⟨_, hhid.trans (by rw [hu])⟩, ?_⟩
  rw [hwire, h.answer, h.wire, slave_of_counted hc h.slaves]

end Requested

/-! ## SDWR -/

/-- Settles O53: the checks (O49), the exchange (`start_run`), the response (O52) and the completion, one after
another. -/
theorem sdwrDownloadsAndCompletes : Obligations.SdwrDownloadsAndCompletes := by
  intro slv idx s d₀ d₁ dEnd ex rx hat hc h1 h4 hin hlen hex hcounter htype haborted
  have hi : Exchanging (.sdwr slv idx) slv idx .download := .inl ⟨rfl, rfl⟩
  obtain ⟨-, -, -, -, hstart, -⟩ := sdoCommandsCheckBeforeAnyEffect slv idx { s with draw := d₀ } (at_draw hat d₀)
  obtain ⟨u, ops, hreq, hlength, hrun⟩ := start_run hi hc hat (hstart hc ⟨h1, h4⟩ hin) hex d₁
  obtain ⟨-, -, hgood⟩ := responsesAreValidatedBeforeUse slv idx _ _ u rx hi hreq.at_receive hreq.answer
    (by rw [hreq.rLen hc]; exact hlen)
  obtain ⟨t, ht, hresp⟩ := hreq.responded hc (hgood ⟨by rw [hreq.curCnt]; exact hcounter, htype⟩ haborted rfl)
  obtain ⟨v, hv, hmem, ⟨hslaves, hwire⟩, hdone⟩ := finish_run hi hresp.at_next dEnd
  refine ⟨v, (runCommand_append (hrun t ht)).trans hv, hresp.memory.trans hmem, hslaves.trans hresp.slaves,
    ⟨(wholeRead (s.slave slv), .ok rx) :: ops, hwire.trans hresp.wire, hlength, hreq.writes⟩, ?_⟩
  rw [← hreq.frame.op, ← hreq.curCnt]
  exact hdone

/-! ## SDRD -/

theorem sdrd_exchanging (hne : ph ≠ .download) : Exchanging (.sdrd slv idx) slv idx ph := .inr ⟨rfl, hne⟩

theorem sdrd_starts (hat : At s .start) (hc : s.configured slv = true) (hin : s.op 0 + s.op 1 ≤ s.params.bmSize)
    (d : Draw) : AdvancesXs (.sdrd slv idx) { s with draw := d } (.counter .initiate []) .idle := by
  obtain ⟨-, -, -, -, -, hgoes⟩ := sdoCommandsCheckBeforeAnyEffect slv idx { s with draw := d } (at_draw hat d)
  exact hgoes hc hin

/-- Bytes of a response read back from `RXBUF`. -/
theorem bytes_app {off n : Nat} (h : off + n ≤ rx.length) :
    ((List.range n).map fun j => byteAt (rx ++ tl) (off + j)) = (List.range n).map fun j => byteAt rx (off + j) :=
  List.map_congr_left fun j hj => byteAt_app (by rw [List.mem_range] at hj; omega)

/-- Settles O57: the exchange of `start_run`, the response (O54), the copy (O56) and the completion. -/
theorem sdrdExpeditedUploadDelivers : Obligations.SdrdExpeditedUploadDelivers := by
  intro slv idx s d₀ d₁ dCopy dEnd ex rx hat hc hw hin hlen hex hcounter htype haborted hexp n hn
  have hi : Exchanging (.sdrd slv idx) slv idx .initiate := sdrd_exchanging (by simp)
  obtain ⟨u, ops, hreq, -, hrun⟩ := start_run hi hc hat (sdrd_starts hat hc hin d₀) hex d₁
  have hrx : 16 ≤ rx.length := hreq.length_rx hc ▸ hlen
  obtain ⟨-, hpayload, -⟩ := sdrdClassifiesTheInitiateResponse slv idx u rx hreq.at_receive hreq.answer
    (by rw [hreq.rLen hc]; exact hlen) (by rw [hreq.curCnt]; exact hcounter) htype haborted
  obtain ⟨t, ht, hresp⟩ := hreq.responded hc (hpayload hexp (by rw [hreq.frame.op_eq]; exact hn))
  obtain ⟨tl, hhid⟩ := hresp.hid
  have hhid' : ({ t with draw := dCopy } : State).port.hid = _ := hhid
  have hop : ({ t with draw := dCopy } : State).op 0 = s.op 0 := hresp.frame.op_eq 0
  obtain ⟨hcopy, -⟩ := sdrdCopiesPayloadsAndChunks slv idx { t with draw := dCopy } (hresp.frame.wf hw)
  simp only [hhid', hop] at hcopy
  obtain ⟨v, hv, huntouched, ⟨hslaves, -⟩, hwrote, hgoes, -⟩ := hcopy 0 12 n (at_draw hresp.at_next dCopy)
    (by rw [List.length_append]; omega)
  rw [bytes_app (by omega)] at hwrote
  obtain ⟨w, hfinish, hmem, ⟨hslavesw, -⟩, hdone⟩ :=
    finish_run hi (at_of_goes (s := { t with draw := dCopy }) hresp.at_next.1 huntouched hgoes) dEnd
  refine ⟨w, ?_, (hresp.memory.trans_wrote hwrote).trans_same hmem,
    (hslavesw.trans hslaves).trans hresp.slaves, hdone⟩
  rw [runCommand_append (hrun t ht), runCommand_cons hv, hfinish]

/-! ## The segments of an upload (42_sdo.md R255 to R257) -/

/-- The bytes a segment response carries. -/
abbrev chunkBytes (rx : List Byte) : List Byte := (List.range (chunkSize rx)).map fun j => byteAt rx (9 + j)

theorem segmentBytes_cons (d : Draw) (ex : List Draw) (dCopy : Draw) (rx : List Byte)
    (segs : List (Draw × List Draw × Draw × List Byte)) :
    segmentBytes ((d, ex, dCopy, rx) :: segs) = chunkBytes rx ++ segmentBytes segs := rfl

theorem length_chunkBytes (rx : List Byte) : (chunkBytes rx).length = chunkSize rx := by
  rw [List.length_map, List.length_range]

/-- From `s` to `t` one segment has been requested, received as `rx` and copied to `OFFSET`. -/
structure SegmentStored (s t : State) (slv : BitVec 8) (first : BitVec 3) (rx : List Byte) : Prop where
  frame : RunFrame s t
  wrote : Wrote s t (s.op 0 + s.port.hid.offset.toNat) (chunkBytes rx)
  slaves : t.slaves = countedSlaves s slv
  last : (byteAt rx 8).toNat % 2 = 1 → At t (.finish (okResults
    #v[BitVec.ofNat 32 (s.port.hid.offset.toNat + chunkSize rx), 2, s.port.hid.segCnt + 1#32, first.setWidth 32] 4))
  more : (byteAt rx 8).toNat % 2 = 0 → At t (.counter (.segment first) []) ∧
    t.port.hid.offset = BitVec.ofNat 32 (s.port.hid.offset.toNat + chunkSize rx) ∧
    t.port.hid.segCnt = s.port.hid.segCnt + 1#32 ∧ t.port.hid.toggle = s.port.hid.toggle + 1#1

/-- One segment that passes every check. -/
theorem segment_run (hc : s.configured slv = true) (hw : s.bm.wf = true) (hat : At s (.counter (.segment first) val))
    (hlen : 16 ≤ (s.slave slv).rLen.toNat) (hex : Exchanges (s.slave slv) ex rx) (hrx : Accepted rx (s.slave slv).cnt)
    (htoggle : ToggleOk s rx) (hl : 3 ≤ lengthOf rx) (hr : 9 + chunkSize rx ≤ (s.slave slv).rLen.toNat)
    (hfit : s.port.hid.offset.toNat + chunkSize rx ≤ s.op 1) (d dCopy : Draw) :
    ∃ t, runCommand (.sdrd slv idx) (d :: ex ++ [dCopy]) s = .next t ∧ SegmentStored s t slv first rx := by
  have hi : Exchanging (.sdrd slv idx) slv idx (.segment first) := sdrd_exchanging (by simp)
  obtain ⟨u, ops, hreq, -, hrun⟩ := request_run hi hc hat hex d
  obtain ⟨x, hhidu⟩ := hreq.hid
  obtain ⟨-, -, -, -, hchunk⟩ := sdrdMeasuresTheSegment slv idx first u rx hreq.at_receive hreq.answer
    (by rw [hreq.rLen hc]; exact hlen) (by rw [hreq.curCnt]; exact hrx.counter) hrx.type hrx.notAborted
  obtain ⟨t, ht, hresp⟩ := hreq.responded hc (hchunk (by rw [hreq.frame.params, hhidu]; exact htoggle) hl
    (by rw [hreq.rLen hc]; exact hr) (by rw [hreq.frame.op_eq, hhidu]; exact hfit))
  obtain ⟨tl, hhid⟩ := hresp.hid
  have hhid' : ({ t with draw := dCopy } : State).port.hid = _ := hhid
  have hop : ({ t with draw := dCopy } : State).op 0 = s.op 0 := hresp.frame.op_eq 0
  have hop1 : s.op 1 < 2 ^ 32 := BitVec.isLt _
  have hsize : 9 + chunkSize rx ≤ rx.length := hreq.length_rx hc ▸ hr
  obtain ⟨-, hcopy⟩ := sdrdCopiesPayloadsAndChunks slv idx { t with draw := dCopy } (hresp.frame.wf hw)
  simp only [hhid', hop] at hcopy
  obtain ⟨v, hv, huntouched, ⟨hslaves, -⟩, hwrote, hlast, hmore⟩ := hcopy first (chunkSize rx)
    (at_draw hresp.at_next dCopy) (by rw [List.length_append]; omega) (by omega)
  rw [bytes_app hsize] at hwrote
  rw [byteAt_app (by omega)] at hlast hmore
  have hatv {m : Micro} (hg : Goes { t with draw := dCopy } v m) : At v m :=
    at_of_goes (s := { t with draw := dCopy }) hresp.at_next.1 huntouched hg
  refine ⟨v, ?_, hresp.frame.trans (exec_frame hv).of_draw, hresp.memory.trans_wrote hwrote,
    hslaves.trans hresp.slaves, fun h => ?_, fun h => ?_⟩
  · rw [runCommand_append (hrun t ht), runCommand_cons hv]
    rfl
  · obtain ⟨hg, -⟩ := hlast h
    exact hatv hg
  · obtain ⟨hg, hhidv⟩ := hmore h
    rw [hhidv]
    exact ⟨hatv hg, rfl, rfl, rfl⟩

/-- The segments of an upload, by induction on them, up to the completion step. -/
theorem segments_run {sl : Slave} {segs : List (Draw × List Draw × Draw × List Byte)} (hc : s.configured slv = true)
    (hw : s.bm.wf = true) (hat : At s (.counter (.segment first) val)) (hsl : (s.slave slv).rLen = sl.rLen)
    (hlen : 16 ≤ sl.rLen.toNat)
    (hsegs : SegmentRun sl s.params.checkToggle (s.slave slv).cnt s.port.hid.toggle segs)
    (hfit : s.port.hid.offset.toNat + (segmentBytes segs).length ≤ s.op 1) :
    ∃ t, runCommand (.sdrd slv idx) (segs.flatMap fun g => g.1 :: g.2.1 ++ [g.2.2.1]) s = .next t ∧
      At t (.finish (okResults #v[BitVec.ofNat 32 (s.port.hid.offset.toNat + (segmentBytes segs).length), 2,
        s.port.hid.segCnt + BitVec.ofNat 32 segs.length, first.setWidth 32] 4)) ∧
      Wrote s t (s.op 0 + s.port.hid.offset.toNat) (segmentBytes segs) ∧
      t.slaves = s.slaves.set slv.toNat
        { s.slave slv with cnt := succCount^[segs.length] (s.slave slv).cnt } := by
  induction segs generalizing s val with
  | nil => exact absurd hsegs id
  | cons g rest ih =>
    obtain ⟨d, ex, dCopy, rx⟩ := g
    obtain ⟨hex, hcounter, htype, haborted, htoggle, hl, hr, hflags⟩ := hsegs
    rw [segmentBytes_cons, List.length_append, length_chunkBytes] at hfit
    have hop1 : s.op 1 < 2 ^ 32 := BitVec.isLt _
    obtain ⟨u, hu, hframe, hwrote, hslaves, hlast, hmore⟩ := segment_run (idx := idx) hc hw hat
      (by rw [hsl]; exact hlen) (by rw [Exchanges, hsl]; exact hex) ⟨hcounter, htype, haborted⟩ htoggle hl
      (by rw [hsl]; exact hr) (by omega) d dCopy
    rw [segmentBytes_cons, List.length_append, length_chunkBytes, List.flatMap_cons]
    by_cases hrest : rest = []
    · subst hrest
      rw [if_pos rfl] at hflags
      exact ⟨u, by simpa using hu, hlast hflags, by simpa [segmentBytes] using hwrote, hslaves⟩
    · rw [if_neg hrest] at hflags
      obtain ⟨hflag, hsegs⟩ := hflags
      obtain ⟨hatu, hoff, hcnt, htg⟩ := hmore hflag
      have hslave := slave_of_counted hc hslaves
      have hoffset : u.port.hid.offset.toNat = s.port.hid.offset.toNat + chunkSize rx := by
        rw [hoff, BitVec.toNat_ofNat, Nat.mod_eq_of_lt (by omega)]
      obtain ⟨t, ht, hatt, hwrotet, hslavest⟩ := ih (configured_of_counted hc hslaves) (hframe.wf hw) hatu
        (by rw [hslave]; exact hsl) (by rw [hframe.params, hslave, htg]; exact hsegs)
        (by rw [hoffset, hframe.op_eq]; omega)
      refine ⟨t, (runCommand_append hu).trans ht, ?_, ?_, ?_⟩
      · rw [hoffset, hcnt, Nat.add_assoc, BitVec.add_assoc, ← BitVec.ofNat_add] at hatt
        rwa [List.length_cons, Nat.add_comm rest.length]
      · rw [hoffset, hframe.op_eq, ← Nat.add_assoc, ← length_chunkBytes rx] at hwrotet
        exact hwrote.append hwrotet
      · rw [hslavest, hslaves, hslave, countedSlaves, List.set_set]
        rfl

/-- Settles O58: the exchange of `start_run` and its response (O54), then `segments_run`, then the completion. -/
theorem sdrdSegmentedUploadDelivers : Obligations.SdrdSegmentedUploadDelivers := by
  intro slv idx s d₀ d₁ dEnd ex rx segs hat hc hw hin hlen hex c len cs hcounter htype haborted hnormal hl hcs hsegs
    hfit
  have hi : Exchanging (.sdrd slv idx) slv idx .initiate := sdrd_exchanging (by simp)
  obtain ⟨u, ops, hreq, -, hrun⟩ := start_run hi hc hat (sdrd_starts hat hc hin d₀) hex d₁
  obtain ⟨-, -, -, -, -, -, hsegment⟩ := sdrdClassifiesTheInitiateResponse slv idx u rx hreq.at_receive hreq.answer
    (by rw [hreq.rLen hc]; exact hlen) (by rw [hreq.curCnt]; exact hcounter) htype haborted
  obtain ⟨t, ht, ⟨huntouched, hmem, hslaves, -, hgoes⟩, hhid⟩ := hsegment hnormal hl hcs
  rw [hreq.slaves] at hslaves
  have hframe : RunFrame s t := hreq.frame.trans (exec_frame ht)
  have hslave := slave_of_counted hc hslaves
  obtain ⟨v, hv, hatv, hwrote, hslavesv⟩ := segments_run (idx := idx) (segs := segs) (sl := s.slave slv)
    (configured_of_counted hc hslaves) (hframe.wf hw) (at_of_goes hreq.at_receive.1 huntouched hgoes)
    (by rw [hslave]) hlen (by rw [hframe.params, hslave, hhid]; exact hsegs)
    (by rw [hhid, hframe.op_eq]; simpa using hfit)
  obtain ⟨w, hfinish, hmemw, ⟨hslavesw, -⟩, hdone⟩ := finish_run hi hatv dEnd
  refine ⟨w, ?_, ?_, ?_, ?_⟩
  · rw [List.append_assoc, runCommand_append (hrun t ht), runCommand_append hv, hfinish]
  · rw [hhid, hframe.op_eq] at hwrote
    exact ((hreq.memory.trans hmem).trans_wrote hwrote).trans_same hmemw
  · rw [hslavesw, hslavesv, hslaves, hslave, countedSlaves, List.set_set]
    rfl
  · simp only [hhid, hreq.curCnt, okResults] at hdone
    simpa using hdone

end Sys2Proof.Machine

/-! # The State Gate -/

namespace Sys2Proof.Machine

variable {s t : State} {i : Instr} {slv : BitVec 8} {st : BitVec 4} {m : Micro}

/-! ## The AL word (30_encoding.md R120) -/

theorem alControlWord_eq : ∀ st : BitVec 4, alControlWord st = [BitVec.ofNat 8 (0x10 + st.toNat), 0x00] := by
  decide

/-- An AL word is the little-endian number of its two bytes. -/
theorem alWord_toNat {b : List Byte} (h : b.length = 2) :
    (alWord b).toNat = (byteAt b 0).toNat + 256 * (byteAt b 1).toNat := by
  have hnum : fromLE b = (byteAt b 0).toNat + 256 * (byteAt b 1).toNat := by
    rw [← rxLength_eq h.ge, rxLength, slice, List.drop_zero, List.take_of_length_le h.le]
  have hlt : fromLE b < 2 ^ 16 := (fromLE_lt b).trans_eq (by rw [h]; rfl)
  rw [alWord, BitVec.toNat_ofNat, Nat.mod_eq_of_lt hlt, hnum]

theorem alState_toNat (w : BitVec 16) : (alState w).toNat = w.toNat % 16 := by
  simp [alState]

theorem alState_eq_iff {w : BitVec 16} : alState w = st ↔ w.toNat % 16 = st.toNat := by
  rw [← BitVec.toNat_inj, alState_toNat]

theorem alError_eq (w : BitVec 16) : alError w = decide (w.toNat / 16 % 2 = 1) := by
  rw [alError, ← BitVec.testBit_toNat, Nat.testBit_eq_decide_div_mod_eq]

theorem isStateCode_eq (st : BitVec 4) : isStateCode st = decide (st.toNat ∈ [1, 2, 3, 4, 8]) := by
  rw [Bool.eq_iff_iff, decide_eq_true_iff, ← mem_stateCodes_iff]
  simp [isStateCode, stateCodes, or_assoc]

/-! ## What both commands do (R290) -/

theorem alLegal_iff : s.alLegal slv st = true ↔ s.configured slv = true ∧ st.toNat ∈ [1, 2, 3, 4, 8] := by
  rw [State.alLegal, Bool.and_eq_true, isStateCode_eq, decide_eq_true_iff]

/-- A command that makes the State Gate's checks and goes on to `m`. -/
theorem alLegal_checked
    (hx : At s .start → exec i s = .next (if s.alLegal slv st then s.goto m else s.raise .illegalCommand)) :
    let legal := s.configured slv = true ∧ st.toNat ∈ [1, 2, 3, 4, 8]
    (At s .start → ¬legal → Raises i s .illegalCommand 0) ∧ (At s .start → legal → Advances i s m) := by
  refine ⟨fun hat hl => raises_of hat.1 ?_, fun hat hl => advances_of hat.1 ?_⟩
  · rw [hx hat, if_neg (mt alLegal_iff.1 hl)]
  · rw [hx hat, if_pos (alLegal_iff.2 hl)]

/-- A step that is one Transport operation answered with an AL word: `onWord` gets the word's number, and an `Err`
answer ends the command. -/
theorem alWord_command {op : TransportOp} {onWord : State → Nat → State} (h : Runnable s) (hlen : op.len = 2)
    (hx : exec i s = .next (s.transport op State.fail fun u r => onWord u (alWord r).toNat)) :
    (∀ b, s.answer op = .ok b →
      exec i s = .next (onWord (s.transact op) ((byteAt b 0).toNat + 256 * (byteAt b 1).toNat))) ∧
    (∀ e, s.answer op = .err e → Transacts i s op (.finish (errResults (.transport e) 0))) := by
  refine ⟨fun b ha => ?_, fun e ha => transacts_fail h (hx.trans (congrArg _ (transport_err ha _ _)))⟩
  rw [hx, transport_ok ha, alWord_toNat ((answer_length ha).trans hlen)]

/-! ## ALRQ (R291) -/

/-- What ALRQ does with the response `w` to its control write (R291). -/
def State.alResponse (u : State) (w : Nat) : State :=
  if w % 16 ∉ [1, 2, 3, 4, 8] then u.fail .invalidValue
  else if w / 16 % 2 = 1 then u.goto .alCode
  else u.finish (okResults #v[BitVec.ofNat 32 w, 0, 0, 0] 0)

theorem exec_alControl (hat : At s .alControl) : exec (.alrq slv st) s = .next (
    s.transport (.write (s.slave slv).station 0x0120#16 [BitVec.ofNat 8 (0x10 + st.toNat), 0x00]) State.fail
      fun u r => u.alResponse (alWord r).toNat) := by
  simp only [exec, execAlrq, micro_of_at hat, alControlWord_eq, State.alResponse, isStateCode_eq, alState_toNat,
    alError_eq, ← decide_not, decide_eq_true_iff, BitVec.ofNat_toNat]
  rfl

theorem exec_alCode (hat : At s .alCode) : exec (.alrq slv st) s = .next (
    s.transport (.read (s.slave slv).station 0x0134#16 2) State.fail
      fun u q => u.fail (.stateTransition (BitVec.ofNat 16 (alWord q).toNat))) := by
  simp only [exec, execAlrq, micro_of_at hat, BitVec.ofNat_toNat, BitVec.setWidth_eq]
  rfl

/-- Settles O59, micro-state by micro-state: each clause on the response picks one branch of `State.alResponse`. -/
theorem alrqRequestsTheState : Obligations.AlrqRequestsTheState := by
  intro slv st s sl i legal put get word
  obtain ⟨hillegal, hgoes⟩ := alLegal_checked (s := s) (i := i) (slv := slv) (st := st) (m := .alControl)
    fun hat => by simp only [i, exec, execAlrq, micro_of_at hat]
  refine ⟨hillegal, hgoes, fun hat => ?_, fun hat => ?_, fun c hat => ?_⟩
  · obtain ⟨hok, herr⟩ := alWord_command hat.1 rfl (exec_alControl (slv := slv) (st := st) hat)
    refine ⟨fun b ha hstate => transacts_fail hat.1 ?_, fun b ha hstate herror => transacts_goto hat.1 ?_,
      fun b ha hstate herror => transacts_finish hat.1 ?_, herr⟩ <;> rw [hok b ha, State.alResponse]
    · rw [if_pos hstate]
    · rw [if_neg (not_not.2 hstate), if_pos herror]
    · rw [if_neg (not_not.2 hstate), if_neg (ne_of_eq_of_ne herror zero_ne_one)]
  · obtain ⟨hok, herr⟩ := alWord_command (onWord := fun u w => u.fail (.stateTransition (BitVec.ofNat 16 w)))
      hat.1 rfl (exec_alCode (slv := slv) (st := st) hat)
    exact ⟨fun b ha => transacts_fail hat.1 (hok b ha), herr⟩
  · exact completes_of hat.1 (by simp only [i, exec, execAlrq, micro_of_at hat])

/-! ## ALWT (R292) -/

/-- What ALWT does with the status `w` when it waits for the state `st` (R292). -/
def State.alStatus (st : BitVec 4) (u : State) (w : Nat) : State :=
  if w % 16 ∉ [1, 2, 3, 4, 8] then u.fail .invalidValue
  else if w % 16 = st.toNat then u.finish (okResults #v[BitVec.ofNat 32 w, 0, 0, 0] 0)
  else u

theorem exec_alPoll (hat : At s .alPoll) : exec (.alwt slv st) s = .next (
    if s.draw.timeout then s.raise .timeout
    else s.transport (.read (s.slave slv).station 0x0130#16 2) State.fail
      fun u q => u.alStatus st (alWord q).toNat) := by
  simp only [exec, execAlwt, micro_of_at hat, State.alStatus, isStateCode_eq, alState_eq_iff, alState_toNat,
    ← decide_not, decide_eq_true_iff, BitVec.ofNat_toNat]
  rfl

/-- Settles O60, micro-state by micro-state: each clause on the status picks one branch of `State.alStatus`. -/
theorem alwtWaitsForTheState : Obligations.AlwtWaitsForTheState := by
  intro slv st s sl i legal get word
  obtain ⟨hillegal, hgoes⟩ := alLegal_checked (s := s) (i := i) (slv := slv) (st := st) (m := .alPoll)
    fun hat => by simp only [i, exec, execAlwt, micro_of_at hat]
  refine ⟨hillegal, hgoes, fun hat ht => raises_of hat.1 ?_, fun hat ht => ?_, fun c hat => ?_⟩
  · rw [exec_alPoll hat, if_pos ht]
  · have hpoll := exec_alPoll (slv := slv) (st := st) hat
    rw [if_neg (Bool.not_eq_true _ ▸ ht)] at hpoll
    obtain ⟨hok, herr⟩ := alWord_command hat.1 rfl hpoll
    refine ⟨fun b ha hstate => transacts_fail hat.1 ?_, fun b ha hstate htarget => transacts_finish hat.1 ?_,
      fun b ha hstate htarget => transacts_stay hat.2 ?_, herr⟩ <;> rw [hok b ha, State.alStatus]
    · rw [if_pos hstate]
    · rw [if_neg (not_not.2 hstate), if_pos htarget]
    · rw [if_neg (not_not.2 hstate), if_neg htarget]
  · exact completes_of hat.1 (by simp only [i, exec, execAlwt, micro_of_at hat])

/-! ## What a State Gate step leaves unchanged (R294) -/

/-- From `s` to `t` the Slave Table and `BM` stay, and so do the running port's hidden registers while it is BUSY. -/
def KeepsMailboxState (s t : State) : Prop :=
  t.slaves = s.slaves ∧ t.bm = s.bm ∧ (t.port.pst ≠ .idle → t.port.hid = s.port.hid)

section Keeps

variable (h : Runnable s)
include h

theorem keepsMailboxState_complete (c : Completion) : KeepsMailboxState s (s.complete c) :=
  ⟨rfl, rfl, fun hbusy => absurd (done_complete h c).2.1 hbusy⟩

theorem keepsMailboxState_goto (m : Micro) : KeepsMailboxState s (s.goto m) :=
  ⟨rfl, rfl, fun _ => keepsHidden_goto h m⟩

theorem keepsMailboxState_transact_goto (op : TransportOp) (m : Micro) :
    KeepsMailboxState s ((s.transact op).goto m) :=
  keepsMailboxState_goto (s := s.transact op) h m

theorem execAlrq_keepsMailboxState (hx : execAlrq slv st s = .next t) : KeepsMailboxState s t := by
  have hgoto := keepsMailboxState_transact_goto h
  unfold execAlrq at hx
  split at hx <;> cases hx
  · split_ifs
    · exact keepsMailboxState_goto h _
    · exact keepsMailboxState_complete h _
  · refine transport_cases _ _ _ _ (fun _ _ => hgoto _ _) fun _ _ => ?_
    extract_lets
    split_ifs <;> exact hgoto _ _
  · exact transport_cases _ _ _ _ (fun _ _ => hgoto _ _) fun _ _ => hgoto _ _
  · exact keepsMailboxState_complete h _

theorem execAlwt_keepsMailboxState (hx : execAlwt slv st s = .next t) : KeepsMailboxState s t := by
  have hgoto := keepsMailboxState_transact_goto h
  unfold execAlwt at hx
  split at hx <;> cases hx
  · split_ifs
    · exact keepsMailboxState_goto h _
    · exact keepsMailboxState_complete h _
  · split_ifs
    · exact keepsMailboxState_complete h _
    · refine transport_cases _ _ _ _ (fun _ _ => hgoto _ _) fun _ _ => ?_
      extract_lets
      split_ifs
      · exact hgoto _ _
      · exact hgoto _ _
      · exact ⟨rfl, rfl, fun _ => rfl⟩
  · exact keepsMailboxState_complete h _

end Keeps

/-- Settles O22: a step of either command makes at most one Transport operation, and then stays, goes on or
completes. -/
theorem stateGateTouchesNoMailboxState : Obligations.StateGateTouchesNoMailboxState := fun _ _ _ _ h hx =>
  hx.elim (execAlrq_keepsMailboxState h) (execAlwt_keepsMailboxState h)

end Sys2Proof.Machine

/-! # Error codes, error information and the bits of `STAT` -/

namespace Sys2Proof.Machine

/-- The flags are the three lowest bits of `STAT` (R25). -/
theorem Stat.getLsbD_word_flags (st : Stat) :
    st.word.getLsbD 0 = st.busy ∧ st.word.getLsbD 1 = st.done ∧ st.word.getLsbD 2 = st.err := by
  simp only [Stat.word, BitVec.getLsbD_append, BitVec.getLsbD_ofBool]
  simp

/-- A field above the three flags does not depend on them. -/
theorem Stat.extractLsb'_word_above_flags (st : Stat) (lo len : Nat) :
    st.word.extractLsb' (lo + 3) len = (0#12 ++ st.xstate ++ st.ecode ++ 0#5).extractLsb' lo len := by
  rw [Stat.word, BitVec.extractLsb'_append_eq_of_le (by omega), BitVec.extractLsb'_append_eq_of_le (by omega),
    BitVec.extractLsb'_append_eq_of_le (by omega)]
  rfl

/-- Above the flags `STAT` holds its reserved bits, `ECODE` and `XSTATE` (R25): each field is reached by dropping the
parts appended below it. -/
theorem Stat.extractLsb'_word_fields (st : Stat) :
    st.word.extractLsb' 3 5 = 0#5 ∧ st.word.extractLsb' 8 8 = st.ecode ∧ st.word.extractLsb' 16 4 = st.xstate ∧
      st.word.extractLsb' 20 12 = 0#12 := by
  have habove := st.extractLsb'_word_above_flags
  refine ⟨(habove 0 5).trans ?_, (habove 5 8).trans ?_, (habove 13 4).trans ?_, (habove 17 12).trans ?_⟩
  · exact BitVec.extractLsb'_append_eq_right
  · rw [BitVec.extractLsb'_append_eq_of_le (by decide)]
    exact BitVec.extractLsb'_append_eq_right
  · rw [BitVec.extractLsb'_append_eq_of_le (by decide), BitVec.extractLsb'_append_eq_of_le (by decide)]
    exact BitVec.extractLsb'_append_eq_right
  · rw [BitVec.extractLsb'_append_eq_of_le (by decide), BitVec.extractLsb'_append_eq_of_le (by decide)]
    exact BitVec.extractLsb'_append_eq_left

/-- Settles O24: the codes and the information are the rows of `Err.code` and `Err.info`, and `STAT` is read off the
parts of `Stat.word`. -/
theorem errorCodesInformationAndStatusBits : Obligations.ErrorCodesInformationAndStatusBits := by
  refine ⟨fun st code t r al idx sub => ?_, fun st => ?_⟩
  · have hnone : ∀ e ∈ [Err.bufferTooShort, .readBufferTooShort, .invalidValue, .notSupported, .timeout,
        .illegalAddress, .illegalCommand], e.info = #v[0, 0, 0, 0] := by decide
    exact ⟨⟨rfl, rfl, rfl, rfl, rfl, rfl, rfl, rfl, rfl, rfl, rfl, rfl, rfl⟩, rfl, rfl, rfl, rfl, rfl, rfl, hnone⟩
  · obtain ⟨hbusy, hdone, herr⟩ := st.getLsbD_word_flags
    exact ⟨hbusy, hdone, herr, st.extractLsb'_word_fields⟩

end Sys2Proof.Machine

/-! # Reset, refused host writes and termination -/

namespace Sys2Proof.Machine

variable {s t : State} {i : Instr} {m : Micro} {slv : BitVec 8} {idx : BitVec 16} {ph : Phase}

/-! ## Refused host writes and reset (70_reset_and_hazards.md R350 to R352, R370) -/

theorem isBusy_of_busy {p : Port} (h : p.pst = .busy m) : p.isBusy = true := by
  simp [Port.isBusy, h]

/-- A change that leaves port `p` as it is leaves the state as it is. -/
theorem mapPort_self {p : Nat} {pt : Port} {f : Port → Port} (hp : s.ports[p]? = some pt) (hf : f pt = pt) :
    s.mapPort p f = s := by
  rw [mapPort_eq hp, hf]
  obtain ⟨hlt, rfl⟩ := List.getElem?_eq_some_iff.1 hp
  rw [List.set_getElem_self]

theorem hostCmd_of_busy {p : Nat} {pt : Port} (hp : s.ports[p]? = some pt) (hm : pt.pst = .busy m) (w : Word) :
    s.hostCmd p w = s := by
  rw [State.hostCmd]
  split_ifs
  · rfl
  · exact mapPort_self hp (if_pos (isBusy_of_busy hm))

theorem hostOp_of_busy {p : Nat} {pt : Port} (hp : s.ports[p]? = some pt) (hm : pt.pst = .busy m) (j : Fin 8)
    (v : Word) : s.hostOp p j v = s := by
  rw [State.hostOp]
  split_ifs
  · rfl
  · exact mapPort_self hp (if_pos (isBusy_of_busy hm))

/-- Settles O8: a host write of a BUSY port's `CMD` or `OP[i]` is the identity, whether or not reset is asserted. -/
theorem hostWritesWhileBusyAreRefused : Obligations.HostWritesWhileBusyAreRefused := by
  intro s p rest pt m hp hm
  have hcmd := hostCmd_of_busy (s := { s with agenda := rest }) hp hm
  have hop := hostOp_of_busy (s := { s with agenda := rest }) hp hm
  exact ⟨fun w ha => (step_cons ha).trans (congrArg Host.Outcome.next (hcmd w)),
    fun j v ha => (step_cons ha).trans (congrArg Host.Outcome.next (hop j v))⟩

/-- Settles O10: after the event every port is `Port.afterReset` and every Slave Table entry `Slave.afterReset`. -/
theorem resetClearsPortsAndHandles : Obligations.ResetClearsPortsAndHandles := by
  intro s rest ha
  refine ⟨State.assertReset { s with agenda := rest }, step_cons ha, List.length_mapIdx, List.length_mapIdx,
    fun p hp => ?_, fun sl hsl => ?_, rfl, rfl, rfl, rfl⟩
  · obtain ⟨k, -, rfl⟩ := List.mem_mapIdx.1 hp
    have hword : Stat.reset.word = 0#32 := by decide
    exact ⟨rfl, fun j => Vector.getElem_replicate j.isLt, fun j => Vector.getElem_replicate j.isLt, hword, rfl⟩
  · obtain ⟨k, -, rfl⟩ := List.mem_mapIdx.1 hsl
    exact ⟨rfl, rfl⟩

/-! ## Commands that complete in one step (R367) -/

/-- The running port has completed its command. -/
def Ended (t : State) : Prop := t.port.pst = .idle ∧ t.port.stat.done = true

theorem ended_complete (hr : Runnable s) (c : Completion) : Ended (s.complete c) := by
  obtain ⟨-, hpst, hstat⟩ := done_complete hr c
  exact ⟨hpst, by rw [hstat]⟩

/-- The commands of the Codec Unit (40_codec.md). -/
def isCodec : Instr → Bool
  | .scfg _ | .cnxt _ => false
  | i => oneStep i

/-- From `s` to `t` the running port has completed, and neither the Slave Table nor the Transport is touched. -/
def EndsQuietly (s t : State) : Prop := Ended t ∧ NoSlaveNoWire s t

theorem endsQuietly_raise (hr : Runnable s) (e : Err) : EndsQuietly s (s.raise e) := ⟨ended_complete hr _, rfl, rfl⟩

theorem endsQuietly_succeed (hr : Runnable s) (r0 r1 r2 r3 : Word) : EndsQuietly s (s.succeed r0 r1 r2 r3) :=
  ⟨ended_complete hr _, rfl, rfl⟩

theorem endsQuietly_bmWrite_succeed (hr : Runnable s) (a : Nat) (bs : List Byte) (r0 r1 r2 r3 : Word) :
    EndsQuietly s ((s.bmWrite a bs).succeed r0 r1 r2 r3) := ⟨ended_complete (s := s.bmWrite a bs) hr _, rfl, rfl⟩

/-- A codec command completes at once, having written `BM` at most. -/
theorem exec_ends_of_isCodec (hi : isCodec i = true) (hr : Runnable s) :
    ∃ t, exec i s = .next t ∧ EndsQuietly s t := by
  have hraise := endsQuietly_raise hr
  have hread := endsQuietly_succeed hr
  have hwrite := endsQuietly_bmWrite_succeed hr
  cases i
  case fins | bins | lest | bapk | baup =>
    exact ⟨_, rfl, onBuffer_cases (hraise _) (hraise _) (hraise _) fun _ _ _ _ => hwrite _ _ _ _ _ _⟩
  case fext | bext | leld =>
    exact ⟨_, rfl, onBuffer_cases (hraise _) (hraise _) (hraise _) fun _ _ _ _ => hread _ _ _ _⟩
  case ence =>
    refine ⟨_, rfl, ?_⟩
    split
    · exact hraise _
    · split_ifs
      · exact hraise _
      · exact hread _ _ _ _
  case encd =>
    refine ⟨_, rfl, ?_⟩
    split
    · exact hraise _
    · split
      · exact hraise _
      · exact hread _ _ _ _
  case pack | unpk =>
    refine ⟨_, rfl, ?_⟩
    split
    · exact hraise _
    · dsimp only
      split
      · exact hraise _
      · split
        · exact hraise _
        · split
          · exact hraise _
          · exact hwrite _ _ _ _ _ _
  all_goals cases hi

theorem exec_scfg_ends (slv : BitVec 8) (hr : Runnable s) :
    ∃ t, exec (.scfg slv) s = .next t ∧ Ended t ∧ t.wire = s.wire := by
  refine ⟨_, exec_scfg slv s, ?_⟩
  split_ifs
  · exact ⟨ended_complete (s := s.setSlave _ _) hr _, rfl⟩
  · exact ⟨ended_complete hr _, rfl⟩

theorem exec_cnxt_ends (slv : BitVec 8) (hr : Runnable s) :
    ∃ t, exec (.cnxt slv) s = .next t ∧ Ended t ∧ t.wire = s.wire := by
  refine ⟨_, exec_cnxt slv s, ?_⟩
  split_ifs
  · exact ⟨ended_complete (s := s.takeCounter slv) hr _, rfl⟩
  · exact ⟨ended_complete hr _, rfl⟩

/-! ## Commands that complete in a bounded number of steps (R367) -/

/-- How many steps MSND, MDRN or ALRQ takes at most from a micro-state of its own; 0 stands for any other. -/
def stepsLeft : Instr → Micro → Nat
  | .msnd _, .start => 3
  | .msnd _, .send _ => 2
  | .msnd _, .finish _ => 1
  | .mdrn _, .start => 4
  | .mdrn _, .drainStatus => 3
  | .mdrn _, .drainRead => 2
  | .mdrn _, .finish _ => 1
  | .alrq _ _, .start => 4
  | .alrq _ _, .alControl => 3
  | .alrq _ _, .alCode => 2
  | .alrq _ _, .finish _ => 1
  | _, _ => 0

/-- The command `i` has completed, or has fewer than `n` steps left. -/
def Nears (i : Instr) (n : Nat) (t : State) : Prop :=
  Ended t ∨ ∃ m, At t m ∧ 0 < stepsLeft i m ∧ stepsLeft i m < n

theorem nears_complete {n : Nat} (hr : Runnable s) (c : Completion) : Nears i n (s.complete c) :=
  .inl (ended_complete hr c)

theorem nears_goto {n : Nat} (hr : Runnable s)
    (hn : 0 < stepsLeft i m ∧ stepsLeft i m < n := by simp [stepsLeft]) : Nears i n (s.goto m) :=
  .inr ⟨m, at_goto hr m, hn⟩

theorem nears_transact_goto {n : Nat} (hr : Runnable s) (op : TransportOp)
    (hn : 0 < stepsLeft i m ∧ stepsLeft i m < n := by simp [stepsLeft]) : Nears i n ((s.transact op).goto m) :=
  nears_goto (s := s.transact op) hr hn

theorem exec_msnd_nears (hat : At s m) (hleft : 0 < stepsLeft (.msnd slv) m) :
    ∃ t, exec (.msnd slv) s = .next t ∧ Nears (.msnd slv) (stepsLeft (.msnd slv) m) t := by
  have hr := hat.1
  simp only [exec, execMsnd, micro_of_at hat]
  split
  case h_4 => simp_all [stepsLeft]
  all_goals refine ⟨_, rfl, ?_⟩
  · split_ifs
    · exact nears_complete hr _
    · exact nears_complete hr _
    · exact nears_complete hr _
    · exact nears_goto hr
  · exact transport_cases _ _ _ _ (fun _ _ => nears_transact_goto hr _) fun _ _ => nears_transact_goto hr _
  · exact nears_complete hr _

theorem exec_mdrn_nears (hat : At s m) (hleft : 0 < stepsLeft (.mdrn slv) m) :
    ∃ t, exec (.mdrn slv) s = .next t ∧ Nears (.mdrn slv) (stepsLeft (.mdrn slv) m) t := by
  have hr := hat.1
  simp only [exec, execMdrn, micro_of_at hat]
  split
  case h_5 => simp_all [stepsLeft]
  all_goals refine ⟨_, rfl, ?_⟩
  · split_ifs
    · exact nears_goto hr
    · exact nears_complete hr _
  · exact drainStatus_cases (fun _ => nears_transact_goto hr _) (nears_transact_goto hr _) (nears_transact_goto hr _)
  · exact readMailbox_cases (fun _ => nears_transact_goto hr _) fun _ _ => nears_transact_goto hr _
  · exact nears_complete hr _

theorem exec_alrq_nears {st : BitVec 4} (hat : At s m) (hleft : 0 < stepsLeft (.alrq slv st) m) :
    ∃ t, exec (.alrq slv st) s = .next t ∧ Nears (.alrq slv st) (stepsLeft (.alrq slv st) m) t := by
  have hr := hat.1
  simp only [exec, execAlrq, micro_of_at hat]
  split
  case h_5 => simp_all [stepsLeft]
  all_goals refine ⟨_, rfl, ?_⟩
  · split_ifs
    · exact nears_goto hr
    · exact nears_complete hr _
  · refine transport_cases _ _ _ _ (fun _ _ => nears_transact_goto hr _) fun _ _ => ?_
    extract_lets
    split_ifs
    · exact nears_transact_goto hr _
    · exact nears_transact_goto hr _
    · exact nears_transact_goto hr _
  · exact transport_cases _ _ _ _ (fun _ _ => nears_transact_goto hr _) fun _ _ => nears_transact_goto hr _
  · exact nears_complete hr _

/-- A step of a bounded command brings it nearer to its completion, whatever is drawn. -/
theorem exec_nears (hat : At s m) (hleft : 0 < stepsLeft i m) :
    ∃ t, exec i s = .next t ∧ Nears i (stepsLeft i m) t := by
  cases i
  case msnd v => exact exec_msnd_nears hat hleft
  case mdrn v => exact exec_mdrn_nears hat hleft
  case alrq v st => exact exec_alrq_nears hat hleft
  all_goals cases hleft

theorem runCommand_ends {ds : List Draw} (hat : At s m) (hleft : 0 < stepsLeft i m)
    (hlen : stepsLeft i m ≤ ds.length) :
    ∃ k t, k ≤ ds.length ∧ runCommand i (ds.take k) s = .next t ∧ Ended t := by
  induction ds generalizing s m with
  | nil => exact absurd hleft (Nat.not_lt.2 hlen)
  | cons d ds ih =>
    obtain ⟨u, hu, hend | ⟨m', hat', hpos, hlt⟩⟩ := exec_nears (at_draw hat d) hleft
    · refine ⟨1, u, by simp, ?_, hend⟩
      rw [List.take_succ_cons, runCommand_cons hu]
      rfl
    · obtain ⟨k, t, hk, hrun, hend⟩ := ih hat' hpos (Nat.le_of_lt_succ (hlt.trans_le hlen))
      refine ⟨k + 1, t, Nat.succ_le_succ hk, ?_, hend⟩
      rw [List.take_succ_cons, runCommand_cons hu, hrun]

/-! ## Polls (R210, R292, R367)

A step leaves the poll loop `m` when the running port is not BUSY in `m` after it. -/

/-- A command that completes in one step leaves every poll loop. -/
theorem leaves_of_ends {Q : State → Prop} (h : ∃ u, exec i s = .next u ∧ Ended u ∧ Q u) (hx : exec i s = .next t) :
    t.port.pst ≠ .busy m := by
  obtain ⟨u, hu, ⟨hidle, -⟩, -⟩ := h
  cases hu.symm.trans hx
  simp [hidle]

section Leaves

variable (hr : Runnable s)
include hr

theorem leaves_complete (c : Completion) : (s.complete c).port.pst ≠ .busy m := by
  simp [complete_port hr]

theorem leaves_goto {m' : Micro} (hne : m' ≠ m) : (s.goto m').port.pst ≠ .busy m := by
  simpa [goto_port hr] using hne

theorem leaves_failSdo (e : Err) {k : ExchStep} : (s.failSdo e).port.pst ≠ .busy (.exch ph k) :=
  leaves_goto (s := s.setXs e.terminal) ((runnable_setXs s _).2 hr) nofun

/-- A poll iteration that times out, or whose read shows what the poll waits for, is not followed by another. -/
theorem pollMailbox_leaves {sl : Slave} {sm : BitVec 8} {want : Bool} {onTimeout onErr : State → Err → State}
    {m' : Micro} (hends : s.draw.timeout = true ∨ statusShows want s.draw.answer = true)
    (ht : ∀ e, (onTimeout s e).port.pst ≠ .busy m)
    (he : ∀ u e, Runnable u → (onErr u e).port.pst ≠ .busy m) (hne : m' ≠ m) :
    (s.pollMailbox sl sm want onTimeout onErr (·.goto m')).port.pst ≠ .busy m := by
  cases htime : s.draw.timeout with
  | true =>
    rw [pollMailbox_timeout htime]
    exact ht _
  | false =>
    cases ha : s.answer (statusRead sl sm) with
    | err e =>
      rw [pollMailbox_err htime ha]
      exact he _ _ hr
    | ok b =>
      have hfit : s.draw.answer.fit 1 = .ok b := ha
      have hb : (byteAt b 0).getLsbD 3 = want := by
        simpa [htime, statusShows, hfit, isFull_eq] using hends
      rw [pollMailbox_done htime ha hb]
      exact leaves_goto (s := s.transact _) hr hne

theorem exchange_leaves {k : ExchStep} {acc : State → State} (hi : Exchanging i slv idx ph)
    (hm : (Micro.exch ph k).isPoll = true)
    (hends : s.draw.timeout = true ∨ pollSees i (.exch ph k) s.draw.answer = true) :
    (s.exchange slv idx ph k acc).port.pst ≠ .busy (.exch ph k) := by
  have hacquire : ∀ a, pollSees i (.exch ph .acquire) a = statusShows false a := by
    obtain ⟨rfl, -⟩ | ⟨rfl, -⟩ := hi <;> exact fun _ => rfl
  have hawait : ∀ a, pollSees i (.exch ph .await) a = statusShows true a := by
    obtain ⟨rfl, -⟩ | ⟨rfl, -⟩ := hi <;> exact fun _ => rfl
  cases k <;> simp only [State.exchange]
  case acquire =>
    rw [hacquire] at hends
    exact pollMailbox_leaves hr hends (fun _ => leaves_complete hr _) (fun _ e hu => leaves_failSdo hu e) (by simp)
  case await =>
    rw [hawait] at hends
    exact pollMailbox_leaves hr hends (fun _ => leaves_complete hr _) (fun _ e hu => leaves_failSdo hu e) (by simp)
  all_goals cases hm

end Leaves

theorem exec_alPoll_leaves {st : BitVec 4} (hat : At s .alPoll)
    (hends : s.draw.timeout = true ∨ stateShows st s.draw.answer = true) (hx : exec (.alwt slv st) s = .next t) :
    t.port.pst ≠ .busy .alPoll := by
  have hr := hat.1
  simp only [exec, execAlwt, micro_of_at hat, Host.Outcome.next.injEq] at hx
  subst hx
  split_ifs with htime
  · exact leaves_complete hr _
  · refine transport_cases (P := fun u => u.port.pst ≠ .busy .alPoll) _ _ _ _
      (fun _ _ => leaves_goto (s := s.transact _) hr nofun) fun b ha => ?_
    have hfit : s.draw.answer.fit 2 = .ok b := ha
    have hstate : alState (alWord b) = st := by simpa [htime, stateShows, hfit] using hends
    split_ifs
    · exact leaves_goto (s := s.transact _) hr nofun
    · exact leaves_goto (s := s.transact _) hr nofun

/-- The step of a port in a poll loop in which the timeout fires or the read shows what the loop waits for leaves
the loop: a command with no such loop has completed or has stopped the machine. -/
theorem exec_leaves_poll (hat : At s m) (hm : m.isPoll = true)
    (hends : s.draw.timeout = true ∨ pollSees i m s.draw.answer = true) (hx : exec i s = .next t) :
    t.port.pst ≠ .busy m := by
  have hr := hat.1
  cases i
  case mdrn | msnd | alrq =>
    simp only [exec, execMdrn, execMsnd, execAlrq, micro_of_at hat] at hx
    split at hx <;> cases hx <;> cases hm
  case macq | mawt =>
    simp only [exec, execMacq, execMawt, micro_of_at hat] at hx
    split at hx <;> cases hx
    case h_2 =>
      exact pollMailbox_leaves hr hends (fun _ => leaves_complete hr _) (fun _ _ hu => leaves_goto hu nofun) nofun
    all_goals cases hm
  case sdwr v idx =>
    simp only [exec, execSdwr, micro_of_at hat] at hx
    split at hx <;> cases hx
    case h_3 => exact exchange_leaves hr (.inl ⟨rfl, rfl⟩) hm hends
    all_goals cases hm
  case sdrd v idx =>
    simp only [exec, execSdrd, micro_of_at hat] at hx
    split at hx <;> cases hx
    case h_4 | h_5 => exact exchange_leaves hr (sdrd_exchanging nofun) hm hends
    all_goals cases hm
  case alwt v st =>
    have hanswered := hx
    simp only [exec, execAlwt, micro_of_at hat] at hanswered
    split at hanswered
    case h_2 => exact exec_alPoll_leaves hat hends hx
    case h_4 => cases hanswered
    all_goals cases hm
  case scfg v => exact leaves_of_ends (exec_scfg_ends v hr) hx
  case cnxt v => exact leaves_of_ends (exec_cnxt_ends v hr) hx
  all_goals exact leaves_of_ends (exec_ends_of_isCodec rfl hr) hx

/-- After the iteration that ends a poll the port is not in the poll loop. -/
theorem not_polls_of_endsPoll {p : Nat} (hp : Polls s p m) (he : EndsPoll s p m) (hx : step s = .next t) :
    ¬Polls t p m := by
  obtain ⟨hm, pt, hpt, hb⟩ := hp
  obtain ⟨d, rest, _, i, ha, hpt', hd, hends⟩ := he
  obtain rfl := Option.some.inj (hpt.symm.trans hpt')
  rw [stepRunsTheDecodedCommand s p d rest pt m i ha hpt hb hd] at hx
  have hr : Runnable (State.select { s with agenda := rest } p d) := runnable_select hpt
  have hport := select_port (s := { s with agenda := rest }) (d := d) hpt
  have hat : At (State.select { s with agenda := rest } p d) m := ⟨hr, by rw [hport, hb]⟩
  rintro ⟨-, pt', ht, hb'⟩
  obtain rfl := Option.some.inj ((exec_active_port hr hx).symm.trans ht)
  exact exec_leaves_poll hat hm hends hx hb'

/-- In an admitted run every poll ends: were it to go on forever, fairness would give an iteration that ends it. -/
theorem AdmittedRun.poll_ends {σ : Nat → State} (h : AdmittedRun σ) {k p : Nat} (hp : Polls (σ k) p m) :
    ∃ j, k < j ∧ ¬Polls (σ j) p m := by
  by_contra hforever
  push Not at hforever
  have hall : ∀ j, k ≤ j → Polls (σ j) p m := fun j hj => hj.eq_or_lt.elim (· ▸ hp) (hforever j)
  obtain ⟨j, hj, hends⟩ := h.fair k p m hall
  obtain ⟨t, more, hx, hnext⟩ := h.run j
  have hafter := hall (j + 1) (Nat.le_succ_of_le hj)
  rw [hnext] at hafter
  exact not_polls_of_endsPoll (hall j hj) hends hx hafter

/-- Settles O21: a codec command, SCFG and CNXT complete in their one step; a step of MSND, MDRN or ALRQ brings it
nearer to its completion (`exec_nears`); a poll of an admitted run ends by fairness. -/
theorem boundedCommandsCompleteAndPollsEnd : Obligations.BoundedCommandsCompleteAndPollsEnd := by
  refine ⟨fun i s hr hi => ?_, fun slv s hr => ⟨?_, ?_⟩, fun i n s ds hi hat hlen => ?_, fun σ h k p m => h.poll_ends⟩
  · have hcodec : isCodec i = true := by
      rcases hi with ⟨_, _, rfl⟩ | ⟨_, _, rfl⟩ | ⟨_, _, rfl⟩ | ⟨_, _, rfl⟩ | ⟨_, rfl⟩ | ⟨_, rfl⟩ | rfl | rfl |
        ⟨_, rfl⟩ | ⟨_, rfl⟩ | ⟨_, _, rfl⟩ | ⟨_, rfl⟩ <;> rfl
    obtain ⟨t, hx, ⟨hidle, hdone⟩, hframe⟩ := exec_ends_of_isCodec hcodec hr
    exact ⟨t, hx, hidle, hdone, hframe⟩
  · obtain ⟨t, hx, ⟨hidle, hdone⟩, hwire⟩ := exec_scfg_ends slv hr
    exact ⟨t, hx, hidle, hdone, hwire⟩
  · obtain ⟨t, hx, ⟨hidle, hdone⟩, hwire⟩ := exec_cnxt_ends slv hr
    exact ⟨t, hx, hidle, hdone, hwire⟩
  · have hleft : stepsLeft i .start = n ∧ 0 < n := by
      rcases hi with ⟨⟨_, rfl⟩, rfl⟩ | ⟨⟨_, rfl⟩, rfl⟩ | ⟨⟨_, _, rfl⟩, rfl⟩ <;> exact ⟨rfl, Nat.succ_pos _⟩
    obtain ⟨rfl, hpos⟩ := hleft
    rw [← hlen]
    exact runCommand_ends hat hpos hlen.ge

end Sys2Proof.Machine
